-- ==== Sys2Proof/Word.lean ====
section
/-! DEFINITION. The two word types of the machine (00_scope.md rule R8). -/

namespace Sys2Proof

/-- `u8`, an 8-bit value. -/
abbrev Byte := BitVec 8

/-- `u16`, a 16-bit value or address. -/
abbrev Word := BitVec 16

end Sys2Proof
end

