-- ==== Sys2Proof/Config.lean ====
section
/-! DEFINITION. What the spec leaves open: the OPEN parameters of 00_scope.md rule R10 and the draws
(00_scope.md section 6). None of these constants has a body, so nothing can be proved of its value. -/

namespace Sys2Proof

/-- A byte the spec calls a draw: a bus read in the OAM DMA window (70 rule R923), an untimed read of DIV, TIMA or SB
(60 rule R873), a HuC1 infrared read (61 rule R1061), a VRAM DMA source byte (62 rule R1161). Log 8 (DESIGN CHOICE). -/
opaque Config.freeByte : Nat → Byte

/-- A yes-or-no draw: a write dropped in the OAM DMA window (70 rule R923), a pending EI kept at a dispatch
(60 rule R822), the untimed requests (60 rule R873). Log 8 (DESIGN CHOICE). -/
opaque Config.freeBool : Nat → Bool

/-- A draw of a number of cycles: a DMA charge (62 rules R1160, R1163, R1164), the untimed pace of the PPU and the
APU (60 rule R873). Log 8 (DESIGN CHOICE), log 9 (DEDUCED). -/
opaque Config.freeNat : Nat → Nat

/-- The value `div16` holds after a STOP (46 rule R705). Log 20 (DESIGN CHOICE). -/
opaque Config.freeWord : Nat → Word

/-- What the 3-bit envelope timer holds after it is decremented at 0, which 64 rule R1333 does not state. Log 17 (DESIGN CHOICE). -/
opaque Config.freeEnvTimer : Nat → BitVec 3

/-- The parameter `HALT_BUG_CGB` (46 rule R702), OPEN. Log 7 (DESIGN CHOICE). -/
opaque Config.haltBugCgb : Bool

/-- The parameter `STOP_SKIPS_NEXT_BYTE` (46 rule R705), OPEN. Log 7 (DESIGN CHOICE). -/
opaque Config.stopSkipsNextByte : Bool

/-- The host parameter `SHADE_RGB` (63 rule R1200), OPEN: the host's color of a DMG shade (first argument false) or of
an RGB555 word (true). -/
opaque Config.shadeRgb : Bool → BitVec 15 → BitVec 24

end Sys2Proof
end

