-- ==== Sys2Proof/Machine/State.lean ====
section
/-! DEFINITION. The state of the machine as plain data, the reasons a step can stop, and the state after reset.
INVENTORY.md, section State, lists every field with its rule. -/

namespace Sys2Proof.Machine

/-- Why the machine stops with a fault (60 rule R800). -/
inductive Fault
  /-- One of the eleven undefined base bytes was fetched at `addr` (60 rule R802, 46 rule R710). Raised by the meaning of
  `Instr.illegal`. Safe: the chip locks up there. -/
  | illegalOpcode (addr : Word) (op : Byte)
  deriving DecidableEq, Repr

/-- Why the model has no next state. -/
inductive Refusal
  /-- An instruction that has no meaning yet, named in its arm of `exec`. Safe: nothing is said of the instruction. -/
  | notModelled (mnemonic : String)
  /-- The cartridge type is MBC7 or HuC3 (61 rule R1070). Raised by `load` only, never by a step. Safe. -/
  | unmodelledCartridge (type : Byte)
  /-- The image is shorter than 0x4000 bytes or the boot ROM has a wrong length (70 rule R901). Raised by `load` only, never
  by a step. Safe. -/
  | loadError
  deriving DecidableEq, Repr

/-- Sparse storage of `w`-bit cells: address and value pairs in one canonical form (`Store.wf`): addresses strictly
rising, no value equal to what an unlisted address reads as (`Store.unlisted`). -/
abbrev Store (w : Nat) := List (Nat × BitVec w)

/-- Bytes; the same type as `List Host.Cell`. -/
abbrev Memory := Store 8

/-- The model's arguments (00 rule R10), fixed by the load. -/
structure Params where
  /-- `CGB_MODE` (00 rule R3, 70 rule R907) -/
  cgb : Bool
  /-- `TIMED` (60 rule R873) -/
  timed : Bool
  /-- `RAM_PERMISSIVE` (61 rule R1014) -/
  ramPermissive : Bool
  /-- `HALT_BUG_CGB` (46 rule R702) -/
  haltBugCgb : Bool
  /-- `STOP_SKIPS_NEXT_BYTE` (46 rule R705) -/
  stopSkipsNextByte : Bool
  /-- `SERIAL_CYCLES_NORMAL` (60 rule R840) -/
  serialNormal : Nat
  /-- `SERIAL_CYCLES_FAST` (60 rule R840) -/
  serialFast : Nat
  deriving DecidableEq, Repr

/-- The four flags (10 rule R110): Zero, Subtract, HalfCarry, Carry. -/
structure Flags where
  z : Bool
  n : Bool
  h : Bool
  c : Bool
  deriving DecidableEq, Repr

/-- What only the CPU itself changes: the register file and the hidden state of 10 rules R100 to R110, R134, R140 to
R144. No bus access changes any of it. -/
structure Cpu where
  a : Byte
  b : Byte
  c : Byte
  d : Byte
  e : Byte
  h : Byte
  l : Byte
  f : Flags
  sp : Word
  pc : Word
  ime : Bool
  /-- `ei_delay`, 0 to 2 (10 rule R140) -/
  eiDelay : Nat
  halted : Bool
  stopped : Bool
  /-- `skip_inc` (10 rule R143) -/
  skipInc : Bool
  deriving DecidableEq, Repr

/-- The timer chain (10 rules R122 to R125, R146). -/
structure Timer where
  div16 : Word
  tima : Byte
  tma : Byte
  tac : BitVec 3
  /-- `tima_sub` -/
  sub : Nat
  deriving DecidableEq, Repr

/-- The serial port (10 rules R126, R127, R146). `sc` holds only its stored bits 7, 1 (CGB) and 0. -/
structure Serial where
  sb : Byte
  sc : Byte
  /-- `serial_bits` -/
  bits : Nat
  /-- `serial_phase` -/
  phase : Int
  deriving DecidableEq, Repr

/-- The joypad (60 rule R874): `p1_sel` is P1 bits 5 and 4, and bit i of `buttons` is 1 while button i is pressed. -/
structure Joypad where
  sel : BitVec 2
  buttons : Byte
  deriving DecidableEq, Repr

/-- The cartridge variants (61 rule R1000). -/
inductive Variant | none | mbc1 | mbc2 | mbc3 | mbc5 | huc1
  deriving DecidableEq, Repr

/-- One set of MBC3 clock registers (61 rule R1042). -/
structure Rtc where
  s : Byte
  m : Byte
  h : Byte
  dl : Byte
  dh : Byte
  deriving DecidableEq, Repr

/-- The cartridge (61 rule R1000) and its image. -/
structure Cart where
  rom : Memory
  /-- length of the image in bytes -/
  romLen : Nat
  variant : Variant
  romBanks : Nat
  ramSize : Nat
  hasRam : Bool
  hasBattery : Bool
  hasRtc : Bool
  hasRumble : Bool
  ram : Memory
  ramEnable : Bool
  bankLo : Byte
  bankHi : Byte
  ramBank : Byte
  /-- MBC1 banking mode, true for 1 -/
  mode : Bool
  latchPrev : Byte
  rtcLive : Rtc
  rtcLatched : Rtc
  rumble : Bool
  irMode : Bool
  deriving DecidableEq, Repr

/-- The PPU modes (62 rule R1111): 0, 1, 2 and 3 in this order. -/
inductive PpuMode | hblank | vblank | oamSearch | transfer
  deriving DecidableEq, Repr

/-- A selected sprite: its OAM index and its four bytes (63 rule R1230, 62 rule R1122). -/
structure Sprite where
  index : Nat
  y : Byte
  x : Byte
  tile : Byte
  attr : Byte
  deriving DecidableEq, Repr

/-- The PPU (62 rules R1100, R1101). -/
structure Ppu where
  lcdc : Byte
  /-- STAT bits 6 to 3; the other bits are 0 here (62 rule R1103) -/
  stat : Byte
  scy : Byte
  scx : Byte
  lyc : Byte
  dma : Byte
  bgp : Byte
  obp0 : Byte
  obp1 : Byte
  wy : Byte
  wx : Byte
  vbk : BitVec 1
  /-- bit 7 and bits 5 to 0; bit 6 is 0 here (62 rule R1150) -/
  bcps : Byte
  ocps : Byte
  /-- bank n at 0x2000 × n -/
  vram : Memory
  oam : Memory
  bgPal : Memory
  objPal : Memory
  line : Nat
  lineCycle : Nat
  mode : PpuMode
  coincidence : Bool
  windowLine : Byte
  /-- the window has covered a pixel of the current line (63 rule R1221). Log 28 (DEDUCED). -/
  windowHit : Bool
  sprites : List Sprite
  /-- the sprite height h of that selection (63 rule R1230, log 26 (DEDUCED)) -/
  spriteH : Nat
  /-- `L3` of the current line (62 rule R1113) -/
  mode3Len : Nat
  hdmaSrc : Word
  /-- its 13 used bits (62 rule R1162). Log 18 (DEDUCED). -/
  hdmaDst : BitVec 13
  hdmaActive : Bool
  hdmaLeft : Nat
  /-- the color of pixel (x, y) at 160 × y + x (63 rule R1200) -/
  frame : Store 15
  /-- how many frames were completed: the host signal of 62 rule R1112 -/
  frames : Nat
  deriving DecidableEq, Repr

/-- What every APU channel has (64 rule R1300). -/
structure Chan where
  on : Bool
  len : Nat
  timer : Nat
  deriving DecidableEq, Repr

/-- The APU (64 rule R1300). `nr` holds the stored register bytes, keyed by the low byte of their address. -/
structure Apu where
  power : Bool
  nr : Memory
  wave : Memory
  fsCount : Nat
  fsStep : Nat
  ch1 : Chan
  ch2 : Chan
  ch3 : Chan
  ch4 : Chan
  dutyPos1 : Nat
  dutyPos2 : Nat
  wavePos : Nat
  lfsr : BitVec 15
  vol1 : Nat
  vol2 : Nat
  vol4 : Nat
  envTimer1 : Nat
  envTimer2 : Nat
  envTimer4 : Nat
  shadow : Nat
  sweepTimer : Nat
  sweepOn : Bool
  /-- the model's counter of envelope-timer free values taken (log 17, DESIGN CHOICE) -/
  envDraws : Nat
  deriving DecidableEq, Repr

/-- What the host may deliver between steps (60 rules R871, R872), in the order it delivers it; `cpuStep` stands for one
step of the CPU between two events. Log 12 (DESIGN CHOICE). -/
inductive HostInput
  | joypad (button : BitVec 3) (pressed : Bool)
  | rtcAdvance (seconds : Nat)
  | cpuStep
  deriving DecidableEq, Repr

/-- The whole machine. -/
structure State where
  params : Params
  cpu : Cpu
  /-- IE (10 rule R120) -/
  ie : Byte
  /-- IF bits 4 to 0 (10 rule R121) -/
  iflag : BitVec 5
  timer : Timer
  serial : Serial
  joy : Joypad
  /-- KEY1 bit 0 (10 rule R131) -/
  key1Prep : Bool
  doubleSpeed : Bool
  svbk : BitVec 3
  /-- `boot_rom_mapped` (10 rule R147) -/
  bootMapped : Bool
  bootRom : Memory
  /-- bank n at 0x1000 × n (20 rule R233) -/
  wram : Memory
  /-- the byte at address a at key a - 0xFF80 -/
  hram : Memory
  cart : Cart
  ppu : Ppu
  apu : Apu
  /-- `fault` (10 rule R148). Log 13 (DESIGN CHOICE). -/
  fault : Option Fault
  cycles : Nat
  /-- the value of `cycles` at which the OAM DMA bus window ends, 0 before the first DMA (70 rule R923). Log 10 (DEDUCED). -/
  dmaUntil : Nat
  /-- the cycles the running instruction has cost so far; 0 between steps. Log 14 (DESIGN CHOICE). -/
  charge : Nat
  /-- the address of the running instruction's opcode byte. Log 14 (DESIGN CHOICE). -/
  opAddr : Word
  /-- the model's counter of free values taken. Log 8 (DESIGN CHOICE). -/
  draws : Nat
  /-- host events not delivered yet. Log 12 (DESIGN CHOICE). -/
  inputs : List HostInput
  deriving DecidableEq, Repr

/-- What an instruction or a step answers. -/
abbrev Result := Host.Outcome State Fault Refusal

/-! ### Reset -/

/-- The parameters at their defaults (00 rule R10), DMG mode; the two OPEN ones have no known value. Log 6 (DESIGN CHOICE), log 7 (DESIGN CHOICE). -/
def Params.reset : Params where
  cgb := false
  timed := true
  ramPermissive := false
  haltBugCgb := Config.haltBugCgb
  stopSkipsNextByte := Config.stopSkipsNextByte
  serialNormal := 4096
  serialFast := 128

/-- 70 rule R902. -/
def Cpu.reset : Cpu where
  a := 0x01
  b := 0x00
  c := 0x13
  d := 0x00
  e := 0xD8
  h := 0x01
  l := 0x4D
  f := { z := true, n := false, h := true, c := true }
  sp := 0xFFFE
  pc := 0x0100
  ime := false
  eiDelay := 0
  halted := false
  stopped := false
  skipInc := false

/-- 70 rule R902; `div16` is a draw there. Log 2 (DESIGN CHOICE). -/
def Timer.reset : Timer where
  div16 := 0
  tima := 0
  tma := 0
  tac := 0
  sub := 0

/-- 70 rule R902. -/
def Serial.reset : Serial where
  sb := 0
  sc := 0
  bits := 0
  phase := 0

/-- 60 rule R874. -/
def Joypad.reset : Joypad where
  sel := 0
  buttons := 0

/-- Clock registers of a load without a snapshot, each a draw (61 rule R1006). Log 6 (DESIGN CHOICE). -/
def Rtc.reset : Rtc where
  s := 0
  m := 0
  h := 0
  dl := 0
  dh := 0

/-- The mapper's reset column (61 rule R1000) over the blank image of log 6 (DESIGN CHOICE): 32 KiB of zero bytes, whose header says
variant none, two banks, no RAM. -/
def Cart.reset : Cart where
  rom := []
  romLen := 0x8000
  variant := .none
  romBanks := 2
  ramSize := 0
  hasRam := false
  hasBattery := false
  hasRtc := false
  hasRumble := false
  ram := []
  ramEnable := false
  bankLo := 1
  bankHi := 0
  ramBank := 0
  mode := false
  latchPrev := 0xFF
  rtcLive := Rtc.reset
  rtcLatched := Rtc.reset
  rumble := false
  irMode := false

/-- The reset column of 62 rule R1100 and the post-boot column of 62 rule R1101; the draws there as
log 1 (DESIGN CHOICE), log 3 (DESIGN CHOICE) and log 4 (DESIGN CHOICE) say. -/
def Ppu.reset : Ppu where
  lcdc := 0x91
  stat := 0x00
  scy := 0x00
  scx := 0x00
  lyc := 0x00
  dma := 0xFF
  bgp := 0xFC
  obp0 := 0x00
  obp1 := 0x00
  wy := 0x00
  wx := 0x00
  vbk := 0
  bcps := 0x00
  ocps := 0x00
  vram := []
  oam := []
  bgPal := []
  objPal := []
  line := 153
  lineCycle := 448
  mode := .vblank
  coincidence := true
  windowLine := 0
  windowHit := false
  sprites := []
  spriteH := 8
  mode3Len := 172
  hdmaSrc := 0
  hdmaDst := 0
  hdmaActive := false
  hdmaLeft := 0
  frame := []
  frames := 0

/-- A channel with every field at 0. -/
def Chan.off : Chan where
  on := false
  len := 0
  timer := 0

/-- The post-boot column of 64 rule R1300 with the register values of 64 rule R1302; the draws there as log 5 (DESIGN CHOICE) says. The
registers not listed (NR13, NR14, NR21 to NR44, all 0) read as R1302 gives through their masks. -/
def Apu.reset : Apu where
  power := true
  nr := [(0x11, 0x80), (0x12, 0xF3), (0x24, 0x77), (0x25, 0xF3)]
  wave := []
  fsCount := 0
  fsStep := 0
  ch1 := { Chan.off with on := true }
  ch2 := Chan.off
  ch3 := Chan.off
  ch4 := Chan.off
  dutyPos1 := 0
  dutyPos2 := 0
  wavePos := 0
  lfsr := 0
  vol1 := 0
  vol2 := 0
  vol4 := 0
  envTimer1 := 0
  envTimer2 := 0
  envTimer4 := 0
  shadow := 0
  sweepTimer := 0
  sweepOn := false
  envDraws := 0

/-- The machine right after reset: path (a) of 70 rule R900, DMG mode (70 rules R902, R905, R906, R908). -/
def State.reset : State where
  params := Params.reset
  cpu := Cpu.reset
  ie := 0
  iflag := 0
  timer := Timer.reset
  serial := Serial.reset
  joy := Joypad.reset
  key1Prep := false
  doubleSpeed := false
  svbk := 0
  bootMapped := false
  bootRom := []
  wram := []
  hram := []
  cart := Cart.reset
  ppu := Ppu.reset
  apu := Apu.reset
  fault := none
  cycles := 0
  dmaUntil := 0
  charge := 0
  opAddr := 0
  draws := 0
  inputs := []

end Sys2Proof.Machine
end

