-- ==== Sys2Proof/Machine/Store.lean ====
section
/-! DEFINITION. Sparse storage: read, write and the canonical form. -/

namespace Sys2Proof.Machine

/-- What a cell that is not listed reads as. The spec calls the contents of every RAM at reset a draw (70 rule R906);
Unsafe: log 1 (DESIGN CHOICE). An unlisted cell of a ROM image is a byte 0 of that image. -/
def Store.unlisted {w : Nat} : BitVec w := 0

/-- The value at an address. -/
def Store.read {w : Nat} (m : Store w) (a : Nat) : BitVec w :=
  match m with
  | [] => Store.unlisted
  | (k, v) :: t => if k = a then v else Store.read t a

/-- `m` with the cell `a` removed. -/
def Store.erase {w : Nat} (m : Store w) (a : Nat) : Store w :=
  match m with
  | [] => []
  | (k, v) :: t => if k = a then Store.erase t a else (k, v) :: Store.erase t a

/-- `m` with the cell `a` listed as `v`, in its place by address. -/
def Store.insert {w : Nat} (m : Store w) (a : Nat) (v : BitVec w) : Store w :=
  match m with
  | [] => [(a, v)]
  | (k, x) :: t =>
    if a < k then (a, v) :: (k, x) :: t
    else if a = k then (a, v) :: t
    else (k, x) :: Store.insert t a v

/-- The write: writing what an unlisted cell reads as removes the entry, so the form stays canonical. -/
def Store.write {w : Nat} (m : Store w) (a : Nat) (v : BitVec w) : Store w :=
  if v = Store.unlisted then Store.erase m a else Store.insert m a v

/-- Every address is at least `lo`, addresses strictly rise, and no value is the unlisted one. -/
def Store.wfFrom {w : Nat} (lo : Nat) (m : Store w) : Bool :=
  match m with
  | [] => true
  | (k, v) :: t => decide (lo ≤ k) && decide (v ≠ Store.unlisted) && Store.wfFrom (k + 1) t

/-- The canonical form. -/
def Store.wf {w : Nat} (m : Store w) : Bool := Store.wfFrom 0 m

/-- `Memory.wf` of a byte store. -/
def Memory.wf (m : Memory) : Bool := Store.wf m

/-- Every listed address is below `n`: no cell of a memory of `n` cells lies outside it. -/
def Store.below {w : Nat} (n : Nat) (m : Store w) : Bool := m.all fun cell => decide (cell.1 < n)

/-- The store that holds a list of values from address `a` on. -/
def Store.ofList {w : Nat} (a : Nat) (vs : List (BitVec w)) : Store w :=
  match vs with
  | [] => []
  | v :: t => if v = Store.unlisted then Store.ofList (a + 1) t else (a, v) :: Store.ofList (a + 1) t

end Sys2Proof.Machine
end

