-- ==== Sys2Proof/Machine/Apu.lean ====
section
/-! DEFINITION. The APU: channels, frame sequencer, register side effects and the mix (64_apu.md). Registers are named by
the low byte of their address: 0x10 is NR10. -/

namespace Sys2Proof.Machine

/-- The channels 1 to 4. -/
inductive ChanId | one | two | three | four
  deriving DecidableEq, Repr

/-- A stored register byte. -/
def Apu.reg (a : Apu) (r : Nat) : Byte := Store.read a.nr r

/-- Store a register byte. -/
def Apu.setReg (a : Apu) (r : Nat) (v : Byte) : Apu := { a with nr := Store.write a.nr r v }

/-- The common fields of a channel. -/
def Apu.chan (a : Apu) (n : ChanId) : Chan :=
  match n with
  | .one => a.ch1
  | .two => a.ch2
  | .three => a.ch3
  | .four => a.ch4

/-- Replace the common fields of a channel. -/
def Apu.setChan (a : Apu) (n : ChanId) (c : Chan) : Apu :=
  match n with
  | .one => { a with ch1 := c }
  | .two => { a with ch2 := c }
  | .three => { a with ch3 := c }
  | .four => { a with ch4 := c }

/-- The register NRn1 of a channel: duty and length load (64 rule R1301). -/
def ChanId.nrx1 : ChanId → Nat
  | .one => 0x11
  | .two => 0x16
  | .three => 0x1B
  | .four => 0x20

/-- The register NRn2: volume and envelope (output level for channel 3). -/
def ChanId.nrx2 : ChanId → Nat
  | .one => 0x12
  | .two => 0x17
  | .three => 0x1C
  | .four => 0x21

/-- The register NRn3: frequency low (noise parameters for channel 4). -/
def ChanId.nrx3 : ChanId → Nat
  | .one => 0x13
  | .two => 0x18
  | .three => 0x1D
  | .four => 0x22

/-- The register NRn4: trigger, length enable, frequency high. -/
def ChanId.nrx4 : ChanId → Nat
  | .one => 0x14
  | .two => 0x19
  | .three => 0x1E
  | .four => 0x23

/-- The 11-bit frequency of a channel: `NRn4[2:0] << 8 | NRn3`. -/
def Apu.freq (a : Apu) (n : ChanId) : Nat := (a.reg n.nrx4).toNat % 8 * 256 + (a.reg n.nrx3).toNat

/-- The noise divisor table (64 rule R1324). -/
def noiseDivisor (code : Nat) : Nat :=
  match code with
  | 0 => 8
  | 1 => 16
  | 2 => 32
  | 3 => 48
  | 4 => 64
  | 5 => 80
  | 6 => 96
  | _ => 112

/-- The period a channel's timer reloads with (64 rules R1320, R1322, R1324). -/
def Apu.period (a : Apu) (n : ChanId) : Nat :=
  match n with
  | .one => (2048 - a.freq .one) * 4
  | .two => (2048 - a.freq .two) * 4
  | .three => (2048 - a.freq .three) * 2
  | .four => noiseDivisor ((a.reg 0x22).toNat % 8) <<< ((a.reg 0x22).toNat / 16)

/-- One shift of the noise register (64 rule R1324). -/
def lfsrShift (x : BitVec 15) (narrow : Bool) : BitVec 15 :=
  let bit : BitVec 15 := (x &&& 1) ^^^ ((x >>> 1) &&& 1)
  let y := (x >>> 1) ||| (bit <<< 14)
  if narrow then (y &&& 0x7FBF) ||| (bit <<< 6) else y

/-- What a channel's timer does on expiry besides reloading. -/
def Apu.advance (a : Apu) (n : ChanId) : Apu :=
  match n with
  | .one => { a with dutyPos1 := (a.dutyPos1 + 1) % 8 }
  | .two => { a with dutyPos2 := (a.dutyPos2 + 1) % 8 }
  | .three => { a with wavePos := (a.wavePos + 1) % 32 }
  | .four =>
    if (a.reg 0x22).toNat / 16 ≤ 13 then { a with lfsr := lfsrShift a.lfsr ((a.reg 0x22).getLsbD 3) } else a

/-- One APU cycle of a channel's timer (64 rule R1310). -/
def Apu.tickChan (n : ChanId) (a : Apu) : Apu :=
  if (a.chan n).timer ≤ 1 then (a.setChan n { a.chan n with timer := a.period n }).advance n
  else a.setChan n { a.chan n with timer := (a.chan n).timer - 1 }

/-! ### Length, envelope, sweep -/

/-- The length clock of one channel (64 rule R1330). -/
def Apu.clockLength (n : ChanId) (a : Apu) : Apu :=
  let c := a.chan n
  if (a.reg n.nrx4).getLsbD 6 && decide (0 < c.len) then
    a.setChan n { c with len := c.len - 1, on := c.on && decide (c.len ≠ 1) }
  else a

/-- One volume step of the envelope: up or down, within 0 to 15 (64 rule R1333). -/
def envelopeStep (up : Bool) (vol : Nat) : Nat :=
  if up then (if vol < 15 then vol + 1 else vol) else (if 0 < vol then vol - 1 else vol)

/-- The envelope clock on a volume and its timer, for the register NRn2 = `r`. The timer's decrement at 0 gives `free`: the
rule gives no result there (64 rule R1333, log 17 (DESIGN CHOICE)). -/
def envelopeClock (r : Byte) (free : BitVec 3) (vol timer : Nat) : Nat × Nat :=
  let p := r.toNat % 8
  if p = 0 then (vol, timer)
  else
    let t := if timer = 0 then free.toNat else timer - 1
    if t = 0 then (envelopeStep (r.getLsbD 3) vol, p) else (vol, t)

/-- The envelope clocks of channels 1, 2 and 4. -/
def Apu.clockEnvelopes (a : Apu) : Apu :=
  let e1 := envelopeClock (a.reg 0x12) (Config.freeEnvTimer a.envDraws) a.vol1 a.envTimer1
  let e2 := envelopeClock (a.reg 0x17) (Config.freeEnvTimer (a.envDraws + 1)) a.vol2 a.envTimer2
  let e4 := envelopeClock (a.reg 0x21) (Config.freeEnvTimer (a.envDraws + 2)) a.vol4 a.envTimer4
  { a with
    vol1 := e1.1, envTimer1 := e1.2
    vol2 := e2.1, envTimer2 := e2.2
    vol4 := e4.1, envTimer4 := e4.2
    envDraws := a.envDraws + 3 }

/-- The value of `calc()`, with no bound yet (64 rule R1334). -/
def Apu.sweepCalc (a : Apu) : Nat :=
  let s := (a.reg 0x10).toNat % 8
  if (a.reg 0x10).getLsbD 3 then a.shadow - (a.shadow >>> s) else a.shadow + (a.shadow >>> s)

/-- The side effect of `calc()`: a result above 2047 disables channel 1. -/
def Apu.sweepCheck (a : Apu) : Apu :=
  if 2047 < a.sweepCalc then a.setChan .one { a.ch1 with on := false } else a

/-- The sweep's write-back of a new frequency. -/
def Apu.sweepStore (a : Apu) (f : Nat) : Apu :=
  let a1 := { a with shadow := f }
  let a2 := a1.setReg 0x13 (BitVec.ofNat 8 (f % 256))
  a2.setReg 0x14 (((a2.reg 0x14) &&& 0xF8) ||| BitVec.ofNat 8 (f / 256))

/-- The sweep period `P`, 0 standing for 8 when it reloads the timer. -/
def Apu.sweepReload (a : Apu) : Nat :=
  let p := (a.reg 0x10).toNat / 16 % 8
  if p = 0 then 8 else p

/-- The sweep clock (64 rule R1334): the frequency update with its two overflow checks. -/
def Apu.clockSweep (a : Apu) : Apu :=
  let t := if 0 < a.sweepTimer then a.sweepTimer - 1 else a.sweepTimer
  if t = 0 then
    let a1 := { a with sweepTimer := a.sweepReload }
    if a1.sweepOn && decide ((a1.reg 0x10).toNat / 16 % 8 ≠ 0) then
      let f := a1.sweepCalc
      let a2 := a1.sweepCheck
      if f ≤ 2047 ∧ (a1.reg 0x10).toNat % 8 ≠ 0 then (a2.sweepStore f).sweepCheck else a2
    else a1
  else { a with sweepTimer := t }

/-! ### Clocking -/

/-- The length clock of every channel. -/
def Apu.clockLengths (a : Apu) : Apu :=
  (((a.clockLength .one).clockLength .two).clockLength .three).clockLength .four

/-- The frame-sequencer step s (64 rule R1311): length first, then the sweep or the envelopes. -/
def Apu.sequencerStep (a : Apu) (s : Nat) : Apu :=
  let a1 := if s % 2 = 0 then a.clockLengths else a
  let a2 := if s = 2 ∨ s = 6 then a1.clockSweep else a1
  if s = 7 then a2.clockEnvelopes else a2

/-- The frame-sequencer part of one APU cycle. -/
def Apu.tickSequencer (a : Apu) : Apu :=
  if a.fsCount + 1 < 8192 then { a with fsCount := a.fsCount + 1 }
  else
    let a1 := ({ a with fsCount := 0 } : Apu).sequencerStep a.fsStep
    { a1 with fsStep := (a.fsStep + 1) % 8 }

/-- One APU cycle (64 rule R1310). -/
def Apu.cycle (a : Apu) : Apu :=
  if a.power then (((a.tickSequencer.tickChan .one).tickChan .two).tickChan .three).tickChan .four else a

/-- `n` APU cycles. -/
def Apu.run (n : Nat) (a : Apu) : Apu :=
  match n with
  | 0 => a
  | k + 1 => Apu.run k a.cycle

/-! ### Outputs and the mix -/

/-- Whether a channel's DAC is on (64 rule R1326). -/
def Apu.dacOn (a : Apu) (n : ChanId) : Bool :=
  match n with
  | .three => (a.reg 0x1A).getLsbD 7
  | .one | .two | .four => decide (a.reg n.nrx2 &&& 0xF8 ≠ 0)

/-- The duty table, one row of steps 0 to 7 from bit 7 down (64 rule R1320). -/
def dutyRow (duty : Nat) : Byte :=
  match duty with
  | 0 => 0b00000001
  | 1 => 0b10000001
  | 2 => 0b10000111
  | _ => 0b01111110

/-- The digital output of a channel (64 rules R1320, R1322, R1324). -/
def Apu.digital (a : Apu) (n : ChanId) : Nat :=
  match n with
  | .one => if (dutyRow ((a.reg 0x11).toNat / 64)).getLsbD (7 - a.dutyPos1) then a.vol1 else 0
  | .two => if (dutyRow ((a.reg 0x16).toNat / 64)).getLsbD (7 - a.dutyPos2) then a.vol2 else 0
  | .three =>
    let byte := (Store.read a.wave (a.wavePos / 2)).toNat
    let sample := if a.wavePos % 2 = 0 then byte / 16 else byte % 16
    match (a.reg 0x1C).toNat / 32 % 4 with
    | 0 => sample >>> 4
    | 1 => sample
    | 2 => sample >>> 1
    | _ => sample >>> 2
  | .four => if a.lfsr.getLsbD 0 then 0 else a.vol4

/-- `out[n]` (64 rule R1326). -/
def Apu.out (a : Apu) (n : ChanId) : Nat := if (a.chan n).on then a.digital n else 0

/-- The sum of the outputs whose routing bit is set in NR51, from bit `base` on (64 rule R1350). -/
def Apu.routed (a : Apu) (base : Nat) : Nat :=
  let nr51 := a.reg 0x25
  (if nr51.getLsbD base then a.out .one else 0) + (if nr51.getLsbD (base + 1) then a.out .two else 0)
    + (if nr51.getLsbD (base + 2) then a.out .three else 0) + (if nr51.getLsbD (base + 3) then a.out .four else 0)

/-- The mix (L, R) (64 rule R1350). -/
def Apu.mix (a : Apu) : Nat × Nat :=
  if a.power then
    (((a.reg 0x24).toNat / 16 % 8 + 1) * a.routed 4, ((a.reg 0x24).toNat % 8 + 1) * a.routed 0)
  else (0, 0)

/-! ### Registers -/

/-- The bits of a register that read as 1 (64 rule R1301). -/
def apuMask (r : Nat) : Byte :=
  match r with
  | 0x10 => 0x80
  | 0x11 | 0x16 => 0x3F
  | 0x12 | 0x17 | 0x21 | 0x22 | 0x24 | 0x25 => 0x00
  | 0x14 | 0x19 | 0x1E | 0x23 => 0xBF
  | 0x1A => 0x7F
  | 0x1C => 0x9F
  | _ => 0xFF

/-- A read of 0xFF10-0xFF25 (64 rule R1301). -/
def Apu.readReg (a : Apu) (r : Nat) : Byte := a.reg r ||| apuMask r

/-- NR52 (64 rule R1344). -/
def Apu.readNr52 (a : Apu) : Byte :=
  BitVec.ofNat 8 (a.power.toNat * 128 + 0x70 + a.ch4.on.toNat * 8 + a.ch3.on.toNat * 4 + a.ch2.on.toNat * 2
    + a.ch1.on.toNat)

/-- The largest length of a channel (64 rule R1340). -/
def ChanId.maxLen : ChanId → Nat
  | .three => 256
  | .one | .two | .four => 64

/-- What a trigger does to one channel alone (64 rule R1340). -/
def Apu.triggerOwn (a : Apu) (n : ChanId) : Apu :=
  match n with
  | .one =>
    let a1 := { a with
      vol1 := (a.reg 0x12).toNat / 16, envTimer1 := (a.reg 0x12).toNat % 8
      shadow := a.freq .one
      sweepTimer := a.sweepReload
      sweepOn := decide ((a.reg 0x10).toNat / 16 % 8 ≠ 0) || decide ((a.reg 0x10).toNat % 8 ≠ 0) }
    if (a.reg 0x10).toNat % 8 ≠ 0 then a1.sweepCheck else a1
  | .two => { a with vol2 := (a.reg 0x17).toNat / 16, envTimer2 := (a.reg 0x17).toNat % 8 }
  | .three => { a with wavePos := 0 }
  | .four =>
    { a with vol4 := (a.reg 0x21).toNat / 16, envTimer4 := (a.reg 0x21).toNat % 8, lfsr := 0x7FFF }

/-- The trigger of a channel (64 rule R1340). -/
def Apu.trigger (a : Apu) (n : ChanId) : Apu :=
  let c := a.chan n
  (a.setChan n
    { on := a.dacOn n, len := if c.len = 0 then n.maxLen else c.len, timer := a.period n }).triggerOwn n

/-- Disable a channel when its DAC is off after a write (64 rule R1326). The rule speaks of a write that turns the DAC off; that a
write which leaves an off DAC off disables the channel too is log 38 (DESIGN CHOICE). -/
def Apu.dacGate (a : Apu) (n : ChanId) : Apu :=
  if a.dacOn n then a else a.setChan n { a.chan n with on := false }

/-- The length load of a write of `v` to NRn1 (64 rule R1330). -/
def Apu.loadLength (a : Apu) (n : ChanId) (v : Byte) : Apu :=
  a.setChan n { a.chan n with len := n.maxLen - (if n = .three then v.toNat else v.toNat % 64) }

/-- The trigger bit of a write of `v` to NRn4. -/
def Apu.triggerBit (a : Apu) (n : ChanId) (v : Byte) : Apu := if v.getLsbD 7 then a.trigger n else a

/-- A write to 0xFF10-0xFF25: discarded while the power is off (64 rule R1341), else stored, with the effects of R1326,
R1330, R1340, R1343. -/
def Apu.writeReg (a : Apu) (r : Nat) (v : Byte) : Apu :=
  if a.power then
    let a1 := a.setReg r v
    match r with
    | 0x11 => a1.loadLength .one v
    | 0x12 => a1.dacGate .one
    | 0x14 => a1.triggerBit .one v
    | 0x16 => a1.loadLength .two v
    | 0x17 => a1.dacGate .two
    | 0x19 => a1.triggerBit .two v
    | 0x1A => a1.dacGate .three
    | 0x1B => a1.loadLength .three v
    | 0x1E => a1.triggerBit .three v
    | 0x20 => a1.loadLength .four v
    | 0x21 => a1.dacGate .four
    | 0x23 => a1.triggerBit .four v
    | _ => a1
  else a

/-- The "after power-off" column of 64 rule R1300; wave RAM is kept (64 rule R1341). -/
def Apu.powerOff (a : Apu) : Apu where
  power := false
  nr := []
  wave := a.wave
  fsCount := 0
  fsStep := 0
  ch1 := Chan.off
  ch2 := Chan.off
  ch3 := Chan.off
  ch4 := Chan.off
  dutyPos1 := 0
  dutyPos2 := 0
  wavePos := 0
  lfsr := 0
  vol1 := 0
  vol2 := 0
  vol4 := 0
  envTimer1 := 0
  envTimer2 := 0
  envTimer4 := 0
  shadow := 0
  sweepTimer := 0
  sweepOn := false
  envDraws := a.envDraws

/-- A write to NR52: only a change of bit 7 acts (64 rules R1341, R1342). -/
def Apu.writeNr52 (a : Apu) (v : Byte) : Apu :=
  if v.getLsbD 7 then
    (if a.power then a else { a with power := true, fsCount := 0, fsStep := 0 })
  else if a.power then a.powerOff
  else a

end Sys2Proof.Machine
end

