-- ==== Sys2Proof/Machine/Cart.lean ====
section
/-! DEFINITION. The cartridge: header decoding, the bank controllers, cartridge RAM and the MBC3 clock
(61_cartridge_mbc.md). -/

namespace Sys2Proof.Machine

/-! ### Header (61 rules R1001 to R1005) -/

/-- What a cartridge-type code selects (61 rule R1003). -/
structure CartType where
  variant : Variant
  ram : Bool
  battery : Bool
  rtc : Bool
  rumble : Bool
  deriving DecidableEq, Repr

/-- The fallback of 61 rule R1002: no banking, no features. -/
def CartType.fallback : CartType :=
  { variant := .none, ram := false, battery := false, rtc := false, rumble := false }

/-- The type codes (61 rule R1003); the two refused types give none (61 rule R1070). -/
def cartTypeOf (code : Byte) : Option CartType :=
  match code.toNat with
  | 0x00 => some { variant := .none, ram := false, battery := false, rtc := false, rumble := false }
  | 0x01 => some { variant := .mbc1, ram := false, battery := false, rtc := false, rumble := false }
  | 0x02 => some { variant := .mbc1, ram := true, battery := false, rtc := false, rumble := false }
  | 0x03 => some { variant := .mbc1, ram := true, battery := true, rtc := false, rumble := false }
  | 0x05 => some { variant := .mbc2, ram := true, battery := false, rtc := false, rumble := false }
  | 0x06 => some { variant := .mbc2, ram := true, battery := true, rtc := false, rumble := false }
  | 0x08 => some { variant := .none, ram := true, battery := false, rtc := false, rumble := false }
  | 0x09 => some { variant := .none, ram := true, battery := true, rtc := false, rumble := false }
  | 0x0F => some { variant := .mbc3, ram := false, battery := true, rtc := true, rumble := false }
  | 0x10 => some { variant := .mbc3, ram := true, battery := true, rtc := true, rumble := false }
  | 0x11 => some { variant := .mbc3, ram := false, battery := false, rtc := false, rumble := false }
  | 0x12 => some { variant := .mbc3, ram := true, battery := false, rtc := false, rumble := false }
  | 0x13 => some { variant := .mbc3, ram := true, battery := true, rtc := false, rumble := false }
  | 0x19 => some { variant := .mbc5, ram := false, battery := false, rtc := false, rumble := false }
  | 0x1A => some { variant := .mbc5, ram := true, battery := false, rtc := false, rumble := false }
  | 0x1B => some { variant := .mbc5, ram := true, battery := true, rtc := false, rumble := false }
  | 0x1C => some { variant := .mbc5, ram := false, battery := false, rtc := false, rumble := true }
  | 0x1D => some { variant := .mbc5, ram := true, battery := false, rtc := false, rumble := true }
  | 0x1E => some { variant := .mbc5, ram := true, battery := true, rtc := false, rumble := true }
  | 0x22 => none
  | 0xFE => none
  | 0xFF => some { variant := .huc1, ram := true, battery := true, rtc := false, rumble := false }
  | _ => some CartType.fallback

/-- `rom_banks` from the ROM-size code and the image length (61 rule R1004). -/
def romBanksOf (code : Byte) (imageLen : Nat) : Nat :=
  if code.toNat ≤ 8 then 2 <<< code.toNat
  else if code = 0x52 then 72
  else if code = 0x53 then 80
  else if code = 0x54 then 96
  else max 2 ((imageLen + 0x3FFF) / 0x4000)

/-- `ram_size` from the type and the RAM-size code (61 rules R1005, R1030). -/
def ramSizeOf (t : CartType) (code : Byte) : Nat :=
  if t.variant = .mbc2 then 512
  else if !t.ram then 0
  else
    match code.toNat with
    | 0x01 => 0x800
    | 0x02 => 0x2000
    | 0x03 => 0x8000
    | 0x04 => 0x20000
    | 0x05 => 0x10000
    | _ => 0

/-! ### ROM windows -/

/-- `rom(b, off)` (61 rule R1010). -/
def Cart.romByte (c : Cart) (bank off : Nat) : Byte :=
  let i := bank * 0x4000 + off
  if i < c.romLen then Store.read c.rom i else 0xFF

/-- The bank of 0x0000-0x3FFF, before the modulo (61 rules R1017, R1024, R1032, R1041, R1051, R1061). -/
def Cart.lowBank (c : Cart) : Nat :=
  match c.variant with
  | .mbc1 => if c.mode then c.bankHi.toNat <<< 5 else 0
  | .none | .mbc2 | .mbc3 | .mbc5 | .huc1 => 0

/-- The bank of 0x4000-0x7FFF, before the modulo. -/
def Cart.highBank (c : Cart) : Nat :=
  match c.variant with
  | .none => 1
  | .mbc1 => (c.bankHi.toNat <<< 5) ||| c.bankLo.toNat
  | .mbc2 | .mbc3 | .huc1 => c.bankLo.toNat
  | .mbc5 => (c.bankHi.toNat <<< 8) ||| c.bankLo.toNat

/-- Where in the image an address below 0x8000 reads: the bank reduced modulo `rom_banks` (61 rule R1012). -/
def Cart.romBankAt (c : Cart) (a : Nat) : Nat :=
  (if a < 0x4000 then c.lowBank else c.highBank) % c.romBanks

/-- A read of 0x0000-0x7FFF (61 rule R1010). -/
def Cart.readRom (c : Cart) (a : Nat) : Byte := c.romByte (c.romBankAt a) (a % 0x4000)

/-! ### Control writes -/

/-- 61 rule R1016. -/
def ramEnableValue (v : Byte) : Bool := v &&& 0x0F = 0x0A

/-- 61 rule R1013: a primary bank field of 0 is stored as 1. -/
def remapZero (f : Byte) : Byte := if f = 0 then 1 else f

/-- A write to 0x0000-0x7FFF (61 rule R1011), by variant: R1017, R1020 to R1023, R1031, R1040 to R1044, R1050 to R1052,
R1060. -/
def Cart.control (c : Cart) (a : Nat) (v : Byte) : Cart :=
  match c.variant with
  | .none => c
  | .mbc1 =>
    if a < 0x2000 then { c with ramEnable := ramEnableValue v }
    else if a < 0x4000 then { c with bankLo := remapZero (v &&& 0x1F) }
    else if a < 0x6000 then { c with bankHi := v &&& 0x03 }
    else { c with mode := v.getLsbD 0 }
  | .mbc2 =>
    if a < 0x4000 then
      if a.testBit 8 then { c with bankLo := remapZero (v &&& 0x0F) } else { c with ramEnable := ramEnableValue v }
    else c
  | .mbc3 =>
    if a < 0x2000 then { c with ramEnable := ramEnableValue v }
    else if a < 0x4000 then { c with bankLo := remapZero (v &&& 0x7F) }
    else if a < 0x6000 then { c with ramBank := v }
    else
      { c with
        latchPrev := v
        rtcLatched := if c.hasRtc && c.latchPrev = 0x00 && v = 0x01 then c.rtcLive else c.rtcLatched }
  | .mbc5 =>
    if a < 0x2000 then { c with ramEnable := ramEnableValue v }
    else if a < 0x3000 then { c with bankLo := remapZero v }
    else if a < 0x4000 then { c with bankHi := v &&& 0x01 }
    else if a < 0x6000 then
      if c.hasRumble then { c with ramBank := v &&& 0x07, rumble := v.getLsbD 3 } else { c with ramBank := v &&& 0x0F }
    else c
  | .huc1 =>
    if a < 0x2000 then
      if v = 0x0E then { c with irMode := true } else { c with irMode := false, ramEnable := ramEnableValue v }
    else if a < 0x4000 then { c with bankLo := remapZero (v &&& 0x3F) }
    else if a < 0x6000 then { c with ramBank := v &&& 0x03 }
    else c

/-! ### The clock of MBC3 (61 rules R1042 to R1045) -/

/-- A read of a clock register by its select code; unkept bits read 0 because they are never stored. -/
def Rtc.get (r : Rtc) (select : Nat) : Byte :=
  match select with
  | 0x08 => r.s &&& 0x3F
  | 0x09 => r.m &&& 0x3F
  | 0x0A => r.h &&& 0x1F
  | 0x0B => r.dl
  | _ => r.dh &&& 0xC1

/-- A write of a clock register: only the kept bits are stored. -/
def Rtc.set (r : Rtc) (select : Nat) (v : Byte) : Rtc :=
  match select with
  | 0x08 => { r with s := v &&& 0x3F }
  | 0x09 => { r with m := v &&& 0x3F }
  | 0x0A => { r with h := v &&& 0x1F }
  | 0x0B => { r with dl := v }
  | _ => { r with dh := v &&& 0xC1 }

/-- One day: the 9-bit day counter and its sticky overflow flag (61 rule R1045). -/
def Rtc.day (r : Rtc) : Rtc :=
  let n := (r.dh.toNat % 2) * 256 + r.dl.toNat + 1
  if n = 512 then { r with dl := 0, dh := (r.dh ||| 0x80) &&& 0xFE }
  else { r with dl := BitVec.ofNat 8 n, dh := (r.dh &&& 0xFE) ||| BitVec.ofNat 8 (n / 256) }

/-- `rtc_second()` (61 rule R1045). -/
def Rtc.second (r : Rtc) : Rtc :=
  let s := (r.s.toNat + 1) % 64
  if s ≠ 60 then { r with s := BitVec.ofNat 8 s }
  else
    let m := (r.m.toNat + 1) % 64
    if m ≠ 60 then { r with s := 0, m := BitVec.ofNat 8 m }
    else
      let h := (r.h.toNat + 1) % 32
      if h ≠ 24 then { r with s := 0, m := 0, h := BitVec.ofNat 8 h }
      else Rtc.day { r with s := 0, m := 0, h := 0 }

/-- `n` seconds. -/
def Rtc.seconds (n : Nat) (r : Rtc) : Rtc :=
  match n with
  | 0 => r
  | k + 1 => Rtc.seconds k r.second

/-- DH bit 6 stops the clock (61 rule R1042). -/
def Rtc.stopped (r : Rtc) : Bool := r.dh.getLsbD 6

/-! ### Cartridge RAM (61 rules R1014, R1015) -/

/-- What an access to 0xA000-0xBFFF reaches. -/
inductive RamTarget
  /-- a byte of `ram` -/
  | cell (i : Nat)
  /-- an MBC2 four-bit cell -/
  | nibble (i : Nat)
  /-- an MBC3 clock register -/
  | clock (select : Nat)
  /-- the HuC1 infrared receiver -/
  | infrared
  /-- nothing: reads 0xFF, writes are discarded -/
  | closed
  deriving DecidableEq, Repr

/-- `ram_banks` (61 rule R1005). -/
def Cart.ramBanks (c : Cart) : Nat := max 1 ((c.ramSize + 0x1FFF) / 0x2000)

/-- `ramb(k mod ram_banks, off)`, with nothing there on a type without RAM (61 rules R1012, R1014, R1015). -/
def Cart.ramCell (c : Cart) (k off : Nat) : RamTarget :=
  if c.hasRam then .cell (((k % c.ramBanks) * 0x2000 + off) % c.ramSize) else .closed

/-- What offset `off` of the window reaches, the gate of 61 rule R1014 included. -/
def Cart.ramTarget (c : Cart) (permissive : Bool) (off : Nat) : RamTarget :=
  let enabled := c.ramEnable || permissive
  match c.variant with
  | .none => c.ramCell 0 off
  | .mbc1 => if enabled then c.ramCell (if c.mode then c.bankHi.toNat else 0) off else .closed
  | .mbc2 => if enabled then .nibble (off % 512) else .closed
  | .mbc3 =>
    if enabled then
      if c.ramBank.toNat < 4 then c.ramCell c.ramBank.toNat off
      else if 8 ≤ c.ramBank.toNat ∧ c.ramBank.toNat ≤ 0xC ∧ c.hasRtc then .clock c.ramBank.toNat
      else .closed
    else .closed
  | .mbc5 => if enabled then c.ramCell c.ramBank.toNat off else .closed
  | .huc1 => if c.irMode then .infrared else if enabled then c.ramCell c.ramBank.toNat off else .closed

/-- A read of the window; `free` is the byte the infrared receiver gives, a draw (61 rule R1061, log 22 (DESIGN CHOICE)). -/
def Cart.readRam (c : Cart) (permissive : Bool) (free : Byte) (off : Nat) : Byte :=
  match c.ramTarget permissive off with
  | .cell i => Store.read c.ram i
  | .nibble i => 0xF0 ||| Store.read c.ram i
  | .clock select => c.rtcLatched.get select
  | .infrared => free
  | .closed => 0xFF

/-- A write of the window. -/
def Cart.writeRam (c : Cart) (permissive : Bool) (off : Nat) (v : Byte) : Cart :=
  match c.ramTarget permissive off with
  | .cell i => { c with ram := Store.write c.ram i v }
  | .nibble i => { c with ram := Store.write c.ram i (v &&& 0x0F) }
  | .clock select => { c with rtcLive := c.rtcLive.set select v }
  | .infrared | .closed => c

/-- The host's `rtc_advance(n)` on the cartridge (61 rule R1045). It advances the live clock of a type that has one. Log 32 (DEDUCED). -/
def Cart.rtcAdvance (c : Cart) (n : Nat) : Cart :=
  if c.hasRtc && !c.rtcLive.stopped then { c with rtcLive := c.rtcLive.seconds n } else c

end Sys2Proof.Machine
end

