-- ==== Sys2Proof/Machine/Compositor.lean ====
section
/-! DEFINITION. The scanline compositor: background, window, sprites, priority and palettes (63_ppu_compositor.md). -/

namespace Sys2Proof.Machine

/-! ### LCDC (62 rule R1102) -/

/-- Bit 7: LCD enable. -/
def Ppu.lcdOn (p : Ppu) : Bool := p.lcdc.getLsbD 7
/-- Bit 6: the window tile map. -/
def Ppu.windowMap (p : Ppu) : Nat := if p.lcdc.getLsbD 6 then 0x1C00 else 0x1800
/-- Bit 3: the background tile map. -/
def Ppu.bgMap (p : Ppu) : Nat := if p.lcdc.getLsbD 3 then 0x1C00 else 0x1800
/-- `h` of 63 rule R1230. -/
def Ppu.lcdcHeight (p : Ppu) : Nat := if p.lcdc.getLsbD 2 then 16 else 8

/-! ### Tiles -/

/-- A byte of VRAM bank `k` at offset `off` (62 rule R1120). -/
def Ppu.vramByte (p : Ppu) (k off : Nat) : Byte := Store.read p.vram (k * 0x2000 + off)

/-- The color index, 0 to 3, at row `r` and column `c` of the tile at VRAM offset `t0` in bank `k` (63 rule R1210). -/
def Ppu.tilePixel (p : Ppu) (k t0 r c : Nat) (xflip : Bool) : Nat :=
  let i := if xflip then c else 7 - c
  let lo := (p.vramByte k (t0 + 2 * r)).getLsbD i
  let hi := (p.vramByte k (t0 + 2 * r + 1)).getLsbD i
  hi.toNat * 2 + lo.toNat

/-- The VRAM offset of background and window tile `t` (63 rule R1211): with LCDC bit 4 clear, `0x1000 + sval(t) × 16`. -/
def Ppu.tileOffset (p : Ppu) (t : Byte) : Nat :=
  if p.lcdc.getLsbD 4 then t.toNat * 16
  else if t.toNat < 0x80 then 0x1000 + t.toNat * 16
  else t.toNat * 16

/-- A background or window sample: the color index and the CGB map attributes (63 rule R1202). -/
structure BgSample where
  index : Nat
  attr : Byte
  deriving DecidableEq, Repr

/-- The sample at map coordinates (bx, by) of the map at VRAM offset `base` (63 rules R1212, R1213). -/
def Ppu.mapSample (cgb : Bool) (p : Ppu) (base bx by_ : Nat) : BgSample :=
  let m := base + by_ / 8 * 32 + bx / 8
  let t := p.vramByte 0 m
  let attr := if cgb then p.vramByte 1 m else 0
  let r := if attr.getLsbD 6 then 7 - by_ % 8 else by_ % 8
  { index := p.tilePixel (attr.getLsbD 3).toNat (p.tileOffset t) r (bx % 8) (attr.getLsbD 5), attr := attr }

/-- Whether the window covers pixel (x, y) (63 rule R1220). -/
def Ppu.windowCovers (cgb : Bool) (p : Ppu) (x y : Nat) : Bool :=
  p.lcdc.getLsbD 5 && decide (p.wy.toNat ≤ y) && decide (p.wx.toNat ≤ 166) && decide (p.wx.toNat ≤ x + 7)
    && (cgb || p.lcdc.getLsbD 0)

/-- The background or window sample at pixel (x, y) (63 rules R1202, R1212, R1220). -/
def Ppu.bgSample (cgb : Bool) (p : Ppu) (x y : Nat) : BgSample :=
  if p.windowCovers cgb x y then p.mapSample cgb p.windowMap (x + 7 - p.wx.toNat) p.windowLine.toNat
  else if cgb || p.lcdc.getLsbD 0 then
    p.mapSample cgb p.bgMap ((p.scx.toNat + x) % 256) ((p.scy.toNat + y) % 256)
  else { index := 0, attr := 0 }

/-! ### Sprites -/

/-- OAM entry n (62 rule R1122). -/
def Ppu.oamEntry (p : Ppu) (n : Nat) : Sprite :=
  { index := n
    y := Store.read p.oam (4 * n)
    x := Store.read p.oam (4 * n + 1)
    tile := Store.read p.oam (4 * n + 2)
    attr := Store.read p.oam (4 * n + 3) }

/-- The Y test of the selection: `0 ≤ line + 16 - Y < h` (63 rule R1230). -/
def Sprite.onLine (sp : Sprite) (line h : Nat) : Bool :=
  decide (sp.y.toNat ≤ line + 16) && decide (line + 16 < sp.y.toNat + h)

/-- The selection of a line: the first ten entries, in OAM order, that pass the Y test (63 rule R1230). -/
def Ppu.selectSprites (p : Ppu) : List Sprite :=
  (((List.range 40).map p.oamEntry).filter fun sp => sp.onLine p.line p.lcdcHeight).take 10

/-- The mode-3 length of a line with `k` selected sprites (62 rule R1113): `172 + 6k`, k = 0 when sprites are off. -/
def Ppu.mode3LenOf (p : Ppu) (k : Nat) : Nat := 172 + 6 * (if p.lcdc.getLsbD 1 then k else 0)

/-- The color index a selected sprite gives at pixel (x, y) (63 rule R1232); 0 where it does not cover x (63 rule R1231) and
where it is transparent. The height h is the one of the line's selection (63 rule R1230, log 26 (DEDUCED)). -/
def Sprite.pixel (cgb : Bool) (p : Ppu) (sp : Sprite) (x y : Nat) : Nat :=
  if x < sp.x.toNat ∧ sp.x.toNat ≤ x + 8 then
    let r0 := y + 16 - sp.y.toNat
    let r := if sp.attr.getLsbD 6 then p.spriteH - 1 - r0 else r0
    let t := if p.spriteH = 16 then sp.tile.toNat / 2 * 2 + r / 8 else sp.tile.toNat
    let k := (cgb && sp.attr.getLsbD 3).toNat
    p.tilePixel k (t * 16) (r % 8) (x + 8 - sp.x.toNat) (sp.attr.getLsbD 5)
  else 0

/-- A sprite sample: its color index 1 to 3 and its entry (63 rule R1202). -/
structure SpriteSample where
  index : Nat
  sprite : Sprite
  deriving DecidableEq, Repr

/-- The priority of 63 rule R1231: in DMG mode the smaller X first, the earlier of two equal ones kept; in CGB mode the
earlier of the two. The arguments stand in OAM order. -/
def SpriteSample.first (cgb : Bool) (best next : SpriteSample) : SpriteSample :=
  if cgb then best else if next.sprite.x.toNat < best.sprite.x.toNat then next else best

/-- The sprite sample at pixel (x, y) (63 rule R1231). -/
def Ppu.spriteSample (cgb : Bool) (p : Ppu) (x y : Nat) : Option SpriteSample :=
  if p.lcdc.getLsbD 1 then
    p.sprites.foldl (init := none) fun best sp =>
      let i := sp.pixel cgb p x y
      if i = 0 then best
      else
        match best with
        | none => some { index := i, sprite := sp }
        | some b => some (SpriteSample.first cgb b { index := i, sprite := sp })
  else none

/-! ### Mixing -/

/-- The shade a DMG palette gives color index `i` (63 rule R1240). -/
def dmgShade (palette : Byte) (i : Nat) : Nat := palette.toNat >>> (2 * i) % 4

/-- Color `j` of palette `n` of a CGB palette memory: bits 14 to 0 of its little-endian word (62 rule R1150). -/
def cgbColor (pal : Memory) (n j : Nat) : BitVec 15 :=
  BitVec.ofNat 15 ((Store.read pal (8 * n + 2 * j)).toNat + 256 * (Store.read pal (8 * n + 2 * j + 1)).toNat)

/-- DMG mixing (63 rule R1240). -/
def Ppu.mixDmg (p : Ppu) (b : BgSample) (s : Option SpriteSample) : BitVec 15 :=
  match s with
  | none => BitVec.ofNat 15 (dmgShade p.bgp b.index)
  | some s =>
    if !s.sprite.attr.getLsbD 7 || decide (b.index = 0) then
      BitVec.ofNat 15 (dmgShade (if s.sprite.attr.getLsbD 4 then p.obp1 else p.obp0) s.index)
    else BitVec.ofNat 15 (dmgShade p.bgp b.index)

/-- CGB mixing (63 rule R1241). -/
def Ppu.mixCgb (p : Ppu) (b : BgSample) (s : Option SpriteSample) : BitVec 15 :=
  match s with
  | none => cgbColor p.bgPal (b.attr.toNat % 8) b.index
  | some s =>
    if !p.lcdc.getLsbD 0 || decide (b.index = 0) || (!s.sprite.attr.getLsbD 7 && !b.attr.getLsbD 7) then
      cgbColor p.objPal (s.sprite.attr.toNat % 8) s.index
    else cgbColor p.bgPal (b.attr.toNat % 8) b.index

/-- The color of pixel (x, y) with the state as it is now (63 rules R1201, R1202). -/
def Ppu.pixelColor (cgb : Bool) (p : Ppu) (x y : Nat) : BitVec 15 :=
  let b := p.bgSample cgb x y
  let s := p.spriteSample cgb x y
  if cgb then p.mixCgb b s else p.mixDmg b s

/-- Compose pixel x of the current line into `frame` (63 rule R1201). -/
def Ppu.compose (cgb : Bool) (p : Ppu) (x : Nat) : Ppu :=
  { p with
    frame := Store.write p.frame (p.line * 160 + x) (p.pixelColor cgb x p.line)
    windowHit := p.windowHit || p.windowCovers cgb x p.line }

/-! ### What the host sees -/

/-- The pixel the host sees: `frame`, but shade 0 or white while the LCD is off (62 rule R1116, log 19 (DEDUCED)). -/
def Ppu.shownPixel (cgb : Bool) (p : Ppu) (x y : Nat) : BitVec 15 :=
  if p.lcdOn then Store.read p.frame (y * 160 + x) else if cgb then 0x7FFF else 0

/-- The host's RGB bytes of that pixel (63 rule R1200, parameter `SHADE_RGB`). -/
def Ppu.hostPixel (cgb : Bool) (p : Ppu) (x y : Nat) : BitVec 24 := Config.shadeRgb cgb (p.shownPixel cgb x y)

end Sys2Proof.Machine
end

