-- ==== Sys2Proof/Machine/Peek.lean ====
section
/-! DEFINITION. The address map and what each address reads as, with no effect on the state (20_memory.md, and the register
rules of 10, 60, 61, 62 and 64). -/

namespace Sys2Proof.Machine

/-! ### The address map (20 rules R230, R238 to R240) -/

/-- The registers of the I/O page. `apu r` is 0xFF00 + r for r in 0x10 to 0x25; `wave i` is 0xFF30 + i. -/
inductive IoReg
  | p1 | sb | sc | div | tima | tma | tac | iflag
  | apu (r : Nat) | nr52 | wave (i : Nat)
  | lcdc | stat | scy | scx | ly | lyc | dma | bgp | obp0 | obp1 | wy | wx
  | key1 | vbk | boot | hdma1 | hdma2 | hdma3 | hdma4 | hdma5 | bcps | bcpd | ocps | ocpd | svbk
  deriving DecidableEq, Repr

/-- The register at 0xFF00 + off for off below 0x80, none where the page is unmapped (20 rules R238, R240). -/
def ioRegOf (cgb : Bool) (off : Nat) : Option IoReg :=
  match off with
  | 0x00 => some .p1
  | 0x01 => some .sb
  | 0x02 => some .sc
  | 0x04 => some .div
  | 0x05 => some .tima
  | 0x06 => some .tma
  | 0x07 => some .tac
  | 0x0F => some .iflag
  | 0x15 => none
  | 0x1F => none
  | 0x26 => some .nr52
  | 0x40 => some .lcdc
  | 0x41 => some .stat
  | 0x42 => some .scy
  | 0x43 => some .scx
  | 0x44 => some .ly
  | 0x45 => some .lyc
  | 0x46 => some .dma
  | 0x47 => some .bgp
  | 0x48 => some .obp0
  | 0x49 => some .obp1
  | 0x4A => some .wy
  | 0x4B => some .wx
  | 0x4D => if cgb then some .key1 else none
  | 0x4F => if cgb then some .vbk else none
  | 0x50 => some .boot
  | 0x51 => if cgb then some .hdma1 else none
  | 0x52 => if cgb then some .hdma2 else none
  | 0x53 => if cgb then some .hdma3 else none
  | 0x54 => if cgb then some .hdma4 else none
  | 0x55 => if cgb then some .hdma5 else none
  | 0x68 => if cgb then some .bcps else none
  | 0x69 => if cgb then some .bcpd else none
  | 0x6A => if cgb then some .ocps else none
  | 0x6B => if cgb then some .ocpd else none
  | 0x70 => if cgb then some .svbk else none
  | off =>
    if 0x10 ≤ off ∧ off ≤ 0x25 then some (.apu off)
    else if 0x30 ≤ off ∧ off ≤ 0x3F then some (.wave (off - 0x30))
    else none

/-- A region of the address map, with the offset inside it. -/
inductive Region
  | rom (a : Nat)
  | vram (off : Nat)
  | cartRam (off : Nat)
  /-- work RAM bank 0 -/
  | wramLow (off : Nat)
  /-- the switchable work RAM bank -/
  | wramHigh (off : Nat)
  | oam (i : Nat)
  | io (r : IoReg)
  | hram (i : Nat)
  | ie
  | unmapped
  deriving DecidableEq, Repr

/-- Work RAM by its offset from 0xC000, shared by the direct range and the echo (20 rules R233, R234). -/
def wramRegion (off : Nat) : Region := if off < 0x1000 then .wramLow off else .wramHigh (off - 0x1000)

/-- The region that holds an address (20 rule R230). -/
def regionOf (cgb : Bool) (addr : Word) : Region :=
  let a := addr.toNat
  if a < 0x8000 then .rom a
  else if a < 0xA000 then .vram (a - 0x8000)
  else if a < 0xC000 then .cartRam (a - 0xA000)
  else if a < 0xE000 then wramRegion (a - 0xC000)
  else if a < 0xFE00 then wramRegion (a - 0xE000)
  else if a < 0xFEA0 then .oam (a - 0xFE00)
  else if a < 0xFF00 then .unmapped
  else if a < 0xFF80 then
    match ioRegOf cgb (a - 0xFF00) with
    | some r => .io r
    | none => .unmapped
  else if a < 0xFFFF then .hram (a - 0xFF80)
  else .ie

/-! ### Banks and locks -/

/-- The VRAM bank the CPU reaches (62 rule R1120). -/
def State.vramBank (s : State) : Nat := if s.params.cgb then s.ppu.vbk.toNat else 0

/-- The work RAM bank at 0xD000 (20 rule R233). -/
def State.wramBank (s : State) : Nat := if s.params.cgb ∧ s.svbk ≠ 0 then s.svbk.toNat else 1

/-- The PPU owns VRAM and the palettes (62 rules R1120, R1151). -/
def Ppu.vramLocked (p : Ppu) : Bool := p.lcdOn && decide (p.mode = .transfer)

/-- The PPU owns OAM (62 rule R1121). -/
def Ppu.oamLocked (p : Ppu) : Bool := p.lcdOn && decide (p.mode = .oamSearch ∨ p.mode = .transfer)

/-! ### Device registers -/

/-- The low nibble of P1 (60 rule R874): a line reads 0 when a pressed button's group is selected. -/
def Joypad.lines (j : Joypad) : BitVec 4 :=
  let dpad : BitVec 4 := if j.sel.getLsbD 0 then 0 else BitVec.ofNat 4 (j.buttons.toNat % 16)
  let keys : BitVec 4 := if j.sel.getLsbD 1 then 0 else BitVec.ofNat 4 (j.buttons.toNat / 16)
  ~~~(dpad ||| keys)

/-- `ly_visible` (62 rules R1114, R1116). -/
def Ppu.lyVisible (p : Ppu) : Nat :=
  if !p.lcdOn then 0 else if p.line = 153 ∧ 448 ≤ p.lineCycle then 0 else p.line

/-- The mode number of STAT bits 1 and 0. -/
def PpuMode.code : PpuMode → Nat
  | .hblank => 0
  | .vblank => 1
  | .oamSearch => 2
  | .transfer => 3

/-- STAT (62 rules R1103, R1116). -/
def Ppu.readStat (p : Ppu) : Byte :=
  0x80 ||| (p.stat &&& 0x78) ||| BitVec.ofNat 8 (p.coincidence.toNat * 4 + if p.lcdOn then p.mode.code else 0)

/-- HDMA5 (62 rule R1163). -/
def Ppu.readHdma5 (p : Ppu) : Byte :=
  let n : Byte := (BitVec.ofNat 8 p.hdmaLeft - 1) &&& 0x7F
  if p.hdmaActive then n else 0x80 ||| n

/-- A read of an I/O register, under TIMED = true (10 section 4, 60 rule R874, 62 rule R1101, 64 rule R1301). -/
def State.peekIo (s : State) (r : IoReg) : Byte :=
  match r with
  | .p1 => 0xC0 ||| (s.joy.sel.setWidth 8 <<< 4) ||| s.joy.lines.setWidth 8
  | .sb => s.serial.sb
  | .sc => (if s.params.cgb then 0x7C else 0x7E) ||| s.serial.sc
  | .div => (s.timer.div16 >>> 8).setWidth 8
  | .tima => s.timer.tima
  | .tma => s.timer.tma
  | .tac => 0xF8 ||| s.timer.tac.setWidth 8
  | .iflag => 0xE0 ||| s.iflag.setWidth 8
  | .apu r => s.apu.readReg r
  | .nr52 => s.apu.readNr52
  | .wave i => Store.read s.apu.wave i
  | .lcdc => s.ppu.lcdc
  | .stat => s.ppu.readStat
  | .scy => s.ppu.scy
  | .scx => s.ppu.scx
  | .ly => BitVec.ofNat 8 s.ppu.lyVisible
  | .lyc => s.ppu.lyc
  | .dma => s.ppu.dma
  | .bgp => s.ppu.bgp
  | .obp0 => s.ppu.obp0
  | .obp1 => s.ppu.obp1
  | .wy => s.ppu.wy
  | .wx => s.ppu.wx
  | .key1 => 0x7E ||| BitVec.ofNat 8 (s.doubleSpeed.toNat * 128 + s.key1Prep.toNat)
  | .vbk => 0xFE ||| s.ppu.vbk.setWidth 8
  | .boot => 0xFF
  | .hdma1 => 0xFF
  | .hdma2 => 0xFF
  | .hdma3 => 0xFF
  | .hdma4 => 0xFF
  | .hdma5 => s.ppu.readHdma5
  | .bcps => 0x40 ||| s.ppu.bcps
  | .bcpd => if s.ppu.vramLocked then 0xFF else Store.read s.ppu.bgPal (s.ppu.bcps.toNat % 64)
  | .ocps => 0x40 ||| s.ppu.ocps
  | .ocpd => if s.ppu.vramLocked then 0xFF else Store.read s.ppu.objPal (s.ppu.ocps.toNat % 64)
  | .svbk => 0xF8 ||| s.svbk.setWidth 8

/-! ### Memory -/

/-- Whether the boot ROM covers an address, and where in its image (20 rule R231). -/
def State.bootOffset (s : State) (a : Nat) : Option Nat :=
  if s.bootMapped then
    if a < 0x100 then some a
    else if s.params.cgb ∧ 0x200 ≤ a ∧ a < 0x900 then some (a - 0x100)
    else none
  else none

/-- The byte at an address, with the PPU's locks when `locks` is true (20 rules R210, R230). A DMA source is read without
them (62 rule R1160). -/
def State.peek (s : State) (locks : Bool) (addr : Word) : Byte :=
  match regionOf s.params.cgb addr with
  | .rom a =>
    match s.bootOffset a with
    | some i => Store.read s.bootRom i
    | none => s.cart.readRom a
  | .vram off => if locks && s.ppu.vramLocked then 0xFF else s.ppu.vramByte s.vramBank off
  | .cartRam off => s.cart.readRam s.params.ramPermissive (Config.freeByte s.draws) off
  | .wramLow off => Store.read s.wram off
  | .wramHigh off => Store.read s.wram (s.wramBank * 0x1000 + off)
  | .oam i => if locks && s.ppu.oamLocked then 0xFF else Store.read s.ppu.oam i
  | .io r => s.peekIo r
  | .hram i => Store.read s.hram i
  | .ie => s.ie
  | .unmapped => 0xFF

/-- Whether an address reaches the infrared receiver, whose reads are draws (61 rule R1061). -/
def State.infraredAt (s : State) (addr : Word) : Bool :=
  match regionOf s.params.cgb addr with
  | .cartRam off => decide (s.cart.ramTarget s.params.ramPermissive off = .infrared)
  | .rom _ | .vram _ | .wramLow _ | .wramHigh _ | .oam _ | .io _ | .hram _ | .ie | .unmapped => false

/-- Whether an address is DIV, TIMA or SB under TIMED = false, whose reads are draws (60 rule R873). -/
def State.untimedAt (s : State) (addr : Word) : Bool :=
  !s.params.timed &&
    match regionOf s.params.cgb addr with
    | .io .div | .io .tima | .io .sb => true
    | _ => false

end Sys2Proof.Machine
end

