-- ==== Sys2Proof/Machine/Dma.lean ====
section
/-! DEFINITION. OAM DMA and CGB VRAM DMA (62_ppu.md section 5). -/

namespace Sys2Proof.Machine

/-- Replace the PPU. -/
def State.setPpu (s : State) (p : Ppu) : State := { s with ppu := p }

/-- Take `n` free values: the model's counter moves past them (log 8, DESIGN CHOICE). -/
def State.draw (s : State) (n : Nat) : State := { s with draws := s.draws + n }

/-- Add cycles to the running instruction's cost: `Charge(n)` (70 rule R930). -/
def State.addCharge (s : State) (n : Nat) : State := { s with charge := s.charge + n }

/-- A DMA's CPU charge: a draw of at least 0 cycles (62 rules R1160, R1163, R1164). Log 9 (DEDUCED). -/
def State.chargeDraw (s : State) : State := (s.addCharge (Config.freeNat s.draws)).draw 1

/-! ### OAM DMA (62 rule R1160) -/

/-- Where `src(a)` reads: `a - 0x2000` from page 0xE0 on. -/
def oamDmaAddr (a : Word) : Word := if 0xE000 ≤ a.toNat then a - 0x2000 else a

/-- Byte `i` of the copy from page `v`. A HuC1 infrared source is a draw (61 rule R1061). -/
def State.oamDmaByte (s : State) (v : Byte) (i : Nat) : State :=
  let a := oamDmaAddr (v ++ BitVec.ofNat 8 i)
  (s.setPpu { s.ppu with oam := Store.write s.ppu.oam i (s.peek false a) }).draw (s.infraredAt a).toNat

/-- `n` bytes of the copy, from byte `i` on. -/
def State.oamDmaCopy (v : Byte) (n i : Nat) (s : State) : State :=
  match n with
  | 0 => s
  | k + 1 => State.oamDmaCopy v k (i + 1) (s.oamDmaByte v i)

/-- A write of `v` to 0xFF46: the register, the 160 bytes, the charge, and the bus window of 70 rule R923 (log 10, DEDUCED). -/
def State.oamDma (s : State) (v : Byte) : State :=
  let s1 := State.oamDmaCopy v 160 0 (s.setPpu { s.ppu with dma := v })
  { s1.chargeDraw with dmaUntil := s.cycles + 640 }

/-! ### VRAM DMA (62 rules R1161, R1163, R1164) -/

/-- Whether a VRAM DMA source byte is a draw. -/
def vramDmaOpen (a : Word) : Bool :=
  decide (0x8000 ≤ a.toNat ∧ a.toNat < 0xA000) || decide (0xE000 ≤ a.toNat)

/-- One byte of a block: the copy, and both addresses stepped. -/
def State.vramDmaByte (s : State) : State :=
  let p := s.ppu
  let v := if vramDmaOpen p.hdmaSrc then Config.freeByte s.draws else s.peek false p.hdmaSrc
  (s.setPpu { p with
    vram := Store.write p.vram (s.vramBank * 0x2000 + p.hdmaDst.toNat) v
    hdmaSrc := p.hdmaSrc + 1
    hdmaDst := p.hdmaDst + 1 }).draw (vramDmaOpen p.hdmaSrc || s.infraredAt p.hdmaSrc).toNat

/-- `n` bytes. -/
def State.vramDmaCopy (n : Nat) (s : State) : State :=
  match n with
  | 0 => s
  | k + 1 => State.vramDmaCopy k s.vramDmaByte

/-- `n` blocks of 16 bytes. -/
def State.vramDmaBlocks (n : Nat) (s : State) : State := State.vramDmaCopy (16 * n) s

/-- General-purpose DMA of `n` blocks (62 rule R1163). -/
def State.generalDma (s : State) (n : Nat) : State :=
  let s1 := State.vramDmaBlocks n s
  (s1.setPpu { s1.ppu with hdmaLeft := 0 }).chargeDraw

/-- The HBlank DMA block at a mode-0 entry (62 rule R1164), in CGB mode only (62 rule R1161; 20 rule R251). -/
def State.hblankDma (s : State) : State :=
  if s.params.cgb && s.ppu.hdmaActive then
    let s1 := State.vramDmaBlocks 1 s
    let left := s1.ppu.hdmaLeft - 1
    (s1.setPpu { s1.ppu with hdmaLeft := left, hdmaActive := decide (left ≠ 0) }).chargeDraw
  else s

/-- A write of `v` to HDMA5 (62 rule R1163). -/
def State.writeHdma5 (s : State) (v : Byte) : State :=
  if v.getLsbD 7 then s.setPpu { s.ppu with hdmaActive := true, hdmaLeft := v.toNat % 128 + 1 }
  else if s.ppu.hdmaActive then s.setPpu { s.ppu with hdmaActive := false }
  else s.generalDma (v.toNat % 128 + 1)

end Sys2Proof.Machine
end

