-- ==== Sys2Proof/Machine/PpuLine.lean ====
section
/-! DEFINITION. The PPU's line state machine (62_ppu.md sections 2 and 3). -/

namespace Sys2Proof.Machine

/-! ### Interrupt requests (60 rule R820) -/

/-- Set IF bit `i` when `b` holds. -/
def State.requestIf (s : State) (b : Bool) (i : Nat) : State :=
  { s with iflag := if b then s.iflag ||| BitVec.twoPow 5 i else s.iflag }

/-! ### Events -/

/-- `compare` (62 rule R1114): the request comes on a change from unequal to equal. -/
def State.compareLy (s : State) : State :=
  let eq := decide (s.ppu.lyVisible = s.ppu.lyc.toNat)
  (s.setPpu { s.ppu with coincidence := eq }).requestIf
    (eq && !s.ppu.coincidence && s.ppu.stat.getLsbD 6) 1

/-- What the PPU does at position 0 of a visible line (62 rules R1112, R1113; 63 rules R1221, R1230). -/
def Ppu.startLine (p : Ppu) : Ppu :=
  let sel := p.selectSprites
  { p with
    mode := .oamSearch
    sprites := sel
    spriteH := p.lcdcHeight
    mode3Len := p.mode3LenOf sel.length
    windowHit := false
    windowLine := if p.line = 0 then 0 else p.windowLine }

/-- The position-0 events of a visible line. -/
def State.lineStart (s : State) : State := (s.setPpu s.ppu.startLine).requestIf (s.ppu.stat.getLsbD 5) 1

/-- The mode-0 entry of a visible line (62 rule R1112; 63 rule R1221). -/
def Ppu.endTransfer (p : Ppu) : Ppu :=
  { p with mode := .hblank, windowLine := if p.windowHit then p.windowLine + 1 else p.windowLine }

/-- The events at position 80 + L3 of a visible line. -/
def State.hblankEntry (s : State) : State :=
  ((s.setPpu s.ppu.endTransfer).requestIf (s.ppu.stat.getLsbD 3) 1).hblankDma

/-- The events at position 0 of line 144. -/
def State.vblankEntry (s : State) : State :=
  ((s.setPpu { s.ppu with mode := .vblank, frames := s.ppu.frames + 1 }).requestIf true 0).requestIf
    (s.ppu.stat.getLsbD 4) 1

/-- The events at the PPU's position (62 rule R1112). -/
def State.ppuEvents (s : State) : State :=
  if s.ppu.line < 144 then
    if s.ppu.lineCycle = 0 then s.lineStart
    else if s.ppu.lineCycle = 80 then s.setPpu { s.ppu with mode := .transfer }
    else if s.ppu.lineCycle = 80 + s.ppu.mode3Len then s.hblankEntry
    else s
  else if s.ppu.line = 144 ∧ s.ppu.lineCycle = 0 then s.vblankEntry
  else if s.ppu.line = 153 ∧ s.ppu.lineCycle = 448 then s.compareLy
  else s

/-- One cycle further, with the line change after cycle 455 (62 rules R1110, R1112). -/
def State.ppuAdvance (s : State) : State :=
  if s.ppu.lineCycle + 1 < 456 then s.setPpu { s.ppu with lineCycle := s.ppu.lineCycle + 1 }
  else (s.setPpu { s.ppu with line := (s.ppu.line + 1) % 154, lineCycle := 0 }).compareLy

/-- Compose the pixel whose time is the PPU's position (63 rule R1201). -/
def State.ppuPixel (s : State) : State :=
  if s.ppu.line < 144 ∧ 80 ≤ s.ppu.lineCycle ∧ s.ppu.lineCycle < 240 then
    s.setPpu (s.ppu.compose s.params.cgb (s.ppu.lineCycle - 80))
  else s

/-- One PPU cycle: nothing while the LCD is off (62 rules R1110, R1116). -/
def State.ppuCycle (s : State) : State :=
  if s.ppu.lcdOn then s.ppuAdvance.ppuEvents.ppuPixel else s

/-- `PpuTick(n)` (62 rule R1110). -/
def State.ppuRun (n : Nat) (s : State) : State :=
  match n with
  | 0 => s
  | k + 1 => State.ppuRun k s.ppuCycle

/-! ### Register writes that move the line machine -/

/-- Put the PPU at line 0, position 0, with the events of that position and the compare: what turning the LCD on does
(62 rule R1116), and an LY write with the LCD on (62 rule R1115). -/
def State.restartFrame (s : State) : State :=
  ((s.setPpu { s.ppu with line := 0, lineCycle := 0 }).lineStart).compareLy

/-- A write of `v` to LCDC (62 rules R1102, R1116). -/
def State.writeLcdc (s : State) (v : Byte) : State :=
  let s1 := s.setPpu { s.ppu with lcdc := v }
  if s.ppu.lcdOn && !v.getLsbD 7 then s1.setPpu { s1.ppu with line := 0, lineCycle := 0, mode := .hblank }
  else if !s.ppu.lcdOn && v.getLsbD 7 then s1.restartFrame
  else s1

/-- A write to LY (62 rule R1115; 63 rule R1221). With the LCD off only the line and the window counter are reset; log 25 (DEDUCED). -/
def State.writeLy (s : State) : State :=
  if s.ppu.lcdOn then s.restartFrame
  else s.setPpu { s.ppu with line := 0, lineCycle := 0, windowLine := 0 }

/-- A write of `v` to LYC (62 rule R1114). -/
def State.writeLyc (s : State) (v : Byte) : State :=
  let s1 := s.setPpu { s.ppu with lyc := v }
  if s.ppu.lcdOn then s1.compareLy else s1

end Sys2Proof.Machine
end

