-- ==== Sys2Proof/Machine/Bus.lean ====
section
/-! DEFINITION. The bus: `MemRead` and `MemWrite` with every register's write effect and the OAM DMA window (20_memory.md;
70 rule R923). No access changes the CPU's own state (`State.cpu`). -/

namespace Sys2Proof.Machine

/-! ### The OAM DMA window (70 rule R923) -/

/-- Whether an access to `a` falls in the window: 640 cycles after a write to 0xFF46, outside 0xFF80-0xFFFE. Untimed, where
no rule depends on a cycle count (70 rule R935), any time after such a write. Log 10 (DEDUCED), log 33 (DEDUCED). -/
def State.windowOpen (s : State) (a : Word) : Bool :=
  !(decide (0xFF80 ≤ a.toNat) && decide (a.toNat < 0xFFFF)) &&
    (if s.params.timed then decide (s.cycles < s.dmaUntil) else decide (s.dmaUntil ≠ 0))

/-- Whether a read of `a` is a draw because of the window; untimed, that too is open. Log 10 (DEDUCED). -/
def State.windowReads (s : State) (a : Word) : Bool :=
  s.windowOpen a && (s.params.timed || Config.freeBool s.draws)

/-! ### Reads -/

/-- The byte `MemRead(a, 1)` returns (20 rule R210): a free value where the window (70 rule R923) or TIMED = false (60 rule
R873) makes it a draw. -/
def State.busRead (s : State) (a : Word) : Byte :=
  if s.windowReads a || s.untimedAt a then Config.freeByte s.draws else s.peek true a

/-- The number of free values a read of `a` looked at. -/
def State.readDraws (s : State) (a : Word) : Nat := (s.windowOpen a || s.untimedAt a || s.infraredAt a).toNat

/-- The state after a read: no read has a side effect (20 rule R222); only the model's counter of free values moves. -/
def State.afterRead (s : State) (a : Word) : State := s.draw (s.readDraws a)

/-! ### Register writes -/

/-- Replace the joypad; IF bit 4 is requested when a line falls (60 rule R874). -/
def State.setJoypad (s : State) (j : Joypad) : State :=
  ({ s with joy := j } : State).requestIf (decide (s.joy.lines &&& ~~~ j.lines ≠ 0)) 4

/-- A write of `v` to P1. -/
def State.writeP1 (s : State) (v : Byte) : State := s.setJoypad { s.joy with sel := (v >>> 4).setWidth 2 }

/-- The serial budget (60 rule R840) for the register value `sc`. -/
def Params.serialBudget (p : Params) (sc : Byte) : Nat :=
  if p.cgb && sc.getLsbD 1 then p.serialFast else p.serialNormal

/-- The stored bits of SC: 7, 0, and in CGB mode 1 (10 rule R127). -/
def Params.scMask (p : Params) : Byte := if p.cgb then 0x83 else 0x81

/-- A write of `v` to SC: it starts a transfer or cancels one (60 rule R840). Log 30 (DEDUCED). An eighth of the budget is rounded
down: log 34 (DESIGN CHOICE). -/
def State.writeSc (s : State) (v : Byte) : State :=
  let sc := v &&& s.params.scMask
  if v.getLsbD 7 && v.getLsbD 0 then
    { s with serial := { s.serial with sc := sc, bits := 8, phase := ((s.params.serialBudget sc / 8 : Nat) : Int) } }
  else { s with serial := { s.serial with sc := sc, bits := 0 } }

/-- The palette index after a data write: it advances when bit 7 is set (62 rule R1151). -/
def bumpPaletteIndex (r : Byte) : Byte := if r.getLsbD 7 then (r &&& 0x80) ||| ((r + 1) &&& 0x3F) else r

/-- A write of `v` to BCPD (62 rule R1151). -/
def Ppu.writeBcpd (p : Ppu) (v : Byte) : Ppu :=
  { p with
    bgPal := if p.vramLocked then p.bgPal else Store.write p.bgPal (p.bcps.toNat % 64) v
    bcps := bumpPaletteIndex p.bcps }

/-- A write of `v` to OCPD (62 rule R1151). -/
def Ppu.writeOcpd (p : Ppu) (v : Byte) : Ppu :=
  { p with
    objPal := if p.vramLocked then p.objPal else Store.write p.objPal (p.ocps.toNat % 64) v
    ocps := bumpPaletteIndex p.ocps }

/-- A write of `v` to an I/O register (20 rule R238; 10 section 4; 60 rule R874; 62 rule R1101; 64 rule R1301). -/
def State.writeIo (s : State) (r : IoReg) (v : Byte) : State :=
  match r with
  | .p1 => s.writeP1 v
  | .sb => { s with serial := { s.serial with sb := v } }
  | .sc => s.writeSc v
  | .div => { s with timer := { s.timer with div16 := 0 } }
  | .tima => { s with timer := { s.timer with tima := v } }
  | .tma => { s with timer := { s.timer with tma := v } }
  | .tac => { s with timer := { s.timer with tac := v.setWidth 3 } }
  | .iflag => { s with iflag := v.setWidth 5 }
  | .apu r => { s with apu := s.apu.writeReg r v }
  | .nr52 => { s with apu := s.apu.writeNr52 v }
  | .wave i => { s with apu := { s.apu with wave := Store.write s.apu.wave i v } }
  | .lcdc => s.writeLcdc v
  | .stat => s.setPpu { s.ppu with stat := v &&& 0x78 }
  | .scy => s.setPpu { s.ppu with scy := v }
  | .scx => s.setPpu { s.ppu with scx := v }
  | .ly => s.writeLy
  | .lyc => s.writeLyc v
  | .dma => s.oamDma v
  | .bgp => s.setPpu { s.ppu with bgp := v }
  | .obp0 => s.setPpu { s.ppu with obp0 := v }
  | .obp1 => s.setPpu { s.ppu with obp1 := v }
  | .wy => s.setPpu { s.ppu with wy := v }
  | .wx => s.setPpu { s.ppu with wx := v }
  | .key1 => { s with key1Prep := v.getLsbD 0 }
  | .vbk => s.setPpu { s.ppu with vbk := v.setWidth 1 }
  | .boot => { s with bootMapped := s.bootMapped && !v.getLsbD 0 }
  | .hdma1 => s.setPpu { s.ppu with hdmaSrc := v ++ s.ppu.hdmaSrc.setWidth 8 }
  | .hdma2 => s.setPpu { s.ppu with hdmaSrc := (s.ppu.hdmaSrc >>> 8).setWidth 8 ++ (v &&& 0xF0) }
  | .hdma3 => s.setPpu { s.ppu with hdmaDst := v.setWidth 5 ++ s.ppu.hdmaDst.setWidth 8 }
  | .hdma4 => s.setPpu { s.ppu with hdmaDst := (s.ppu.hdmaDst >>> 8).setWidth 5 ++ (v &&& 0xF0) }
  | .hdma5 => s.writeHdma5 v
  | .bcps => s.setPpu { s.ppu with bcps := v &&& 0xBF }
  | .bcpd => s.setPpu (s.ppu.writeBcpd v)
  | .ocps => s.setPpu { s.ppu with ocps := v &&& 0xBF }
  | .ocpd => s.setPpu (s.ppu.writeOcpd v)
  | .svbk => { s with svbk := v.setWidth 3 }

/-! ### Writes -/

/-- The effect of a CPU write by region (20 rules R211, R230). -/
def State.storeAt (s : State) (r : Region) (v : Byte) : State :=
  match r with
  | .rom a => { s with cart := s.cart.control a v }
  | .vram off =>
    if s.ppu.vramLocked then s
    else s.setPpu { s.ppu with vram := Store.write s.ppu.vram (s.vramBank * 0x2000 + off) v }
  | .cartRam off => { s with cart := s.cart.writeRam s.params.ramPermissive off v }
  | .wramLow off => { s with wram := Store.write s.wram off v }
  | .wramHigh off => { s with wram := Store.write s.wram (s.wramBank * 0x1000 + off) v }
  | .oam i => if s.ppu.oamLocked then s else s.setPpu { s.ppu with oam := Store.write s.ppu.oam i v }
  | .io r => s.writeIo r v
  | .hram i => { s with hram := Store.write s.hram i v }
  | .ie => { s with ie := v }
  | .unmapped => s

/-- `MemWrite(a, 1, v)` (20 rule R211). In the OAM DMA window whether the write is discarded is a draw (70 rule R923). -/
def State.busWrite (s : State) (a : Word) (v : Byte) : State :=
  if s.windowOpen a then
    if Config.freeBool s.draws then s.draw 1 else (s.draw 1).storeAt (regionOf s.params.cgb a) v
  else s.storeAt (regionOf s.params.cgb a) v

end Sys2Proof.Machine
end

