-- ==== Sys2Proof/Machine/Flags.lean ====
section
/-! DEFINITION. Flag computations and 8-bit and 16-bit arithmetic results, as pure functions (00 section 5; 10 rule R110; 42, 43
and 44). An operation answers its result and its flags. -/

namespace Sys2Proof.Machine

/-! ### F as a byte (10 rule R110) -/

/-- `F = Z<<7 | N<<6 | Hf<<5 | Cf<<4`; bits 3 to 0 read 0. -/
def Flags.toByte (f : Flags) : Byte :=
  BitVec.ofNat 8 (f.z.toNat * 128 + f.n.toNat * 64 + f.h.toNat * 32 + f.c.toNat * 16)

/-- The flags of a byte written to F; bits 3 to 0 are discarded. -/
def Flags.ofByte (v : Byte) : Flags :=
  { z := v.getLsbD 7, n := v.getLsbD 6, h := v.getLsbD 5, c := v.getLsbD 4 }

/-! ### Carries and borrows (00 section 5) -/

/-- `carry4(a, b, c)`. -/
def carry4 (a b : Byte) (c : Bool) : Bool := decide (0xF < a.toNat % 16 + b.toNat % 16 + c.toNat)

/-- `borrow4(a, b, c)`. -/
def borrow4 (a b : Byte) (c : Bool) : Bool := decide (a.toNat % 16 < b.toNat % 16 + c.toNat)

/-- `carry8(a, b, c)`. -/
def carry8 (a b : Byte) (c : Bool) : Bool := decide (0xFF < a.toNat + b.toNat + c.toNat)

/-- `borrow8(a, b, c)`. -/
def borrow8 (a b : Byte) (c : Bool) : Bool := decide (a.toNat < b.toNat + c.toNat)

/-- A flag as a byte 0 or 1. -/
def bitByte (c : Bool) : Byte := if c then 1 else 0

/-! ### The 8-bit ALU functions (42 rules R501 to R508) -/

/-- `alu_ADD` for c = false, `alu_ADC` for c = Cf (42 rules R501, R502). -/
def aluAdd (a v : Byte) (c : Bool) : Byte × Flags :=
  let r := a + v + bitByte c
  (r, { z := decide (r = 0), n := false, h := carry4 a v c, c := carry8 a v c })

/-- `alu_SUB` for c = false, `alu_SBC` for c = Cf (42 rules R503, R504); `alu_CP` keeps its flags alone (R508). -/
def aluSub (a v : Byte) (c : Bool) : Byte × Flags :=
  let r := a - v - bitByte c
  (r, { z := decide (r = 0), n := true, h := borrow4 a v c, c := borrow8 a v c })

/-- `alu_AND` (42 rule R505). -/
def aluAnd (a v : Byte) : Byte × Flags :=
  (a &&& v, { z := decide (a &&& v = 0), n := false, h := true, c := false })

/-- `alu_XOR` (42 rule R506). -/
def aluXor (a v : Byte) : Byte × Flags :=
  (a ^^^ v, { z := decide (a ^^^ v = 0), n := false, h := false, c := false })

/-- `alu_OR` (42 rule R507). -/
def aluOr (a v : Byte) : Byte × Flags :=
  (a ||| v, { z := decide (a ||| v = 0), n := false, h := false, c := false })

/-- INC on a byte (42 rules R540, R541); Cf is kept. -/
def incByte (v : Byte) (f : Flags) : Byte × Flags :=
  (v + 1, { z := decide (v + 1 = 0), n := false, h := decide (v.toNat % 16 = 15), c := f.c })

/-- DEC on a byte (42 rules R542, R543); Cf is kept. -/
def decByte (v : Byte) (f : Flags) : Byte × Flags :=
  (v - 1, { z := decide (v - 1 = 0), n := true, h := decide (v.toNat % 16 = 0), c := f.c })

/-- The adjusted value and carry of DAA (42 rule R545). The +0x60 does not change the low nibble the second test looks at. -/
def daaAdjust (a : Byte) (f : Flags) : Byte × Bool :=
  if f.n then (a - (if f.c then 0x60 else 0) - (if f.h then 0x06 else 0), f.c)
  else
    let high := f.c || decide (0x99 < a.toNat)
    let low := f.h || decide (9 < a.toNat % 16)
    (a + (if high then 0x60 else 0) + (if low then 0x06 else 0), high)

/-- DAA (42 rule R545). -/
def daaByte (a : Byte) (f : Flags) : Byte × Flags :=
  let r := daaAdjust a f
  (r.1, { z := decide (r.1 = 0), n := f.n, h := false, c := r.2 })

/-! ### 16-bit arithmetic (43) -/

/-- ADD HL,rr (43 rule R560): the carries out of bits 11 and 15; Z is kept. -/
def addWords (a v : Word) (f : Flags) : Word × Flags :=
  (a + v,
    { z := f.z, n := false, h := decide (0xFFF < a.toNat % 4096 + v.toNat % 4096), c := decide (0xFFFF < a.toNat + v.toNat) })

/-- `spe(e)` (43 rule R563): SP plus a signed byte, the carries of the unsigned low bytes. -/
def spe (sp : Word) (e : Byte) : Word × Flags :=
  (sp + e.signExtend 16,
    { z := false, n := false, h := carry4 (sp.setWidth 8) e false, c := carry8 (sp.setWidth 8) e false })

/-! ### Rotates and shifts (44) -/

/-- The flags of a CB rotate or shift: Z <- (res = 0), N and Hf 0, Cf <- out (44 section 3). -/
def shiftFlags (r : Byte) (out : Bool) : Flags := { z := decide (r = 0), n := false, h := false, c := out }

/-- RLC: bit 7 goes to Cf and to bit 0 (44 rules R600, R610). -/
def rlcByte (v : Byte) : Byte × Flags :=
  let r := (v <<< 1) ||| bitByte (v.getLsbD 7)
  (r, shiftFlags r (v.getLsbD 7))

/-- RRC: bit 0 goes to Cf and to bit 7 (44 rules R601, R612). -/
def rrcByte (v : Byte) : Byte × Flags :=
  let r := (v >>> 1) ||| (bitByte (v.getLsbD 0) <<< 7)
  (r, shiftFlags r (v.getLsbD 0))

/-- RL: the old Cf enters bit 0 (44 rules R602, R614). -/
def rlByte (v : Byte) (c : Bool) : Byte × Flags :=
  let r := (v <<< 1) ||| bitByte c
  (r, shiftFlags r (v.getLsbD 7))

/-- RR: the old Cf enters bit 7 (44 rules R603, R616). -/
def rrByte (v : Byte) (c : Bool) : Byte × Flags :=
  let r := (v >>> 1) ||| (bitByte c <<< 7)
  (r, shiftFlags r (v.getLsbD 0))

/-- SLA: 0 enters bit 0 (44 rule R618). -/
def slaByte (v : Byte) : Byte × Flags := (v <<< 1, shiftFlags (v <<< 1) (v.getLsbD 7))

/-- SRA: bit 7 is kept (44 rule R620). -/
def sraByte (v : Byte) : Byte × Flags :=
  let r := (v >>> 1) ||| (v &&& 0x80)
  (r, shiftFlags r (v.getLsbD 0))

/-- SWAP: the nibbles exchanged, Cf 0 (44 rule R622). -/
def swapByte (v : Byte) : Byte × Flags :=
  let r := ((v &&& 0x0F) <<< 4) ||| (v >>> 4)
  (r, shiftFlags r false)

/-- SRL: 0 enters bit 7 (44 rule R624). -/
def srlByte (v : Byte) : Byte × Flags := (v >>> 1, shiftFlags (v >>> 1) (v.getLsbD 0))

/-- The accumulator rotates clear Z whatever the result (44 rules R600 to R603). -/
def clearZ (r : Byte × Flags) : Byte × Flags := (r.1, { r.2 with z := false })

/-! ### Bits (44 section 4) -/

/-- The flags of BIT: Z <- not the bit, N 0, Hf 1, Cf kept (44 rules R630, R631). -/
def bitFlags (n : BitVec 3) (v : Byte) (f : Flags) : Flags :=
  { z := !v.getLsbD n.toNat, n := false, h := true, c := f.c }

/-- RES (44 rules R632, R633). -/
def resByte (n : BitVec 3) (v : Byte) : Byte := v &&& ~~~ (BitVec.twoPow 8 n.toNat)

/-- SET (44 rules R634, R635). -/
def setByte (n : BitVec 3) (v : Byte) : Byte := v ||| BitVec.twoPow 8 n.toNat

end Sys2Proof.Machine
end

