-- ==== Sys2Proof/Syntax.lean ====
section
/-! DEFINITION. The instructions: one constructor per instruction rule of spec files 40 to 46. A row of
spec/opcode_table.json is a constructor with its register, condition, bit or target filled in. -/

namespace Sys2Proof

/-- The 8-bit registers that `r8` selects (30 rule R310), code 6, the byte at HL, left out. -/
inductive Reg8 | b | c | d | e | h | l | a
  deriving DecidableEq, Repr

/-- `r16` (30 rule R311). -/
inductive Reg16 | bc | de | hl | sp
  deriving DecidableEq, Repr

/-- `r16stk` (30 rule R312). -/
inductive StkReg | bc | de | hl | af
  deriving DecidableEq, Repr

/-- `cond` (30 rule R313). -/
inductive Cond | nz | z | nc | c
  deriving DecidableEq, Repr

/-- The instruction set. The comment of a constructor names its rule. -/
inductive Instr
  -- 40_load8.md
  /-- LD r,r' (R400) -/
  | ldRR (dst src : Reg8)
  /-- LD r,n (R401) -/
  | ldRN (dst : Reg8) (n : Byte)
  /-- LD r,(HL) (R402) -/
  | ldRHl (dst : Reg8)
  /-- LD (HL),r (R403) -/
  | ldHlR (src : Reg8)
  /-- LD (HL),n (R404) -/
  | ldHlN (n : Byte)
  /-- LD A,(BC) (R405) -/
  | ldABc
  /-- LD A,(DE) (R406) -/
  | ldADe
  /-- LD (BC),A (R407) -/
  | ldBcA
  /-- LD (DE),A (R408) -/
  | ldDeA
  /-- LD A,(nn) (R409) -/
  | ldANn (a : Word)
  /-- LD (nn),A (R410) -/
  | ldNnA (a : Word)
  /-- LDH A,(C) (R411) -/
  | ldhAC
  /-- LDH (C),A (R412) -/
  | ldhCA
  /-- LDH A,(n) (R413) -/
  | ldhAN (n : Byte)
  /-- LDH (n),A (R414) -/
  | ldhNA (n : Byte)
  /-- LD A,(HL-) (R415) -/
  | ldAHld
  /-- LD (HL-),A (R416) -/
  | ldHldA
  /-- LD A,(HL+) (R417) -/
  | ldAHli
  /-- LD (HL+),A (R418) -/
  | ldHliA
  -- 41_load16_stack.md
  /-- LD rr,nn (R450) -/
  | ldRrNn (rr : Reg16) (v : Word)
  /-- LD (nn),SP (R451) -/
  | ldNnSp (a : Word)
  /-- LD SP,HL (R452) -/
  | ldSpHl
  /-- LD HL,SP+e (R453) -/
  | ldHlSpE (e : Byte)
  /-- PUSH rr (R462) -/
  | push (q : StkReg)
  /-- POP rr for BC, DE, HL (R463) -/
  | pop (q : StkReg)
  /-- POP AF (R464) -/
  | popAf
  -- 42_alu8.md
  /-- ADD A,r (R510) -/
  | addR (src : Reg8)
  /-- ADD A,(HL) (R511) -/
  | addHl
  /-- ADD A,n (R512) -/
  | addN (n : Byte)
  /-- ADC A,r (R513) -/
  | adcR (src : Reg8)
  /-- ADC A,(HL) (R514) -/
  | adcHl
  /-- ADC A,n (R515) -/
  | adcN (n : Byte)
  /-- SUB A,r (R516) -/
  | subR (src : Reg8)
  /-- SUB A,(HL) (R517) -/
  | subHl
  /-- SUB A,n (R518) -/
  | subN (n : Byte)
  /-- SBC A,r (R519) -/
  | sbcR (src : Reg8)
  /-- SBC A,(HL) (R520) -/
  | sbcHl
  /-- SBC A,n (R521) -/
  | sbcN (n : Byte)
  /-- AND A,r (R522) -/
  | andR (src : Reg8)
  /-- AND A,(HL) (R523) -/
  | andHl
  /-- AND A,n (R524) -/
  | andN (n : Byte)
  /-- XOR A,r (R525) -/
  | xorR (src : Reg8)
  /-- XOR A,(HL) (R526) -/
  | xorHl
  /-- XOR A,n (R527) -/
  | xorN (n : Byte)
  /-- OR A,r (R528) -/
  | orR (src : Reg8)
  /-- OR A,(HL) (R529) -/
  | orHl
  /-- OR A,n (R530) -/
  | orN (n : Byte)
  /-- CP A,r (R531) -/
  | cpR (src : Reg8)
  /-- CP A,(HL) (R532) -/
  | cpHl
  /-- CP A,n (R533) -/
  | cpN (n : Byte)
  /-- INC r (R540) -/
  | incR (dst : Reg8)
  /-- INC (HL) (R541) -/
  | incHl
  /-- DEC r (R542) -/
  | decR (dst : Reg8)
  /-- DEC (HL) (R543) -/
  | decHl
  /-- DAA (R545) -/
  | daa
  /-- CPL (R546) -/
  | cpl
  /-- SCF (R547) -/
  | scf
  /-- CCF (R548) -/
  | ccf
  -- 43_alu16.md
  /-- ADD HL,rr (R560) -/
  | addHlRr (rr : Reg16)
  /-- INC rr (R561) -/
  | incRr (rr : Reg16)
  /-- DEC rr (R562) -/
  | decRr (rr : Reg16)
  /-- ADD SP,e (R563) -/
  | addSpE (e : Byte)
  -- 44_rotate_shift_bit.md
  /-- RLCA (R600) -/
  | rlca
  /-- RRCA (R601) -/
  | rrca
  /-- RLA (R602) -/
  | rla
  /-- RRA (R603) -/
  | rra
  /-- RLC r (R610) -/
  | rlcR (r : Reg8)
  /-- RLC (HL) (R611) -/
  | rlcHl
  /-- RRC r (R612) -/
  | rrcR (r : Reg8)
  /-- RRC (HL) (R613) -/
  | rrcHl
  /-- RL r (R614) -/
  | rlR (r : Reg8)
  /-- RL (HL) (R615) -/
  | rlHl
  /-- RR r (R616) -/
  | rrR (r : Reg8)
  /-- RR (HL) (R617) -/
  | rrHl
  /-- SLA r (R618) -/
  | slaR (r : Reg8)
  /-- SLA (HL) (R619) -/
  | slaHl
  /-- SRA r (R620) -/
  | sraR (r : Reg8)
  /-- SRA (HL) (R621) -/
  | sraHl
  /-- SWAP r (R622) -/
  | swapR (r : Reg8)
  /-- SWAP (HL) (R623) -/
  | swapHl
  /-- SRL r (R624) -/
  | srlR (r : Reg8)
  /-- SRL (HL) (R625) -/
  | srlHl
  /-- BIT b,r (R630) -/
  | bitR (n : BitVec 3) (r : Reg8)
  /-- BIT b,(HL) (R631) -/
  | bitHl (n : BitVec 3)
  /-- RES b,r (R632) -/
  | resR (n : BitVec 3) (r : Reg8)
  /-- RES b,(HL) (R633) -/
  | resHl (n : BitVec 3)
  /-- SET b,r (R634) -/
  | setR (n : BitVec 3) (r : Reg8)
  /-- SET b,(HL) (R635) -/
  | setHl (n : BitVec 3)
  -- 45_control.md
  /-- JP nn (R650) -/
  | jpNn (a : Word)
  /-- JP cc,nn (R651) -/
  | jpCc (cc : Cond) (a : Word)
  /-- JP HL (R652) -/
  | jpHl
  /-- JR e (R653) -/
  | jrE (e : Byte)
  /-- JR cc,e (R654) -/
  | jrCc (cc : Cond) (e : Byte)
  /-- CALL nn (R655) -/
  | callNn (a : Word)
  /-- CALL cc,nn (R656) -/
  | callCc (cc : Cond) (a : Word)
  /-- RET (R657) -/
  | ret
  /-- RET cc (R658) -/
  | retCc (cc : Cond)
  /-- RETI (R661) -/
  | reti
  /-- RST t (R665) -/
  | rst (t : BitVec 3)
  -- 46_system.md
  /-- NOP (R700) -/
  | nop
  /-- HALT (R701) -/
  | halt
  /-- STOP (R705) -/
  | stop
  /-- DI (R706) -/
  | di
  /-- EI (R707) -/
  | ei
  /-- One of the eleven undefined base bytes (R710) -/
  | illegal (op : Byte)
  /-- The row PREFIX: the byte 0xCB by itself (R712). Log 16 (DESIGN CHOICE). -/
  | cbPrefix
  deriving DecidableEq, Repr

end Sys2Proof
end

