-- ==== Sys2Proof/Machine/Operands.lean ====
section
/-! DEFINITION. The operand forms: the register file and its 16-bit views, conditions, branch targets, and the bytes an operand
address reaches (10 sections 1 to 3; 30 rules R310 to R325). -/

namespace Sys2Proof.Machine

/-! ### Registers -/

/-- `r8(code)` for a register (30 rule R310). -/
def Cpu.reg (p : Cpu) (r : Reg8) : Byte :=
  match r with
  | .b => p.b
  | .c => p.c
  | .d => p.d
  | .e => p.e
  | .h => p.h
  | .l => p.l
  | .a => p.a

/-- Write an 8-bit register. -/
def Cpu.setReg (p : Cpu) (r : Reg8) (v : Byte) : Cpu :=
  match r with
  | .b => { p with b := v }
  | .c => { p with c := v }
  | .d => { p with d := v }
  | .e => { p with e := v }
  | .h => { p with h := v }
  | .l => { p with l := v }
  | .a => { p with a := v }

/-- The high byte of a word. -/
def hiByte (v : Word) : Byte := (v >>> 8).setWidth 8

/-- The low byte of a word. -/
def loByte (v : Word) : Byte := v.setWidth 8

/-- The view HL (10 rule R102). -/
def Cpu.hl (p : Cpu) : Word := p.h ++ p.l

/-- Write HL. -/
def Cpu.setHl (p : Cpu) (v : Word) : Cpu := { p with h := hiByte v, l := loByte v }

/-- `r16(rr)` (30 rule R311; 10 rule R102). -/
def Cpu.pair (p : Cpu) (rr : Reg16) : Word :=
  match rr with
  | .bc => p.b ++ p.c
  | .de => p.d ++ p.e
  | .hl => p.h ++ p.l
  | .sp => p.sp

/-- Write `r16(rr)`: both halves of a pair. -/
def Cpu.setPair (p : Cpu) (rr : Reg16) (v : Word) : Cpu :=
  match rr with
  | .bc => { p with b := hiByte v, c := loByte v }
  | .de => { p with d := hiByte v, e := loByte v }
  | .hl => { p with h := hiByte v, l := loByte v }
  | .sp => { p with sp := v }

/-- `r16stk(qq)` (30 rule R312): AF is A : F. -/
def Cpu.stackPair (p : Cpu) (q : StkReg) : Word :=
  match q with
  | .bc => p.b ++ p.c
  | .de => p.d ++ p.e
  | .hl => p.h ++ p.l
  | .af => p.a ++ p.f.toByte

/-- Write `r16stk(qq)`; a write to AF keeps the high nibble of F alone (10 rule R110). -/
def Cpu.setStackPair (p : Cpu) (q : StkReg) (v : Word) : Cpu :=
  match q with
  | .bc => { p with b := hiByte v, c := loByte v }
  | .de => { p with d := hiByte v, e := loByte v }
  | .hl => { p with h := hiByte v, l := loByte v }
  | .af => { p with a := hiByte v, f := Flags.ofByte (loByte v) }

/-- `cond(cc)` (30 rule R313). -/
def Flags.holds (f : Flags) (cc : Cond) : Bool :=
  match cc with
  | .nz => !f.z
  | .z => f.z
  | .nc => !f.c
  | .c => f.c

/-! ### Addresses -/

/-- The high page: 0xFF00 + n (30 rules R323, R324). -/
def highPage (n : Byte) : Word := 0xFF#8 ++ n

/-- A relative target: PC + sval(e), modulo 2^16 (45 rule R653). -/
def relative (pc : Word) (e : Byte) : Word := pc + e.signExtend 16

/-! ### State-level accessors -/

/-- Replace the CPU's own state. -/
def State.setCpu (s : State) (p : Cpu) : State := { s with cpu := p }

/-- Write an 8-bit register. -/
def State.setReg (s : State) (r : Reg8) (v : Byte) : State := s.setCpu (s.cpu.setReg r v)

/-- Write a pair or SP. -/
def State.setPair (s : State) (rr : Reg16) (v : Word) : State := s.setCpu (s.cpu.setPair rr v)

/-- Write the flags. -/
def State.setFlags (s : State) (f : Flags) : State := s.setCpu { s.cpu with f := f }

/-- Write A and the flags. -/
def State.setAcc (s : State) (r : Byte × Flags) : State := s.setCpu { s.cpu with a := r.1, f := r.2 }

/-- Write a register and the flags. -/
def State.setRegFlags (s : State) (r : Reg8) (x : Byte × Flags) : State :=
  s.setCpu { s.cpu.setReg r x.1 with f := x.2 }

/-- Write PC. -/
def State.jump (s : State) (a : Word) : State := s.setCpu { s.cpu with pc := a }

/-! ### Memory operands -/

/-- A read-modify-write of the byte at HL: one read, then one write of the same address, then the flags (20 rule R220; 42 rules
R541, R543; 44 rule R605). -/
def State.modifyHl (s : State) (f : Byte → Byte × Flags) : State :=
  let a := s.cpu.hl
  let r := f (s.busRead a)
  ((s.afterRead a).busWrite a r.1).setFlags r.2

end Sys2Proof.Machine
end

