-- ==== Sys2Proof/Machine/Tick.lean ====
section
/-! DEFINITION. `Tick`: the clocks after an instruction's effect, in the order of 60 rule R811. -/

namespace Sys2Proof.Machine

/-! ### The timer (60 rules R830 to R833) -/

/-- The timer period the clock select gives (10 rule R125). -/
def timerPeriod (tac : BitVec 3) : Nat :=
  match tac.toNat % 4 with
  | 0 => 1024
  | 1 => 16
  | 2 => 64
  | _ => 256

/-- One increment of TIMA: at 0xFF it reloads from TMA (60 rule R832). -/
def Timer.increment (t : Timer) : Timer := if t.tima = 0xFF then { t with tima := t.tma } else { t with tima := t.tima + 1 }

/-- `n` increments, with whether one of them overflowed. -/
def Timer.increments (n : Nat) (t : Timer) (overflowed : Bool) : Timer × Bool :=
  match n with
  | 0 => (t, overflowed)
  | k + 1 => Timer.increments k t.increment (overflowed || decide (t.tima = 0xFF))

/-- DIV and TIMA for `c` cycles, with whether TIMA overflowed (60 rules R830, R831, R833). -/
def Timer.tick (t : Timer) (c : Nat) : Timer × Bool :=
  let t1 := { t with div16 := t.div16 + BitVec.ofNat 16 c }
  if t.tac.getLsbD 2 then
    let n := t.sub + c
    Timer.increments (n / timerPeriod t.tac) { t1 with sub := n % timerPeriod t.tac } false
  else (t1, false)

/-! ### The serial counter (60 rules R840 to R842) -/

/-- The shifts that are due, at most `n`, and whether the transfer completed; `bit` is an eighth of the budget. -/
def Serial.shifts (n : Nat) (bit : Int) (p : Serial) : Serial × Bool :=
  match n with
  | 0 => (p, false)
  | k + 1 =>
    if 0 < p.bits ∧ p.phase ≤ 0 then
      let p1 := { p with sb := (p.sb <<< 1) ||| 1, bits := p.bits - 1, phase := p.phase + bit }
      if p1.bits = 0 then ({ p1 with phase := 0, sc := p1.sc &&& 0x7F }, true) else Serial.shifts k bit p1
    else (p, false)

/-- The serial counter for `c` cycles, with whether the transfer completed (60 rules R840, R842). Nothing stands on the cable: log 27 (DEDUCED). -/
def Serial.tick (p : Serial) (budget c : Nat) : Serial × Bool :=
  if 0 < p.bits then
    Serial.shifts p.bits ((budget / 8 : Nat) : Int) { p with phase := p.phase - (c : Int) }
  else (p, false)

/-! ### The clocks in order -/

/-- The shift `ds` of the PPU's and the APU's share (60 rules R811, R813). -/
def State.speedShift (s : State) : Nat := if s.doubleSpeed then 1 else 0

/-- The PPU's part of `Tick`, `given` cycles of it done. An HBlank DMA block adds its charge to the `Tick` in which it falls
(62 rule R1164), so the share is computed again until no block has added to it; `fuel` bounds the blocks left. Log 9 (DEDUCED). -/
def State.tickPpu (fuel given : Nat) (s : State) : State :=
  match fuel with
  | 0 => s
  | k + 1 =>
    let share := s.charge >>> s.speedShift
    if share ≤ given then s else State.tickPpu k share (State.ppuRun (share - given) s)

/-- The APU's part: `n` APU cycles (64 rule R1310). -/
def State.tickApu (n : Nat) (s : State) : State := { s with apu := Apu.run n s.apu }

/-- The DIV and TIMA part for `c` cycles. -/
def State.tickTimer (c : Nat) (s : State) : State :=
  let r := s.timer.tick c
  ({ s with timer := r.1 } : State).requestIf r.2 2

/-- The serial part for `c` cycles; a bit takes an eighth of the budget, rounded down: log 34 (DESIGN CHOICE). -/
def State.tickSerial (c : Nat) (s : State) : State :=
  let r := s.serial.tick (s.params.serialBudget s.serial.sc) c
  ({ s with serial := r.1 } : State).requestIf r.2 3

/-- `Tick` with TIMED = true: the charge goes to `cycles`, the PPU, the APU, DIV and TIMA, and the serial counter, in this
order (60 rule R811). -/
def State.timedTick (s : State) : State :=
  let s1 := State.tickPpu (s.ppu.hdmaLeft + 2) 0 s
  let s2 := (s1.tickApu (s1.charge >>> s1.speedShift)).tickTimer s1.charge
  let s3 := s2.tickSerial s1.charge
  { s3 with cycles := s3.cycles + s1.charge, charge := 0 }

/-- What may happen to the timer chain at an untimed `Tick`: IF bits 2 and 3 may be set, and SC bit 7 may be cleared after a
start (60 rule R873). Log 11 (DEDUCED). -/
def State.untimedRequests (s : State) : State :=
  let ends := decide (0 < s.serial.bits) && Config.freeBool (s.draws + 2)
  let s1 := (s.requestIf (Config.freeBool s.draws) 2).requestIf (Config.freeBool (s.draws + 1)) 3
  let s2 : State :=
    if ends then { s1 with serial := { s1.serial with sc := s1.serial.sc &&& 0x7F, bits := 0, phase := 0 } } else s1
  s2.draw 3

/-- `Tick` with TIMED = false (60 rule R873): the PPU and the APU advance by draws, and the timer chain is draws. Log 11 (DEDUCED). -/
def State.untimedTick (s : State) : State :=
  let s1 := State.ppuRun (Config.freeNat s.draws) (s.draw 1)
  let s2 := (s1.tickApu (Config.freeNat s1.draws)).draw 1
  let s3 := s2.untimedRequests
  { s3 with cycles := s3.cycles + s3.charge, charge := 0 }

/-- `Tick` of the charge the step has gathered (60 rules R811, R873). -/
def State.tick (s : State) : State := if s.params.timed then s.timedTick else s.untimedTick

end Sys2Proof.Machine
end

