-- ==== Sys2Proof/Machine/Ops.lean ====
section
/-! DEFINITION. The named operations of the CPU: the stack, fetching an operand byte, taking an interrupt and returning from one,
the low-power states, and the host's joypad event. -/

namespace Sys2Proof.Machine

/-- An instruction that completes, with its cycle cost (70 rule R930). -/
def done (cost : Nat) (s : State) : Result := .next (s.addCharge cost)

/-! ### The stack (41 rules R460, R461) -/

/-- Half of `Push16`: SP steps down, then the byte is written there. -/
def State.pushByte (s : State) (v : Byte) : State :=
  (s.setCpu { s.cpu with sp := s.cpu.sp - 1 }).busWrite (s.cpu.sp - 1) v

/-- `Push16(v)`: the high byte first, at the higher address (41 rule R460). -/
def State.push16 (s : State) (v : Word) : State := (s.pushByte (hiByte v)).pushByte (loByte v)

/-- Half of `Pop16`: the state after reading the byte at SP and stepping SP up. -/
def State.popByte (s : State) : State := (s.afterRead s.cpu.sp).setCpu { s.cpu with sp := s.cpu.sp + 1 }

/-- The word `Pop16()` returns (41 rule R461). -/
def State.popValue (s : State) : Word := s.popByte.busRead s.popByte.cpu.sp ++ s.busRead s.cpu.sp

/-- The state after `Pop16()`. -/
def State.afterPop (s : State) : State := s.popByte.popByte

/-! ### Fetching an operand byte -/

/-- The state after `Fetch8()` (00 section 5); the byte is `s.busRead s.cpu.pc`. -/
def State.afterFetch (s : State) : State := (s.afterRead s.cpu.pc).setCpu { s.cpu with pc := s.cpu.pc + 1 }

/-! ### Interrupts (60 section 3) -/

/-- `IE & IF & 0x1F`. -/
def State.pending (s : State) : BitVec 5 := s.ie.setWidth 5 &&& s.iflag

/-- The matched-IRQ snapshot (10 rule R141). -/
def State.matched (s : State) : BitVec 5 := if s.cpu.ime then s.pending else 0

/-- The index of the lowest set bit: the source of highest priority (60 rule R823). -/
def lowestBit (m : BitVec 5) : Nat :=
  if m.getLsbD 0 then 0 else if m.getLsbD 1 then 1 else if m.getLsbD 2 then 2 else if m.getLsbD 3 then 3 else 4

/-- The fixed vector of source `i` (60 rule R820). -/
def vector (i : Nat) : Word := 0x40 + 8 * BitVec.ofNat 16 i

/-- The fate of a pending EI at a dispatch: it is kept or dropped, a draw (60 rule R822). Log 21 (DESIGN CHOICE). -/
def State.dropEi (s : State) : State :=
  if 0 < s.cpu.eiDelay then
    (s.setCpu { s.cpu with eiDelay := if Config.freeBool s.draws then s.cpu.eiDelay else 0 }).draw 1
  else s

/-- `Dispatch()`: taking an interrupt (60 rule R822). IME and the request bit are cleared, PC is pushed, PC takes the vector of
the source chosen before the push. -/
def State.dispatch (s : State) : State :=
  let i := lowestBit s.pending
  let s1 : State := { s with cpu := { s.cpu with ime := false }, iflag := s.iflag &&& ~~~ (BitVec.twoPow 5 i) }
  ((s1.push16 s.cpu.pc).jump (vector i)).dropEi

/-- The return from an interrupt (45 rule R661): PC from the stack, IME set at once, a pending EI dropped. -/
def State.returnFromInterrupt (s : State) : State :=
  s.afterPop.setCpu { s.afterPop.cpu with pc := s.popValue, ime := true, eiDelay := 0 }

/-- Step 1 of the step: commit a deferred EI (10 rule R140). -/
def State.commitEi (s : State) : State :=
  s.setCpu { s.cpu with
    ime := if s.cpu.eiDelay = 1 then true else s.cpu.ime
    eiDelay := s.cpu.eiDelay - 1 }

/-! ### The low-power states -/

/-- HALT (46 rules R701, R702). In CGB mode without the HALT bug the spec states no other effect: log 31 (DEDUCED). -/
def State.enterHalt (s : State) : State :=
  if s.pending = 0 then s.setCpu { s.cpu with halted := true }
  else if !s.cpu.ime && (!s.params.cgb || s.params.haltBugCgb) then s.setCpu { s.cpu with skipInc := true }
  else s

/-- STOP's step over the byte after it (46 rule R705, parameter `STOP_SKIPS_NEXT_BYTE`). -/
def State.stopSkip (s : State) : State :=
  if s.params.stopSkipsNextByte then s.jump (s.cpu.pc + 1) else s

/-- STOP: the speed switch or the stopped state (46 rule R705); `div16` is a draw after it (log 20, DESIGN CHOICE). -/
def State.enterStop (s : State) : State :=
  let s1 := s.stopSkip
  let s2 : State :=
    if s1.params.cgb && s1.key1Prep then { s1 with doubleSpeed := !s1.doubleSpeed, key1Prep := false }
    else s1.setCpu { s1.cpu with stopped := true }
  ({ s2 with timer := { s2.timer with div16 := Config.freeWord s2.draws } } : State).draw 1

/-! ### The host's events (60 rules R871, R872) -/

/-- The joypad after a button event. -/
def Joypad.press (j : Joypad) (button : BitVec 3) (pressed : Bool) : Joypad :=
  { j with
    buttons := if pressed then j.buttons ||| BitVec.twoPow 8 button.toNat
      else j.buttons &&& ~~~ (BitVec.twoPow 8 button.toNat) }

/-- A joypad event: a change ends the stopped state, and a falling line requests the interrupt (60 rules R871, R874). -/
def State.joypadEvent (s : State) (button : BitVec 3) (pressed : Bool) : State :=
  let j := s.joy.press button pressed
  let s1 := s.setJoypad j
  s1.setCpu { s1.cpu with stopped := s1.cpu.stopped && decide (j.buttons = s.joy.buttons) }

/-- `rtc_advance(n)` (60 rule R872; 61 rule R1045). -/
def State.rtcEvent (s : State) (n : Nat) : State := { s with cart := s.cart.rtcAdvance n }

end Sys2Proof.Machine
end

