-- ==== Sys2Proof/Machine/Alu16.lean ====
section
/-! DEFINITION. The 16-bit arithmetic instructions (43_alu16.md). -/

namespace Sys2Proof.Machine

/-- ADD HL,rr (R560). -/
def execAddHlRr (rr : Reg16) (s : State) : Result :=
  let r := addWords s.cpu.hl (s.cpu.pair rr) s.cpu.f
  done 8 ((s.setPair .hl r.1).setFlags r.2)

/-- INC rr (R561). -/
def execIncRr (rr : Reg16) (s : State) : Result := done 8 (s.setPair rr (s.cpu.pair rr + 1))

/-- DEC rr (R562). -/
def execDecRr (rr : Reg16) (s : State) : Result := done 8 (s.setPair rr (s.cpu.pair rr - 1))

/-- ADD SP,e (R563). -/
def execAddSpE (e : Byte) (s : State) : Result :=
  done 16 ((s.setPair .sp (spe s.cpu.sp e).1).setFlags (spe s.cpu.sp e).2)

end Sys2Proof.Machine
end

