-- ==== Sys2Proof/Machine/Alu8.lean ====
section
/-! DEFINITION. The 8-bit arithmetic and logic instructions (42_alu8.md). -/

namespace Sys2Proof.Machine

/-- ADD A,r (R510). -/
def execAddR (src : Reg8) (s : State) : Result := done 4 (s.setAcc (aluAdd s.cpu.a (s.cpu.reg src) false))

/-- ADD A,(HL) (R511). -/
def execAddHl (s : State) : Result :=
  done 8 ((s.afterRead s.cpu.hl).setAcc (aluAdd s.cpu.a (s.busRead s.cpu.hl) false))

/-- ADD A,n (R512). -/
def execAddN (n : Byte) (s : State) : Result := done 8 (s.setAcc (aluAdd s.cpu.a n false))

/-- ADC A,r (R513). -/
def execAdcR (src : Reg8) (s : State) : Result := done 4 (s.setAcc (aluAdd s.cpu.a (s.cpu.reg src) s.cpu.f.c))

/-- ADC A,(HL) (R514). -/
def execAdcHl (s : State) : Result :=
  done 8 ((s.afterRead s.cpu.hl).setAcc (aluAdd s.cpu.a (s.busRead s.cpu.hl) s.cpu.f.c))

/-- ADC A,n (R515). -/
def execAdcN (n : Byte) (s : State) : Result := done 8 (s.setAcc (aluAdd s.cpu.a n s.cpu.f.c))

/-- SUB A,r (R516). -/
def execSubR (src : Reg8) (s : State) : Result := done 4 (s.setAcc (aluSub s.cpu.a (s.cpu.reg src) false))

/-- SUB A,(HL) (R517). -/
def execSubHl (s : State) : Result :=
  done 8 ((s.afterRead s.cpu.hl).setAcc (aluSub s.cpu.a (s.busRead s.cpu.hl) false))

/-- SUB A,n (R518). -/
def execSubN (n : Byte) (s : State) : Result := done 8 (s.setAcc (aluSub s.cpu.a n false))

/-- SBC A,r (R519). -/
def execSbcR (src : Reg8) (s : State) : Result := done 4 (s.setAcc (aluSub s.cpu.a (s.cpu.reg src) s.cpu.f.c))

/-- SBC A,(HL) (R520). -/
def execSbcHl (s : State) : Result :=
  done 8 ((s.afterRead s.cpu.hl).setAcc (aluSub s.cpu.a (s.busRead s.cpu.hl) s.cpu.f.c))

/-- SBC A,n (R521). -/
def execSbcN (n : Byte) (s : State) : Result := done 8 (s.setAcc (aluSub s.cpu.a n s.cpu.f.c))

/-- AND A,r (R522). -/
def execAndR (src : Reg8) (s : State) : Result := done 4 (s.setAcc (aluAnd s.cpu.a (s.cpu.reg src)))

/-- AND A,(HL) (R523). -/
def execAndHl (s : State) : Result :=
  done 8 ((s.afterRead s.cpu.hl).setAcc (aluAnd s.cpu.a (s.busRead s.cpu.hl)))

/-- AND A,n (R524). -/
def execAndN (n : Byte) (s : State) : Result := done 8 (s.setAcc (aluAnd s.cpu.a n))

/-- XOR A,r (R525). -/
def execXorR (src : Reg8) (s : State) : Result := done 4 (s.setAcc (aluXor s.cpu.a (s.cpu.reg src)))

/-- XOR A,(HL) (R526). -/
def execXorHl (s : State) : Result :=
  done 8 ((s.afterRead s.cpu.hl).setAcc (aluXor s.cpu.a (s.busRead s.cpu.hl)))

/-- XOR A,n (R527). -/
def execXorN (n : Byte) (s : State) : Result := done 8 (s.setAcc (aluXor s.cpu.a n))

/-- OR A,r (R528). -/
def execOrR (src : Reg8) (s : State) : Result := done 4 (s.setAcc (aluOr s.cpu.a (s.cpu.reg src)))

/-- OR A,(HL) (R529). -/
def execOrHl (s : State) : Result :=
  done 8 ((s.afterRead s.cpu.hl).setAcc (aluOr s.cpu.a (s.busRead s.cpu.hl)))

/-- OR A,n (R530). -/
def execOrN (n : Byte) (s : State) : Result := done 8 (s.setAcc (aluOr s.cpu.a n))

/-- CP A,r (R531): the flags of SUB, A unchanged (R508). -/
def execCpR (src : Reg8) (s : State) : Result := done 4 (s.setFlags (aluSub s.cpu.a (s.cpu.reg src) false).2)

/-- CP A,(HL) (R532). -/
def execCpHl (s : State) : Result :=
  done 8 ((s.afterRead s.cpu.hl).setFlags (aluSub s.cpu.a (s.busRead s.cpu.hl) false).2)

/-- CP A,n (R533). -/
def execCpN (n : Byte) (s : State) : Result := done 8 (s.setFlags (aluSub s.cpu.a n false).2)

/-- INC r (R540). -/
def execIncR (dst : Reg8) (s : State) : Result := done 4 (s.setRegFlags dst (incByte (s.cpu.reg dst) s.cpu.f))

/-- INC (HL) (R541): a read, then a write. -/
def execIncHl (s : State) : Result := done 12 (s.modifyHl fun v => incByte v s.cpu.f)

/-- DEC r (R542). -/
def execDecR (dst : Reg8) (s : State) : Result := done 4 (s.setRegFlags dst (decByte (s.cpu.reg dst) s.cpu.f))

/-- DEC (HL) (R543). -/
def execDecHl (s : State) : Result := done 12 (s.modifyHl fun v => decByte v s.cpu.f)

/-- DAA (R545). -/
def execDaa (s : State) : Result := done 4 (s.setAcc (daaByte s.cpu.a s.cpu.f))

/-- CPL (R546). -/
def execCpl (s : State) : Result := done 4 (s.setAcc (s.cpu.a ^^^ 0xFF, { s.cpu.f with n := true, h := true }))

/-- SCF (R547). -/
def execScf (s : State) : Result := done 4 (s.setFlags { s.cpu.f with n := false, h := false, c := true })

/-- CCF (R548). -/
def execCcf (s : State) : Result := done 4 (s.setFlags { s.cpu.f with n := false, h := false, c := !s.cpu.f.c })

end Sys2Proof.Machine
end

