-- ==== Sys2Proof/Machine/Control.lean ====
section
/-! DEFINITION. Jumps, calls, returns and restarts (45_control.md). PC is past the instruction when a meaning starts. -/

namespace Sys2Proof.Machine

/-- A call: push PC, then jump (45 rules R655, R656, R665). -/
def State.callTo (s : State) (a : Word) : State := (s.push16 s.cpu.pc).jump a

/-- A return: PC from the stack (45 rules R657, R658). -/
def State.returnTo (s : State) : State := s.afterPop.jump s.popValue

/-- JP nn (R650). -/
def execJpNn (a : Word) (s : State) : Result := done 16 (s.jump a)

/-- JP cc,nn (R651): 12 cycles, 16 when taken. -/
def execJpCc (cc : Cond) (a : Word) (s : State) : Result :=
  if s.cpu.f.holds cc then done 16 (s.jump a) else done 12 s

/-- JP HL (R652). -/
def execJpHl (s : State) : Result := done 4 (s.jump s.cpu.hl)

/-- JR e (R653). -/
def execJrE (e : Byte) (s : State) : Result := done 12 (s.jump (relative s.cpu.pc e))

/-- JR cc,e (R654): 8 cycles, 12 when taken. -/
def execJrCc (cc : Cond) (e : Byte) (s : State) : Result :=
  if s.cpu.f.holds cc then done 12 (s.jump (relative s.cpu.pc e)) else done 8 s

/-- CALL nn (R655). -/
def execCallNn (a : Word) (s : State) : Result := done 24 (s.callTo a)

/-- CALL cc,nn (R656): 12 cycles, 24 when taken. -/
def execCallCc (cc : Cond) (a : Word) (s : State) : Result :=
  if s.cpu.f.holds cc then done 24 (s.callTo a) else done 12 s

/-- RET (R657). -/
def execRet (s : State) : Result := done 16 s.returnTo

/-- RET cc (R658): 8 cycles, 20 when taken. -/
def execRetCc (cc : Cond) (s : State) : Result := if s.cpu.f.holds cc then done 20 s.returnTo else done 8 s

/-- RETI (R661). -/
def execReti (s : State) : Result := done 16 s.returnFromInterrupt

/-- RST t (R665): the target is 8 × t. -/
def execRst (t : BitVec 3) (s : State) : Result := done 16 (s.callTo (8 * t.setWidth 16))

end Sys2Proof.Machine
end

