-- ==== Sys2Proof/Machine/Load16.lean ====
section
/-! DEFINITION. The 16-bit loads and the stack instructions (41_load16_stack.md). -/

namespace Sys2Proof.Machine

/-- LD rr,nn (R450). -/
def execLdRrNn (rr : Reg16) (v : Word) (s : State) : Result := done 12 (s.setPair rr v)

/-- LD (nn),SP (R451): the low byte first. -/
def execLdNnSp (a : Word) (s : State) : Result :=
  done 20 ((s.busWrite a (loByte s.cpu.sp)).busWrite (a + 1) (hiByte s.cpu.sp))

/-- LD SP,HL (R452). -/
def execLdSpHl (s : State) : Result := done 8 (s.setPair .sp s.cpu.hl)

/-- LD HL,SP+e (R453). -/
def execLdHlSpE (e : Byte) (s : State) : Result :=
  done 12 ((s.setPair .hl (spe s.cpu.sp e).1).setFlags (spe s.cpu.sp e).2)

/-- PUSH rr (R462). -/
def execPush (q : StkReg) (s : State) : Result := done 16 (s.push16 (s.cpu.stackPair q))

/-- POP rr (R463). -/
def execPop (q : StkReg) (s : State) : Result := done 12 (s.afterPop.setCpu (s.afterPop.cpu.setStackPair q s.popValue))

/-- POP AF (R464): the low nibble of the popped byte is discarded. -/
def execPopAf (s : State) : Result := done 12 (s.afterPop.setCpu (s.afterPop.cpu.setStackPair .af s.popValue))

end Sys2Proof.Machine
end

