-- ==== Sys2Proof/Machine/Load8.lean ====
section
/-! DEFINITION. The 8-bit loads (40_load8.md). A meaning starts after the instruction's bytes are fetched: PC is past them. -/

namespace Sys2Proof.Machine

/-- LD r,r' (R400). -/
def execLdRR (dst src : Reg8) (s : State) : Result := done 4 (s.setReg dst (s.cpu.reg src))

/-- LD r,n (R401). -/
def execLdRN (dst : Reg8) (n : Byte) (s : State) : Result := done 8 (s.setReg dst n)

/-- LD r,(HL) (R402): the address is the old HL. -/
def execLdRHl (dst : Reg8) (s : State) : Result :=
  done 8 ((s.afterRead s.cpu.hl).setReg dst (s.busRead s.cpu.hl))

/-- LD (HL),r (R403). -/
def execLdHlR (src : Reg8) (s : State) : Result := done 8 (s.busWrite s.cpu.hl (s.cpu.reg src))

/-- LD (HL),n (R404). -/
def execLdHlN (n : Byte) (s : State) : Result := done 12 (s.busWrite s.cpu.hl n)

/-- LD A,(BC) (R405). -/
def execLdABc (s : State) : Result :=
  done 8 ((s.afterRead (s.cpu.pair .bc)).setReg .a (s.busRead (s.cpu.pair .bc)))

/-- LD A,(DE) (R406). -/
def execLdADe (s : State) : Result :=
  done 8 ((s.afterRead (s.cpu.pair .de)).setReg .a (s.busRead (s.cpu.pair .de)))

/-- LD (BC),A (R407). -/
def execLdBcA (s : State) : Result := done 8 (s.busWrite (s.cpu.pair .bc) s.cpu.a)

/-- LD (DE),A (R408). -/
def execLdDeA (s : State) : Result := done 8 (s.busWrite (s.cpu.pair .de) s.cpu.a)

/-- LD A,(nn) (R409). -/
def execLdANn (a : Word) (s : State) : Result := done 16 ((s.afterRead a).setReg .a (s.busRead a))

/-- LD (nn),A (R410). -/
def execLdNnA (a : Word) (s : State) : Result := done 16 (s.busWrite a s.cpu.a)

/-- LDH A,(C) (R411). -/
def execLdhAC (s : State) : Result :=
  done 8 ((s.afterRead (highPage s.cpu.c)).setReg .a (s.busRead (highPage s.cpu.c)))

/-- LDH (C),A (R412). -/
def execLdhCA (s : State) : Result := done 8 (s.busWrite (highPage s.cpu.c) s.cpu.a)

/-- LDH A,(n) (R413). -/
def execLdhAN (n : Byte) (s : State) : Result :=
  done 12 ((s.afterRead (highPage n)).setReg .a (s.busRead (highPage n)))

/-- LDH (n),A (R414). -/
def execLdhNA (n : Byte) (s : State) : Result := done 12 (s.busWrite (highPage n) s.cpu.a)

/-- LD A,(HL-) (R415). -/
def execLdAHld (s : State) : Result :=
  done 8 (((s.afterRead s.cpu.hl).setReg .a (s.busRead s.cpu.hl)).setPair .hl (s.cpu.hl - 1))

/-- LD (HL-),A (R416). -/
def execLdHldA (s : State) : Result := done 8 ((s.busWrite s.cpu.hl s.cpu.a).setPair .hl (s.cpu.hl - 1))

/-- LD A,(HL+) (R417). -/
def execLdAHli (s : State) : Result :=
  done 8 (((s.afterRead s.cpu.hl).setReg .a (s.busRead s.cpu.hl)).setPair .hl (s.cpu.hl + 1))

/-- LD (HL+),A (R418). -/
def execLdHliA (s : State) : Result := done 8 ((s.busWrite s.cpu.hl s.cpu.a).setPair .hl (s.cpu.hl + 1))

end Sys2Proof.Machine
end

