-- ==== Sys2Proof/WellFormed.lean ====
section
/-! DEFINITION. Which terms of `Instr` are instructions of the machine. -/

namespace Sys2Proof

/-- The eleven undefined base bytes (30 rule R340). -/
def illegalOpcodes : List Byte :=
  [0xD3, 0xDB, 0xDD, 0xE3, 0xE4, 0xEB, 0xEC, 0xED, 0xF4, 0xFC, 0xFD]

/-- A term is well formed when it is a row of the opcode table: `illegal` holds one of the eleven undefined bytes
(30 rule R340), and `pop` is not given AF, whose POP is the instruction `popAf` (41 rules R463, R464). Every other
field is limited by its type. -/
def Instr.wf : Instr → Bool
  | .illegal op => illegalOpcodes.contains op
  | .pop .af => false
  | _ => true

end Sys2Proof
end

