-- ==== Sys2Proof/Decode.lean ====
section
/-! DEFINITION. Decoding, from the bit patterns of 30 rule R333 and the field decoders of 30 rules R302 to R317, and the
encoder, from the encoding lines of the instruction rules. -/

namespace Sys2Proof

/-- Why a byte list is no instruction: there is no byte, or an opcode's immediate bytes are missing. Undefined opcodes
decode to `Instr.illegal` (30 rule R340), so decoding refuses nothing else. -/
inductive DecodeError
  | noByte
  | truncated (op : Byte)
  deriving DecidableEq, Repr

/-! ### Field decoders -/

/-- `r8(code)` for a register; code 6, the byte at HL, gives none (30 rule R310). -/
def decodeReg8 (code : Nat) : Option Reg8 :=
  match code with
  | 0 => some .b
  | 1 => some .c
  | 2 => some .d
  | 3 => some .e
  | 4 => some .h
  | 5 => some .l
  | 6 => none
  | _ => some .a

/-- `r16(p)` (30 rule R311). -/
def decodeReg16 (p : Nat) : Reg16 :=
  match p with
  | 0 => .bc
  | 1 => .de
  | 2 => .hl
  | _ => .sp

/-- `cond(c)` (30 rule R313). -/
def decodeCond (c : Nat) : Cond :=
  match c with
  | 0 => .nz
  | 1 => .z
  | 2 => .nc
  | _ => .c

/-- `x = op[7:6]` (30 rules R302, R303). -/
def fieldX (op : Byte) : Nat := op.toNat / 64

/-- `y = op[5:3]`. -/
def fieldY (op : Byte) : Nat := op.toNat / 8 % 8

/-- `z = op[2:0]`. -/
def fieldZ (op : Byte) : Nat := op.toNat % 8

/-- `p = op[5:4]`. -/
def fieldP (op : Byte) : Nat := op.toNat / 16 % 4

/-- `q = op[3]`. -/
def fieldQ (op : Byte) : Nat := op.toNat / 8 % 2

/-- `n16 = h : l`, the low byte first in memory (30 rule R321). -/
def imm16 (l h : Byte) : Word := h ++ l

/-! ### The instruction of a byte pattern -/

/-- The 8-bit ALU operation `ooo` on a register or the byte at HL (30 rules R314, R333). -/
def decodeAluR8 (ooo : Nat) (r : Option Reg8) : Instr :=
  match ooo, r with
  | 0, some s => .addR s
  | 0, none => .addHl
  | 1, some s => .adcR s
  | 1, none => .adcHl
  | 2, some s => .subR s
  | 2, none => .subHl
  | 3, some s => .sbcR s
  | 3, none => .sbcHl
  | 4, some s => .andR s
  | 4, none => .andHl
  | 5, some s => .xorR s
  | 5, none => .xorHl
  | 6, some s => .orR s
  | 6, none => .orHl
  | _, some s => .cpR s
  | _, none => .cpHl

/-- The 8-bit ALU operation `ooo` on an immediate (30 rule R314). -/
def decodeAluN (ooo : Nat) (n : Byte) : Instr :=
  match ooo with
  | 0 => .addN n
  | 1 => .adcN n
  | 2 => .subN n
  | 3 => .sbcN n
  | 4 => .andN n
  | 5 => .xorN n
  | 6 => .orN n
  | _ => .cpN n

/-- A base byte with x = 0 (30 rules R330, R333). -/
def decodeBlock0 (op b1 b2 : Byte) : Instr :=
  match fieldZ op with
  | 0 =>
    match fieldY op with
    | 0 => .nop
    | 1 => .ldNnSp (imm16 b1 b2)
    | 2 => .stop
    | 3 => .jrE b1
    | y => .jrCc (decodeCond (y - 4)) b1
  | 1 =>
    match fieldQ op with
    | 0 => .ldRrNn (decodeReg16 (fieldP op)) (imm16 b1 b2)
    | _ => .addHlRr (decodeReg16 (fieldP op))
  | 2 =>
    match fieldY op with
    | 0 => .ldBcA
    | 1 => .ldABc
    | 2 => .ldDeA
    | 3 => .ldADe
    | 4 => .ldHliA
    | 5 => .ldAHli
    | 6 => .ldHldA
    | _ => .ldAHld
  | 3 =>
    match fieldQ op with
    | 0 => .incRr (decodeReg16 (fieldP op))
    | _ => .decRr (decodeReg16 (fieldP op))
  | 4 =>
    match decodeReg8 (fieldY op) with
    | some r => .incR r
    | none => .incHl
  | 5 =>
    match decodeReg8 (fieldY op) with
    | some r => .decR r
    | none => .decHl
  | 6 =>
    match decodeReg8 (fieldY op) with
    | some r => .ldRN r b1
    | none => .ldHlN b1
  | _ =>
    match fieldY op with
    | 0 => .rlca
    | 1 => .rrca
    | 2 => .rla
    | 3 => .rra
    | 4 => .daa
    | 5 => .cpl
    | 6 => .scf
    | _ => .ccf

/-- A base byte with x = 1: the 8-bit loads, and HALT in the place of LD (HL),(HL) (30 rule R333). -/
def decodeBlock1 (op : Byte) : Instr :=
  match decodeReg8 (fieldY op), decodeReg8 (fieldZ op) with
  | some dst, some src => .ldRR dst src
  | some dst, none => .ldRHl dst
  | none, some src => .ldHlR src
  | none, none => .halt

/-- A base byte with x = 3 (30 rules R330, R333, R340). The byte 0xCB is not looked up here. -/
def decodeBlock3 (op b1 b2 : Byte) : Instr :=
  match fieldZ op with
  | 0 =>
    match fieldY op with
    | 4 => .ldhNA b1
    | 5 => .addSpE b1
    | 6 => .ldhAN b1
    | 7 => .ldHlSpE b1
    | y => .retCc (decodeCond y)
  | 1 =>
    match fieldQ op, fieldP op with
    | 0, 0 => .pop .bc
    | 0, 1 => .pop .de
    | 0, 2 => .pop .hl
    | 0, _ => .popAf
    | _, 0 => .ret
    | _, 1 => .reti
    | _, 2 => .jpHl
    | _, _ => .ldSpHl
  | 2 =>
    match fieldY op with
    | 4 => .ldhCA
    | 5 => .ldNnA (imm16 b1 b2)
    | 6 => .ldhAC
    | 7 => .ldANn (imm16 b1 b2)
    | y => .jpCc (decodeCond y) (imm16 b1 b2)
  | 3 =>
    match fieldY op with
    | 0 => .jpNn (imm16 b1 b2)
    | 6 => .di
    | 7 => .ei
    | _ => .illegal op
  | 4 =>
    match fieldY op with
    | 0 => .callCc .nz (imm16 b1 b2)
    | 1 => .callCc .z (imm16 b1 b2)
    | 2 => .callCc .nc (imm16 b1 b2)
    | 3 => .callCc .c (imm16 b1 b2)
    | _ => .illegal op
  | 5 =>
    match fieldQ op, fieldP op with
    | 0, 0 => .push .bc
    | 0, 1 => .push .de
    | 0, 2 => .push .hl
    | 0, _ => .push .af
    | _, 0 => .callNn (imm16 b1 b2)
    | _, _ => .illegal op
  | 6 => decodeAluN (fieldY op) b1
  | _ => .rst (BitVec.ofNat 3 (fieldY op))

/-- The rotate or shift `ooo` of CB group 0 (30 rule R315). -/
def decodeRot (ooo : Nat) (r : Option Reg8) : Instr :=
  match ooo, r with
  | 0, some r => .rlcR r
  | 0, none => .rlcHl
  | 1, some r => .rrcR r
  | 1, none => .rrcHl
  | 2, some r => .rlR r
  | 2, none => .rlHl
  | 3, some r => .rrR r
  | 3, none => .rrHl
  | 4, some r => .slaR r
  | 4, none => .slaHl
  | 5, some r => .sraR r
  | 5, none => .sraHl
  | 6, some r => .swapR r
  | 6, none => .swapHl
  | _, some r => .srlR r
  | _, none => .srlHl

/-- The extended table: every second byte names an instruction (30 rules R303, R331). -/
def decodeCb (op2 : Byte) : Instr :=
  let b : BitVec 3 := BitVec.ofNat 3 (fieldY op2)
  match fieldX op2, decodeReg8 (fieldZ op2) with
  | 0, r => decodeRot (fieldY op2) r
  | 1, some r => .bitR b r
  | 1, none => .bitHl b
  | 2, some r => .resR b r
  | 2, none => .resHl b
  | _, some r => .setR b r
  | _, none => .setHl b

/-- The instruction an opcode byte and the two bytes after it name; unused bytes do not matter. It is total (30 rule
R332). -/
def decodeOp (op b1 b2 : Byte) : Instr :=
  if op = 0xCB then decodeCb b1
  else
    match fieldX op with
    | 0 => decodeBlock0 op b1 b2
    | 1 => decodeBlock1 op
    | 2 => decodeAluR8 (fieldY op) (decodeReg8 (fieldZ op))
    | _ => decodeBlock3 op b1 b2

/-- How many bytes follow the opcode byte: the CB second byte, or the immediate (30 rule R346). -/
def operandBytes (op : Byte) : Nat :=
  if ([0x01, 0x11, 0x21, 0x31, 0x08, 0xC2, 0xC3, 0xC4, 0xCA, 0xCC, 0xCD, 0xD2, 0xD4, 0xDA, 0xDC, 0xEA, 0xFA] :
      List Byte).contains op then 2
  else if ([0x06, 0x0E, 0x16, 0x1E, 0x26, 0x2E, 0x36, 0x3E, 0x18, 0x20, 0x28, 0x30, 0x38, 0xC6, 0xCE, 0xD6, 0xDE,
      0xE6, 0xEE, 0xF6, 0xFE, 0xE0, 0xF0, 0xE8, 0xF8, 0xCB] : List Byte).contains op then 1
  else 0

/-- The instruction at the head of a byte list, and the bytes after it. The byte 0xCB with nothing behind it is the
table's row PREFIX (46 rule R712, log 16 (DESIGN CHOICE)); any other opcode without its immediate bytes is refused. -/
def decode (bytes : List Byte) : Except DecodeError (Instr × List Byte) :=
  match bytes with
  | [] => .error .noByte
  | op :: rest =>
    match operandBytes op, rest with
    | 0, rest => .ok (decodeOp op 0 0, rest)
    | 1, b1 :: rest => .ok (decodeOp op b1 0, rest)
    | 1, [] => if op = 0xCB then .ok (.cbPrefix, []) else .error (.truncated op)
    | _, b1 :: b2 :: rest => .ok (decodeOp op b1 b2, rest)
    | _, _ => .error (.truncated op)

/-! ### The encoder -/

/-- The code of a register in an r8 field (30 rule R310). -/
def Reg8.code : Reg8 → BitVec 3
  | .b => 0
  | .c => 1
  | .d => 2
  | .e => 3
  | .h => 4
  | .l => 5
  | .a => 7

/-- The r8 code of the byte at HL (30 rule R310). -/
def hlCode : BitVec 3 := 6

/-- The code of a pair in an r16 field (30 rule R311). -/
def Reg16.code : Reg16 → BitVec 2
  | .bc => 0
  | .de => 1
  | .hl => 2
  | .sp => 3

/-- The code of a pair in an r16stk field (30 rule R312). -/
def StkReg.code : StkReg → BitVec 2
  | .bc => 0
  | .de => 1
  | .hl => 2
  | .af => 3

/-- The code of a condition (30 rule R313). -/
def Cond.code : Cond → BitVec 2
  | .nz => 0
  | .z => 1
  | .nc => 2
  | .c => 3

/-- `00 yyy zzz`. -/
def byte00 (y z : BitVec 3) : Byte := 0b00#2 ++ y ++ z

/-- `01 yyy zzz`. -/
def byte01 (y z : BitVec 3) : Byte := 0b01#2 ++ y ++ z

/-- `10 yyy zzz`. -/
def byte10 (y z : BitVec 3) : Byte := 0b10#2 ++ y ++ z

/-- `11 yyy zzz`. -/
def byte11 (y z : BitVec 3) : Byte := 0b11#2 ++ y ++ z

/-- The bytes of `op n16`: the low byte of the operand first (30 rules R301, R321). -/
def encodeN16 (op : Byte) (v : Word) : List Byte := [op, v.setWidth 8, (v >>> 8).setWidth 8]

/-- The bytes of an instruction, from the encoding line of its rule. -/
def encode : Instr → List Byte
  | .ldRR dst src => [byte01 dst.code src.code]
  | .ldRN dst n => [byte00 dst.code 6, n]
  | .ldRHl dst => [byte01 dst.code hlCode]
  | .ldHlR s => [byte01 hlCode s.code]
  | .ldHlN n => [0x36, n]
  | .ldABc => [0x0A]
  | .ldADe => [0x1A]
  | .ldBcA => [0x02]
  | .ldDeA => [0x12]
  | .ldANn a => encodeN16 0xFA a
  | .ldNnA a => encodeN16 0xEA a
  | .ldhAC => [0xF2]
  | .ldhCA => [0xE2]
  | .ldhAN n => [0xF0, n]
  | .ldhNA n => [0xE0, n]
  | .ldAHld => [0x3A]
  | .ldHldA => [0x32]
  | .ldAHli => [0x2A]
  | .ldHliA => [0x22]
  | .ldRrNn rr v => encodeN16 (0b00#2 ++ rr.code ++ 0b0001#4) v
  | .ldNnSp a => encodeN16 0x08 a
  | .ldSpHl => [0xF9]
  | .ldHlSpE e => [0xF8, e]
  | .push q => [0b11#2 ++ q.code ++ 0b0101#4]
  | .pop q => [0b11#2 ++ q.code ++ 0b0001#4]
  | .popAf => [0xF1]
  | .addR s => [byte10 0 s.code]
  | .addHl => [byte10 0 hlCode]
  | .addN n => [byte11 0 6, n]
  | .adcR s => [byte10 1 s.code]
  | .adcHl => [byte10 1 hlCode]
  | .adcN n => [byte11 1 6, n]
  | .subR s => [byte10 2 s.code]
  | .subHl => [byte10 2 hlCode]
  | .subN n => [byte11 2 6, n]
  | .sbcR s => [byte10 3 s.code]
  | .sbcHl => [byte10 3 hlCode]
  | .sbcN n => [byte11 3 6, n]
  | .andR s => [byte10 4 s.code]
  | .andHl => [byte10 4 hlCode]
  | .andN n => [byte11 4 6, n]
  | .xorR s => [byte10 5 s.code]
  | .xorHl => [byte10 5 hlCode]
  | .xorN n => [byte11 5 6, n]
  | .orR s => [byte10 6 s.code]
  | .orHl => [byte10 6 hlCode]
  | .orN n => [byte11 6 6, n]
  | .cpR s => [byte10 7 s.code]
  | .cpHl => [byte10 7 hlCode]
  | .cpN n => [byte11 7 6, n]
  | .incR dst => [byte00 dst.code 4]
  | .incHl => [0x34]
  | .decR dst => [byte00 dst.code 5]
  | .decHl => [0x35]
  | .daa => [0x27]
  | .cpl => [0x2F]
  | .scf => [0x37]
  | .ccf => [0x3F]
  | .addHlRr rr => [0b00#2 ++ rr.code ++ 0b1001#4]
  | .incRr rr => [0b00#2 ++ rr.code ++ 0b0011#4]
  | .decRr rr => [0b00#2 ++ rr.code ++ 0b1011#4]
  | .addSpE e => [0xE8, e]
  | .rlca => [0x07]
  | .rrca => [0x0F]
  | .rla => [0x17]
  | .rra => [0x1F]
  | .rlcR r => [0xCB, byte00 0 r.code]
  | .rlcHl => [0xCB, byte00 0 hlCode]
  | .rrcR r => [0xCB, byte00 1 r.code]
  | .rrcHl => [0xCB, byte00 1 hlCode]
  | .rlR r => [0xCB, byte00 2 r.code]
  | .rlHl => [0xCB, byte00 2 hlCode]
  | .rrR r => [0xCB, byte00 3 r.code]
  | .rrHl => [0xCB, byte00 3 hlCode]
  | .slaR r => [0xCB, byte00 4 r.code]
  | .slaHl => [0xCB, byte00 4 hlCode]
  | .sraR r => [0xCB, byte00 5 r.code]
  | .sraHl => [0xCB, byte00 5 hlCode]
  | .swapR r => [0xCB, byte00 6 r.code]
  | .swapHl => [0xCB, byte00 6 hlCode]
  | .srlR r => [0xCB, byte00 7 r.code]
  | .srlHl => [0xCB, byte00 7 hlCode]
  | .bitR n r => [0xCB, byte01 n r.code]
  | .bitHl n => [0xCB, byte01 n hlCode]
  | .resR n r => [0xCB, byte10 n r.code]
  | .resHl n => [0xCB, byte10 n hlCode]
  | .setR n r => [0xCB, byte11 n r.code]
  | .setHl n => [0xCB, byte11 n hlCode]
  | .jpNn a => encodeN16 0xC3 a
  | .jpCc cc a => encodeN16 (0b110#3 ++ cc.code ++ 0b010#3) a
  | .jpHl => [0xE9]
  | .jrE e => [0x18, e]
  | .jrCc cc e => [0b001#3 ++ cc.code ++ 0b000#3, e]
  | .callNn a => encodeN16 0xCD a
  | .callCc cc a => encodeN16 (0b110#3 ++ cc.code ++ 0b100#3) a
  | .ret => [0xC9]
  | .retCc cc => [0b110#3 ++ cc.code ++ 0b000#3]
  | .reti => [0xD9]
  | .rst t => [byte11 t 7]
  | .nop => [0x00]
  | .halt => [0x76]
  | .stop => [0x10]
  | .di => [0xF3]
  | .ei => [0xFB]
  | .illegal op => [op]
  | .cbPrefix => [0xCB]

/-! ### The host's question -/

/-- The first `n` bytes of a number, the least significant first: the opcode byte is bits 7 to 0, the byte after it
bits 15 to 8. -/
def tableBytes (n w : Nat) : List Byte :=
  match n with
  | 0 => []
  | k + 1 => BitVec.ofNat 8 w :: tableBytes k (w / 256)

/-- The instruction the decoder reads from an opcode-table row whose bits are `w`. The row's own bytes are tried first
(the row PREFIX is the one byte 0xCB, log 16 (DESIGN CHOICE)); where immediate bytes are missing, they are zeros. -/
def decodeTableWord (nbits w : Nat) : Option Instr :=
  let bytes := tableBytes ((nbits + 7) / 8) w
  match decode bytes with
  | .ok (i, _) => some i
  | .error _ =>
    match decode (bytes ++ [0, 0]) with
    | .ok (i, _) => some i
    | .error _ => none

end Sys2Proof
end

