-- ==== Sys2Proof/Machine/Bits.lean ====
section
/-! DEFINITION. Bit test, reset and set (44_rotate_shift_bit.md, section 4). -/

namespace Sys2Proof.Machine

/-- BIT b,r (R630). -/
def execBitR (n : BitVec 3) (r : Reg8) (s : State) : Result :=
  done 8 (s.setFlags (bitFlags n (s.cpu.reg r) s.cpu.f))

/-- BIT b,(HL) (R631): memory is only read. -/
def execBitHl (n : BitVec 3) (s : State) : Result :=
  done 12 ((s.afterRead s.cpu.hl).setFlags (bitFlags n (s.busRead s.cpu.hl) s.cpu.f))

/-- RES b,r (R632). -/
def execResR (n : BitVec 3) (r : Reg8) (s : State) : Result := done 8 (s.setReg r (resByte n (s.cpu.reg r)))

/-- RES b,(HL) (R633): no flag is written. -/
def execResHl (n : BitVec 3) (s : State) : Result := done 16 (s.modifyHl fun v => (resByte n v, s.cpu.f))

/-- SET b,r (R634). -/
def execSetR (n : BitVec 3) (r : Reg8) (s : State) : Result := done 8 (s.setReg r (setByte n (s.cpu.reg r)))

/-- SET b,(HL) (R635). -/
def execSetHl (n : BitVec 3) (s : State) : Result := done 16 (s.modifyHl fun v => (setByte n v, s.cpu.f))

end Sys2Proof.Machine
end

