-- ==== Sys2Proof/Machine/Rotate.lean ====
section
/-! DEFINITION. The rotates and shifts (44_rotate_shift_bit.md, sections 1 and 3). -/

namespace Sys2Proof.Machine

/-- RLCA (R600): Z is cleared. -/
def execRlca (s : State) : Result := done 4 (s.setAcc (clearZ (rlcByte s.cpu.a)))

/-- RRCA (R601): Z is cleared. -/
def execRrca (s : State) : Result := done 4 (s.setAcc (clearZ (rrcByte s.cpu.a)))

/-- RLA (R602): Z is cleared. -/
def execRla (s : State) : Result := done 4 (s.setAcc (clearZ (rlByte s.cpu.a s.cpu.f.c)))

/-- RRA (R603): Z is cleared. -/
def execRra (s : State) : Result := done 4 (s.setAcc (clearZ (rrByte s.cpu.a s.cpu.f.c)))

/-- RLC r (R610). -/
def execRlcR (r : Reg8) (s : State) : Result := done 8 (s.setRegFlags r (rlcByte (s.cpu.reg r)))

/-- RLC (HL) (R611). -/
def execRlcHl (s : State) : Result := done 16 (s.modifyHl fun v => rlcByte v)

/-- RRC r (R612). -/
def execRrcR (r : Reg8) (s : State) : Result := done 8 (s.setRegFlags r (rrcByte (s.cpu.reg r)))

/-- RRC (HL) (R613). -/
def execRrcHl (s : State) : Result := done 16 (s.modifyHl fun v => rrcByte v)

/-- RL r (R614). -/
def execRlR (r : Reg8) (s : State) : Result := done 8 (s.setRegFlags r (rlByte (s.cpu.reg r) s.cpu.f.c))

/-- RL (HL) (R615). -/
def execRlHl (s : State) : Result := done 16 (s.modifyHl fun v => rlByte v s.cpu.f.c)

/-- RR r (R616). -/
def execRrR (r : Reg8) (s : State) : Result := done 8 (s.setRegFlags r (rrByte (s.cpu.reg r) s.cpu.f.c))

/-- RR (HL) (R617). -/
def execRrHl (s : State) : Result := done 16 (s.modifyHl fun v => rrByte v s.cpu.f.c)

/-- SLA r (R618). -/
def execSlaR (r : Reg8) (s : State) : Result := done 8 (s.setRegFlags r (slaByte (s.cpu.reg r)))

/-- SLA (HL) (R619). -/
def execSlaHl (s : State) : Result := done 16 (s.modifyHl fun v => slaByte v)

/-- SRA r (R620). -/
def execSraR (r : Reg8) (s : State) : Result := done 8 (s.setRegFlags r (sraByte (s.cpu.reg r)))

/-- SRA (HL) (R621). -/
def execSraHl (s : State) : Result := done 16 (s.modifyHl fun v => sraByte v)

/-- SWAP r (R622). -/
def execSwapR (r : Reg8) (s : State) : Result := done 8 (s.setRegFlags r (swapByte (s.cpu.reg r)))

/-- SWAP (HL) (R623). -/
def execSwapHl (s : State) : Result := done 16 (s.modifyHl fun v => swapByte v)

/-- SRL r (R624). -/
def execSrlR (r : Reg8) (s : State) : Result := done 8 (s.setRegFlags r (srlByte (s.cpu.reg r)))

/-- SRL (HL) (R625). -/
def execSrlHl (s : State) : Result := done 16 (s.modifyHl fun v => srlByte v)

end Sys2Proof.Machine
end

