-- ==== Sys2Proof/Machine/System.lean ====
section
/-! DEFINITION. Control of the CPU: NOP, HALT, STOP, DI, EI, the undefined opcodes and the CB prefix (46_system.md). -/

namespace Sys2Proof.Machine

/-- NOP (R700). -/
def execNop (s : State) : Result := done 4 s

/-- HALT (R701, R702). -/
def execHalt (s : State) : Result := done 4 s.enterHalt

/-- STOP (R705). -/
def execStop (s : State) : Result := done 4 s.enterStop

/-- DI (R706). -/
def execDi (s : State) : Result := done 4 (s.setCpu { s.cpu with ime := false, eiDelay := 0 })

/-- EI (R707, R708): a latency of one instruction, none before a HALT. Log 24 (DEDUCED). -/
def execEi (s : State) : Result :=
  if s.cpu.eiDelay = 0 then
    done 4 ((s.afterRead s.cpu.pc).setCpu { s.cpu with eiDelay := if s.busRead s.cpu.pc = 0x76 then 1 else 2 })
  else done 4 s

/-- An undefined opcode faults (R710; 60 rule R802). -/
def execIllegal (op : Byte) (s : State) : Result := .fault (.illegalOpcode s.opAddr op)

/-- The rotate or shift `kind` of the CB table (30 rule R315; 44 rule R605). -/
def cbRotate (kind : Nat) (r : Option Reg8) (s : State) : Result :=
  match kind, r with
  | 0, some r => execRlcR r s
  | 0, none => execRlcHl s
  | 1, some r => execRrcR r s
  | 1, none => execRrcHl s
  | 2, some r => execRlR r s
  | 2, none => execRlHl s
  | 3, some r => execRrR r s
  | 3, none => execRrHl s
  | 4, some r => execSlaR r s
  | 4, none => execSlaHl s
  | 5, some r => execSraR r s
  | 5, none => execSraHl s
  | 6, some r => execSwapR r s
  | 6, none => execSwapHl s
  | _, some r => execSrlR r s
  | _, none => execSrlHl s

/-- `CB[op2]` (44 rule R605). -/
def cbInstruction (op2 : Byte) (s : State) : Result :=
  let n : BitVec 3 := BitVec.ofNat 3 (fieldY op2)
  match fieldX op2, decodeReg8 (fieldZ op2) with
  | 0, r => cbRotate (fieldY op2) r s
  | 1, some r => execBitR n r s
  | 1, none => execBitHl n s
  | 2, some r => execResR n r s
  | 2, none => execResHl n s
  | _, some r => execSetR n r s
  | _, none => execSetHl n s

/-- The prefix by itself: `op2 <- Fetch8(); execute CB[op2]` (R712). Log 16 (DESIGN CHOICE). -/
def execCbPrefix (s : State) : Result := cbInstruction (s.busRead s.cpu.pc) s.afterFetch

end Sys2Proof.Machine
end

