-- ==== Sys2Proof/Machine/Dispatch.lean ====
section
/-! DEFINITION. The meaning of every instruction: one arm per constructor of `Instr`. -/

namespace Sys2Proof.Machine

def exec (i : Instr) (s : State) : Host.Outcome State Fault Refusal :=
  match i with
  | .ldRR dst src => Sys2Proof.Machine.execLdRR dst src s
  | .ldRN dst n => Sys2Proof.Machine.execLdRN dst n s
  | .ldRHl dst => Sys2Proof.Machine.execLdRHl dst s
  | .ldHlR src => Sys2Proof.Machine.execLdHlR src s
  | .ldHlN n => Sys2Proof.Machine.execLdHlN n s
  | .ldABc => Sys2Proof.Machine.execLdABc s
  | .ldADe => Sys2Proof.Machine.execLdADe s
  | .ldBcA => Sys2Proof.Machine.execLdBcA s
  | .ldDeA => Sys2Proof.Machine.execLdDeA s
  | .ldANn a => Sys2Proof.Machine.execLdANn a s
  | .ldNnA a => Sys2Proof.Machine.execLdNnA a s
  | .ldhAC => Sys2Proof.Machine.execLdhAC s
  | .ldhCA => Sys2Proof.Machine.execLdhCA s
  | .ldhAN n => Sys2Proof.Machine.execLdhAN n s
  | .ldhNA n => Sys2Proof.Machine.execLdhNA n s
  | .ldAHld => Sys2Proof.Machine.execLdAHld s
  | .ldHldA => Sys2Proof.Machine.execLdHldA s
  | .ldAHli => Sys2Proof.Machine.execLdAHli s
  | .ldHliA => Sys2Proof.Machine.execLdHliA s
  | .ldRrNn rr v => Sys2Proof.Machine.execLdRrNn rr v s
  | .ldNnSp a => Sys2Proof.Machine.execLdNnSp a s
  | .ldSpHl => Sys2Proof.Machine.execLdSpHl s
  | .ldHlSpE e => Sys2Proof.Machine.execLdHlSpE e s
  | .push q => Sys2Proof.Machine.execPush q s
  | .pop q => Sys2Proof.Machine.execPop q s
  | .popAf => Sys2Proof.Machine.execPopAf s
  | .addR src => Sys2Proof.Machine.execAddR src s
  | .addHl => Sys2Proof.Machine.execAddHl s
  | .addN n => Sys2Proof.Machine.execAddN n s
  | .adcR src => Sys2Proof.Machine.execAdcR src s
  | .adcHl => Sys2Proof.Machine.execAdcHl s
  | .adcN n => Sys2Proof.Machine.execAdcN n s
  | .subR src => Sys2Proof.Machine.execSubR src s
  | .subHl => Sys2Proof.Machine.execSubHl s
  | .subN n => Sys2Proof.Machine.execSubN n s
  | .sbcR src => Sys2Proof.Machine.execSbcR src s
  | .sbcHl => Sys2Proof.Machine.execSbcHl s
  | .sbcN n => Sys2Proof.Machine.execSbcN n s
  | .andR src => Sys2Proof.Machine.execAndR src s
  | .andHl => Sys2Proof.Machine.execAndHl s
  | .andN n => Sys2Proof.Machine.execAndN n s
  | .xorR src => Sys2Proof.Machine.execXorR src s
  | .xorHl => Sys2Proof.Machine.execXorHl s
  | .xorN n => Sys2Proof.Machine.execXorN n s
  | .orR src => Sys2Proof.Machine.execOrR src s
  | .orHl => Sys2Proof.Machine.execOrHl s
  | .orN n => Sys2Proof.Machine.execOrN n s
  | .cpR src => Sys2Proof.Machine.execCpR src s
  | .cpHl => Sys2Proof.Machine.execCpHl s
  | .cpN n => Sys2Proof.Machine.execCpN n s
  | .incR dst => Sys2Proof.Machine.execIncR dst s
  | .incHl => Sys2Proof.Machine.execIncHl s
  | .decR dst => Sys2Proof.Machine.execDecR dst s
  | .decHl => Sys2Proof.Machine.execDecHl s
  | .daa => Sys2Proof.Machine.execDaa s
  | .cpl => Sys2Proof.Machine.execCpl s
  | .scf => Sys2Proof.Machine.execScf s
  | .ccf => Sys2Proof.Machine.execCcf s
  | .addHlRr rr => Sys2Proof.Machine.execAddHlRr rr s
  | .incRr rr => Sys2Proof.Machine.execIncRr rr s
  | .decRr rr => Sys2Proof.Machine.execDecRr rr s
  | .addSpE e => Sys2Proof.Machine.execAddSpE e s
  | .rlca => Sys2Proof.Machine.execRlca s
  | .rrca => Sys2Proof.Machine.execRrca s
  | .rla => Sys2Proof.Machine.execRla s
  | .rra => Sys2Proof.Machine.execRra s
  | .rlcR r => Sys2Proof.Machine.execRlcR r s
  | .rlcHl => Sys2Proof.Machine.execRlcHl s
  | .rrcR r => Sys2Proof.Machine.execRrcR r s
  | .rrcHl => Sys2Proof.Machine.execRrcHl s
  | .rlR r => Sys2Proof.Machine.execRlR r s
  | .rlHl => Sys2Proof.Machine.execRlHl s
  | .rrR r => Sys2Proof.Machine.execRrR r s
  | .rrHl => Sys2Proof.Machine.execRrHl s
  | .slaR r => Sys2Proof.Machine.execSlaR r s
  | .slaHl => Sys2Proof.Machine.execSlaHl s
  | .sraR r => Sys2Proof.Machine.execSraR r s
  | .sraHl => Sys2Proof.Machine.execSraHl s
  | .swapR r => Sys2Proof.Machine.execSwapR r s
  | .swapHl => Sys2Proof.Machine.execSwapHl s
  | .srlR r => Sys2Proof.Machine.execSrlR r s
  | .srlHl => Sys2Proof.Machine.execSrlHl s
  | .bitR n r => Sys2Proof.Machine.execBitR n r s
  | .bitHl n => Sys2Proof.Machine.execBitHl n s
  | .resR n r => Sys2Proof.Machine.execResR n r s
  | .resHl n => Sys2Proof.Machine.execResHl n s
  | .setR n r => Sys2Proof.Machine.execSetR n r s
  | .setHl n => Sys2Proof.Machine.execSetHl n s
  | .jpNn a => Sys2Proof.Machine.execJpNn a s
  | .jpCc cc a => Sys2Proof.Machine.execJpCc cc a s
  | .jpHl => Sys2Proof.Machine.execJpHl s
  | .jrE e => Sys2Proof.Machine.execJrE e s
  | .jrCc cc e => Sys2Proof.Machine.execJrCc cc e s
  | .callNn a => Sys2Proof.Machine.execCallNn a s
  | .callCc cc a => Sys2Proof.Machine.execCallCc cc a s
  | .ret => Sys2Proof.Machine.execRet s
  | .retCc cc => Sys2Proof.Machine.execRetCc cc s
  | .reti => Sys2Proof.Machine.execReti s
  | .rst t => Sys2Proof.Machine.execRst t s
  | .nop => Sys2Proof.Machine.execNop s
  | .halt => Sys2Proof.Machine.execHalt s
  | .stop => Sys2Proof.Machine.execStop s
  | .di => Sys2Proof.Machine.execDi s
  | .ei => Sys2Proof.Machine.execEi s
  | .illegal op => Sys2Proof.Machine.execIllegal op s
  | .cbPrefix => Sys2Proof.Machine.execCbPrefix s

end Sys2Proof.Machine
end

