-- ==== Sys2Proof/Machine/Fetch.lean ====
section
/-! DEFINITION. Fetching an instruction's bytes at PC (60 rule R810; 10 rules R105, R143), and placing bytes there. -/

namespace Sys2Proof.Machine

/-! ### Fetching -/

/-- The state after the opcode fetch: PC advances, or `skip_inc` is cleared in its place (60 rule R810, 10 rule R143). The opcode
is `s.busRead s.cpu.pc`. -/
def State.afterOpcode (s : State) : State :=
  let s1 := { s.afterRead s.cpu.pc with opAddr := s.cpu.pc }
  s1.setCpu { s.cpu with
    pc := if s.cpu.skipInc then s.cpu.pc else s.cpu.pc + 1
    skipInc := false }

/-- A fetched instruction and the state whose PC is past its bytes. -/
structure Fetched where
  instr : Instr
  state : State

/-- Fetch and decode the instruction at PC: the opcode byte, then the bytes it calls for, each by `Fetch8` (30 rules R300, R321).
All bytes are fetched before any effect; log 15 (DEDUCED). -/
def State.fetch (s : State) : Fetched :=
  let op := s.busRead s.cpu.pc
  let s1 := s.afterOpcode
  match operandBytes op with
  | 0 => { instr := decodeOp op 0 0, state := s1 }
  | 1 => { instr := decodeOp op (s1.busRead s1.cpu.pc) 0, state := s1.afterFetch }
  | _ =>
    let s2 := s1.afterFetch
    { instr := decodeOp op (s1.busRead s1.cpu.pc) (s2.busRead s2.cpu.pc), state := s2.afterFetch }

/-! ### Placing bytes -/

/-- Put a byte of the image where an address below 0x8000 reads. -/
def Cart.pokeRom (c : Cart) (a : Nat) (v : Byte) : Cart :=
  let i := c.romBankAt a * 0x4000 + a % 0x4000
  { c with rom := Store.write c.rom i v, romLen := max c.romLen (i + 1) }

/-- Put a byte of cartridge RAM where the window reads, if a cell of it stands there. -/
def Cart.pokeRam (c : Cart) (permissive : Bool) (off : Nat) (v : Byte) : Cart :=
  match c.ramTarget permissive off with
  | .cell i => { c with ram := Store.write c.ram i v }
  | .nibble _ | .clock _ | .infrared | .closed => c

/-- Put a byte into the storage an address reads from, with no access: what a load does to the image. An address with no storage
of its own (a register, an unmapped address) keeps what it has. Log 6 (DESIGN CHOICE). -/
def State.poke (s : State) (addr : Word) (v : Byte) : State :=
  match regionOf s.params.cgb addr with
  | .rom a =>
    match s.bootOffset a with
    | some i => { s with bootRom := Store.write s.bootRom i v }
    | none => { s with cart := s.cart.pokeRom a v }
  | .vram off => s.setPpu { s.ppu with vram := Store.write s.ppu.vram (s.vramBank * 0x2000 + off) v }
  | .cartRam off => { s with cart := s.cart.pokeRam s.params.ramPermissive off v }
  | .wramLow off => { s with wram := Store.write s.wram off v }
  | .wramHigh off => { s with wram := Store.write s.wram (s.wramBank * 0x1000 + off) v }
  | .oam i => s.setPpu { s.ppu with oam := Store.write s.ppu.oam i v }
  | .hram i => { s with hram := Store.write s.hram i v }
  | .ie => { s with ie := v }
  | .io _ | .unmapped => s

/-- Put bytes at consecutive addresses. -/
def State.pokeAll (s : State) (addr : Word) (bytes : List Byte) : State :=
  match bytes with
  | [] => s
  | b :: rest => State.pokeAll (s.poke addr b) (addr + 1) rest

/-- The three bytes of the longest instruction: the `nbits` bits of `w`, least significant byte first, then zeros. -/
def fetchBytes (nbits w : Nat) : List Byte := tableBytes 3 (w % 2 ^ nbits)

end Sys2Proof.Machine
end

