-- ==== Sys2Proof/Machine/Cycle.lean ====
section
/-! DEFINITION. One step of the CPU (60 rule R810), and what the host delivers between two steps (60 rules R871, R872). -/

namespace Sys2Proof.Machine

/-- The outcome of an instruction, with its `Tick` after a next state. A fault charges nothing (60 rule R802). -/
def tickResult (r : Result) : Result :=
  match r with
  | .next s => .next s.tick
  | .fault f => .fault f
  | .refused x => .refused x

/-- Step 4 of the step: fetch, decode, execute, `Tick`. -/
def State.runInstruction (s : State) : Result := tickResult (exec s.fetch.instr s.fetch.state)

/-- Steps 3 and 4: the dispatch check, else an instruction (60 rules R810, R821). A dispatch costs 20 cycles. -/
def State.dispatchOrRun (s : State) : Result :=
  if s.cpu.ime && decide (s.pending ≠ 0) then tickResult (done 20 s.dispatch) else s.runInstruction

/-- Steps 2 to 4: the HALT wait first (60 rule R812). An idle halted step costs 4 cycles, the wake nothing. -/
def State.haltOrRun (s : State) : Result :=
  if s.cpu.halted then
    if s.pending = 0 then tickResult (done 4 s)
    else (s.setCpu { s.cpu with halted := false }).dispatchOrRun
  else s.dispatchOrRun

/-- One step of the CPU (60 rule R810). A stopped CPU stays as it is (60 rule R814, log 13 (DESIGN CHOICE)). -/
def State.cpuStep (s : State) : Result :=
  if s.cpu.stopped then .next s else ({ s.commitEi with charge := 0 } : State).haltOrRun

/-- One step of the model: a faulted machine only faults again (60 rule R800); else the first host event still waiting is
delivered, or the CPU steps. Log 12 (DESIGN CHOICE), log 13 (DESIGN CHOICE). -/
def State.stepMachine (s : State) : Result :=
  match s.fault with
  | some f => .fault f
  | none =>
    match s.inputs with
    | [] => s.cpuStep
    | .cpuStep :: rest => ({ s with inputs := rest } : State).cpuStep
    | .joypad button pressed :: rest => .next (({ s with inputs := rest } : State).joypadEvent button pressed)
    | .rtcAdvance n :: rest => .next (({ s with inputs := rest } : State).rtcEvent n)

/-- The state a faulting step leaves (60 rules R800, R802): the reason recorded, PC past the opcode byte unless `skip_inc` was
set. As in the step of 60 rule R810, a deferred EI is committed, a HALT is left and `skip_inc` is cleared before the fetch, although
R802 says that no other state has changed; a fault outcome carries no state, so the host keeps this one. Log 13 (DESIGN CHOICE). -/
def State.afterFault (s : State) (f : Fault) : State :=
  { (s.commitEi.setCpu { s.commitEi.cpu with halted := false }).afterOpcode with fault := some f }

end Sys2Proof.Machine
end

