-- ==== Sys2Proof/Machine/Step.lean ====
section
/-! DEFINITION. The step of the model, and the host's way to place an instruction where the step fetches. -/

namespace Sys2Proof.Machine

/-- One step (60 rules R800, R810, R871, R872). -/
def step (s : State) : Host.Outcome State Fault Refusal := s.stepMachine

/-- `s` with an instruction stored where `step` fetches the next one: the bytes are placed in the storage at PC, as a load does
(log 6, DESIGN CHOICE). -/
def State.withFetchWord (s : State) (nbits w : Nat) : State := s.pokeAll s.cpu.pc (fetchBytes nbits w)

end Sys2Proof.Machine
end

