-- ==== Sys2Proof/Machine/Boot.lean ====
section
/-! DEFINITION. The load: from a cartridge image and the host's choices to the state at reset, or a refusal (60 rule R872; 61 rules
R1001 to R1006, R1070; 70 rules R900 to R908). Every value the spec leaves unspecified comes from the argument `draw`, an arbitrary
state (log 23, DESIGN CHOICE). -/

namespace Sys2Proof.Machine

/-- What the host supplies at a load (00 rule R10, 60 rule R872). -/
structure LoadRequest where
  image : List Byte
  /-- `BOOT_ROM` -/
  bootRom : Option (List Byte)
  /-- the persisted battery RAM; empty when none is supplied -/
  saveRam : List Byte
  /-- the RTC register snapshot: live and latched -/
  rtc : Option (Rtc × Rtc)
  /-- the host selects color hardware (70 rule R907) -/
  colorHardware : Bool
  timed : Bool
  ramPermissive : Bool
  haltBugCgb : Bool
  stopSkipsNextByte : Bool
  serialNormal : Nat
  serialFast : Nat
  deriving DecidableEq, Repr

/-- A byte of the image; the header is the bytes 0x0134 to 0x014F (61 rule R1001). -/
def LoadRequest.byteAt (q : LoadRequest) (i : Nat) : Byte := q.image.getD i 0

/-- `CGB_MODE` (70 rule R907). -/
def LoadRequest.cgb (q : LoadRequest) : Bool := q.colorHardware && (q.byteAt 0x143).getLsbD 7

/-- The parameters of the run (00 rule R10). -/
def LoadRequest.params (q : LoadRequest) : Params where
  cgb := q.cgb
  timed := q.timed
  ramPermissive := q.ramPermissive
  haltBugCgb := q.haltBugCgb
  stopSkipsNextByte := q.stopSkipsNextByte
  serialNormal := q.serialNormal
  serialFast := q.serialFast

/-! ### Draws held from reset -/

/-- `n` cells whose values are those of `m`. -/
def Store.clamp {w : Nat} (n : Nat) (m : Store w) : Store w := Store.ofList 0 ((List.range n).map (Store.read m))

/-- A clock register set with the kept bits alone (61 rule R1042). -/
def Rtc.kept (r : Rtc) : Rtc := { s := r.s &&& 0x3F, m := r.m &&& 0x3F, h := r.h &&& 0x1F, dl := r.dl, dh := r.dh &&& 0xC1 }

/-- Cartridge RAM at load: the save data, then draws, up to `n` cells (61 rule R1006); an MBC2 cell has four bits (R1030). -/
def loadRam (n : Nat) (nibbles : Bool) (save : List Byte) (draw : Memory) : Memory :=
  Store.ofList 0 ((List.range n).map fun i =>
    let v := save.getD i (Store.read draw i)
    if nibbles then v &&& 0x0F else v)

/-- A channel whose fields are in range (64 rule R1300). -/
def Chan.clamp (maxLen : Nat) (c : Chan) : Chan := { c with len := c.len % (maxLen + 1) }

/-- The APU fields that are draws, in their ranges (64 rule R1300). -/
def Apu.clamp (a : Apu) : Apu :=
  { a with
    nr := Store.ofList 0x10 ((List.range 22).map fun i => Store.read a.nr (0x10 + i))
    wave := Store.clamp 16 a.wave
    fsCount := a.fsCount % 8192
    fsStep := a.fsStep % 8
    ch1 := a.ch1.clamp 64
    ch2 := a.ch2.clamp 64
    ch3 := a.ch3.clamp 256
    ch4 := a.ch4.clamp 64
    dutyPos1 := a.dutyPos1 % 8
    dutyPos2 := a.dutyPos2 % 8
    wavePos := a.wavePos % 32
    vol1 := a.vol1 % 16
    vol2 := a.vol2 % 16
    vol4 := a.vol4 % 16
    envTimer1 := a.envTimer1 % 8
    envTimer2 := a.envTimer2 % 8
    envTimer4 := a.envTimer4 % 8
    shadow := a.shadow % 2048
    sweepTimer := a.sweepTimer % 9
    envDraws := 0 }

/-! ### The cartridge (61) -/

/-- The cartridge of a type at load, in the reset column of 61 rule R1000. -/
def loadCart (q : LoadRequest) (t : CartType) (draw : Cart) : Cart :=
  let ramSize := ramSizeOf t (q.byteAt 0x149)
  { Cart.reset with
    rom := Store.ofList 0 q.image
    romLen := q.image.length
    variant := t.variant
    romBanks := romBanksOf (q.byteAt 0x148) q.image.length
    ramSize := ramSize
    hasRam := decide (0 < ramSize)
    hasBattery := t.battery
    hasRtc := t.rtc
    hasRumble := t.rumble
    ram := loadRam ramSize (decide (t.variant = .mbc2)) q.saveRam draw.ram
    rtcLive := (match q.rtc with | some r => r.1 | none => draw.rtcLive).kept
    rtcLatched := (match q.rtc with | some r => r.2 | none => draw.rtcLatched).kept }

/-- The cartridge RAM the host can persist (61 rule R1006). -/
def Cart.saveRam (c : Cart) : List Byte := (List.range c.ramSize).map (Store.read c.ram)

/-! ### Path (a): after the boot ROM (70 rules R902, R903, R908) -/

/-- The CPU at the hand-over. -/
def bootCpu (cgb : Bool) : Cpu :=
  if cgb then
    { Cpu.reset with
      a := 0x11, b := 0x00, c := 0x00, d := 0xFF, e := 0x56, h := 0x00, l := 0x0D
      f := { z := true, n := false, h := false, c := false } }
  else Cpu.reset

/-- The PPU's memories, each byte a draw (70 rule R906). A pixel of `frame` that nothing has composed yet holds any 15-bit value, in
DMG mode too, where a composed one holds a shade 0 to 3 (63 rule R1200); that is log 37 (DESIGN CHOICE). -/
def Ppu.withDraws (cgb : Bool) (p draw : Ppu) : Ppu :=
  { p with
    vram := Store.clamp (if cgb then 0x4000 else 0x2000) draw.vram
    oam := Store.clamp 160 draw.oam
    bgPal := Store.clamp 64 draw.bgPal
    objPal := Store.clamp 64 draw.objPal
    frame := Store.clamp 23040 draw.frame
    obp0 := draw.obp0
    obp1 := draw.obp1
    bcps := draw.bcps &&& 0xBF
    ocps := draw.ocps &&& 0xBF
    hdmaSrc := draw.hdmaSrc
    hdmaDst := draw.hdmaDst }

/-- The PPU at the hand-over: `line_cycle` is a draw in 448 to 455 (62 rule R1100). -/
def bootPpu (cgb : Bool) (draw : Ppu) : Ppu :=
  { Ppu.reset.withDraws cgb draw with lineCycle := 448 + draw.lineCycle % 8 }

/-- The APU at the hand-over: the readable bits of 64 rule R1302, the write-only bits and the internal state draws. -/
def bootApu (draw : Apu) : Apu :=
  let nr : Memory := Store.ofList 0x10 ((List.range 22).map fun i =>
    (Apu.reset.reg (0x10 + i) &&& ~~~ (apuMask (0x10 + i))) ||| (draw.reg (0x10 + i) &&& apuMask (0x10 + i)))
  let a := draw.clamp
  { a with
    power := true
    nr := nr
    ch1 := { a.ch1 with on := true }
    ch2 := { a.ch2 with on := false }
    ch3 := { a.ch3 with on := false }
    ch4 := { a.ch4 with on := false } }

/-! ### Path (b): at the boot ROM (70 rules R904, R908) -/

/-- The CPU at the boot ROM's first byte: the general registers, the flags and SP are draws. -/
def romCpu (draw : Cpu) : Cpu :=
  { draw with
    pc := 0, ime := false, eiDelay := 0, halted := false, stopped := false, skipInc := false }

/-- The PPU with the LCD off; every other register and field is a draw, in its range. No HBlank DMA is active in DMG mode (62 rule
R1161), and an active one has a block left: log 36 (DESIGN CHOICE). -/
def romPpu (cgb : Bool) (draw : Ppu) : Ppu :=
  { (draw.withDraws cgb draw) with
    lcdc := 0
    stat := draw.stat &&& 0x78
    line := 0
    lineCycle := 0
    mode := .hblank
    sprites := draw.sprites.take 10
    spriteH := 8
    mode3Len := 172
    windowHit := false
    hdmaActive := cgb && draw.hdmaActive
    hdmaLeft := if cgb && draw.hdmaActive then draw.hdmaLeft % 128 + 1 else draw.hdmaLeft % 129
    frames := 0 }

/-- The APU powered off; every register and field is a draw. -/
def romApu (draw : Apu) : Apu := { draw.clamp with power := false }

/-! ### The load -/

/-- The state at reset, for a cartridge and a boot ROM already checked. -/
def bootState (q : LoadRequest) (cart : Cart) (draw : State) : State :=
  let s : State :=
    { State.reset with
      params := q.params
      iflag := draw.iflag
      timer := { Timer.reset with div16 := draw.timer.div16 }
      wram := Store.clamp (if q.cgb then 0x8000 else 0x2000) draw.wram
      hram := Store.clamp 127 draw.hram
      cart := cart }
  match q.bootRom with
  | none => { s with cpu := bootCpu q.cgb, ppu := bootPpu q.cgb draw.ppu, apu := bootApu draw.apu }
  | some bytes =>
    { s with
      cpu := romCpu draw.cpu
      ppu := romPpu q.cgb draw.ppu
      apu := romApu draw.apu
      joy := { Joypad.reset with sel := draw.joy.sel }
      bootMapped := true
      bootRom := Store.ofList 0 bytes }

/-- The length a boot ROM must have (70 rule R901). -/
def LoadRequest.bootRomOk (q : LoadRequest) : Bool :=
  match q.bootRom with
  | none => true
  | some bytes => decide (bytes.length = if q.cgb then 2048 else 256)

/-- `load(image, boot_rom?, params)` (60 rule R872; 70 rules R900, R901; 61 rule R1070). Where both refusals apply,
`loadError` is answered: log 35 (DESIGN CHOICE). -/
def load (q : LoadRequest) (draw : State) : Except Refusal State :=
  if q.image.length < 0x4000 || !q.bootRomOk then .error .loadError
  else
    match cartTypeOf (q.byteAt 0x147) with
    | none => .error (.unmodelledCartridge (q.byteAt 0x147))
    | some t => .ok (bootState q (loadCart q t draw.cart) draw)

end Sys2Proof.Machine
end

