-- ==== Sys2Proof/Safety.lean ====
section
/-! DEFINITION. The terms in which claims speak: which storage cell an address reaches, what an instruction may change, and the
invariants of the state. -/

namespace Sys2Proof.Machine

/-! ### Storage cells -/

/-- A cell of storage. Two addresses that reach the same cell (the echo, a mirrored cartridge RAM) read the same byte. -/
inductive Cell
  | vram (i : Nat)
  | cartRam (i : Nat)
  | clock (select : Nat)
  | wram (i : Nat)
  | oam (i : Nat)
  | hram (i : Nat)
  | ie
  deriving DecidableEq, Repr

/-- The cell an address reads and writes, none where it reaches a register, the ROM, the infrared receiver or nothing (20 rule
R230; 61 rules R1012, R1015). -/
def State.cellAt (s : State) (a : Word) : Option Cell :=
  match regionOf s.params.cgb a with
  | .vram off => some (.vram (s.vramBank * 0x2000 + off))
  | .cartRam off =>
    match s.cart.ramTarget s.params.ramPermissive off with
    | .cell i | .nibble i => some (.cartRam i)
    | .clock select => some (.clock select)
    | .infrared | .closed => none
  | .wramLow off => some (.wram off)
  | .wramHigh off => some (.wram (s.wramBank * 0x1000 + off))
  | .oam i => some (.oam i)
  | .hram i => some (.hram i)
  | .ie => some .ie
  | .rom _ | .io _ | .unmapped => none

/-- An address where a write does no more than store its byte, or nothing: every address outside the mapper's control range
0x0000-0x7FFF and the I/O registers (20 rule R222). -/
def State.plainAt (s : State) (a : Word) : Bool :=
  match regionOf s.params.cgb a with
  | .rom _ | .io _ => false
  | .vram _ | .cartRam _ | .wramLow _ | .wramHigh _ | .oam _ | .hram _ | .ie | .unmapped => true

/-- An address whose cell can be written and read back at once: work RAM, its echo, high RAM, IE, and VRAM and OAM while the PPU
does not own them (20 rules R233, R234, R239; 62 rules R1120, R1121), outside the OAM DMA window (70 rule R923). -/
def State.openRam (s : State) (a : Word) : Bool :=
  !s.windowOpen a &&
    match regionOf s.params.cgb a with
    | .vram _ => !s.ppu.vramLocked
    | .oam _ => !s.ppu.oamLocked
    | .wramLow _ | .wramHigh _ | .hram _ | .ie => true
    | .rom _ | .cartRam _ | .io _ | .unmapped => false

/-- Reading `a` looks at no free value: not in the OAM DMA window, not an untimed counter, not the infrared receiver. -/
def State.plainRead (s : State) (a : Word) : Bool := decide (s.readDraws a = 0)

/-! ### Frames -/

/-- Every address reads the same byte in `t` as in `s`, but for the infrared receiver, whose reads are draws (61 rule R1061). -/
def SameBytes (s t : State) : Prop := ∀ a, s.infraredAt a = false → t.peek true a = s.peek true a

/-- Every address that does not reach the cell of `a` reads in `t` as it reads in `s`, the infrared receiver left out. -/
def SameBytesBut (s t : State) (a : Word) : Prop :=
  ∀ b, s.infraredAt b = false → (s.cellAt a = none ∨ s.cellAt b ≠ s.cellAt a) → t.peek true b = s.peek true b

/-- `t` is `s` but for the CPU's own state, the cost charged and the count of free values. -/
def OnlyCpu (s t : State) : Prop := t = { s with cpu := t.cpu, charge := t.charge, draws := t.draws }

/-- `t` is `s` but for that and for the contents of memory: VRAM, OAM, work RAM, high RAM, IE, cartridge RAM and the live clock
of the cartridge. No other register of any device differs. -/
def OnlyMemory (s t : State) : Prop :=
  t = { s with
    cpu := t.cpu, charge := t.charge, draws := t.draws
    wram := t.wram, hram := t.hram, ie := t.ie
    ppu := { s.ppu with vram := t.ppu.vram, oam := t.ppu.oam }
    cart := { s.cart with ram := t.cart.ram, rtcLive := t.cart.rtcLive } }

/-! ### Invariants -/

/-- The canonical form of every memory of the machine. -/
abbrev State.MemWf (s : State) : Prop :=
  (Store.wf s.cart.rom = true ∧ Store.wf s.cart.ram = true ∧ Store.wf s.bootRom = true ∧ Store.wf s.wram = true
    ∧ Store.wf s.hram = true) ∧
  (Store.wf s.ppu.vram = true ∧ Store.wf s.ppu.oam = true ∧ Store.wf s.ppu.bgPal = true ∧ Store.wf s.ppu.objPal = true
    ∧ Store.wf s.ppu.frame = true) ∧
  Store.wf s.apu.nr = true ∧ Store.wf s.apu.wave = true

/-- No memory lists a cell outside its size (20 rules R233, R239; 61 rule R1015; 62 rule R1100; 64 rule R1300). -/
abbrev State.MemBounds (s : State) : Prop :=
  (Store.below 0x8000 s.wram = true ∧ Store.below 127 s.hram = true ∧ Store.below s.cart.ramSize s.cart.ram = true) ∧
  (Store.below 0x4000 s.ppu.vram = true ∧ Store.below 160 s.ppu.oam = true ∧ Store.below 64 s.ppu.bgPal = true
    ∧ Store.below 64 s.ppu.objPal = true ∧ Store.below 23040 s.ppu.frame = true) ∧
  Store.below 0x26 s.apu.nr = true ∧ Store.below 16 s.apu.wave = true

/-- What 61 rules R1005 and R1030 make true of a loaded cartridge: RAM that exists has a size, and MBC2 has 512 cells. -/
abbrev Cart.Shaped (c : Cart) : Prop := (c.hasRam = true → 0 < c.ramSize) ∧ (c.variant = .mbc2 → c.ramSize = 512)

/-- The mode by position (62 rule R1111). -/
def modeAt (line lineCycle mode3Len : Nat) : PpuMode :=
  if 144 ≤ line then .vblank
  else if lineCycle < 80 then .oamSearch
  else if lineCycle < 80 + mode3Len then .transfer
  else .hblank

/-- The position of the PPU is a position of the frame, the line's selection is bounded, its mode-3 length is 172 to 232 cycles,
and with the LCD on the mode is the one the position gives (62 rules R1110, R1111, R1113; 63 rule R1230). -/
abbrev Ppu.LineInv (p : Ppu) : Prop :=
  p.line < 154 ∧ p.lineCycle < 456 ∧ p.sprites.length ≤ 10 ∧ 172 ≤ p.mode3Len ∧ p.mode3Len ≤ 232 ∧
  (p.lcdOn = true → p.mode = modeAt p.line p.lineCycle p.mode3Len)

/-- The fields of the APU are in the ranges of 64 rule R1300. -/
abbrev Apu.Ranges (a : Apu) : Prop :=
  (a.fsCount < 8192 ∧ a.fsStep < 8 ∧ a.dutyPos1 < 8 ∧ a.dutyPos2 < 8 ∧ a.wavePos < 32) ∧
  (a.ch1.len ≤ 64 ∧ a.ch2.len ≤ 64 ∧ a.ch3.len ≤ 256 ∧ a.ch4.len ≤ 64) ∧
  (a.vol1 ≤ 15 ∧ a.vol2 ≤ 15 ∧ a.vol4 ≤ 15 ∧ a.envTimer1 ≤ 7 ∧ a.envTimer2 ≤ 7 ∧ a.envTimer4 ≤ 7) ∧
  a.shadow ≤ 2047 ∧ a.sweepTimer ≤ 8

/-- The counters and the reserved bits outside the APU: `ei_delay` is 0 to 2 (10 rule R140), `tima_sub` and `serial_bits` are in
range (10 rule R146), `hdma_left` is 0 to 128 and not 0 while a transfer is active (62 rules R1100, R1163, R1164; log 36 (DESIGN
CHOICE) for the draws of a boot-ROM load), the bits that STAT, SC, BCPS and OCPS do not store are 0 (62 rules R1103, R1150;
10 rule R127), and no charge is left between steps. -/
abbrev State.Ranges (s : State) : Prop :=
  (s.cpu.eiDelay ≤ 2 ∧ s.timer.sub < 1024 ∧ s.serial.bits ≤ 8 ∧ s.charge = 0) ∧
  (s.ppu.hdmaLeft ≤ 128 ∧ (s.ppu.hdmaActive = true → s.ppu.hdmaLeft ≠ 0)) ∧
  (s.ppu.stat &&& 0x87 = 0 ∧ s.ppu.bcps &&& 0x40 = 0 ∧ s.ppu.ocps &&& 0x40 = 0 ∧ s.serial.sc &&& ~~~ s.params.scMask = 0)

/-- The primary ROM bank register of a banked cartridge is never 0 (61 rule R1013). -/
abbrev Cart.BankInv (c : Cart) : Prop := c.variant ≠ .none → c.bankLo ≠ 0

/-- What a run cannot change: the parameters (70 rule R907), the image, and what the load decoded from its header (61 rules R1001,
R1011, R1071). -/
def SameHardware (s t : State) : Prop :=
  t.params = s.params ∧ t.bootRom = s.bootRom ∧ t.cart.rom = s.cart.rom ∧ t.cart.romLen = s.cart.romLen ∧
  t.cart.variant = s.cart.variant ∧ t.cart.romBanks = s.cart.romBanks ∧ t.cart.ramSize = s.cart.ramSize ∧
  t.cart.hasRam = s.cart.hasRam ∧ t.cart.hasBattery = s.cart.hasBattery ∧ t.cart.hasRtc = s.cart.hasRtc ∧
  t.cart.hasRumble = s.cart.hasRumble

/-! ### What an instruction does -/

/-- The control bits of the CPU are the same in `p` and `q` (10 rules R134, R140, R142 to R144). -/
def SameControl (p q : Cpu) : Prop :=
  q.ime = p.ime ∧ q.eiDelay = p.eiDelay ∧ q.halted = p.halted ∧ q.stopped = p.stopped ∧ q.skipInc = p.skipInc

/-- `q` is `p` with register `r` holding `v` and the flags `f`: no other register and no control bit differs. -/
def Cpu.Gives (p q : Cpu) (r : Reg8) (v : Byte) (f : Flags) : Prop :=
  (∀ x, q.reg x = if x = r then v else p.reg x) ∧ q.f = f ∧ q.sp = p.sp ∧ q.pc = p.pc ∧ SameControl p q

/-- `q` is `p` with the pair or SP `rr` holding `v` and the flags `f`: no other register and no control bit differs. -/
def Cpu.GivesPair (p q : Cpu) (rr : Reg16) (v : Word) (f : Flags) : Prop :=
  (∀ x, q.pair x = if x = rr then v else p.pair x) ∧ q.a = p.a ∧ q.f = f ∧ q.pc = p.pc ∧ SameControl p q

/-- The instruction completes: the CPU's own state becomes `p`, `cost` cycles are charged, and nothing else changes. -/
def Runs (i : Instr) (s : State) (cost : Nat) (p : Cpu) : Prop :=
  exec i s = .next { s with cpu := p, charge := s.charge + cost }

/-- The same for an instruction that reads the byte at `a`: a read changes nothing but the count of free values. -/
def Reads (i : Instr) (s : State) (a : Word) (cost : Nat) (p : Cpu) : Prop :=
  exec i s = .next { s with cpu := p, charge := s.charge + cost, draws := s.draws + s.readDraws a }

/-- The word at `a`, its low byte first (20 rules R205, R220). -/
def State.wordAt (s : State) (a : Word) : Word := (s.draw (s.readDraws a)).busRead (a + 1) ++ s.busRead a

/-- The number of free values its two reads look at. -/
def State.wordDraws (s : State) (a : Word) : Nat := s.readDraws a + (s.draw (s.readDraws a)).readDraws (a + 1)

/-- The same for an instruction that reads the word at `a`. -/
def ReadsWord (i : Instr) (s : State) (a : Word) (cost : Nat) (p : Cpu) : Prop :=
  exec i s = .next { s with cpu := p, charge := s.charge + cost, draws := s.draws + s.wordDraws a }

/-- What a store of `v` at `a` leaves in `t`: at an address with no effect beyond the store no other byte and no register of a
device differs, and an open address reads back `v`. -/
def Stored (s t : State) (a : Word) (v : Byte) : Prop :=
  (s.plainAt a = true → SameBytesBut s t a ∧ OnlyMemory s t) ∧ (s.openRam a = true → t.peek true a = v)

/-- The instruction completes by writing `v` at `a`; the CPU's own state becomes `p`. -/
def Stores (i : Instr) (s : State) (a : Word) (v : Byte) (cost : Nat) (p : Cpu) : Prop :=
  ∃ t, exec i s = .next t ∧ t = { s.busWrite a v with cpu := p, charge := (s.busWrite a v).charge + cost } ∧ Stored s t a v

/-- The instruction completes by reading the byte at HL and then writing `v` there; of the CPU's own state only the flags change,
to `f`. -/
def Modifies (i : Instr) (s : State) (cost : Nat) (v : Byte) (f : Flags) : Prop :=
  ∃ t, exec i s = .next t ∧
    t = { (s.afterRead (s.cpu.pair .hl)).busWrite (s.cpu.pair .hl) v with
      cpu := { s.cpu with f := f }
      charge := ((s.afterRead (s.cpu.pair .hl)).busWrite (s.cpu.pair .hl) v).charge + cost } ∧
    Stored s t (s.cpu.pair .hl) v

/-- Every address that reaches neither the cell of `a` nor the cell of `b` reads in `t` as it reads in `s`, the infrared receiver
left out. -/
def SameBytesButTwo (s t : State) (a b : Word) : Prop :=
  ∀ c, s.infraredAt c = false → (s.cellAt c = none ∨ (s.cellAt c ≠ s.cellAt a ∧ s.cellAt c ≠ s.cellAt b)) →
    t.peek true c = s.peek true c

/-- The instruction completes by writing `va` at `a` and then `vb` at `b`; the CPU's own state becomes `p`. -/
def StoresTwo (i : Instr) (s : State) (a : Word) (va : Byte) (b : Word) (vb : Byte) (cost : Nat) (p : Cpu) : Prop :=
  ∃ t, exec i s = .next t ∧
    t = { (s.busWrite a va).busWrite b vb with cpu := p, charge := ((s.busWrite a va).busWrite b vb).charge + cost } ∧
    (s.plainAt a = true → s.plainAt b = true → SameBytesButTwo s t a b ∧ OnlyMemory s t) ∧
    (s.plainAt a = true → s.openRam b = true → t.peek true b = vb) ∧
    (s.openRam a = true → s.plainAt b = true → s.cellAt a ≠ s.cellAt b → t.peek true a = va)

/-- A push of `v`: the high byte at SP - 1, then the low byte at SP - 2; `p` is the CPU's own state after it (41 rule R460). -/
def Pushes (i : Instr) (s : State) (v : Word) (cost : Nat) (p : Cpu) : Prop :=
  StoresTwo i s (s.cpu.sp - 1) (BitVec.ofNat 8 (v.toNat / 256)) (s.cpu.sp - 2) (BitVec.ofNat 8 (v.toNat % 256)) cost p

/-- The condition of a branch (30 rule R313). -/
def CondHolds (cc : Cond) (f : Flags) : Prop :=
  match cc with
  | .nz => f.z = false
  | .z => f.z = true
  | .nc => f.c = false
  | .c => f.c = true

/-- The two-digit BCD code of a number below 100. -/
def bcd (n : Nat) : Nat := n / 10 * 16 + n % 10

/-! ### The 8-bit operations by their arithmetic -/

/-- The operations of 42 rule R500. -/
inductive AluOp | add | adc | sub | sbc | and | xor | or | cp
  deriving DecidableEq, Repr

/-- The register form. -/
def AluOp.onReg : AluOp → Reg8 → Instr
  | .add => .addR
  | .adc => .adcR
  | .sub => .subR
  | .sbc => .sbcR
  | .and => .andR
  | .xor => .xorR
  | .or => .orR
  | .cp => .cpR

/-- The form on the byte at HL. -/
def AluOp.onHl : AluOp → Instr
  | .add => .addHl
  | .adc => .adcHl
  | .sub => .subHl
  | .sbc => .sbcHl
  | .and => .andHl
  | .xor => .xorHl
  | .or => .orHl
  | .cp => .cpHl

/-- The immediate form. -/
def AluOp.onImm : AluOp → Byte → Instr
  | .add => .addN
  | .adc => .adcN
  | .sub => .subN
  | .sbc => .sbcN
  | .and => .andN
  | .xor => .xorN
  | .or => .orN
  | .cp => .cpN

/-- `r` is `a + v + k` and `f` its flags (42 rules R501, R502; 00 section 5). -/
def SumOf (a v k : Nat) (r : Byte) (f : Flags) : Prop :=
  r.toNat = (a + v + k) % 256 ∧ (f.z = true ↔ (a + v + k) % 256 = 0) ∧ f.n = false ∧
  (f.h = true ↔ 15 < a % 16 + v % 16 + k) ∧ (f.c = true ↔ 255 < a + v + k)

/-- `r` is `a - v - k` and `f` its flags (42 rules R503, R504; 00 section 5). -/
def DifferenceOf (a v k : Nat) (r : Byte) (f : Flags) : Prop :=
  (r.toNat : Int) = ((a : Int) - v - k) % 256 ∧ (f.z = true ↔ ((a : Int) - v - k) % 256 = 0) ∧ f.n = true ∧
  (f.h = true ↔ a % 16 < v % 16 + k) ∧ (f.c = true ↔ a < v + k)

/-- `r` is the bitwise operation `g` of `a` and `v`, with Hf = `h` (42 rules R505 to R507). -/
def BitwiseOf (g : Bool → Bool → Bool) (h : Bool) (a v r : Byte) (f : Flags) : Prop :=
  (∀ i, i < 8 → r.getLsbD i = g (a.getLsbD i) (v.getLsbD i)) ∧
  (f.z = true ↔ ∀ i, i < 8 → g (a.getLsbD i) (v.getLsbD i) = false) ∧ f.n = false ∧ f.h = h ∧ f.c = false

/-- The value `r` left in A and the flags `f` of an operation on A = `a` and the operand `v` with the old carry `c` (42 rules R501
to R508). -/
def AluOp.Result (op : AluOp) (a v : Byte) (c : Bool) (r : Byte) (f : Flags) : Prop :=
  match op with
  | .add => SumOf a.toNat v.toNat 0 r f
  | .adc => SumOf a.toNat v.toNat c.toNat r f
  | .sub => DifferenceOf a.toNat v.toNat 0 r f
  | .sbc => DifferenceOf a.toNat v.toNat c.toNat r f
  | .and => BitwiseOf (fun x y => x && y) true a v r f
  | .xor => BitwiseOf (fun x y => x ^^ y) false a v r f
  | .or => BitwiseOf (fun x y => x || y) false a v r f
  | .cp => r = a ∧ ∃ d, DifferenceOf a.toNat v.toNat 0 d f

/-- The rotates and shifts of 30 rule R315. -/
inductive RotOp | rlc | rrc | rl | rr | sla | sra | swap | srl
  deriving DecidableEq, Repr

/-- The register form. -/
def RotOp.onReg : RotOp → Reg8 → Instr
  | .rlc => .rlcR
  | .rrc => .rrcR
  | .rl => .rlR
  | .rr => .rrR
  | .sla => .slaR
  | .sra => .sraR
  | .swap => .swapR
  | .srl => .srlR

/-- The form on the byte at HL. -/
def RotOp.onHl : RotOp → Instr
  | .rlc => .rlcHl
  | .rrc => .rrcHl
  | .rl => .rlHl
  | .rr => .rrHl
  | .sla => .slaHl
  | .sra => .sraHl
  | .swap => .swapHl
  | .srl => .srlHl

/-- The result of a rotate or shift of `v` as a number, with the old carry `c` (44 rules R610 to R625). -/
def RotOp.value (op : RotOp) (v : Nat) (c : Bool) : Nat :=
  match op with
  | .rlc => 2 * v % 256 + v / 128
  | .rrc => v / 2 + 128 * (v % 2)
  | .rl => 2 * v % 256 + c.toNat
  | .rr => v / 2 + 128 * c.toNat
  | .sla => 2 * v % 256
  | .sra => v / 2 + 128 * (v / 128)
  | .swap => 16 * (v % 16) + v / 16
  | .srl => v / 2

/-- The bit that goes to Cf, as a number 0 or 1. -/
def RotOp.out (op : RotOp) (v : Nat) : Nat :=
  match op with
  | .rlc | .rl | .sla => v / 128
  | .rrc | .rr | .sra | .srl => v % 2
  | .swap => 0

/-- `r` is the result of the operation on `v` with the old carry `c`, and Z (for the accumulator forms always 0), N, Hf and Cf are
the flags `f`. -/
def RotOp.Result (op : RotOp) (zero : Bool) (v : Byte) (c : Bool) (r : Byte) (f : Flags) : Prop :=
  r.toNat = op.value v.toNat c ∧ (f.z = true ↔ zero = true ∧ op.value v.toNat c = 0) ∧ f.n = false ∧ f.h = false ∧
  (f.c = true ↔ op.out v.toNat = 1)

/-! ### Registers of the I/O page -/

/-- Registers that both modes have, by address: the bits of a written byte that read back, and the bits that read 1 (10 section 4;
62 rule R1101). -/
def readback : List (Word × Byte × Byte) :=
  [(0xFF01, 0xFF, 0x00), (0xFF04, 0x00, 0x00), (0xFF05, 0xFF, 0x00), (0xFF06, 0xFF, 0x00), (0xFF07, 0x07, 0xF8),
    (0xFF0F, 0x1F, 0xE0), (0xFF40, 0xFF, 0x00), (0xFF42, 0xFF, 0x00), (0xFF43, 0xFF, 0x00), (0xFF45, 0xFF, 0x00),
    (0xFF46, 0xFF, 0x00), (0xFF47, 0xFF, 0x00), (0xFF48, 0xFF, 0x00), (0xFF49, 0xFF, 0x00), (0xFF4A, 0xFF, 0x00),
    (0xFF4B, 0xFF, 0x00), (0xFF50, 0x00, 0xFF), (0xFFFF, 0xFF, 0x00)]

/-- The same for registers of CGB mode (10 rules R131, R132; 62 rules R1101, R1150). -/
def readbackCgb : List (Word × Byte × Byte) :=
  [(0xFF4F, 0x01, 0xFE), (0xFF51, 0x00, 0xFF), (0xFF52, 0x00, 0xFF), (0xFF53, 0x00, 0xFF), (0xFF54, 0x00, 0xFF),
    (0xFF68, 0xBF, 0x40), (0xFF6A, 0xBF, 0x40), (0xFF70, 0x07, 0xF8)]

/-- The same for the registers of the APU, while its power is on (64 rule R1301). -/
def readbackApu : List (Word × Byte × Byte) :=
  [(0xFF10, 0x7F, 0x80), (0xFF11, 0xC0, 0x3F), (0xFF12, 0xFF, 0x00), (0xFF13, 0x00, 0xFF), (0xFF14, 0x40, 0xBF),
    (0xFF16, 0xC0, 0x3F), (0xFF17, 0xFF, 0x00), (0xFF18, 0x00, 0xFF), (0xFF19, 0x40, 0xBF), (0xFF1A, 0x80, 0x7F),
    (0xFF1B, 0x00, 0xFF), (0xFF1C, 0x60, 0x9F), (0xFF1D, 0x00, 0xFF), (0xFF1E, 0x40, 0xBF), (0xFF20, 0x00, 0xFF),
    (0xFF21, 0xFF, 0x00), (0xFF22, 0xFF, 0x00), (0xFF23, 0x40, 0xBF), (0xFF24, 0xFF, 0x00), (0xFF25, 0xFF, 0x00)]

/-- The unmapped addresses of both modes (20 rule R240). -/
def unmappedAddress (a : Nat) : Bool :=
  (decide (0xFEA0 ≤ a) && decide (a ≤ 0xFEFF)) || decide (a = 0xFF03) || (decide (0xFF08 ≤ a) && decide (a ≤ 0xFF0E)) ||
  decide (a = 0xFF15) || decide (a = 0xFF1F) || (decide (0xFF27 ≤ a) && decide (a ≤ 0xFF2F)) || decide (a = 0xFF4C) ||
  decide (a = 0xFF4E) || (decide (0xFF56 ≤ a) && decide (a ≤ 0xFF67)) || (decide (0xFF6C ≤ a) && decide (a ≤ 0xFF6F)) ||
  (decide (0xFF71 ≤ a) && decide (a ≤ 0xFF7F))

/-- The registers that are unmapped in DMG mode (20 rules R238, R240). -/
def cgbOnlyAddress (a : Nat) : Bool :=
  decide (a = 0xFF4D) || decide (a = 0xFF4F) || (decide (0xFF51 ≤ a) && decide (a ≤ 0xFF55)) ||
  (decide (0xFF68 ≤ a) && decide (a ≤ 0xFF6B)) || decide (a = 0xFF70)

/-- What a write of `v` to a palette data port leaves (62 rule R1151): `r` and `pal` are the index register and the memory before,
`r'` and `pal'` after, and `locked` says that the PPU owns the palettes. -/
def PalettePort (locked : Bool) (v r r' : Byte) (pal pal' : Memory) : Prop :=
  (∀ j, Store.read pal' j = if locked = false ∧ j = r.toNat % 64 then v else Store.read pal j) ∧
  r'.toNat % 64 = (if r.getLsbD 7 then (r.toNat + 1) % 64 else r.toNat % 64) ∧ r'.getLsbD 7 = r.getLsbD 7

/-! ### The line machine -/

/-- The requests of `t` are those of `s`, and the STAT request if `r` (62 rule R1112). -/
def StatRequests (s t : State) (r : Prop) : Prop :=
  (∀ j, j < 5 → j ≠ 1 → t.iflag.getLsbD j = s.iflag.getLsbD j) ∧ (t.iflag.getLsbD 1 = true ↔ s.iflag.getLsbD 1 = true ∨ r)

/-- The compare with the visible line `ly` finds LYC equal, `coincidence` was clear and STAT bit 6 is set (62 rule R1114). -/
def Ppu.Matches (p : Ppu) (ly : Nat) : Prop := ly = p.lyc.toNat ∧ p.coincidence = false ∧ p.stat.getLsbD 6 = true

/-- What position 0 of a visible line fixes: mode 2, the selection with its height, and L3 (62 rules R1112, R1113; 63 rule R1230). -/
def Ppu.LineStarted (p : Ppu) : Prop :=
  p.mode = .oamSearch ∧ p.sprites = p.selectSprites ∧ p.spriteH = (if p.lcdc.getLsbD 2 then 16 else 8) ∧
  p.mode3Len = 172 + 6 * (if p.lcdc.getLsbD 1 then p.sprites.length else 0)

/-- `t` stands at line 0, cycle 0, with the events of that position and the compare run from `s` (62 rules R1115, R1116). -/
def Restarted (s t : State) : Prop :=
  t.ppu.line = 0 ∧ t.ppu.lineCycle = 0 ∧ t.ppu.LineStarted ∧ t.ppu.windowLine = 0 ∧
  (t.ppu.coincidence = true ↔ s.ppu.lyc = 0) ∧
  StatRequests s t (s.ppu.stat.getLsbD 5 = true ∨ s.ppu.Matches 0)

/-! ### VRAM DMA -/

/-- The copy of `n` bytes by VRAM DMA (62 rule R1161): to the selected bank, the destination wrapping inside it; no other byte of
VRAM changes, and both addresses move on. A source that the rule calls open, or the infrared receiver, gives a free value. That
another source is read as the CPU reads it is log 29 (DEDUCED). -/
def VramCopied (s t : State) (n : Nat) : Prop :=
  let source (k : Nat) : Word := s.ppu.hdmaSrc + BitVec.ofNat 16 k
  let cell (k : Nat) : Nat := s.ppu.vbk.toNat * 0x2000 + (s.ppu.hdmaDst.toNat + k) % 0x2000
  (∀ k, k < n → ((source k).toNat < 0x8000 ∨ (0xA000 ≤ (source k).toNat ∧ (source k).toNat < 0xE000)) →
    s.infraredAt (source k) = false → Store.read t.ppu.vram (cell k) = s.peek false (source k)) ∧
  (∀ j, (∀ k, k < n → j ≠ cell k) → Store.read t.ppu.vram j = Store.read s.ppu.vram j) ∧
  t.ppu.hdmaSrc = source n ∧ t.ppu.hdmaDst.toNat = (s.ppu.hdmaDst.toNat + n) % 0x2000 ∧ s.charge ≤ t.charge

/-- VRAM and the registers of VRAM DMA are those of `s`. -/
def VramDmaIdle (s t : State) : Prop :=
  t.ppu.vram = s.ppu.vram ∧ t.ppu.hdmaSrc = s.ppu.hdmaSrc ∧ t.ppu.hdmaDst = s.ppu.hdmaDst ∧
  t.ppu.hdmaActive = s.ppu.hdmaActive ∧ t.ppu.hdmaLeft = s.ppu.hdmaLeft ∧ t.charge = s.charge

/-! ### Steps -/

/-- The machine takes a step of the CPU: it has not faulted, no host event waits, and it is not stopped. -/
def State.Ready (s : State) : Prop := s.fault = none ∧ s.inputs = [] ∧ s.cpu.stopped = false

/-- The state after the commit of a deferred EI (10 rule R140), with no cycles charged yet. -/
def State.stepStart (s : State) : State :=
  { s with
    cpu := { s.cpu with ime := s.cpu.ime || decide (s.cpu.eiDelay = 1), eiDelay := s.cpu.eiDelay - 1 }
    charge := 0 }

/-- The `n` bytes at `a`, read one after the other. -/
def State.bytesAt (n : Nat) (s : State) (a : Word) : List Byte :=
  match n with
  | 0 => []
  | k + 1 => s.busRead a :: State.bytesAt k (s.draw (s.readDraws a)) (a + 1)

/-- The number of free values the reads of `n` bytes at `a` look at. -/
def State.bytesDraws (n : Nat) (s : State) (a : Word) : Nat :=
  match n with
  | 0 => 0
  | k + 1 => s.readDraws a + State.bytesDraws k (s.draw (s.readDraws a)) (a + 1)

/-- Source `i` is enabled and requested (60 rule R820). -/
def State.requested (s : State) (i : Nat) : Bool := s.ie.getLsbD i && s.iflag.getLsbD i

/-- Line `i` of P1's low nibble is pulled to 0: a pressed button of a selected group stands behind it (60 rule R874). -/
def State.pulled (s : State) (i : Nat) : Bool :=
  (!s.joy.sel.getLsbD 0 && s.joy.buttons.getLsbD i) || (!s.joy.sel.getLsbD 1 && s.joy.buttons.getLsbD (i + 4))

/-- The requests of `t` after a change of the joypad: those of `s`, and the joypad's if some line fell (60 rule R874). -/
def JoypadRequests (s t : State) : Prop :=
  (∀ j, j < 4 → t.iflag.getLsbD j = s.iflag.getLsbD j) ∧
  (t.iflag.getLsbD 4 = true ↔ s.iflag.getLsbD 4 = true ∨ ∃ i, i < 4 ∧ s.pulled i = false ∧ t.pulled i = true)

/-- An answer of an instruction, `Tick` taken (60 rules R802, R810). -/
def Ticked (r : Result) : Result :=
  match r with
  | .next t => .next t.tick
  | .fault f => .fault f
  | .refused x => .refused x

end Sys2Proof.Machine

namespace Sys2Proof

/-! ### Which instructions write what -/

/-- The instructions that may change more than the CPU's own state: those that write to the bus, STOP, and the CB prefix by
itself, which stands for any CB instruction. -/
def Instr.storesOrStops : Instr → Bool
  | .ldHlR _ | .ldHlN _ | .ldBcA | .ldDeA | .ldNnA _ | .ldhCA | .ldhNA _ | .ldHldA | .ldHliA | .ldNnSp _ | .push _ => true
  | .incHl | .decHl | .rlcHl | .rrcHl | .rlHl | .rrHl | .slaHl | .sraHl | .swapHl | .srlHl | .resHl _ | .setHl _ => true
  | .callNn _ | .callCc _ _ | .rst _ | .stop | .cbPrefix => true
  | _ => false

/-- The instructions of the first row and of the row RES, SET of 10 rule R112: they write no flag. -/
def Instr.keepsFlags : Instr → Bool
  | .ldRR _ _ | .ldRN _ _ | .ldRHl _ | .ldHlR _ | .ldHlN _ | .ldABc | .ldADe | .ldBcA | .ldDeA | .ldANn _ | .ldNnA _ => true
  | .ldhAC | .ldhCA | .ldhAN _ | .ldhNA _ | .ldAHld | .ldHldA | .ldAHli | .ldHliA => true
  | .ldRrNn _ _ | .ldNnSp _ | .ldSpHl | .push _ | .pop _ | .incRr _ | .decRr _ => true
  | .jpNn _ | .jpCc _ _ | .jpHl | .jrE _ | .jrCc _ _ | .callNn _ | .callCc _ _ | .ret | .retCc _ | .reti | .rst _ => true
  | .nop | .halt | .stop | .di | .ei | .resR _ _ | .resHl _ | .setR _ _ | .setHl _ => true
  | _ => false

/-- The instructions that write SP (10 rule R107). -/
def Instr.writesSp : Instr → Bool
  | .ldRrNn .sp _ | .ldSpHl | .addSpE _ | .incRr .sp | .decRr .sp => true
  | .pop _ | .popAf | .push _ | .callNn _ | .callCc _ _ | .rst _ | .ret | .retCc _ | .reti => true
  | _ => false

end Sys2Proof
end

