-- ==== Sys2Proof/Certificates/Slice0/Obligations.lean ====
section
/-! DEFINITION. The statements for the provers. Each docstring names the rules of spec/ it formalises; OBLIGATIONS.json
lists them. -/

section
open Sys2Proof Sys2Proof.Machine

/-! ### Encoding -/

/-- Every instruction of the table is read back from its bytes, whatever stands behind them (30 rules R332, R333, R346). The row
PREFIX (log 16, DESIGN CHOICE) is read where nothing stands behind its byte. -/
def Obligations.DecodeOfEncode : Prop :=
  ∀ (i : Instr) (rest : List Byte), i.wf = true → (i = .cbPrefix → rest = []) → decode (encode i ++ rest) = .ok (i, rest)

/-- Every opcode byte with the two bytes behind it names an instruction whose bytes they are: no bit of an encoding is lost
(30 rules R330 to R333, R346). -/
def Obligations.EncodeOfDecode : Prop :=
  ∀ op b1 b2 : Byte, encode (decodeOp op b1 b2) = [op, b1, b2].take (1 + operandBytes op)

/-- Decoding is total: any three bytes hold an instruction of the table, one to three bytes long, and the rest is left
(30 rules R332, R346). -/
def Obligations.DecodeIsTotal : Prop :=
  ∀ (op b1 b2 : Byte) (rest : List Byte), ∃ i n, decode (op :: b1 :: b2 :: rest) = .ok (i, [op, b1, b2].drop n ++ rest) ∧
    i.wf = true ∧ i ≠ .cbPrefix ∧ 1 ≤ n ∧ n ≤ 3 ∧ n = (encode i).length

/-- Words written out from the encoding lines of the instruction rules, one or more of each family. -/
def Obligations.SpecWordsDecode : Prop :=
  decode [0x78] = .ok (.ldRR .a .b, []) ∧ decode [0x36, 0x12] = .ok (.ldHlN 0x12, []) ∧
  decode [0x21, 0x00, 0xC0] = .ok (.ldRrNn .hl 0xC000, []) ∧ decode [0x08, 0x00, 0xC1] = .ok (.ldNnSp 0xC100, []) ∧
  decode [0xF5] = .ok (.push .af, []) ∧ decode [0x8E] = .ok (.adcHl, []) ∧ decode [0xFE, 0x20] = .ok (.cpN 0x20, []) ∧
  decode [0x27] = .ok (.daa, []) ∧ decode [0x39] = .ok (.addHlRr .sp, []) ∧ decode [0xE8, 0xFE] = .ok (.addSpE 0xFE, []) ∧
  decode [0x1F] = .ok (.rra, []) ∧ decode [0xCB, 0x37] = .ok (.swapR .a, []) ∧ decode [0xCB, 0x7E] = .ok (.bitHl 7, []) ∧
  decode [0xDA, 0x34, 0x12] = .ok (.jpCc .c 0x1234, []) ∧ decode [0x18, 0xFE] = .ok (.jrE 0xFE, []) ∧
  decode [0xDF] = .ok (.rst 3, []) ∧ decode [0x76] = .ok (.halt, []) ∧ decode [0xFB, 0x76] = .ok (.ei, [0x76]) ∧
  decode [0xDD] = .ok (.illegal 0xDD, [])

/-! ### The step -/

/-- A step runs the instruction at PC: the deferred EI is committed, the bytes are fetched, PC stands past them, and `Tick` follows
(60 rules R810, R811; 10 rules R105, R140). With `skip_inc` the opcode byte is read again as the byte behind it
(10 rule R143; 46 rules R702, R712). That all bytes are fetched before any effect is log 15 (DEDUCED). -/
def Obligations.StepRunsDecodedInstruction : Prop :=
  ∀ (s : State) (i : Instr) (rest : List Byte), s.Ready → s.cpu.halted = false →
    let s0 := s.stepStart
    let pc := s.cpu.pc
    (s0.cpu.ime = true → ∀ j, j < 5 → s.requested j = false) →
    (s.cpu.skipInc = false → decode (State.bytesAt 3 s0 pc) = .ok (i, rest) →
      step s = Ticked (exec i { s0 with
        cpu := { s0.cpu with pc := pc + BitVec.ofNat 16 (3 - rest.length) }
        opAddr := pc
        draws := s0.draws + State.bytesDraws (3 - rest.length) s0 pc })) ∧
    (s.cpu.skipInc = true →
      decode (s0.busRead pc :: State.bytesAt 2 (s0.draw (s0.readDraws pc)) pc) = .ok (i, rest) →
      step s = Ticked (exec i { s0 with
        cpu := { s0.cpu with pc := pc + BitVec.ofNat 16 (2 - rest.length), skipInc := false }
        opAddr := pc
        draws := s0.draws + s0.readDraws pc + State.bytesDraws (2 - rest.length) (s0.draw (s0.readDraws pc)) pc }))

/-- Taking an interrupt: with IME set, the lowest requested and enabled source `i` is taken, halted or not. IME and the request
bit are cleared, PC is pushed high byte first, PC becomes 0x40 + 8 × i, 20 cycles are charged; a pending EI is kept or dropped
(60 rule R822). -/
def Obligations.InterruptDispatch : Prop :=
  ∀ (s : State) (i : Nat), s.Ready → i < 5 → s.stepStart.cpu.ime = true → s.requested i = true →
    (∀ j, j < i → s.requested j = false) →
    ∃ (k : Nat) (m : BitVec 5), (k = s.stepStart.cpu.eiDelay ∨ k = 0) ∧
      (∀ j, j < 5 → m.getLsbD j = (s.iflag.getLsbD j && decide (j ≠ i))) ∧
      let p := s.stepStart.cpu
      let t := ({ s.stepStart with iflag := m } : State).busWrite (p.sp - 1) (BitVec.ofNat 8 (p.pc.toNat / 256))
      let u := t.busWrite (p.sp - 2) (BitVec.ofNat 8 (p.pc.toNat % 256))
      step s = .next ({ u with
        cpu := { p with ime := false, halted := false, sp := p.sp - 2, pc := BitVec.ofNat 16 (0x40 + 8 * i), eiDelay := k }
        charge := u.charge + 20
        draws := u.draws + if p.eiDelay = 0 then 0 else 1 } : State).tick

/-- The halted CPU: with no source both enabled and requested the clocks advance by 4 cycles and nothing else happens; with one,
the step is that of the CPU awake, the wake itself free (60 rule R812). -/
def Obligations.HaltedStep : Prop :=
  ∀ s : State, s.Ready → s.cpu.halted = true →
    ((∀ j, j < 5 → s.requested j = false) → step s = .next ({ s.stepStart with charge := 4 } : State).tick) ∧
    ((∃ j, j < 5 ∧ s.requested j = true) → step s = step { s with cpu := { s.cpu with halted := false } })

/-- The states in which no instruction runs: a faulted machine stays faulted (60 rule R800), a stopped one stays as it is (R814),
and a joypad event is delivered alone: it sets its button, ends the stopped state if the buttons changed (R871), and requests the
joypad interrupt if a line fell (R874). That a
waiting event takes a step of the model is log 12 (DESIGN CHOICE), that a faulted or stopped step answers at all log 13 (DESIGN CHOICE). -/
def Obligations.QuiescentStates : Prop :=
  ∀ s : State,
    (∀ f, s.fault = some f → step s = .fault f) ∧
    (s.fault = none → s.inputs = [] → s.cpu.stopped = true → step s = .next s) ∧
    (∀ button pressed rest, s.fault = none → s.inputs = .joypad button pressed :: rest →
      ∃ t, step s = .next t ∧ t.inputs = rest ∧
        (∀ j, j < 8 → t.joy.buttons.getLsbD j = if j = button.toNat then pressed else s.joy.buttons.getLsbD j) ∧
        (t.cpu.stopped = true ↔ s.cpu.stopped = true ∧ t.joy.buttons = s.joy.buttons) ∧
        t.joy.sel = s.joy.sel ∧ t.cpu = { s.cpu with stopped := t.cpu.stopped } ∧ JoypadRequests s t ∧
        t = { s with inputs := rest, joy := t.joy, cpu := t.cpu, iflag := t.iflag })

/-- The undefined opcodes: exactly the eleven bytes name `illegal`, whose meaning is the fault with the opcode's address and byte,
and a step that fetches one faults (46 rule R710; 60 rule R802; 30 rule R340). -/
def Obligations.UndefinedOpcodeFaults : Prop :=
  (∀ op b1 b2 x : Byte, decodeOp op b1 b2 = .illegal x ↔
    x = op ∧ op.toNat ∈ [0xD3, 0xDB, 0xDD, 0xE3, 0xE4, 0xEB, 0xEC, 0xED, 0xF4, 0xFC, 0xFD]) ∧
  (∀ (op : Byte) (s : State), exec (.illegal op) s = .fault (.illegalOpcode s.opAddr op)) ∧
  (∀ (s : State) (op : Byte), s.Ready → s.cpu.halted = false →
    (s.stepStart.cpu.ime = true → ∀ j, j < 5 → s.requested j = false) →
    s.stepStart.busRead s.cpu.pc = op → op ∈ illegalOpcodes → step s = .fault (.illegalOpcode s.cpu.pc op))

/-- Nothing else stops: no step and no instruction is refused, and a fault comes from the fetch of an undefined byte or from an
earlier fault (20 rule R212; 60 rules R801, R802). -/
def Obligations.OnlyUndefinedBytesStop : Prop :=
  (∀ i s x, exec i s ≠ .refused x) ∧
  (∀ i s f, exec i s = .fault f → ∃ op, i = .illegal op ∧ f = .illegalOpcode s.opAddr op) ∧
  (∀ s x, step s ≠ .refused x) ∧
  (∀ s f, step s = .fault f → s.fault = some f ∨
    ∃ op, op ∈ illegalOpcodes ∧ s.stepStart.busRead s.cpu.pc = op ∧ f = .illegalOpcode s.cpu.pc op)

/-- Which instructions change the control state: IME only DI and RETI, a pending EI only EI, DI and RETI, `halted` and `skip_inc`
only HALT, `stopped` and the speed only STOP (10 rules R134, R140, R142 to R144; 46 rules R701 to R707). -/
def Obligations.ControlStateWriters : Prop :=
  ∀ (i : Instr) (s t : State), exec i s = .next t →
    (t.cpu.ime ≠ s.cpu.ime → i = .di ∨ i = .reti) ∧
    (t.cpu.eiDelay ≠ s.cpu.eiDelay → i = .ei ∨ i = .di ∨ i = .reti) ∧
    (t.cpu.halted ≠ s.cpu.halted → i = .halt) ∧
    (t.cpu.skipInc ≠ s.cpu.skipInc → i = .halt) ∧
    (t.cpu.stopped ≠ s.cpu.stopped → i = .stop) ∧
    (t.doubleSpeed ≠ s.doubleSpeed → i = .stop) ∧
    t.params = s.params ∧ t.fault = s.fault ∧ t.cycles = s.cycles ∧ t.inputs = s.inputs

/-- Which instructions change the flags and SP: none outside the rows of 10 rule R112 that write a flag, and none outside the list
of 10 rule R107. -/
def Obligations.FlagAndStackPointerWriters : Prop :=
  ∀ (i : Instr) (s t : State), i.wf = true → exec i s = .next t →
    (i.keepsFlags = true → t.cpu.f = s.cpu.f) ∧ (i.writesSp = false → t.cpu.sp = s.cpu.sp)

/-! ### Invariants -/

/-- Every step keeps every memory in its canonical form and inside its size (20 rules R233, R239; 61 rule R1015; 62 rule R1100;
64 rule R1300). -/
def Obligations.MemoryInvariant : Prop :=
  ∀ s t : State, s.MemWf → s.MemBounds → s.cart.Shaped → step s = .next t → t.MemWf ∧ t.MemBounds ∧ t.cart.Shaped

/-- Every step keeps the PPU on the frame: line below 154, cycle below 456, at most ten sprites, a mode-3 length of 172 to 232, and,
while the LCD is on, the mode that the position gives (62 rules R1110, R1111, R1113; 63 rule R1230). -/
def Obligations.PpuPositionInvariant : Prop := ∀ s t : State, s.ppu.LineInv → step s = .next t → t.ppu.LineInv

/-- Every step keeps the counters in range and the bits that are not stored at 0 (10 rules R127, R140, R146; 62 rules R1100, R1103,
R1150; 64 rule R1300). -/
def Obligations.DeviceRangesInvariant : Prop :=
  ∀ s t : State, s.Ranges → s.apu.Ranges → step s = .next t → t.Ranges ∧ t.apu.Ranges

/-- No step changes the parameters, the mode, the image or what the load decoded from its header (70 rule R907; 61 rules R1001,
R1011, R1071). -/
def Obligations.HardwareIsFixed : Prop := ∀ s t : State, step s = .next t → SameHardware s t

/-- Every step keeps the primary ROM bank register of a banked cartridge away from 0 (61 rule R1013), and the boot ROM once unmapped
stays unmapped (10 rules R133, R147). -/
def Obligations.MapperInvariant : Prop :=
  ∀ s t : State, step s = .next t →
    (s.cart.BankInv → t.cart.BankInv) ∧ (s.bootMapped = false → t.bootMapped = false)

/-- The machine after reset meets every invariant. -/
def Obligations.ResetMeetsInvariants : Prop :=
  State.reset.MemWf ∧ State.reset.MemBounds ∧ State.reset.cart.Shaped ∧ State.reset.ppu.LineInv ∧ State.reset.Ranges ∧
  State.reset.apu.Ranges ∧ State.reset.cart.BankInv ∧ State.reset.bootMapped = false

/-- Every loaded machine meets them, whatever the image, the host's choices and the values the spec leaves open, each cut to the range of its
field (log 23 (DESIGN CHOICE); 70 rules R900 to R908). The clause of `State.Ranges` that an active HBlank DMA has a block left is, for
a load with a boot ROM, the model's choice: log 36 (DESIGN CHOICE) leaves out the draw of a count 0 with an active transfer. -/
def Obligations.LoadMeetsInvariants : Prop :=
  ∀ (q : LoadRequest) (d s : State), load q d = .ok s →
    s.MemWf ∧ s.MemBounds ∧ s.cart.Shaped ∧ s.ppu.LineInv ∧ s.Ranges ∧ s.apu.Ranges ∧ s.cart.BankInv

/-- The clocks: `Tick` changes only the clocked devices, the requests and the counts; of the PPU it writes no register, neither OAM
nor the palettes, and VRAM only for an active HBlank DMA in CGB mode; it clears no request and touches neither wave RAM nor the
power (60 rules R811, R820; 62 rules R1110, R1161, R1164). The registers of the timer, the serial port and channel 1's sweep do
move. That `Tick` uses up a charge kept in the state is log 14 (DESIGN CHOICE). -/
def Obligations.ClocksLeaveCpuAndMemory : Prop :=
  ∀ s : State,
    s.tick = { s with
      ppu := s.tick.ppu, apu := s.tick.apu, timer := s.tick.timer, serial := s.tick.serial, iflag := s.tick.iflag
      cycles := s.tick.cycles, charge := 0, draws := s.tick.draws } ∧
    s.tick.ppu = { s.tick.ppu with
      lcdc := s.ppu.lcdc, stat := s.ppu.stat, scy := s.ppu.scy, scx := s.ppu.scx, lyc := s.ppu.lyc, dma := s.ppu.dma
      bgp := s.ppu.bgp, obp0 := s.ppu.obp0, obp1 := s.ppu.obp1, wy := s.ppu.wy, wx := s.ppu.wx, vbk := s.ppu.vbk
      bcps := s.ppu.bcps, ocps := s.ppu.ocps, oam := s.ppu.oam, bgPal := s.ppu.bgPal, objPal := s.ppu.objPal } ∧
    (s.params.cgb = false ∨ s.ppu.hdmaActive = false → s.tick.ppu.vram = s.ppu.vram ∧ s.tick.ppu.hdmaSrc = s.ppu.hdmaSrc) ∧
    (∀ j, s.iflag.getLsbD j = true → s.tick.iflag.getLsbD j = true) ∧
    s.tick.apu.power = s.apu.power ∧ s.tick.apu.wave = s.apu.wave

/-! ### The bus -/

/-- A byte written to open storage is read back at once: work RAM, its echo, high RAM, IE, VRAM and OAM when the PPU does not own
them, and cartridge RAM when it is enabled, where MBC2 keeps four bits (20 rules R233, R234, R239; 61 rules R1015, R1030;
62 rules R1120, R1121). -/
def Obligations.ReadAfterWrite : Prop :=
  ∀ (s : State) (a : Word) (v : Byte),
    (s.openRam a = true → (s.busWrite a v).busRead a = v) ∧
    (∀ k, s.cellAt a = some (.cartRam k) → s.windowOpen a = false →
      (s.busWrite a v).busRead a = if s.cart.variant = .mbc2 then 0xF0#8 ||| (v &&& 0x0F#8) else v)

/-- What a write leaves unchanged. A plain address changes no other byte and no register. Otherwise only the unit behind the address
changes: the mapper below 0x8000, and on the I/O page the joypad, serial port, timer, APU, PPU or control register addressed
(20 rules R222, R232, R238; 60 rule R853). The CPU, the parameters and the speed never change. -/
def Obligations.BusWriteFrame : Prop :=
  ∀ (s : State) (a : Word) (v : Byte),
    let t := s.busWrite a v
    (s.plainAt a = true → SameBytesBut s t a ∧ OnlyMemory s t) ∧
    (t.cpu = s.cpu ∧ t.params = s.params ∧ t.doubleSpeed = s.doubleSpeed ∧ t.fault = s.fault ∧ t.cycles = s.cycles ∧
      t.bootRom = s.bootRom ∧ t.inputs = s.inputs ∧ t.opAddr = s.opAddr) ∧
    (a.toNat < 0x8000 →
      t = { s with cart := t.cart, draws := t.draws } ∧ t.cart.ram = s.cart.ram ∧ t.cart.rom = s.cart.rom ∧
      t.cart.rtcLive = s.cart.rtcLive) ∧
    (a = 0xFF00 → t = { s with joy := t.joy, iflag := t.iflag, draws := t.draws } ∧ t.joy.buttons = s.joy.buttons) ∧
    (a = 0xFF01 ∨ a = 0xFF02 → t = { s with serial := t.serial, draws := t.draws }) ∧
    (0xFF04 ≤ a.toNat ∧ a.toNat ≤ 0xFF07 → t = { s with timer := t.timer, draws := t.draws }) ∧
    (a = 0xFF0F → t = { s with iflag := t.iflag, draws := t.draws }) ∧
    (0xFF10 ≤ a.toNat ∧ a.toNat ≤ 0xFF3F → t = { s with apu := t.apu, draws := t.draws }) ∧
    (0xFF40 ≤ a.toNat ∧ a.toNat ≤ 0xFF4B ∧ a ≠ 0xFF46 →
      t = { s with ppu := t.ppu, iflag := t.iflag, draws := t.draws } ∧ t.ppu.vram = s.ppu.vram ∧ t.ppu.oam = s.ppu.oam) ∧
    (a = 0xFF46 →
      t = { s with ppu := t.ppu, charge := t.charge, draws := t.draws, dmaUntil := t.dmaUntil } ∧
      t.ppu = { s.ppu with dma := t.ppu.dma, oam := t.ppu.oam }) ∧
    (a = 0xFF4D → t = { s with key1Prep := t.key1Prep, draws := t.draws }) ∧
    (a = 0xFF50 → t = { s with bootMapped := t.bootMapped, draws := t.draws }) ∧
    (a = 0xFF55 → t = { s with ppu := t.ppu, charge := t.charge, draws := t.draws } ∧ t.ppu.oam = s.ppu.oam) ∧
    (a = 0xFF4F ∨ (0xFF51 ≤ a.toNat ∧ a.toNat ≤ 0xFF54) ∨ (0xFF68 ≤ a.toNat ∧ a.toNat ≤ 0xFF6B) →
      t = { s with ppu := t.ppu, draws := t.draws } ∧ t.ppu.vram = s.ppu.vram ∧ t.ppu.oam = s.ppu.oam) ∧
    (a = 0xFF70 → t = { s with svbk := t.svbk, draws := t.draws })

/-- The echo: an access to 0xE000-0xFDFF is an access to the address 0x2000 below (20 rule R234). -/
def Obligations.EchoRam : Prop :=
  ∀ (s : State) (a : Word) (v : Byte), 0xE000 ≤ a.toNat → a.toNat < 0xFE00 →
    s.busRead a = s.busRead (a - 0x2000) ∧ s.afterRead a = s.afterRead (a - 0x2000) ∧
    s.busWrite a v = s.busWrite (a - 0x2000) v

/-- Unmapped addresses read 0xFF and discard writes, the CGB registers in DMG mode among them (20 rule R240), outside the OAM DMA
window of 70 rule R923. -/
def Obligations.UnmappedAddresses : Prop :=
  ∀ (s : State) (a : Word) (v : Byte),
    (unmappedAddress a.toNat = true ∨ (s.params.cgb = false ∧ cgbOnlyAddress a.toNat = true)) → s.windowOpen a = false →
    s.busRead a = 0xFF ∧ s.busWrite a v = s

/-- What a register reads after a write of `v`: the bits it stores, and ones in the bits it does not (10 section 4; 62 rule R1101;
64 rule R1301), outside the OAM DMA window. LY reads 0 after any write (62 rule R1115). A palette data port stores the byte at the
index, which then advances if it is to, locked or not, and reads the byte at the new index (62 rule R1151). P1 and HDMA5 have
statements of their own, `JoypadRegister` and `VramDma`; a write of NR52 with bit 7 set is not spoken of. -/
def Obligations.RegisterReadback : Prop :=
  ∀ (s : State) (v : Byte) (a : Word), s.windowOpen a = false →
    (∀ keep ones, ((a, keep, ones) ∈ readback ∨ (s.params.cgb = true ∧ (a, keep, ones) ∈ readbackCgb) ∨
        (s.apu.power = true ∧ (a, keep, ones) ∈ readbackApu)) →
      (s.busWrite a v).peek true a = (v &&& keep) ||| ones) ∧
    (0xFF30 ≤ a.toNat ∧ a.toNat ≤ 0xFF3F → (s.busWrite a v).peek true a = v) ∧
    (a = 0xFF41 → (s.busWrite a v).peek true a &&& 0xF8#8 = (v &&& 0x78#8) ||| 0x80#8) ∧
    (a = 0xFF02 →
      (s.busWrite a v).peek true a = if s.params.cgb then (v &&& 0x83#8) ||| 0x7C#8 else (v &&& 0x81#8) ||| 0x7E#8) ∧
    (a = 0xFF4D → s.params.cgb = true →
      (s.busWrite a v).peek true a = (v &&& 0x01#8) ||| (if s.doubleSpeed then 0xFE#8 else 0x7E#8)) ∧
    (a = 0xFF26 → s.apu.power = true → v.getLsbD 7 = false → (s.busWrite a v).peek true a = 0x70) ∧
    (a = 0xFF44 → (s.busWrite a v).peek true a = 0) ∧
    (a = 0xFF69 → s.params.cgb = true →
      let t := s.busWrite a v
      PalettePort s.ppu.vramLocked v s.ppu.bcps t.ppu.bcps s.ppu.bgPal t.ppu.bgPal ∧
      t.peek true a = if s.ppu.vramLocked then 0xFF else Store.read t.ppu.bgPal (t.ppu.bcps.toNat % 64)) ∧
    (a = 0xFF6B → s.params.cgb = true →
      let t := s.busWrite a v
      PalettePort s.ppu.vramLocked v s.ppu.ocps t.ppu.ocps s.ppu.objPal t.ppu.objPal ∧
      t.peek true a = if s.ppu.vramLocked then 0xFF else Store.read t.ppu.objPal (t.ppu.ocps.toNat % 64))

/-- The locks of the PPU with the LCD on: VRAM in mode 3, OAM in modes 2 and 3 read 0xFF and keep their bytes (62 rules R1120,
R1121), outside the OAM DMA window. -/
def Obligations.VideoLocks : Prop :=
  ∀ (s : State) (a : Word) (v : Byte), s.ppu.lcdc.getLsbD 7 = true → s.windowOpen a = false →
    (s.ppu.mode = .transfer → 0x8000 ≤ a.toNat → a.toNat < 0xA000 → s.busRead a = 0xFF ∧ s.busWrite a v = s) ∧
    (s.ppu.mode = .oamSearch ∨ s.ppu.mode = .transfer → 0xFE00 ≤ a.toNat → a.toNat < 0xFEA0 →
      s.busRead a = 0xFF ∧ s.busWrite a v = s)

/-- The OAM DMA bus window: for 640 cycles after a write to 0xFF46 a read outside 0xFF80-0xFFFE is a free value and a write there
may be lost (70 rule R923). The window's two ends are log 10 (DEDUCED). -/
def Obligations.OamDmaWindow : Prop :=
  (∀ (s : State) (v : Byte), s.windowOpen 0xFF46 = false → (s.busWrite 0xFF46 v).dmaUntil = s.cycles + 640) ∧
  ∀ (s : State) (a : Word) (v : Byte), s.params.timed = true →
    (s.cycles < s.dmaUntil → ¬ (0xFF80 ≤ a.toNat ∧ a.toNat ≤ 0xFFFE) →
      s.busRead a = Config.freeByte s.draws ∧ s.readDraws a = 1 ∧
      (s.busWrite a v = { s with draws := s.draws + 1 } ∨
        s.busWrite a v = ({ s with draws := s.draws + 1 } : State).storeAt (regionOf s.params.cgb a) v)) ∧
    (s.dmaUntil ≤ s.cycles ∨ (0xFF80 ≤ a.toNat ∧ a.toNat ≤ 0xFFFE) →
      s.busWrite a v = s.storeAt (regionOf s.params.cgb a) v ∧ s.busRead a = s.peek true a)

/-- The RAM gate: a control write enables the cartridge RAM when its low nibble is 0xA and otherwise disables it, after which the
window 0xA000-0xBFFF reads 0xFF and discards writes (61 rules R1014, R1016, R1020, R1031, R1040, R1050, R1060). The write 0x0E of
HuC1 selects the infrared receiver instead: reads of the window are then draws (R1060, R1061). That they are draws whatever
`ram_enable` is, where R1014 gives 0xFF for a disabled RAM, is log 22 (DESIGN CHOICE). -/
def Obligations.RamGate : Prop :=
  ∀ (s : State) (a b : Word) (v w : Byte), s.windowOpen a = false → s.windowOpen b = false → 0xA000 ≤ b.toNat →
    b.toNat < 0xC000 →
    let t := s.busWrite a v
    ((s.cart.variant = .mbc2 ∧ a.toNat < 0x4000 ∧ a.toNat / 256 % 2 = 0) ∨
        ((s.cart.variant = .mbc1 ∨ s.cart.variant = .mbc3 ∨ s.cart.variant = .mbc5 ∨ (s.cart.variant = .huc1 ∧ v ≠ 0x0E)) ∧
          a.toNat < 0x2000) →
      (t.cart.ramEnable = true ↔ v.toNat % 16 = 10) ∧
      (s.params.ramPermissive = false → v.toNat % 16 ≠ 10 → t.busRead b = 0xFF ∧ t.busWrite b w = t)) ∧
    (s.cart.variant = .huc1 ∧ a.toNat < 0x2000 ∧ v = 0x0E →
      t.cart.irMode = true ∧ t.cart.ramEnable = s.cart.ramEnable ∧ t.readDraws b = 1 ∧ t.busWrite b w = t)

/-- Selecting a ROM bank: what 0x4000-0x7FFF reads after a write to the bank register, the field 0 stored as 1 and the index taken
modulo the bank count (61 rules R1012, R1013, R1017, R1021, R1024, R1031, R1041, R1051, R1060). -/
def Obligations.BankSwitching : Prop :=
  ∀ (s : State) (a : Word) (v : Byte) (off : Nat), off < 0x4000 → s.windowOpen a = false →
    s.windowOpen (BitVec.ofNat 16 (0x4000 + off)) = false →
    let reads (bank : Nat) : Prop :=
      (s.busWrite a v).busRead (BitVec.ofNat 16 (0x4000 + off)) = s.cart.romByte (bank % s.cart.romBanks) off
    (s.cart.variant = .none → a.toNat < 0x8000 → reads 1) ∧
    (s.cart.variant = .mbc1 → 0x2000 ≤ a.toNat → a.toNat < 0x4000 →
      reads (s.cart.bankHi.toNat * 32 + max 1 (v.toNat % 32))) ∧
    (s.cart.variant = .mbc2 → a.toNat < 0x4000 → a.toNat / 256 % 2 = 1 → reads (max 1 (v.toNat % 16))) ∧
    (s.cart.variant = .mbc3 → 0x2000 ≤ a.toNat → a.toNat < 0x4000 → reads (max 1 (v.toNat % 128))) ∧
    (s.cart.variant = .mbc5 → 0x2000 ≤ a.toNat → a.toNat < 0x3000 → reads (s.cart.bankHi.toNat * 256 + max 1 v.toNat)) ∧
    (s.cart.variant = .mbc5 → 0x3000 ≤ a.toNat → a.toNat < 0x4000 → reads (v.toNat % 2 * 256 + s.cart.bankLo.toNat)) ∧
    (s.cart.variant = .huc1 → 0x2000 ≤ a.toNat → a.toNat < 0x4000 → reads (max 1 (v.toNat % 64)))

/-- The register file: a pair is two registers, the first-named the high byte, and a write to it writes both; F is four booleans,
read with its low nibble 0 and written without it (10 rules R102, R110). -/
def Obligations.RegisterFile : Prop :=
  ∀ p : Cpu,
    ((p.pair .bc).toNat = p.b.toNat * 256 + p.c.toNat ∧ (p.pair .de).toNat = p.d.toNat * 256 + p.e.toNat ∧
      (p.pair .hl).toNat = p.h.toNat * 256 + p.l.toNat ∧ p.pair .sp = p.sp) ∧
    (p.stackPair .af).toNat =
      p.a.toNat * 256 + p.f.z.toNat * 128 + p.f.n.toNat * 64 + p.f.h.toNat * 32 + p.f.c.toNat * 16 ∧
    (p.stackPair .bc = p.pair .bc ∧ p.stackPair .de = p.pair .de ∧ p.stackPair .hl = p.pair .hl) ∧
    (∀ rr v, p.GivesPair (p.setPair rr v) rr v p.f) ∧
    (∀ r v, p.Gives (p.setReg r v) r v p.f) ∧
    (∀ v : Word, (p.setStackPair .af v).a.toNat = v.toNat / 256 ∧
      (p.setStackPair .af v).f = { z := v.getLsbD 7, n := v.getLsbD 6, h := v.getLsbD 5, c := v.getLsbD 4 } ∧
      (p.setStackPair .af v).stackPair .af = v &&& 0xFFF0)

/-! ### What the instructions do -/

/-- The loads of a register from a register or an immediate, and of a pair or SP (40 rules R400, R401; 41 rules R450, R452): the
destination alone changes. -/
def Obligations.RegisterLoads : Prop :=
  ∀ s : State,
    (∀ dst src, ∃ p, Runs (.ldRR dst src) s 4 p ∧ s.cpu.Gives p dst (s.cpu.reg src) s.cpu.f) ∧
    (∀ dst n, ∃ p, Runs (.ldRN dst n) s 8 p ∧ s.cpu.Gives p dst n s.cpu.f) ∧
    (∀ rr v, ∃ p, Runs (.ldRrNn rr v) s 12 p ∧ s.cpu.GivesPair p rr v s.cpu.f) ∧
    (∃ p, Runs .ldSpHl s 8 p ∧ s.cpu.GivesPair p .sp (s.cpu.pair .hl) s.cpu.f)

/-- The loads of a register from memory (40 rules R402, R405, R406, R409, R411, R413, R415, R417): the byte the bus reads at the
address goes to the destination; LD A,(HL+) and LD A,(HL-) step HL; nothing else changes. -/
def Obligations.MemoryLoads : Prop :=
  ∀ s : State,
    let load (i : Instr) (a : Word) (cost : Nat) (dst : Reg8) : Prop :=
      ∃ p, Reads i s a cost p ∧ s.cpu.Gives p dst (s.busRead a) s.cpu.f
    let hl := s.cpu.pair .hl
    (∀ dst, load (.ldRHl dst) hl 8 dst) ∧ load .ldABc (s.cpu.pair .bc) 8 .a ∧ load .ldADe (s.cpu.pair .de) 8 .a ∧
    (∀ a, load (.ldANn a) a 16 .a) ∧
    load .ldhAC (BitVec.ofNat 16 (0xFF00 + s.cpu.c.toNat)) 8 .a ∧
    (∀ n, load (.ldhAN n) (BitVec.ofNat 16 (0xFF00 + n.toNat)) 12 .a) ∧
    (∃ q p, Reads .ldAHli s hl 8 p ∧ s.cpu.Gives q .a (s.busRead hl) s.cpu.f ∧ q.GivesPair p .hl (hl + 1) s.cpu.f) ∧
    (∃ q p, Reads .ldAHld s hl 8 p ∧ s.cpu.Gives q .a (s.busRead hl) s.cpu.f ∧ q.GivesPair p .hl (hl - 1) s.cpu.f) ∧
    (∀ a, s.plainRead a = true → s.busRead a = s.peek true a)

/-- The stores of a byte (40 rules R403, R404, R407, R408, R410, R412, R414, R416, R418): the register or immediate goes to the
address; LD (HL+),A and LD (HL-),A step HL; no other register, no flag and no other byte changes. -/
def Obligations.ByteStores : Prop :=
  ∀ s : State,
    let hl := s.cpu.pair .hl
    (∀ src, Stores (.ldHlR src) s hl (s.cpu.reg src) 8 s.cpu) ∧
    (∀ n, Stores (.ldHlN n) s hl n 12 s.cpu) ∧
    Stores .ldBcA s (s.cpu.pair .bc) s.cpu.a 8 s.cpu ∧ Stores .ldDeA s (s.cpu.pair .de) s.cpu.a 8 s.cpu ∧
    (∀ a, Stores (.ldNnA a) s a s.cpu.a 16 s.cpu) ∧
    Stores .ldhCA s (BitVec.ofNat 16 (0xFF00 + s.cpu.c.toNat)) s.cpu.a 8 s.cpu ∧
    (∀ n, Stores (.ldhNA n) s (BitVec.ofNat 16 (0xFF00 + n.toNat)) s.cpu.a 12 s.cpu) ∧
    (∃ p, Stores .ldHliA s hl s.cpu.a 8 p ∧ s.cpu.GivesPair p .hl (hl + 1) s.cpu.f) ∧
    (∃ p, Stores .ldHldA s hl s.cpu.a 8 p ∧ s.cpu.GivesPair p .hl (hl - 1) s.cpu.f)

/-- The stores of a word: LD (nn),SP with the low byte first, and PUSH, CALL, CALL cc and RST, whose high byte goes to SP - 1 and
low byte to SP - 2 (41 rules R451, R460, R462; 45 rules R655, R656, R665). No flag and no other byte changes; a call not taken
changes nothing. -/
def Obligations.StackWrites : Prop :=
  ∀ s : State,
    (∀ a, StoresTwo (.ldNnSp a) s a (BitVec.ofNat 8 (s.cpu.sp.toNat % 256)) (a + 1)
      (BitVec.ofNat 8 (s.cpu.sp.toNat / 256)) 20 s.cpu) ∧
    (∀ q, Pushes (.push q) s (s.cpu.stackPair q) 16 { s.cpu with sp := s.cpu.sp - 2 }) ∧
    (∀ a, Pushes (.callNn a) s s.cpu.pc 24 { s.cpu with sp := s.cpu.sp - 2, pc := a }) ∧
    (∀ cc a, (CondHolds cc s.cpu.f → Pushes (.callCc cc a) s s.cpu.pc 24 { s.cpu with sp := s.cpu.sp - 2, pc := a }) ∧
      (¬ CondHolds cc s.cpu.f → Runs (.callCc cc a) s 12 s.cpu)) ∧
    (∀ t : BitVec 3, Pushes (.rst t) s s.cpu.pc 16 { s.cpu with sp := s.cpu.sp - 2, pc := BitVec.ofNat 16 (8 * t.toNat) })

/-- The reads of a word from the stack, low byte first: POP, POP AF with the low nibble of F discarded, RET, RET cc, and RETI, which
also sets IME and drops a pending EI (41 rules R461, R463, R464; 45 rules R657, R658, R661). Nothing else changes. -/
def Obligations.StackReads : Prop :=
  ∀ s : State,
    let w := s.wordAt s.cpu.sp
    (∀ q, q ≠ .af → ∃ p, ReadsWord (.pop q) s s.cpu.sp 12 p ∧ p.stackPair q = w ∧
      (∀ x, x ≠ q → p.stackPair x = s.cpu.stackPair x) ∧ p.sp = s.cpu.sp + 2 ∧ p.f = s.cpu.f ∧ p.pc = s.cpu.pc ∧
      SameControl s.cpu p) ∧
    (∃ p, ReadsWord .popAf s s.cpu.sp 12 p ∧ p.stackPair .af = w &&& 0xFFF0 ∧
      (∀ x, x ≠ .af → p.stackPair x = s.cpu.stackPair x) ∧ p.sp = s.cpu.sp + 2 ∧ p.pc = s.cpu.pc ∧ SameControl s.cpu p) ∧
    ReadsWord .ret s s.cpu.sp 16 { s.cpu with sp := s.cpu.sp + 2, pc := w } ∧
    (∀ cc, (CondHolds cc s.cpu.f → ReadsWord (.retCc cc) s s.cpu.sp 20 { s.cpu with sp := s.cpu.sp + 2, pc := w }) ∧
      (¬ CondHolds cc s.cpu.f → Runs (.retCc cc) s 8 s.cpu)) ∧
    ReadsWord .reti s s.cpu.sp 16 { s.cpu with sp := s.cpu.sp + 2, pc := w, ime := true, eiDelay := 0 }

/-- The eight operations on A, each with a register, the byte at HL and an immediate: the result and the four flags of 42 rules R501
to R508, in exact arithmetic; nothing else changes. -/
def Obligations.AluOperations : Prop :=
  ∀ (op : AluOp) (s : State),
    (∀ src, ∃ p r f, Runs (op.onReg src) s 4 p ∧ s.cpu.Gives p .a r f ∧
      op.Result s.cpu.a (s.cpu.reg src) s.cpu.f.c r f) ∧
    (∃ p r f, Reads op.onHl s (s.cpu.pair .hl) 8 p ∧ s.cpu.Gives p .a r f ∧
      op.Result s.cpu.a (s.busRead (s.cpu.pair .hl)) s.cpu.f.c r f) ∧
    (∀ n, ∃ p r f, Runs (op.onImm n) s 8 p ∧ s.cpu.Gives p .a r f ∧ op.Result s.cpu.a n s.cpu.f.c r f)

/-- INC and DEC of a register and of the byte at HL, which keep Cf, and CPL, SCF and CCF (42 rules R540 to R543, R546 to R548). -/
def Obligations.IncDecAndFlagOps : Prop :=
  ∀ s : State,
    let inc (v r : Byte) (f : Flags) : Prop :=
      r.toNat = (v.toNat + 1) % 256 ∧ (f.z = true ↔ v.toNat = 255) ∧ f.n = false ∧ (f.h = true ↔ v.toNat % 16 = 15) ∧
      f.c = s.cpu.f.c
    let dec (v r : Byte) (f : Flags) : Prop :=
      r.toNat = (v.toNat + 255) % 256 ∧ (f.z = true ↔ v.toNat = 1) ∧ f.n = true ∧ (f.h = true ↔ v.toNat % 16 = 0) ∧
      f.c = s.cpu.f.c
    let m := s.busRead (s.cpu.pair .hl)
    (∀ dst, ∃ p r f, Runs (.incR dst) s 4 p ∧ s.cpu.Gives p dst r f ∧ inc (s.cpu.reg dst) r f) ∧
    (∀ dst, ∃ p r f, Runs (.decR dst) s 4 p ∧ s.cpu.Gives p dst r f ∧ dec (s.cpu.reg dst) r f) ∧
    (∃ r f, Modifies .incHl s 12 r f ∧ inc m r f) ∧ (∃ r f, Modifies .decHl s 12 r f ∧ dec m r f) ∧
    (∃ p r, Runs .cpl s 4 p ∧ s.cpu.Gives p .a r { s.cpu.f with n := true, h := true } ∧ r.toNat = 255 - s.cpu.a.toNat) ∧
    Runs .scf s 4 { s.cpu with f := { s.cpu.f with n := false, h := false, c := true } } ∧
    Runs .ccf s 4 { s.cpu with f := { s.cpu.f with n := false, h := false, c := !s.cpu.f.c } }

/-- DAA: its byte, and its adjustment of A by the pseudocode of 42 rule R545, on the integers, for every A and every flag. -/
def Obligations.DaaAdjust : Prop :=
  encode .daa = [0x27] ∧
  ∀ s : State,
    let a : Int := s.cpu.a.toNat
    let b : Int := if s.cpu.f.n = false ∧ (s.cpu.f.c = true ∨ 0x99 < a) then a + 0x60 else a
    let c : Int := if s.cpu.f.n = false ∧ (s.cpu.f.h = true ∨ 9 < b % 16) then b + 6 else b
    let d : Int := if s.cpu.f.n = true ∧ s.cpu.f.c = true then c - 0x60 else c
    let e : Int := if s.cpu.f.n = true ∧ s.cpu.f.h = true then d - 6 else d
    ∃ p r f, Runs .daa s 4 p ∧ s.cpu.Gives p .a r f ∧ (r.toNat : Int) = e % 256 ∧ (f.z = true ↔ e % 256 = 0) ∧
      f.n = s.cpu.f.n ∧ f.h = false ∧
      (f.c = true ↔ s.cpu.f.c = true ∨ (s.cpu.f.n = false ∧ 0x99 < a))

/-- What DAA is for: after ADC or SBC of two two-digit BCD numbers it leaves the BCD sum or difference modulo 100, and Cf says
whether it left the range (42 rules R502, R504, R545). -/
def Obligations.BcdArithmetic : Prop :=
  ∀ (s : State) (src : Reg8) (x y : Nat), x < 100 → y < 100 → s.cpu.a.toNat = bcd x → (s.cpu.reg src).toNat = bcd y →
    (∃ t u, exec (.adcR src) s = .next t ∧ exec .daa t = .next u ∧
      u.cpu.a.toNat = bcd ((x + y + s.cpu.f.c.toNat) % 100) ∧ (u.cpu.f.c = true ↔ 100 ≤ x + y + s.cpu.f.c.toNat)) ∧
    (∃ t u, exec (.sbcR src) s = .next t ∧ exec .daa t = .next u ∧
      u.cpu.a.toNat = bcd ((x + 100 - y + 100 - s.cpu.f.c.toNat) % 100) ∧
      (u.cpu.f.c = true ↔ x < y + s.cpu.f.c.toNat))

/-- The 16-bit arithmetic: ADD HL,rr with the carries out of bits 11 and 15, INC rr and DEC rr with no flag, ADD SP,e and LD HL,SP+e
with the carries of the low bytes (43 rules R560 to R563; 41 rule R453). -/
def Obligations.WordArithmetic : Prop :=
  ∀ s : State,
    let plus (e r : Word) (f : Flags) (x : Byte) : Prop :=
      (r.toNat : Int) = ((e.toNat : Int) + x.toInt) % 65536 ∧ f.z = false ∧ f.n = false ∧
      (f.h = true ↔ 15 < e.toNat % 16 + x.toNat % 16) ∧ (f.c = true ↔ 255 < e.toNat % 256 + x.toNat)
    (∀ rr, ∃ p r f, Runs (.addHlRr rr) s 8 p ∧ s.cpu.GivesPair p .hl r f ∧
      r.toNat = ((s.cpu.pair .hl).toNat + (s.cpu.pair rr).toNat) % 65536 ∧ f.z = s.cpu.f.z ∧ f.n = false ∧
      (f.h = true ↔ 4095 < (s.cpu.pair .hl).toNat % 4096 + (s.cpu.pair rr).toNat % 4096) ∧
      (f.c = true ↔ 65535 < (s.cpu.pair .hl).toNat + (s.cpu.pair rr).toNat)) ∧
    (∀ rr, ∃ p r, Runs (.incRr rr) s 8 p ∧ s.cpu.GivesPair p rr r s.cpu.f ∧
      r.toNat = ((s.cpu.pair rr).toNat + 1) % 65536) ∧
    (∀ rr, ∃ p r, Runs (.decRr rr) s 8 p ∧ s.cpu.GivesPair p rr r s.cpu.f ∧
      r.toNat = ((s.cpu.pair rr).toNat + 65535) % 65536) ∧
    (∀ e, ∃ p r f, Runs (.addSpE e) s 16 p ∧ s.cpu.GivesPair p .sp r f ∧ plus s.cpu.sp r f e) ∧
    (∀ e, ∃ p r f, Runs (.ldHlSpE e) s 12 p ∧ s.cpu.GivesPair p .hl r f ∧ plus s.cpu.sp r f e)

/-- The rotates and shifts of A, of a register and of the byte at HL, as numbers: the result, the bit that goes to Cf, and Z, which
the four accumulator forms always clear (44 rules R600 to R603, R610 to R625). -/
def Obligations.Rotates : Prop :=
  ∀ s : State,
    let accumulator (i : Instr) (op : RotOp) : Prop :=
      ∃ p r f, Runs i s 4 p ∧ s.cpu.Gives p .a r f ∧ op.Result false s.cpu.a s.cpu.f.c r f
    accumulator .rlca .rlc ∧ accumulator .rrca .rrc ∧ accumulator .rla .rl ∧ accumulator .rra .rr ∧
    ∀ op : RotOp,
      (∀ x, ∃ p r f, Runs (op.onReg x) s 8 p ∧ s.cpu.Gives p x r f ∧ op.Result true (s.cpu.reg x) s.cpu.f.c r f) ∧
      (∃ r f, Modifies op.onHl s 16 r f ∧ op.Result true (s.busRead (s.cpu.pair .hl)) s.cpu.f.c r f)

/-- Bit test, reset and set of a register and of the byte at HL, bit by bit; RES and SET write no flag, BIT writes no operand
(44 rules R630 to R635). -/
def Obligations.BitOperations : Prop :=
  ∀ (s : State) (n : BitVec 3),
    let m := s.busRead (s.cpu.pair .hl)
    let tested (v : Byte) : Flags := { z := decide (v.toNat / 2 ^ n.toNat % 2 = 0), n := false, h := true, c := s.cpu.f.c }
    let bits (b : Bool) (v r : Byte) : Prop := ∀ j, j < 8 → r.getLsbD j = if j = n.toNat then b else v.getLsbD j
    (∀ x, Runs (.bitR n x) s 8 { s.cpu with f := tested (s.cpu.reg x) }) ∧
    Reads (.bitHl n) s (s.cpu.pair .hl) 12 { s.cpu with f := tested m } ∧
    (∀ x, ∃ p r, Runs (.resR n x) s 8 p ∧ s.cpu.Gives p x r s.cpu.f ∧ bits false (s.cpu.reg x) r) ∧
    (∀ x, ∃ p r, Runs (.setR n x) s 8 p ∧ s.cpu.Gives p x r s.cpu.f ∧ bits true (s.cpu.reg x) r) ∧
    (∃ r, Modifies (.resHl n) s 16 r s.cpu.f ∧ bits false m r) ∧
    (∃ r, Modifies (.setHl n) s 16 r s.cpu.f ∧ bits true m r)

/-- The jumps: JP nn, JP HL, JR e relative to the next instruction, and the conditional forms, which cost 4 cycles less when the
condition fails and then change nothing (45 rules R650 to R654). Only PC changes. -/
def Obligations.Jumps : Prop :=
  ∀ s : State,
    let target (e : Byte) (a : Word) : Prop := (a.toNat : Int) = ((s.cpu.pc.toNat : Int) + e.toInt) % 65536
    (∀ a, Runs (.jpNn a) s 16 { s.cpu with pc := a }) ∧
    Runs .jpHl s 4 { s.cpu with pc := s.cpu.pair .hl } ∧
    (∀ e, ∃ a, target e a ∧ Runs (.jrE e) s 12 { s.cpu with pc := a }) ∧
    (∀ cc a, (CondHolds cc s.cpu.f → Runs (.jpCc cc a) s 16 { s.cpu with pc := a }) ∧
      (¬ CondHolds cc s.cpu.f → Runs (.jpCc cc a) s 12 s.cpu)) ∧
    (∀ cc e, (CondHolds cc s.cpu.f → ∃ a, target e a ∧ Runs (.jrCc cc e) s 12 { s.cpu with pc := a }) ∧
      (¬ CondHolds cc s.cpu.f → Runs (.jrCc cc e) s 8 s.cpu))

/-- NOP, HALT with its bug, DI, EI with the peek at the next opcode, and STOP with the speed switch (46 rules R700 to R708). That
HALT in CGB mode without the bug does nothing is log 31 (DEDUCED); the value of `div16` after STOP is free (log 20, DESIGN CHOICE). -/
def Obligations.SystemInstructions : Prop :=
  ∀ s : State,
    let pending := ∃ j, j < 5 ∧ s.requested j = true
    Runs .nop s 4 s.cpu ∧
    (¬ pending → Runs .halt s 4 { s.cpu with halted := true }) ∧
    (pending → s.cpu.ime = true → Runs .halt s 4 s.cpu) ∧
    (pending → s.cpu.ime = false → s.params.cgb = false ∨ s.params.haltBugCgb = true →
      Runs .halt s 4 { s.cpu with skipInc := true }) ∧
    (pending → s.cpu.ime = false → s.params.cgb = true → s.params.haltBugCgb = false → Runs .halt s 4 s.cpu) ∧
    Runs .di s 4 { s.cpu with ime := false, eiDelay := 0 } ∧
    (s.cpu.eiDelay = 0 → Reads .ei s s.cpu.pc 4 { s.cpu with eiDelay := if s.busRead s.cpu.pc = 0x76 then 1 else 2 }) ∧
    (s.cpu.eiDelay ≠ 0 → Runs .ei s 4 s.cpu) ∧
    ∃ d : Word,
      let t : State := { s with
        cpu := { s.cpu with pc := if s.params.stopSkipsNextByte then s.cpu.pc + 1 else s.cpu.pc }
        timer := { s.timer with div16 := d }, draws := s.draws + 1, charge := s.charge + 4 }
      (s.params.cgb = true ∧ s.key1Prep = true →
        exec .stop s = .next { t with doubleSpeed := !s.doubleSpeed, key1Prep := false }) ∧
      (s.params.cgb = false ∨ s.key1Prep = false → exec .stop s = .next { t with cpu := { t.cpu with stopped := true } })

/-- The prefix by itself fetches the second byte and runs the CB instruction it names, which completes (46 rule R712; 44 rule R605).
That the row has a meaning of its own is log 16 (DESIGN CHOICE). -/
def Obligations.CbPrefixRuns : Prop :=
  ∀ s : State, decodeCb (s.busRead s.cpu.pc) ≠ .cbPrefix ∧
    ∃ t, exec .cbPrefix s = .next t ∧
      exec (decodeCb (s.busRead s.cpu.pc))
        { s with cpu := { s.cpu with pc := s.cpu.pc + 1 }, draws := s.draws + s.readDraws s.cpu.pc } = .next t

/-- Every instruction that neither stores nor stops leaves every byte of memory and every register outside the CPU as it was; only
the charge and the count of free values move with the CPU's own state (20 rule R222; 10 rule R112). -/
def Obligations.NonStoringFrame : Prop :=
  ∀ (i : Instr) (s t : State), i.storesOrStops = false → exec i s = .next t → SameBytes s t ∧ OnlyCpu s t

/-! ### The devices -/

/-- DIV and TIMA over `c` cycles in closed form: DIV counts cycles; TIMA, when enabled, counts periods, and past 0xFF it goes on
from TMA and requests the timer interrupt (60 rules R830 to R833; 10 rule R125). -/
def Obligations.TimerClosedForm : Prop :=
  ∀ (s : State) (c : Nat),
    let t := State.tickTimer c s
    let period := if s.timer.tac.toNat % 4 = 0 then 1024 else 4 ^ (s.timer.tac.toNat % 4 + 1)
    let n := (s.timer.sub + c) / period
    t.timer.div16.toNat = (s.timer.div16.toNat + c) % 65536 ∧ t.timer.tac = s.timer.tac ∧ t.timer.tma = s.timer.tma ∧
    (s.timer.tac.toNat < 4 → t.timer.tima = s.timer.tima ∧ t.timer.sub = s.timer.sub ∧ t.iflag = s.iflag) ∧
    (4 ≤ s.timer.tac.toNat →
      t.timer.sub = (s.timer.sub + c) % period ∧
      (n < 256 - s.timer.tima.toNat → t.timer.tima.toNat = s.timer.tima.toNat + n ∧ t.iflag = s.iflag) ∧
      (256 - s.timer.tima.toNat ≤ n →
        t.timer.tima.toNat = s.timer.tma.toNat + (n - (256 - s.timer.tima.toNat)) % (256 - s.timer.tma.toNat) ∧
        ∀ j, j < 5 → t.iflag.getLsbD j = (s.iflag.getLsbD j || decide (j = 2))))

/-- The serial counter over `c` cycles of a transfer with `bits` left: how many ones are shifted in, and at the last one the
completion: SC bit 7 cleared and the interrupt requested (60 rules R840 to R842; 10 rule R127). That an eighth of a budget which is no
multiple of 8 is rounded down, in the phase at the start and in the bit time, is the model's choice: log 34 (DESIGN CHOICE). -/
def Obligations.SerialTransfer : Prop :=
  (∀ (s : State) (v : Byte), s.windowOpen 0xFF02 = false →
    (v.getLsbD 7 = true → v.getLsbD 0 = true →
      (s.busWrite 0xFF02 v).serial.bits = 8 ∧
      (s.busWrite 0xFF02 v).serial.phase =
        (((if s.params.cgb && v.getLsbD 1 then s.params.serialFast else s.params.serialNormal) / 8 : Nat) : Int)) ∧
    (v.getLsbD 7 = false ∨ v.getLsbD 0 = false → (s.busWrite 0xFF02 v).serial.bits = 0)) ∧
  ∀ (s : State) (c bit phase : Nat),
    bit = (if s.params.cgb && s.serial.sc.getLsbD 1 then s.params.serialFast else s.params.serialNormal) / 8 →
    s.serial.phase = (phase : Int) →
    let t := State.tickSerial c s
    let due := if c < phase then 0 else if bit = 0 then s.serial.bits else (c - phase) / bit + 1
    (due < s.serial.bits →
      t.serial.bits = s.serial.bits - due ∧ t.serial.sb.toNat = (s.serial.sb.toNat * 2 ^ due + (2 ^ due - 1)) % 256 ∧
      t.serial.phase = (phase : Int) - c + due * bit ∧ t.serial.sc = s.serial.sc ∧ t.iflag = s.iflag) ∧
    (0 < s.serial.bits → s.serial.bits ≤ due →
      t.serial.bits = 0 ∧ t.serial.phase = 0 ∧ t.serial.sc = s.serial.sc &&& 0x7F#8 ∧
      t.serial.sb.toNat = (s.serial.sb.toNat * 2 ^ s.serial.bits + (2 ^ s.serial.bits - 1)) % 256 ∧
      ∀ j, j < 5 → t.iflag.getLsbD j = (s.iflag.getLsbD j || decide (j = 3))) ∧
    (s.serial.bits = 0 → t = s)

/-- The line machine. `n` PPU cycles move the position by `n` modulo 70224, and each passage of line 144, cycle 0 completes one frame
and requests VBlank; with the LCD off nothing moves (62 rules R1110, R1112, R1116). One cycle runs the events of the position it
reaches: the mode entries with their STAT requests, the selection and L3 of a line, and the compare with LYC (R1112 to R1114). A
write to LY, one that turns the LCD on, and one to LYC run theirs at once (R1114 to R1116). What a write to LY does with the LCD
off is log 25 (DEDUCED). -/
def Obligations.LineMachine : Prop :=
  (∀ (n : Nat) (s : State),
    (s.ppu.lcdc.getLsbD 7 = false → State.ppuRun n s = s) ∧
    (s.ppu.lcdc.getLsbD 7 = true → s.ppu.line < 154 → s.ppu.lineCycle < 456 →
      let pos := s.ppu.line * 456 + s.ppu.lineCycle
      let t := State.ppuRun n s
      t.ppu.line * 456 + t.ppu.lineCycle = (pos + n) % 70224 ∧ t.ppu.lineCycle < 456 ∧
      t.ppu.frames = s.ppu.frames + ((pos + 4560 + n) / 70224 - (pos + 4560) / 70224) ∧
      (t.ppu.frames ≠ s.ppu.frames → t.iflag.getLsbD 0 = true))) ∧
  (∀ s : State, s.ppu.lcdc.getLsbD 7 = true → s.ppu.LineInv →
    let t := State.ppuRun 1 s
    let starts : Prop := t.ppu.line < 144 ∧ t.ppu.lineCycle = 0
    let draws : Prop := t.ppu.line < 144 ∧ t.ppu.lineCycle = 80
    let ends : Prop := t.ppu.line < 144 ∧ t.ppu.lineCycle = 80 + s.ppu.mode3Len
    let vblank : Prop := t.ppu.line = 144 ∧ t.ppu.lineCycle = 0
    let compares : Prop := t.ppu.lineCycle = 0 ∨ (t.ppu.line = 153 ∧ t.ppu.lineCycle = 448)
    let ly := if t.ppu.line = 153 ∧ 448 ≤ t.ppu.lineCycle then 0 else t.ppu.line
    (starts → t.ppu.LineStarted ∧ t.ppu.windowLine = if t.ppu.line = 0 then 0 else s.ppu.windowLine) ∧
    (draws → t.ppu.mode = .transfer) ∧ (ends → t.ppu.mode = .hblank) ∧ (vblank → t.ppu.mode = .vblank) ∧
    (¬ starts → t.ppu.sprites = s.ppu.sprites ∧ t.ppu.mode3Len = s.ppu.mode3Len) ∧
    (¬ starts → ¬ draws → ¬ ends → ¬ vblank → t.ppu.mode = s.ppu.mode) ∧
    (compares → (t.ppu.coincidence = true ↔ ly = s.ppu.lyc.toNat)) ∧
    (¬ compares → t.ppu.coincidence = s.ppu.coincidence) ∧
    (t.iflag.getLsbD 0 = true ↔ s.iflag.getLsbD 0 = true ∨ vblank) ∧
    (t.iflag.getLsbD 1 = true ↔ s.iflag.getLsbD 1 = true ∨ (starts ∧ s.ppu.stat.getLsbD 5 = true) ∨
      (ends ∧ s.ppu.stat.getLsbD 3 = true) ∨ (vblank ∧ s.ppu.stat.getLsbD 4 = true) ∨ (compares ∧ s.ppu.Matches ly)) ∧
    (∀ j, 2 ≤ j → j < 5 → t.iflag.getLsbD j = s.iflag.getLsbD j)) ∧
  (∀ (s : State) (v : Byte), s.windowOpen 0xFF44 = false →
    let t := s.busWrite 0xFF44 v
    (s.ppu.lcdc.getLsbD 7 = true → Restarted s t) ∧
    (s.ppu.lcdc.getLsbD 7 = false → t = { s with ppu := { s.ppu with line := 0, lineCycle := 0, windowLine := 0 } })) ∧
  (∀ (s : State) (v : Byte), s.windowOpen 0xFF40 = false →
    let t := s.busWrite 0xFF40 v
    (s.ppu.lcdc.getLsbD 7 = false → v.getLsbD 7 = true → t.ppu.lcdc = v ∧ Restarted s t) ∧
    (s.ppu.lcdc.getLsbD 7 = true → v.getLsbD 7 = false →
      t = { s with ppu := { s.ppu with lcdc := v, line := 0, lineCycle := 0, mode := .hblank } }) ∧
    (s.ppu.lcdc.getLsbD 7 = v.getLsbD 7 → t = { s with ppu := { s.ppu with lcdc := v } })) ∧
  (∀ (s : State) (v : Byte), s.windowOpen 0xFF45 = false →
    let t := s.busWrite 0xFF45 v
    let ly := if s.ppu.line = 153 ∧ 448 ≤ s.ppu.lineCycle then 0 else s.ppu.line
    t.ppu = { s.ppu with lyc := v, coincidence := t.ppu.coincidence } ∧
    (s.ppu.lcdc.getLsbD 7 = true → (t.ppu.coincidence = true ↔ ly = v.toNat) ∧
      StatRequests s t (ly = v.toNat ∧ s.ppu.coincidence = false ∧ s.ppu.stat.getLsbD 6 = true)) ∧
    (s.ppu.lcdc.getLsbD 7 = false → t = { s with ppu := { s.ppu with lyc := v } }))

/-- OAM DMA: a write of `v` to 0xFF46 copies the 160 bytes from page `v`, from 0x2000 lower for `v` from 0xE0 on, past the PPU's
locks; the register reads `v`; nothing else of the PPU changes (62 rule R1160). A byte from the infrared receiver is a draw. That the source is read as the CPU
reads it, boot ROM included, is log 29 (DEDUCED). -/
def Obligations.OamDmaCopy : Prop :=
  ∀ (s : State) (v : Byte), s.windowOpen 0xFF46 = false →
    let t := s.busWrite 0xFF46 v
    let source (i : Nat) : Word := BitVec.ofNat 16 (if 0xE0 ≤ v.toNat then v.toNat * 256 + i - 0x2000 else v.toNat * 256 + i)
    (∀ i, i < 160 → s.infraredAt (source i) = false → Store.read t.ppu.oam i = s.peek false (source i)) ∧
    (∀ i, 160 ≤ i → Store.read t.ppu.oam i = Store.read s.ppu.oam i) ∧
    t.ppu = { s.ppu with dma := v, oam := t.ppu.oam } ∧ s.charge ≤ t.charge

/-- VRAM DMA. In CGB mode a write of `v` to HDMA5: below 0x80 with no HBlank DMA active it copies (v + 1) × 16 bytes at once, after
which HDMA5 reads 0xFF; below 0x80 with one active it cancels that one, whose count is kept and read under bit 7; from 0x80 on it
starts an HBlank DMA and copies nothing yet (62 rules R1161, R1163). While one is active the mode-0 entry of a visible line copies
one block and counts it, the last one ending the DMA; no other PPU cycle does, and none in DMG mode (62 rules R1161, R1164;
20 rule R251). How a source is read is log 29 (DEDUCED). -/
def Obligations.VramDma : Prop :=
  (∀ (s : State) (v : Byte), s.params.cgb = true → s.windowOpen 0xFF55 = false →
    let t := s.busWrite 0xFF55 v
    (v.toNat < 0x80 → s.ppu.hdmaActive = false → VramCopied s t ((v.toNat + 1) * 16) ∧ t.peek true 0xFF55 = 0xFF) ∧
    (v.toNat < 0x80 → s.ppu.hdmaActive = true →
      t = { s with ppu := { s.ppu with hdmaActive := false } } ∧
      (t.peek true 0xFF55).toNat = 0x80 + (s.ppu.hdmaLeft + 127) % 128) ∧
    (0x80 ≤ v.toNat →
      t = { s with ppu := { s.ppu with hdmaActive := true, hdmaLeft := v.toNat - 0x80 + 1 } } ∧
      (t.peek true 0xFF55).toNat = v.toNat - 0x80)) ∧
  ∀ s : State, s.ppu.LineInv → (s.ppu.hdmaActive = true → s.ppu.hdmaLeft ≠ 0) →
    let t := State.ppuRun 1 s
    let block : Prop := s.params.cgb = true ∧ s.ppu.hdmaActive = true ∧ s.ppu.lcdc.getLsbD 7 = true ∧ s.ppu.line < 144 ∧
      s.ppu.lineCycle + 1 = 80 + s.ppu.mode3Len
    (block → VramCopied s t 16 ∧ t.ppu.hdmaLeft = s.ppu.hdmaLeft - 1 ∧
      (t.ppu.hdmaActive = true ↔ s.ppu.hdmaLeft ≠ 1)) ∧
    (¬ block → VramDmaIdle s t)

/-- The frame sequencer: `n` APU cycles move its position, 8192 cycles a step and eight steps, by `n`; with the power off nothing
moves (64 rules R1310, R1311). -/
def Obligations.ApuSequencer : Prop :=
  ∀ (n : Nat) (a : Apu),
    (a.power = false → Apu.run n a = a) ∧
    (a.power = true → a.fsCount < 8192 → a.fsStep < 8 →
      (Apu.run n a).fsStep * 8192 + (Apu.run n a).fsCount = (a.fsStep * 8192 + a.fsCount + n) % 65536 ∧
      (Apu.run n a).fsCount < 8192)

/-- The length counter: enabled and not 0, it reaches 0 after as many clocks and disables its channel then, not before; and no
number of APU cycles enables a channel that is off (64 rule R1330). -/
def Obligations.LengthDisablesOnce : Prop :=
  ∀ (n : ChanId) (a : Apu) (k : Nat),
    ((a.reg n.nrx4).getLsbD 6 = true → 0 < (a.chan n).len →
      (((Apu.clockLength n)^[k] a).chan n).len = (a.chan n).len - k ∧
      ((((Apu.clockLength n)^[k] a).chan n).on = true ↔ (a.chan n).on = true ∧ k < (a.chan n).len)) ∧
    ((a.reg n.nrx4).getLsbD 6 = false → (Apu.clockLength n)^[k] a = a) ∧
    ((a.chan n).on = false → ((Apu.run k a).chan n).on = false)

/-- Sprite selection: the entries in OAM order that cover the line, only the first ten of them (63 rule R1230). -/
def Obligations.SpriteSelection : Prop :=
  ∀ p : Ppu,
    let h : Int := if p.lcdc.getLsbD 2 then 16 else 8
    let covers (n : Nat) : Bool :=
      decide (0 ≤ (p.line : Int) + 16 - (Store.read p.oam (4 * n)).toNat ∧ (p.line : Int) + 16 - (Store.read p.oam (4 * n)).toNat < h)
    (∀ sp, sp ∈ p.selectSprites ↔
      ∃ n, n < 40 ∧ covers n = true ∧ ((List.range n).filter covers).length < 10 ∧ sp =
        { index := n, y := Store.read p.oam (4 * n), x := Store.read p.oam (4 * n + 1), tile := Store.read p.oam (4 * n + 2),
          attr := Store.read p.oam (4 * n + 3) }) ∧
    p.selectSprites.Pairwise (fun a b => a.index < b.index) ∧ p.selectSprites.length ≤ 10

/-- Sprite priority at a pixel: of the selected sprites that show a color there, in DMG mode the smallest X, and the lowest OAM index
among equal X; in CGB mode the lowest OAM index (63 rule R1231). The selection stands in OAM order (63 rule R1230). -/
def Obligations.SpritePriority : Prop :=
  ∀ (cgb : Bool) (p : Ppu) (x y : Nat), p.sprites.Pairwise (fun a b => a.index < b.index) →
    (p.spriteSample cgb x y = none ↔ p.lcdc.getLsbD 1 = false ∨ ∀ sp ∈ p.sprites, sp.pixel cgb p x y = 0) ∧
    (∀ ss, p.spriteSample cgb x y = some ss →
      ss.sprite ∈ p.sprites ∧ ss.index = ss.sprite.pixel cgb p x y ∧ ss.index ≠ 0 ∧
      (x : Int) < ss.sprite.x.toNat ∧ (ss.sprite.x.toNat : Int) - 8 ≤ x ∧
      ∀ sp ∈ p.sprites, sp.pixel cgb p x y ≠ 0 →
        if cgb then ss.sprite.index ≤ sp.index
        else ss.sprite.x.toNat < sp.x.toNat ∨ (ss.sprite.x = sp.x ∧ ss.sprite.index ≤ sp.index))

/-- The clock of MBC3: from a time in range, `n` seconds move it by `n` seconds of a 512-day circle, and the overflow flag is set if
the circle closed, and kept; a halted clock stands (61 rule R1045). -/
def Obligations.RtcSeconds : Prop :=
  ∀ (s : State) (n : Nat), s.cart.hasRtc = true →
    let days (r : Rtc) : Nat := r.dh.toNat % 2 * 256 + r.dl.toNat
    let time (r : Rtc) : Nat := ((days r * 24 + r.h.toNat) * 60 + r.m.toNat) * 60 + r.s.toNat
    let t := s.rtcEvent n
    t = { s with cart := { s.cart with rtcLive := t.cart.rtcLive } } ∧
    (s.cart.rtcLive.dh.getLsbD 6 = true → t = s) ∧
    (s.cart.rtcLive.dh.getLsbD 6 = false → s.cart.rtcLive.s.toNat < 60 → s.cart.rtcLive.m.toNat < 60 →
      s.cart.rtcLive.h.toNat < 24 →
      time t.cart.rtcLive = (time s.cart.rtcLive + n) % 44236800 ∧
      t.cart.rtcLive.s.toNat < 60 ∧ t.cart.rtcLive.m.toNat < 60 ∧ t.cart.rtcLive.h.toNat < 24 ∧
      (t.cart.rtcLive.dh.getLsbD 7 = true ↔ s.cart.rtcLive.dh.getLsbD 7 = true ∨ 44236800 ≤ time s.cart.rtcLive + n) ∧
      t.cart.rtcLive.dh.getLsbD 6 = false)

/-- P1: a bit of the low nibble reads 0 exactly when a pressed button of a selected group stands behind it; a write selects the
groups by its bits 5 and 4. The joypad interrupt is requested when some line falls, by a write or by a joypad event, and no other
(60 rules R871, R874). -/
def Obligations.JoypadRegister : Prop :=
  ∀ s : State,
    (∀ i, i < 4 → (s.peek true 0xFF00).getLsbD i = !s.pulled i) ∧
    ((s.peek true 0xFF00).getLsbD 4 = s.joy.sel.getLsbD 0 ∧ (s.peek true 0xFF00).getLsbD 5 = s.joy.sel.getLsbD 1 ∧
      (s.peek true 0xFF00).getLsbD 6 = true ∧ (s.peek true 0xFF00).getLsbD 7 = true) ∧
    (∀ v, s.windowOpen 0xFF00 = false →
      let t := s.busWrite 0xFF00 v
      t.joy.sel.getLsbD 0 = v.getLsbD 4 ∧ t.joy.sel.getLsbD 1 = v.getLsbD 5 ∧ t.joy.buttons = s.joy.buttons ∧
      JoypadRequests s t) ∧
    (∀ button pressed,
      let t := s.joypadEvent button pressed
      (∀ j, j < 8 → t.joy.buttons.getLsbD j = if j = button.toNat then pressed else s.joy.buttons.getLsbD j) ∧
      t.joy.sel = s.joy.sel ∧ JoypadRequests s t)

/-! ### Load and reset -/

/-- What a load answers: a refusal for a short image, a boot ROM of a wrong length, and the types 0x22 and 0xFE; else the CPU at the
hand-over of its mode, or at the boot ROM's first byte (70 rules R900, R901, R903, R904, R907; 61 rule R1070). That a load to which
both refusals apply answers LoadError is the model's choice: log 35 (DESIGN CHOICE). -/
def Obligations.LoadOutcome : Prop :=
  ∀ (q : LoadRequest) (d : State),
    let cgb := q.colorHardware && (q.image.getD 0x143 0).getLsbD 7
    let type := q.image.getD 0x147 0
    let wrongLength := q.image.length < 0x4000 ∨ ∃ b, q.bootRom = some b ∧ b.length ≠ if cgb then 2048 else 256
    (wrongLength → load q d = .error .loadError) ∧
    (¬ wrongLength → type = 0x22 ∨ type = 0xFE → load q d = .error (.unmodelledCartridge type)) ∧
    (¬ wrongLength → type ≠ 0x22 → type ≠ 0xFE →
      ∃ s, load q d = .ok s ∧ s.params.cgb = cgb ∧ s.fault = none ∧ s.cycles = 0 ∧ s.ie = 0 ∧ s.cpu.ime = false ∧
        s.cpu.halted = false ∧ s.cpu.stopped = false ∧ s.cpu.skipInc = false ∧ s.cpu.eiDelay = 0 ∧
        (q.bootRom = none → s.bootMapped = false ∧ s.cpu.pc = 0x0100 ∧ s.cpu.sp = 0xFFFE ∧
          (cgb = true → s.cpu.a = 0x11 ∧ s.cpu.pair .bc = 0x0000 ∧ s.cpu.pair .de = 0xFF56 ∧ s.cpu.pair .hl = 0x000D ∧
            s.cpu.f = { z := true, n := false, h := false, c := false }) ∧
          (cgb = false → s.cpu.a = 0x01 ∧ s.cpu.pair .bc = 0x0013 ∧ s.cpu.pair .de = 0x00D8 ∧ s.cpu.pair .hl = 0x014D ∧
            s.cpu.f = { z := true, n := false, h := true, c := true })) ∧
        (q.bootRom ≠ none → s.bootMapped = true ∧ s.cpu.pc = 0 ∧ s.ppu.lcdc = 0 ∧ s.ppu.line = 0 ∧ s.ppu.lineCycle = 0 ∧
          s.apu.power = false))

/-- The state at reset, DMG mode: every value of the table of 70 rule R902. -/
def Obligations.ResetValues : Prop :=
  let s := State.reset
  (s.cpu.a = 0x01 ∧ s.cpu.b = 0x00 ∧ s.cpu.c = 0x13 ∧ s.cpu.d = 0x00 ∧ s.cpu.e = 0xD8 ∧ s.cpu.h = 0x01 ∧ s.cpu.l = 0x4D ∧
    (s.cpu.f.z = true ∧ s.cpu.f.n = false ∧ s.cpu.f.h = true ∧ s.cpu.f.c = true) ∧ s.cpu.sp = 0xFFFE ∧ s.cpu.pc = 0x0100) ∧
  (s.cpu.ime = false ∧ s.cpu.eiDelay = 0 ∧ s.cpu.halted = false ∧ s.cpu.stopped = false ∧ s.cpu.skipInc = false) ∧
  (s.ie = 0 ∧ s.timer.sub = 0 ∧ s.timer.tima = 0 ∧ s.timer.tma = 0 ∧ s.timer.tac = 0 ∧ s.peek true 0xFF07 = 0xF8) ∧
  (s.serial.sb = 0 ∧ s.peek true 0xFF02 = 0x7E ∧ s.serial.bits = 0 ∧ s.serial.phase = 0) ∧
  s.bootMapped = false ∧ s.doubleSpeed = false ∧ s.params.cgb = false ∧ s.fault = none ∧ s.cycles = 0

/-- The stack: `Push16` writes the high byte first, `Pop16` reads the low byte first, and a pop after a push gives the word and SP
back when both bytes are plain storage, SP wrapping where it must (41 rule R461). -/
def Obligations.PopReversesPush : Prop :=
  ∀ (s : State) (v : Word),
    (s.popValue = s.wordAt s.cpu.sp ∧ s.afterPop.cpu = { s.cpu with sp := s.cpu.sp + 2 }) ∧
    (s.openRam (s.cpu.sp - 1) = true → s.openRam (s.cpu.sp - 2) = true →
      (s.push16 v).popValue = v ∧ (s.push16 v).afterPop.cpu.sp = s.cpu.sp)

end
end

