-- ==== Sys2Proof/Laws/State.lean ====
section
/-! SUPPORT. What each named update leaves in each field of the state: one lemma per field and update, true by definition. -/

namespace Sys2Proof.Machine

variable (s : State)

/-! ### State.setPpu -/

@[simp] theorem setPpu_params (p : Ppu) : (s.setPpu p).params = s.params := rfl
@[simp] theorem setPpu_cpu (p : Ppu) : (s.setPpu p).cpu = s.cpu := rfl
@[simp] theorem setPpu_ie (p : Ppu) : (s.setPpu p).ie = s.ie := rfl
@[simp] theorem setPpu_iflag (p : Ppu) : (s.setPpu p).iflag = s.iflag := rfl
@[simp] theorem setPpu_timer (p : Ppu) : (s.setPpu p).timer = s.timer := rfl
@[simp] theorem setPpu_serial (p : Ppu) : (s.setPpu p).serial = s.serial := rfl
@[simp] theorem setPpu_joy (p : Ppu) : (s.setPpu p).joy = s.joy := rfl
@[simp] theorem setPpu_key1Prep (p : Ppu) : (s.setPpu p).key1Prep = s.key1Prep := rfl
@[simp] theorem setPpu_doubleSpeed (p : Ppu) : (s.setPpu p).doubleSpeed = s.doubleSpeed := rfl
@[simp] theorem setPpu_svbk (p : Ppu) : (s.setPpu p).svbk = s.svbk := rfl
@[simp] theorem setPpu_bootMapped (p : Ppu) : (s.setPpu p).bootMapped = s.bootMapped := rfl
@[simp] theorem setPpu_bootRom (p : Ppu) : (s.setPpu p).bootRom = s.bootRom := rfl
@[simp] theorem setPpu_wram (p : Ppu) : (s.setPpu p).wram = s.wram := rfl
@[simp] theorem setPpu_hram (p : Ppu) : (s.setPpu p).hram = s.hram := rfl
@[simp] theorem setPpu_cart (p : Ppu) : (s.setPpu p).cart = s.cart := rfl
@[simp] theorem setPpu_ppu (p : Ppu) : (s.setPpu p).ppu = p := rfl
@[simp] theorem setPpu_apu (p : Ppu) : (s.setPpu p).apu = s.apu := rfl
@[simp] theorem setPpu_fault (p : Ppu) : (s.setPpu p).fault = s.fault := rfl
@[simp] theorem setPpu_cycles (p : Ppu) : (s.setPpu p).cycles = s.cycles := rfl
@[simp] theorem setPpu_dmaUntil (p : Ppu) : (s.setPpu p).dmaUntil = s.dmaUntil := rfl
@[simp] theorem setPpu_charge (p : Ppu) : (s.setPpu p).charge = s.charge := rfl
@[simp] theorem setPpu_opAddr (p : Ppu) : (s.setPpu p).opAddr = s.opAddr := rfl
@[simp] theorem setPpu_draws (p : Ppu) : (s.setPpu p).draws = s.draws := rfl
@[simp] theorem setPpu_inputs (p : Ppu) : (s.setPpu p).inputs = s.inputs := rfl

/-! ### State.draw -/

@[simp] theorem draw_params (n : Nat) : (s.draw n).params = s.params := rfl
@[simp] theorem draw_cpu (n : Nat) : (s.draw n).cpu = s.cpu := rfl
@[simp] theorem draw_ie (n : Nat) : (s.draw n).ie = s.ie := rfl
@[simp] theorem draw_iflag (n : Nat) : (s.draw n).iflag = s.iflag := rfl
@[simp] theorem draw_timer (n : Nat) : (s.draw n).timer = s.timer := rfl
@[simp] theorem draw_serial (n : Nat) : (s.draw n).serial = s.serial := rfl
@[simp] theorem draw_joy (n : Nat) : (s.draw n).joy = s.joy := rfl
@[simp] theorem draw_key1Prep (n : Nat) : (s.draw n).key1Prep = s.key1Prep := rfl
@[simp] theorem draw_doubleSpeed (n : Nat) : (s.draw n).doubleSpeed = s.doubleSpeed := rfl
@[simp] theorem draw_svbk (n : Nat) : (s.draw n).svbk = s.svbk := rfl
@[simp] theorem draw_bootMapped (n : Nat) : (s.draw n).bootMapped = s.bootMapped := rfl
@[simp] theorem draw_bootRom (n : Nat) : (s.draw n).bootRom = s.bootRom := rfl
@[simp] theorem draw_wram (n : Nat) : (s.draw n).wram = s.wram := rfl
@[simp] theorem draw_hram (n : Nat) : (s.draw n).hram = s.hram := rfl
@[simp] theorem draw_cart (n : Nat) : (s.draw n).cart = s.cart := rfl
@[simp] theorem draw_ppu (n : Nat) : (s.draw n).ppu = s.ppu := rfl
@[simp] theorem draw_apu (n : Nat) : (s.draw n).apu = s.apu := rfl
@[simp] theorem draw_fault (n : Nat) : (s.draw n).fault = s.fault := rfl
@[simp] theorem draw_cycles (n : Nat) : (s.draw n).cycles = s.cycles := rfl
@[simp] theorem draw_dmaUntil (n : Nat) : (s.draw n).dmaUntil = s.dmaUntil := rfl
@[simp] theorem draw_charge (n : Nat) : (s.draw n).charge = s.charge := rfl
@[simp] theorem draw_opAddr (n : Nat) : (s.draw n).opAddr = s.opAddr := rfl
@[simp] theorem draw_draws (n : Nat) : (s.draw n).draws = s.draws + n := rfl
@[simp] theorem draw_inputs (n : Nat) : (s.draw n).inputs = s.inputs := rfl

/-! ### State.addCharge -/

@[simp] theorem addCharge_params (n : Nat) : (s.addCharge n).params = s.params := rfl
@[simp] theorem addCharge_cpu (n : Nat) : (s.addCharge n).cpu = s.cpu := rfl
@[simp] theorem addCharge_ie (n : Nat) : (s.addCharge n).ie = s.ie := rfl
@[simp] theorem addCharge_iflag (n : Nat) : (s.addCharge n).iflag = s.iflag := rfl
@[simp] theorem addCharge_timer (n : Nat) : (s.addCharge n).timer = s.timer := rfl
@[simp] theorem addCharge_serial (n : Nat) : (s.addCharge n).serial = s.serial := rfl
@[simp] theorem addCharge_joy (n : Nat) : (s.addCharge n).joy = s.joy := rfl
@[simp] theorem addCharge_key1Prep (n : Nat) : (s.addCharge n).key1Prep = s.key1Prep := rfl
@[simp] theorem addCharge_doubleSpeed (n : Nat) : (s.addCharge n).doubleSpeed = s.doubleSpeed := rfl
@[simp] theorem addCharge_svbk (n : Nat) : (s.addCharge n).svbk = s.svbk := rfl
@[simp] theorem addCharge_bootMapped (n : Nat) : (s.addCharge n).bootMapped = s.bootMapped := rfl
@[simp] theorem addCharge_bootRom (n : Nat) : (s.addCharge n).bootRom = s.bootRom := rfl
@[simp] theorem addCharge_wram (n : Nat) : (s.addCharge n).wram = s.wram := rfl
@[simp] theorem addCharge_hram (n : Nat) : (s.addCharge n).hram = s.hram := rfl
@[simp] theorem addCharge_cart (n : Nat) : (s.addCharge n).cart = s.cart := rfl
@[simp] theorem addCharge_ppu (n : Nat) : (s.addCharge n).ppu = s.ppu := rfl
@[simp] theorem addCharge_apu (n : Nat) : (s.addCharge n).apu = s.apu := rfl
@[simp] theorem addCharge_fault (n : Nat) : (s.addCharge n).fault = s.fault := rfl
@[simp] theorem addCharge_cycles (n : Nat) : (s.addCharge n).cycles = s.cycles := rfl
@[simp] theorem addCharge_dmaUntil (n : Nat) : (s.addCharge n).dmaUntil = s.dmaUntil := rfl
@[simp] theorem addCharge_charge (n : Nat) : (s.addCharge n).charge = s.charge + n := rfl
@[simp] theorem addCharge_opAddr (n : Nat) : (s.addCharge n).opAddr = s.opAddr := rfl
@[simp] theorem addCharge_draws (n : Nat) : (s.addCharge n).draws = s.draws := rfl
@[simp] theorem addCharge_inputs (n : Nat) : (s.addCharge n).inputs = s.inputs := rfl

/-! ### State.chargeDraw -/

@[simp] theorem chargeDraw_params : (s.chargeDraw).params = s.params := rfl
@[simp] theorem chargeDraw_cpu : (s.chargeDraw).cpu = s.cpu := rfl
@[simp] theorem chargeDraw_ie : (s.chargeDraw).ie = s.ie := rfl
@[simp] theorem chargeDraw_iflag : (s.chargeDraw).iflag = s.iflag := rfl
@[simp] theorem chargeDraw_timer : (s.chargeDraw).timer = s.timer := rfl
@[simp] theorem chargeDraw_serial : (s.chargeDraw).serial = s.serial := rfl
@[simp] theorem chargeDraw_joy : (s.chargeDraw).joy = s.joy := rfl
@[simp] theorem chargeDraw_key1Prep : (s.chargeDraw).key1Prep = s.key1Prep := rfl
@[simp] theorem chargeDraw_doubleSpeed : (s.chargeDraw).doubleSpeed = s.doubleSpeed := rfl
@[simp] theorem chargeDraw_svbk : (s.chargeDraw).svbk = s.svbk := rfl
@[simp] theorem chargeDraw_bootMapped : (s.chargeDraw).bootMapped = s.bootMapped := rfl
@[simp] theorem chargeDraw_bootRom : (s.chargeDraw).bootRom = s.bootRom := rfl
@[simp] theorem chargeDraw_wram : (s.chargeDraw).wram = s.wram := rfl
@[simp] theorem chargeDraw_hram : (s.chargeDraw).hram = s.hram := rfl
@[simp] theorem chargeDraw_cart : (s.chargeDraw).cart = s.cart := rfl
@[simp] theorem chargeDraw_ppu : (s.chargeDraw).ppu = s.ppu := rfl
@[simp] theorem chargeDraw_apu : (s.chargeDraw).apu = s.apu := rfl
@[simp] theorem chargeDraw_fault : (s.chargeDraw).fault = s.fault := rfl
@[simp] theorem chargeDraw_cycles : (s.chargeDraw).cycles = s.cycles := rfl
@[simp] theorem chargeDraw_dmaUntil : (s.chargeDraw).dmaUntil = s.dmaUntil := rfl
@[simp] theorem chargeDraw_charge : (s.chargeDraw).charge = s.charge + Config.freeNat s.draws := rfl
@[simp] theorem chargeDraw_opAddr : (s.chargeDraw).opAddr = s.opAddr := rfl
@[simp] theorem chargeDraw_draws : (s.chargeDraw).draws = s.draws + 1 := rfl
@[simp] theorem chargeDraw_inputs : (s.chargeDraw).inputs = s.inputs := rfl

/-! ### State.requestIf -/

@[simp] theorem requestIf_params (b : Bool) (i : Nat) : (s.requestIf b i).params = s.params := rfl
@[simp] theorem requestIf_cpu (b : Bool) (i : Nat) : (s.requestIf b i).cpu = s.cpu := rfl
@[simp] theorem requestIf_ie (b : Bool) (i : Nat) : (s.requestIf b i).ie = s.ie := rfl
@[simp] theorem requestIf_iflag (b : Bool) (i : Nat) : (s.requestIf b i).iflag = if b then s.iflag ||| BitVec.twoPow 5 i else s.iflag := rfl
@[simp] theorem requestIf_timer (b : Bool) (i : Nat) : (s.requestIf b i).timer = s.timer := rfl
@[simp] theorem requestIf_serial (b : Bool) (i : Nat) : (s.requestIf b i).serial = s.serial := rfl
@[simp] theorem requestIf_joy (b : Bool) (i : Nat) : (s.requestIf b i).joy = s.joy := rfl
@[simp] theorem requestIf_key1Prep (b : Bool) (i : Nat) : (s.requestIf b i).key1Prep = s.key1Prep := rfl
@[simp] theorem requestIf_doubleSpeed (b : Bool) (i : Nat) : (s.requestIf b i).doubleSpeed = s.doubleSpeed := rfl
@[simp] theorem requestIf_svbk (b : Bool) (i : Nat) : (s.requestIf b i).svbk = s.svbk := rfl
@[simp] theorem requestIf_bootMapped (b : Bool) (i : Nat) : (s.requestIf b i).bootMapped = s.bootMapped := rfl
@[simp] theorem requestIf_bootRom (b : Bool) (i : Nat) : (s.requestIf b i).bootRom = s.bootRom := rfl
@[simp] theorem requestIf_wram (b : Bool) (i : Nat) : (s.requestIf b i).wram = s.wram := rfl
@[simp] theorem requestIf_hram (b : Bool) (i : Nat) : (s.requestIf b i).hram = s.hram := rfl
@[simp] theorem requestIf_cart (b : Bool) (i : Nat) : (s.requestIf b i).cart = s.cart := rfl
@[simp] theorem requestIf_ppu (b : Bool) (i : Nat) : (s.requestIf b i).ppu = s.ppu := rfl
@[simp] theorem requestIf_apu (b : Bool) (i : Nat) : (s.requestIf b i).apu = s.apu := rfl
@[simp] theorem requestIf_fault (b : Bool) (i : Nat) : (s.requestIf b i).fault = s.fault := rfl
@[simp] theorem requestIf_cycles (b : Bool) (i : Nat) : (s.requestIf b i).cycles = s.cycles := rfl
@[simp] theorem requestIf_dmaUntil (b : Bool) (i : Nat) : (s.requestIf b i).dmaUntil = s.dmaUntil := rfl
@[simp] theorem requestIf_charge (b : Bool) (i : Nat) : (s.requestIf b i).charge = s.charge := rfl
@[simp] theorem requestIf_opAddr (b : Bool) (i : Nat) : (s.requestIf b i).opAddr = s.opAddr := rfl
@[simp] theorem requestIf_draws (b : Bool) (i : Nat) : (s.requestIf b i).draws = s.draws := rfl
@[simp] theorem requestIf_inputs (b : Bool) (i : Nat) : (s.requestIf b i).inputs = s.inputs := rfl

/-! ### State.setJoypad -/

@[simp] theorem setJoypad_params (j : Joypad) : (s.setJoypad j).params = s.params := rfl
@[simp] theorem setJoypad_cpu (j : Joypad) : (s.setJoypad j).cpu = s.cpu := rfl
@[simp] theorem setJoypad_ie (j : Joypad) : (s.setJoypad j).ie = s.ie := rfl
@[simp] theorem setJoypad_timer (j : Joypad) : (s.setJoypad j).timer = s.timer := rfl
@[simp] theorem setJoypad_serial (j : Joypad) : (s.setJoypad j).serial = s.serial := rfl
@[simp] theorem setJoypad_joy (j : Joypad) : (s.setJoypad j).joy = j := rfl
@[simp] theorem setJoypad_key1Prep (j : Joypad) : (s.setJoypad j).key1Prep = s.key1Prep := rfl
@[simp] theorem setJoypad_doubleSpeed (j : Joypad) : (s.setJoypad j).doubleSpeed = s.doubleSpeed := rfl
@[simp] theorem setJoypad_svbk (j : Joypad) : (s.setJoypad j).svbk = s.svbk := rfl
@[simp] theorem setJoypad_bootMapped (j : Joypad) : (s.setJoypad j).bootMapped = s.bootMapped := rfl
@[simp] theorem setJoypad_bootRom (j : Joypad) : (s.setJoypad j).bootRom = s.bootRom := rfl
@[simp] theorem setJoypad_wram (j : Joypad) : (s.setJoypad j).wram = s.wram := rfl
@[simp] theorem setJoypad_hram (j : Joypad) : (s.setJoypad j).hram = s.hram := rfl
@[simp] theorem setJoypad_cart (j : Joypad) : (s.setJoypad j).cart = s.cart := rfl
@[simp] theorem setJoypad_ppu (j : Joypad) : (s.setJoypad j).ppu = s.ppu := rfl
@[simp] theorem setJoypad_apu (j : Joypad) : (s.setJoypad j).apu = s.apu := rfl
@[simp] theorem setJoypad_fault (j : Joypad) : (s.setJoypad j).fault = s.fault := rfl
@[simp] theorem setJoypad_cycles (j : Joypad) : (s.setJoypad j).cycles = s.cycles := rfl
@[simp] theorem setJoypad_dmaUntil (j : Joypad) : (s.setJoypad j).dmaUntil = s.dmaUntil := rfl
@[simp] theorem setJoypad_charge (j : Joypad) : (s.setJoypad j).charge = s.charge := rfl
@[simp] theorem setJoypad_opAddr (j : Joypad) : (s.setJoypad j).opAddr = s.opAddr := rfl
@[simp] theorem setJoypad_draws (j : Joypad) : (s.setJoypad j).draws = s.draws := rfl
@[simp] theorem setJoypad_inputs (j : Joypad) : (s.setJoypad j).inputs = s.inputs := rfl

/-! ### State.setCpu -/

@[simp] theorem setCpu_params (p : Cpu) : (s.setCpu p).params = s.params := rfl
@[simp] theorem setCpu_cpu (p : Cpu) : (s.setCpu p).cpu = p := rfl
@[simp] theorem setCpu_ie (p : Cpu) : (s.setCpu p).ie = s.ie := rfl
@[simp] theorem setCpu_iflag (p : Cpu) : (s.setCpu p).iflag = s.iflag := rfl
@[simp] theorem setCpu_timer (p : Cpu) : (s.setCpu p).timer = s.timer := rfl
@[simp] theorem setCpu_serial (p : Cpu) : (s.setCpu p).serial = s.serial := rfl
@[simp] theorem setCpu_joy (p : Cpu) : (s.setCpu p).joy = s.joy := rfl
@[simp] theorem setCpu_key1Prep (p : Cpu) : (s.setCpu p).key1Prep = s.key1Prep := rfl
@[simp] theorem setCpu_doubleSpeed (p : Cpu) : (s.setCpu p).doubleSpeed = s.doubleSpeed := rfl
@[simp] theorem setCpu_svbk (p : Cpu) : (s.setCpu p).svbk = s.svbk := rfl
@[simp] theorem setCpu_bootMapped (p : Cpu) : (s.setCpu p).bootMapped = s.bootMapped := rfl
@[simp] theorem setCpu_bootRom (p : Cpu) : (s.setCpu p).bootRom = s.bootRom := rfl
@[simp] theorem setCpu_wram (p : Cpu) : (s.setCpu p).wram = s.wram := rfl
@[simp] theorem setCpu_hram (p : Cpu) : (s.setCpu p).hram = s.hram := rfl
@[simp] theorem setCpu_cart (p : Cpu) : (s.setCpu p).cart = s.cart := rfl
@[simp] theorem setCpu_ppu (p : Cpu) : (s.setCpu p).ppu = s.ppu := rfl
@[simp] theorem setCpu_apu (p : Cpu) : (s.setCpu p).apu = s.apu := rfl
@[simp] theorem setCpu_fault (p : Cpu) : (s.setCpu p).fault = s.fault := rfl
@[simp] theorem setCpu_cycles (p : Cpu) : (s.setCpu p).cycles = s.cycles := rfl
@[simp] theorem setCpu_dmaUntil (p : Cpu) : (s.setCpu p).dmaUntil = s.dmaUntil := rfl
@[simp] theorem setCpu_charge (p : Cpu) : (s.setCpu p).charge = s.charge := rfl
@[simp] theorem setCpu_opAddr (p : Cpu) : (s.setCpu p).opAddr = s.opAddr := rfl
@[simp] theorem setCpu_draws (p : Cpu) : (s.setCpu p).draws = s.draws := rfl
@[simp] theorem setCpu_inputs (p : Cpu) : (s.setCpu p).inputs = s.inputs := rfl

/-! ### State.setReg -/

@[simp] theorem setReg_params (r : Reg8) (v : Byte) : (s.setReg r v).params = s.params := rfl
@[simp] theorem setReg_cpu (r : Reg8) (v : Byte) : (s.setReg r v).cpu = s.cpu.setReg r v := rfl
@[simp] theorem setReg_ie (r : Reg8) (v : Byte) : (s.setReg r v).ie = s.ie := rfl
@[simp] theorem setReg_iflag (r : Reg8) (v : Byte) : (s.setReg r v).iflag = s.iflag := rfl
@[simp] theorem setReg_timer (r : Reg8) (v : Byte) : (s.setReg r v).timer = s.timer := rfl
@[simp] theorem setReg_serial (r : Reg8) (v : Byte) : (s.setReg r v).serial = s.serial := rfl
@[simp] theorem setReg_joy (r : Reg8) (v : Byte) : (s.setReg r v).joy = s.joy := rfl
@[simp] theorem setReg_key1Prep (r : Reg8) (v : Byte) : (s.setReg r v).key1Prep = s.key1Prep := rfl
@[simp] theorem setReg_doubleSpeed (r : Reg8) (v : Byte) : (s.setReg r v).doubleSpeed = s.doubleSpeed := rfl
@[simp] theorem setReg_svbk (r : Reg8) (v : Byte) : (s.setReg r v).svbk = s.svbk := rfl
@[simp] theorem setReg_bootMapped (r : Reg8) (v : Byte) : (s.setReg r v).bootMapped = s.bootMapped := rfl
@[simp] theorem setReg_bootRom (r : Reg8) (v : Byte) : (s.setReg r v).bootRom = s.bootRom := rfl
@[simp] theorem setReg_wram (r : Reg8) (v : Byte) : (s.setReg r v).wram = s.wram := rfl
@[simp] theorem setReg_hram (r : Reg8) (v : Byte) : (s.setReg r v).hram = s.hram := rfl
@[simp] theorem setReg_cart (r : Reg8) (v : Byte) : (s.setReg r v).cart = s.cart := rfl
@[simp] theorem setReg_ppu (r : Reg8) (v : Byte) : (s.setReg r v).ppu = s.ppu := rfl
@[simp] theorem setReg_apu (r : Reg8) (v : Byte) : (s.setReg r v).apu = s.apu := rfl
@[simp] theorem setReg_fault (r : Reg8) (v : Byte) : (s.setReg r v).fault = s.fault := rfl
@[simp] theorem setReg_cycles (r : Reg8) (v : Byte) : (s.setReg r v).cycles = s.cycles := rfl
@[simp] theorem setReg_dmaUntil (r : Reg8) (v : Byte) : (s.setReg r v).dmaUntil = s.dmaUntil := rfl
@[simp] theorem setReg_charge (r : Reg8) (v : Byte) : (s.setReg r v).charge = s.charge := rfl
@[simp] theorem setReg_opAddr (r : Reg8) (v : Byte) : (s.setReg r v).opAddr = s.opAddr := rfl
@[simp] theorem setReg_draws (r : Reg8) (v : Byte) : (s.setReg r v).draws = s.draws := rfl
@[simp] theorem setReg_inputs (r : Reg8) (v : Byte) : (s.setReg r v).inputs = s.inputs := rfl

/-! ### State.setPair -/

@[simp] theorem setPair_params (rr : Reg16) (v : Word) : (s.setPair rr v).params = s.params := rfl
@[simp] theorem setPair_cpu (rr : Reg16) (v : Word) : (s.setPair rr v).cpu = s.cpu.setPair rr v := rfl
@[simp] theorem setPair_ie (rr : Reg16) (v : Word) : (s.setPair rr v).ie = s.ie := rfl
@[simp] theorem setPair_iflag (rr : Reg16) (v : Word) : (s.setPair rr v).iflag = s.iflag := rfl
@[simp] theorem setPair_timer (rr : Reg16) (v : Word) : (s.setPair rr v).timer = s.timer := rfl
@[simp] theorem setPair_serial (rr : Reg16) (v : Word) : (s.setPair rr v).serial = s.serial := rfl
@[simp] theorem setPair_joy (rr : Reg16) (v : Word) : (s.setPair rr v).joy = s.joy := rfl
@[simp] theorem setPair_key1Prep (rr : Reg16) (v : Word) : (s.setPair rr v).key1Prep = s.key1Prep := rfl
@[simp] theorem setPair_doubleSpeed (rr : Reg16) (v : Word) : (s.setPair rr v).doubleSpeed = s.doubleSpeed := rfl
@[simp] theorem setPair_svbk (rr : Reg16) (v : Word) : (s.setPair rr v).svbk = s.svbk := rfl
@[simp] theorem setPair_bootMapped (rr : Reg16) (v : Word) : (s.setPair rr v).bootMapped = s.bootMapped := rfl
@[simp] theorem setPair_bootRom (rr : Reg16) (v : Word) : (s.setPair rr v).bootRom = s.bootRom := rfl
@[simp] theorem setPair_wram (rr : Reg16) (v : Word) : (s.setPair rr v).wram = s.wram := rfl
@[simp] theorem setPair_hram (rr : Reg16) (v : Word) : (s.setPair rr v).hram = s.hram := rfl
@[simp] theorem setPair_cart (rr : Reg16) (v : Word) : (s.setPair rr v).cart = s.cart := rfl
@[simp] theorem setPair_ppu (rr : Reg16) (v : Word) : (s.setPair rr v).ppu = s.ppu := rfl
@[simp] theorem setPair_apu (rr : Reg16) (v : Word) : (s.setPair rr v).apu = s.apu := rfl
@[simp] theorem setPair_fault (rr : Reg16) (v : Word) : (s.setPair rr v).fault = s.fault := rfl
@[simp] theorem setPair_cycles (rr : Reg16) (v : Word) : (s.setPair rr v).cycles = s.cycles := rfl
@[simp] theorem setPair_dmaUntil (rr : Reg16) (v : Word) : (s.setPair rr v).dmaUntil = s.dmaUntil := rfl
@[simp] theorem setPair_charge (rr : Reg16) (v : Word) : (s.setPair rr v).charge = s.charge := rfl
@[simp] theorem setPair_opAddr (rr : Reg16) (v : Word) : (s.setPair rr v).opAddr = s.opAddr := rfl
@[simp] theorem setPair_draws (rr : Reg16) (v : Word) : (s.setPair rr v).draws = s.draws := rfl
@[simp] theorem setPair_inputs (rr : Reg16) (v : Word) : (s.setPair rr v).inputs = s.inputs := rfl

/-! ### State.setFlags -/

@[simp] theorem setFlags_params (f : Flags) : (s.setFlags f).params = s.params := rfl
@[simp] theorem setFlags_cpu (f : Flags) : (s.setFlags f).cpu = { s.cpu with f := f } := rfl
@[simp] theorem setFlags_ie (f : Flags) : (s.setFlags f).ie = s.ie := rfl
@[simp] theorem setFlags_iflag (f : Flags) : (s.setFlags f).iflag = s.iflag := rfl
@[simp] theorem setFlags_timer (f : Flags) : (s.setFlags f).timer = s.timer := rfl
@[simp] theorem setFlags_serial (f : Flags) : (s.setFlags f).serial = s.serial := rfl
@[simp] theorem setFlags_joy (f : Flags) : (s.setFlags f).joy = s.joy := rfl
@[simp] theorem setFlags_key1Prep (f : Flags) : (s.setFlags f).key1Prep = s.key1Prep := rfl
@[simp] theorem setFlags_doubleSpeed (f : Flags) : (s.setFlags f).doubleSpeed = s.doubleSpeed := rfl
@[simp] theorem setFlags_svbk (f : Flags) : (s.setFlags f).svbk = s.svbk := rfl
@[simp] theorem setFlags_bootMapped (f : Flags) : (s.setFlags f).bootMapped = s.bootMapped := rfl
@[simp] theorem setFlags_bootRom (f : Flags) : (s.setFlags f).bootRom = s.bootRom := rfl
@[simp] theorem setFlags_wram (f : Flags) : (s.setFlags f).wram = s.wram := rfl
@[simp] theorem setFlags_hram (f : Flags) : (s.setFlags f).hram = s.hram := rfl
@[simp] theorem setFlags_cart (f : Flags) : (s.setFlags f).cart = s.cart := rfl
@[simp] theorem setFlags_ppu (f : Flags) : (s.setFlags f).ppu = s.ppu := rfl
@[simp] theorem setFlags_apu (f : Flags) : (s.setFlags f).apu = s.apu := rfl
@[simp] theorem setFlags_fault (f : Flags) : (s.setFlags f).fault = s.fault := rfl
@[simp] theorem setFlags_cycles (f : Flags) : (s.setFlags f).cycles = s.cycles := rfl
@[simp] theorem setFlags_dmaUntil (f : Flags) : (s.setFlags f).dmaUntil = s.dmaUntil := rfl
@[simp] theorem setFlags_charge (f : Flags) : (s.setFlags f).charge = s.charge := rfl
@[simp] theorem setFlags_opAddr (f : Flags) : (s.setFlags f).opAddr = s.opAddr := rfl
@[simp] theorem setFlags_draws (f : Flags) : (s.setFlags f).draws = s.draws := rfl
@[simp] theorem setFlags_inputs (f : Flags) : (s.setFlags f).inputs = s.inputs := rfl

/-! ### State.setAcc -/

@[simp] theorem setAcc_params (x : Byte × Flags) : (s.setAcc x).params = s.params := rfl
@[simp] theorem setAcc_cpu (x : Byte × Flags) : (s.setAcc x).cpu = { s.cpu with a := x.1, f := x.2 } := rfl
@[simp] theorem setAcc_ie (x : Byte × Flags) : (s.setAcc x).ie = s.ie := rfl
@[simp] theorem setAcc_iflag (x : Byte × Flags) : (s.setAcc x).iflag = s.iflag := rfl
@[simp] theorem setAcc_timer (x : Byte × Flags) : (s.setAcc x).timer = s.timer := rfl
@[simp] theorem setAcc_serial (x : Byte × Flags) : (s.setAcc x).serial = s.serial := rfl
@[simp] theorem setAcc_joy (x : Byte × Flags) : (s.setAcc x).joy = s.joy := rfl
@[simp] theorem setAcc_key1Prep (x : Byte × Flags) : (s.setAcc x).key1Prep = s.key1Prep := rfl
@[simp] theorem setAcc_doubleSpeed (x : Byte × Flags) : (s.setAcc x).doubleSpeed = s.doubleSpeed := rfl
@[simp] theorem setAcc_svbk (x : Byte × Flags) : (s.setAcc x).svbk = s.svbk := rfl
@[simp] theorem setAcc_bootMapped (x : Byte × Flags) : (s.setAcc x).bootMapped = s.bootMapped := rfl
@[simp] theorem setAcc_bootRom (x : Byte × Flags) : (s.setAcc x).bootRom = s.bootRom := rfl
@[simp] theorem setAcc_wram (x : Byte × Flags) : (s.setAcc x).wram = s.wram := rfl
@[simp] theorem setAcc_hram (x : Byte × Flags) : (s.setAcc x).hram = s.hram := rfl
@[simp] theorem setAcc_cart (x : Byte × Flags) : (s.setAcc x).cart = s.cart := rfl
@[simp] theorem setAcc_ppu (x : Byte × Flags) : (s.setAcc x).ppu = s.ppu := rfl
@[simp] theorem setAcc_apu (x : Byte × Flags) : (s.setAcc x).apu = s.apu := rfl
@[simp] theorem setAcc_fault (x : Byte × Flags) : (s.setAcc x).fault = s.fault := rfl
@[simp] theorem setAcc_cycles (x : Byte × Flags) : (s.setAcc x).cycles = s.cycles := rfl
@[simp] theorem setAcc_dmaUntil (x : Byte × Flags) : (s.setAcc x).dmaUntil = s.dmaUntil := rfl
@[simp] theorem setAcc_charge (x : Byte × Flags) : (s.setAcc x).charge = s.charge := rfl
@[simp] theorem setAcc_opAddr (x : Byte × Flags) : (s.setAcc x).opAddr = s.opAddr := rfl
@[simp] theorem setAcc_draws (x : Byte × Flags) : (s.setAcc x).draws = s.draws := rfl
@[simp] theorem setAcc_inputs (x : Byte × Flags) : (s.setAcc x).inputs = s.inputs := rfl

/-! ### State.setRegFlags -/

@[simp] theorem setRegFlags_params (r : Reg8) (x : Byte × Flags) : (s.setRegFlags r x).params = s.params := rfl
@[simp] theorem setRegFlags_cpu (r : Reg8) (x : Byte × Flags) : (s.setRegFlags r x).cpu = { s.cpu.setReg r x.1 with f := x.2 } := rfl
@[simp] theorem setRegFlags_ie (r : Reg8) (x : Byte × Flags) : (s.setRegFlags r x).ie = s.ie := rfl
@[simp] theorem setRegFlags_iflag (r : Reg8) (x : Byte × Flags) : (s.setRegFlags r x).iflag = s.iflag := rfl
@[simp] theorem setRegFlags_timer (r : Reg8) (x : Byte × Flags) : (s.setRegFlags r x).timer = s.timer := rfl
@[simp] theorem setRegFlags_serial (r : Reg8) (x : Byte × Flags) : (s.setRegFlags r x).serial = s.serial := rfl
@[simp] theorem setRegFlags_joy (r : Reg8) (x : Byte × Flags) : (s.setRegFlags r x).joy = s.joy := rfl
@[simp] theorem setRegFlags_key1Prep (r : Reg8) (x : Byte × Flags) : (s.setRegFlags r x).key1Prep = s.key1Prep := rfl
@[simp] theorem setRegFlags_doubleSpeed (r : Reg8) (x : Byte × Flags) : (s.setRegFlags r x).doubleSpeed = s.doubleSpeed := rfl
@[simp] theorem setRegFlags_svbk (r : Reg8) (x : Byte × Flags) : (s.setRegFlags r x).svbk = s.svbk := rfl
@[simp] theorem setRegFlags_bootMapped (r : Reg8) (x : Byte × Flags) : (s.setRegFlags r x).bootMapped = s.bootMapped := rfl
@[simp] theorem setRegFlags_bootRom (r : Reg8) (x : Byte × Flags) : (s.setRegFlags r x).bootRom = s.bootRom := rfl
@[simp] theorem setRegFlags_wram (r : Reg8) (x : Byte × Flags) : (s.setRegFlags r x).wram = s.wram := rfl
@[simp] theorem setRegFlags_hram (r : Reg8) (x : Byte × Flags) : (s.setRegFlags r x).hram = s.hram := rfl
@[simp] theorem setRegFlags_cart (r : Reg8) (x : Byte × Flags) : (s.setRegFlags r x).cart = s.cart := rfl
@[simp] theorem setRegFlags_ppu (r : Reg8) (x : Byte × Flags) : (s.setRegFlags r x).ppu = s.ppu := rfl
@[simp] theorem setRegFlags_apu (r : Reg8) (x : Byte × Flags) : (s.setRegFlags r x).apu = s.apu := rfl
@[simp] theorem setRegFlags_fault (r : Reg8) (x : Byte × Flags) : (s.setRegFlags r x).fault = s.fault := rfl
@[simp] theorem setRegFlags_cycles (r : Reg8) (x : Byte × Flags) : (s.setRegFlags r x).cycles = s.cycles := rfl
@[simp] theorem setRegFlags_dmaUntil (r : Reg8) (x : Byte × Flags) : (s.setRegFlags r x).dmaUntil = s.dmaUntil := rfl
@[simp] theorem setRegFlags_charge (r : Reg8) (x : Byte × Flags) : (s.setRegFlags r x).charge = s.charge := rfl
@[simp] theorem setRegFlags_opAddr (r : Reg8) (x : Byte × Flags) : (s.setRegFlags r x).opAddr = s.opAddr := rfl
@[simp] theorem setRegFlags_draws (r : Reg8) (x : Byte × Flags) : (s.setRegFlags r x).draws = s.draws := rfl
@[simp] theorem setRegFlags_inputs (r : Reg8) (x : Byte × Flags) : (s.setRegFlags r x).inputs = s.inputs := rfl

/-! ### State.jump -/

@[simp] theorem jump_params (a : Word) : (s.jump a).params = s.params := rfl
@[simp] theorem jump_cpu (a : Word) : (s.jump a).cpu = { s.cpu with pc := a } := rfl
@[simp] theorem jump_ie (a : Word) : (s.jump a).ie = s.ie := rfl
@[simp] theorem jump_iflag (a : Word) : (s.jump a).iflag = s.iflag := rfl
@[simp] theorem jump_timer (a : Word) : (s.jump a).timer = s.timer := rfl
@[simp] theorem jump_serial (a : Word) : (s.jump a).serial = s.serial := rfl
@[simp] theorem jump_joy (a : Word) : (s.jump a).joy = s.joy := rfl
@[simp] theorem jump_key1Prep (a : Word) : (s.jump a).key1Prep = s.key1Prep := rfl
@[simp] theorem jump_doubleSpeed (a : Word) : (s.jump a).doubleSpeed = s.doubleSpeed := rfl
@[simp] theorem jump_svbk (a : Word) : (s.jump a).svbk = s.svbk := rfl
@[simp] theorem jump_bootMapped (a : Word) : (s.jump a).bootMapped = s.bootMapped := rfl
@[simp] theorem jump_bootRom (a : Word) : (s.jump a).bootRom = s.bootRom := rfl
@[simp] theorem jump_wram (a : Word) : (s.jump a).wram = s.wram := rfl
@[simp] theorem jump_hram (a : Word) : (s.jump a).hram = s.hram := rfl
@[simp] theorem jump_cart (a : Word) : (s.jump a).cart = s.cart := rfl
@[simp] theorem jump_ppu (a : Word) : (s.jump a).ppu = s.ppu := rfl
@[simp] theorem jump_apu (a : Word) : (s.jump a).apu = s.apu := rfl
@[simp] theorem jump_fault (a : Word) : (s.jump a).fault = s.fault := rfl
@[simp] theorem jump_cycles (a : Word) : (s.jump a).cycles = s.cycles := rfl
@[simp] theorem jump_dmaUntil (a : Word) : (s.jump a).dmaUntil = s.dmaUntil := rfl
@[simp] theorem jump_charge (a : Word) : (s.jump a).charge = s.charge := rfl
@[simp] theorem jump_opAddr (a : Word) : (s.jump a).opAddr = s.opAddr := rfl
@[simp] theorem jump_draws (a : Word) : (s.jump a).draws = s.draws := rfl
@[simp] theorem jump_inputs (a : Word) : (s.jump a).inputs = s.inputs := rfl

/-! ### State.afterRead -/

@[simp] theorem afterRead_params (a : Word) : (s.afterRead a).params = s.params := rfl
@[simp] theorem afterRead_cpu (a : Word) : (s.afterRead a).cpu = s.cpu := rfl
@[simp] theorem afterRead_ie (a : Word) : (s.afterRead a).ie = s.ie := rfl
@[simp] theorem afterRead_iflag (a : Word) : (s.afterRead a).iflag = s.iflag := rfl
@[simp] theorem afterRead_timer (a : Word) : (s.afterRead a).timer = s.timer := rfl
@[simp] theorem afterRead_serial (a : Word) : (s.afterRead a).serial = s.serial := rfl
@[simp] theorem afterRead_joy (a : Word) : (s.afterRead a).joy = s.joy := rfl
@[simp] theorem afterRead_key1Prep (a : Word) : (s.afterRead a).key1Prep = s.key1Prep := rfl
@[simp] theorem afterRead_doubleSpeed (a : Word) : (s.afterRead a).doubleSpeed = s.doubleSpeed := rfl
@[simp] theorem afterRead_svbk (a : Word) : (s.afterRead a).svbk = s.svbk := rfl
@[simp] theorem afterRead_bootMapped (a : Word) : (s.afterRead a).bootMapped = s.bootMapped := rfl
@[simp] theorem afterRead_bootRom (a : Word) : (s.afterRead a).bootRom = s.bootRom := rfl
@[simp] theorem afterRead_wram (a : Word) : (s.afterRead a).wram = s.wram := rfl
@[simp] theorem afterRead_hram (a : Word) : (s.afterRead a).hram = s.hram := rfl
@[simp] theorem afterRead_cart (a : Word) : (s.afterRead a).cart = s.cart := rfl
@[simp] theorem afterRead_ppu (a : Word) : (s.afterRead a).ppu = s.ppu := rfl
@[simp] theorem afterRead_apu (a : Word) : (s.afterRead a).apu = s.apu := rfl
@[simp] theorem afterRead_fault (a : Word) : (s.afterRead a).fault = s.fault := rfl
@[simp] theorem afterRead_cycles (a : Word) : (s.afterRead a).cycles = s.cycles := rfl
@[simp] theorem afterRead_dmaUntil (a : Word) : (s.afterRead a).dmaUntil = s.dmaUntil := rfl
@[simp] theorem afterRead_charge (a : Word) : (s.afterRead a).charge = s.charge := rfl
@[simp] theorem afterRead_opAddr (a : Word) : (s.afterRead a).opAddr = s.opAddr := rfl
@[simp] theorem afterRead_draws (a : Word) : (s.afterRead a).draws = s.draws + s.readDraws a := rfl
@[simp] theorem afterRead_inputs (a : Word) : (s.afterRead a).inputs = s.inputs := rfl

/-! ### State.afterFetch -/

@[simp] theorem afterFetch_params : (s.afterFetch).params = s.params := rfl
@[simp] theorem afterFetch_cpu : (s.afterFetch).cpu = { s.cpu with pc := s.cpu.pc + 1 } := rfl
@[simp] theorem afterFetch_ie : (s.afterFetch).ie = s.ie := rfl
@[simp] theorem afterFetch_iflag : (s.afterFetch).iflag = s.iflag := rfl
@[simp] theorem afterFetch_timer : (s.afterFetch).timer = s.timer := rfl
@[simp] theorem afterFetch_serial : (s.afterFetch).serial = s.serial := rfl
@[simp] theorem afterFetch_joy : (s.afterFetch).joy = s.joy := rfl
@[simp] theorem afterFetch_key1Prep : (s.afterFetch).key1Prep = s.key1Prep := rfl
@[simp] theorem afterFetch_doubleSpeed : (s.afterFetch).doubleSpeed = s.doubleSpeed := rfl
@[simp] theorem afterFetch_svbk : (s.afterFetch).svbk = s.svbk := rfl
@[simp] theorem afterFetch_bootMapped : (s.afterFetch).bootMapped = s.bootMapped := rfl
@[simp] theorem afterFetch_bootRom : (s.afterFetch).bootRom = s.bootRom := rfl
@[simp] theorem afterFetch_wram : (s.afterFetch).wram = s.wram := rfl
@[simp] theorem afterFetch_hram : (s.afterFetch).hram = s.hram := rfl
@[simp] theorem afterFetch_cart : (s.afterFetch).cart = s.cart := rfl
@[simp] theorem afterFetch_ppu : (s.afterFetch).ppu = s.ppu := rfl
@[simp] theorem afterFetch_apu : (s.afterFetch).apu = s.apu := rfl
@[simp] theorem afterFetch_fault : (s.afterFetch).fault = s.fault := rfl
@[simp] theorem afterFetch_cycles : (s.afterFetch).cycles = s.cycles := rfl
@[simp] theorem afterFetch_dmaUntil : (s.afterFetch).dmaUntil = s.dmaUntil := rfl
@[simp] theorem afterFetch_charge : (s.afterFetch).charge = s.charge := rfl
@[simp] theorem afterFetch_opAddr : (s.afterFetch).opAddr = s.opAddr := rfl
@[simp] theorem afterFetch_draws : (s.afterFetch).draws = s.draws + s.readDraws s.cpu.pc := rfl
@[simp] theorem afterFetch_inputs : (s.afterFetch).inputs = s.inputs := rfl

/-! ### State.popByte -/

@[simp] theorem popByte_params : (s.popByte).params = s.params := rfl
@[simp] theorem popByte_cpu : (s.popByte).cpu = { s.cpu with sp := s.cpu.sp + 1 } := rfl
@[simp] theorem popByte_ie : (s.popByte).ie = s.ie := rfl
@[simp] theorem popByte_iflag : (s.popByte).iflag = s.iflag := rfl
@[simp] theorem popByte_timer : (s.popByte).timer = s.timer := rfl
@[simp] theorem popByte_serial : (s.popByte).serial = s.serial := rfl
@[simp] theorem popByte_joy : (s.popByte).joy = s.joy := rfl
@[simp] theorem popByte_key1Prep : (s.popByte).key1Prep = s.key1Prep := rfl
@[simp] theorem popByte_doubleSpeed : (s.popByte).doubleSpeed = s.doubleSpeed := rfl
@[simp] theorem popByte_svbk : (s.popByte).svbk = s.svbk := rfl
@[simp] theorem popByte_bootMapped : (s.popByte).bootMapped = s.bootMapped := rfl
@[simp] theorem popByte_bootRom : (s.popByte).bootRom = s.bootRom := rfl
@[simp] theorem popByte_wram : (s.popByte).wram = s.wram := rfl
@[simp] theorem popByte_hram : (s.popByte).hram = s.hram := rfl
@[simp] theorem popByte_cart : (s.popByte).cart = s.cart := rfl
@[simp] theorem popByte_ppu : (s.popByte).ppu = s.ppu := rfl
@[simp] theorem popByte_apu : (s.popByte).apu = s.apu := rfl
@[simp] theorem popByte_fault : (s.popByte).fault = s.fault := rfl
@[simp] theorem popByte_cycles : (s.popByte).cycles = s.cycles := rfl
@[simp] theorem popByte_dmaUntil : (s.popByte).dmaUntil = s.dmaUntil := rfl
@[simp] theorem popByte_charge : (s.popByte).charge = s.charge := rfl
@[simp] theorem popByte_opAddr : (s.popByte).opAddr = s.opAddr := rfl
@[simp] theorem popByte_draws : (s.popByte).draws = s.draws + s.readDraws s.cpu.sp := rfl
@[simp] theorem popByte_inputs : (s.popByte).inputs = s.inputs := rfl

/-! ### State.commitEi -/

@[simp] theorem commitEi_params : (s.commitEi).params = s.params := rfl
@[simp] theorem commitEi_ie : (s.commitEi).ie = s.ie := rfl
@[simp] theorem commitEi_iflag : (s.commitEi).iflag = s.iflag := rfl
@[simp] theorem commitEi_timer : (s.commitEi).timer = s.timer := rfl
@[simp] theorem commitEi_serial : (s.commitEi).serial = s.serial := rfl
@[simp] theorem commitEi_joy : (s.commitEi).joy = s.joy := rfl
@[simp] theorem commitEi_key1Prep : (s.commitEi).key1Prep = s.key1Prep := rfl
@[simp] theorem commitEi_doubleSpeed : (s.commitEi).doubleSpeed = s.doubleSpeed := rfl
@[simp] theorem commitEi_svbk : (s.commitEi).svbk = s.svbk := rfl
@[simp] theorem commitEi_bootMapped : (s.commitEi).bootMapped = s.bootMapped := rfl
@[simp] theorem commitEi_bootRom : (s.commitEi).bootRom = s.bootRom := rfl
@[simp] theorem commitEi_wram : (s.commitEi).wram = s.wram := rfl
@[simp] theorem commitEi_hram : (s.commitEi).hram = s.hram := rfl
@[simp] theorem commitEi_cart : (s.commitEi).cart = s.cart := rfl
@[simp] theorem commitEi_ppu : (s.commitEi).ppu = s.ppu := rfl
@[simp] theorem commitEi_apu : (s.commitEi).apu = s.apu := rfl
@[simp] theorem commitEi_fault : (s.commitEi).fault = s.fault := rfl
@[simp] theorem commitEi_cycles : (s.commitEi).cycles = s.cycles := rfl
@[simp] theorem commitEi_dmaUntil : (s.commitEi).dmaUntil = s.dmaUntil := rfl
@[simp] theorem commitEi_charge : (s.commitEi).charge = s.charge := rfl
@[simp] theorem commitEi_opAddr : (s.commitEi).opAddr = s.opAddr := rfl
@[simp] theorem commitEi_draws : (s.commitEi).draws = s.draws := rfl
@[simp] theorem commitEi_inputs : (s.commitEi).inputs = s.inputs := rfl

/-! ### State.rtcEvent -/

@[simp] theorem rtcEvent_params (n : Nat) : (s.rtcEvent n).params = s.params := rfl
@[simp] theorem rtcEvent_cpu (n : Nat) : (s.rtcEvent n).cpu = s.cpu := rfl
@[simp] theorem rtcEvent_ie (n : Nat) : (s.rtcEvent n).ie = s.ie := rfl
@[simp] theorem rtcEvent_iflag (n : Nat) : (s.rtcEvent n).iflag = s.iflag := rfl
@[simp] theorem rtcEvent_timer (n : Nat) : (s.rtcEvent n).timer = s.timer := rfl
@[simp] theorem rtcEvent_serial (n : Nat) : (s.rtcEvent n).serial = s.serial := rfl
@[simp] theorem rtcEvent_joy (n : Nat) : (s.rtcEvent n).joy = s.joy := rfl
@[simp] theorem rtcEvent_key1Prep (n : Nat) : (s.rtcEvent n).key1Prep = s.key1Prep := rfl
@[simp] theorem rtcEvent_doubleSpeed (n : Nat) : (s.rtcEvent n).doubleSpeed = s.doubleSpeed := rfl
@[simp] theorem rtcEvent_svbk (n : Nat) : (s.rtcEvent n).svbk = s.svbk := rfl
@[simp] theorem rtcEvent_bootMapped (n : Nat) : (s.rtcEvent n).bootMapped = s.bootMapped := rfl
@[simp] theorem rtcEvent_bootRom (n : Nat) : (s.rtcEvent n).bootRom = s.bootRom := rfl
@[simp] theorem rtcEvent_wram (n : Nat) : (s.rtcEvent n).wram = s.wram := rfl
@[simp] theorem rtcEvent_hram (n : Nat) : (s.rtcEvent n).hram = s.hram := rfl
@[simp] theorem rtcEvent_cart (n : Nat) : (s.rtcEvent n).cart = s.cart.rtcAdvance n := rfl
@[simp] theorem rtcEvent_ppu (n : Nat) : (s.rtcEvent n).ppu = s.ppu := rfl
@[simp] theorem rtcEvent_apu (n : Nat) : (s.rtcEvent n).apu = s.apu := rfl
@[simp] theorem rtcEvent_fault (n : Nat) : (s.rtcEvent n).fault = s.fault := rfl
@[simp] theorem rtcEvent_cycles (n : Nat) : (s.rtcEvent n).cycles = s.cycles := rfl
@[simp] theorem rtcEvent_dmaUntil (n : Nat) : (s.rtcEvent n).dmaUntil = s.dmaUntil := rfl
@[simp] theorem rtcEvent_charge (n : Nat) : (s.rtcEvent n).charge = s.charge := rfl
@[simp] theorem rtcEvent_opAddr (n : Nat) : (s.rtcEvent n).opAddr = s.opAddr := rfl
@[simp] theorem rtcEvent_draws (n : Nat) : (s.rtcEvent n).draws = s.draws := rfl
@[simp] theorem rtcEvent_inputs (n : Nat) : (s.rtcEvent n).inputs = s.inputs := rfl

/-! ### State.afterOpcode -/

@[simp] theorem afterOpcode_params : (s.afterOpcode).params = s.params := rfl
@[simp] theorem afterOpcode_ie : (s.afterOpcode).ie = s.ie := rfl
@[simp] theorem afterOpcode_iflag : (s.afterOpcode).iflag = s.iflag := rfl
@[simp] theorem afterOpcode_timer : (s.afterOpcode).timer = s.timer := rfl
@[simp] theorem afterOpcode_serial : (s.afterOpcode).serial = s.serial := rfl
@[simp] theorem afterOpcode_joy : (s.afterOpcode).joy = s.joy := rfl
@[simp] theorem afterOpcode_key1Prep : (s.afterOpcode).key1Prep = s.key1Prep := rfl
@[simp] theorem afterOpcode_doubleSpeed : (s.afterOpcode).doubleSpeed = s.doubleSpeed := rfl
@[simp] theorem afterOpcode_svbk : (s.afterOpcode).svbk = s.svbk := rfl
@[simp] theorem afterOpcode_bootMapped : (s.afterOpcode).bootMapped = s.bootMapped := rfl
@[simp] theorem afterOpcode_bootRom : (s.afterOpcode).bootRom = s.bootRom := rfl
@[simp] theorem afterOpcode_wram : (s.afterOpcode).wram = s.wram := rfl
@[simp] theorem afterOpcode_hram : (s.afterOpcode).hram = s.hram := rfl
@[simp] theorem afterOpcode_cart : (s.afterOpcode).cart = s.cart := rfl
@[simp] theorem afterOpcode_ppu : (s.afterOpcode).ppu = s.ppu := rfl
@[simp] theorem afterOpcode_apu : (s.afterOpcode).apu = s.apu := rfl
@[simp] theorem afterOpcode_fault : (s.afterOpcode).fault = s.fault := rfl
@[simp] theorem afterOpcode_cycles : (s.afterOpcode).cycles = s.cycles := rfl
@[simp] theorem afterOpcode_dmaUntil : (s.afterOpcode).dmaUntil = s.dmaUntil := rfl
@[simp] theorem afterOpcode_charge : (s.afterOpcode).charge = s.charge := rfl
@[simp] theorem afterOpcode_opAddr : (s.afterOpcode).opAddr = s.cpu.pc := rfl
@[simp] theorem afterOpcode_draws : (s.afterOpcode).draws = s.draws + s.readDraws s.cpu.pc := rfl
@[simp] theorem afterOpcode_inputs : (s.afterOpcode).inputs = s.inputs := rfl

@[simp] theorem afterOpcode_pc : s.afterOpcode.cpu.pc = if s.cpu.skipInc then s.cpu.pc else s.cpu.pc + 1 := rfl

theorem setJoypad_iflag (j : Joypad) : (s.setJoypad j).iflag =
    if decide (s.joy.lines &&& ~~~ j.lines ≠ 0) then s.iflag ||| BitVec.twoPow 5 4 else s.iflag := rfl

/-- Looking at no free value leaves the state alone. -/
@[simp] theorem draw_zero : s.draw 0 = s := rfl

end Sys2Proof.Machine
end

