-- ==== Sys2Proof/Laws/Frame.lean ====
section
/-! SUPPORT. What each shared operation leaves unchanged, said once per operation: the PPU, the DMA engines, a bus write, `Tick`. -/

namespace Sys2Proof.Machine

/-! ### The PPU and the DMA engines -/

/-- `t` is `s` but for the PPU, the requests, the charge and the count of free values. -/
def PpuFrame (s t : State) : Prop :=
  t = { s with ppu := t.ppu, iflag := t.iflag, charge := t.charge, draws := t.draws }

theorem PpuFrame.refl (s : State) : PpuFrame s s := rfl

theorem PpuFrame.trans {s t u : State} (h1 : PpuFrame s t) (h2 : PpuFrame t u) : PpuFrame s u := by
  unfold PpuFrame at *
  rw [h2, h1]

theorem vramDmaCopy_frame (n : Nat) (s : State) : PpuFrame s (State.vramDmaCopy n s) := by
  induction n generalizing s with
  | zero => exact PpuFrame.refl s
  | succ k ih => exact PpuFrame.trans (t := s.vramDmaByte) rfl (ih _)

theorem vramDmaBlocks_frame (n : Nat) (s : State) : PpuFrame s (State.vramDmaBlocks n s) := by
  unfold State.vramDmaBlocks
  exact vramDmaCopy_frame (16 * n) s

theorem setPpu_chargeDraw_frame {s t : State} (p : Ppu) (h : PpuFrame s t) : PpuFrame s (t.setPpu p).chargeDraw :=
  h.trans rfl

theorem hblankDma_frame (s : State) : PpuFrame s s.hblankDma := by
  unfold State.hblankDma
  split
  · exact setPpu_chargeDraw_frame _ (vramDmaBlocks_frame 1 s)
  · exact PpuFrame.refl s

theorem generalDma_frame (s : State) (n : Nat) : PpuFrame s (s.generalDma n) :=
  setPpu_chargeDraw_frame _ (vramDmaBlocks_frame n s)

theorem ppuEvents_frame (s : State) : PpuFrame s s.ppuEvents := by
  unfold State.ppuEvents
  split
  · split
    · rfl
    · split
      · rfl
      · split
        · exact PpuFrame.trans (t := (s.setPpu s.ppu.endTransfer).requestIf (s.ppu.stat.getLsbD 3) 1) rfl
            (hblankDma_frame _)
        · exact PpuFrame.refl s
  · split
    · rfl
    · split
      · rfl
      · exact PpuFrame.refl s

theorem ppuAdvance_frame (s : State) : PpuFrame s s.ppuAdvance := by
  unfold State.ppuAdvance
  split <;> rfl

theorem ppuPixel_frame (s : State) : PpuFrame s s.ppuPixel := by
  unfold State.ppuPixel
  split <;> rfl

theorem ppuCycle_frame (s : State) : PpuFrame s s.ppuCycle := by
  unfold State.ppuCycle
  split
  · exact ((ppuAdvance_frame s).trans (ppuEvents_frame _)).trans (ppuPixel_frame _)
  · exact PpuFrame.refl s

theorem ppuRun_frame (n : Nat) (s : State) : PpuFrame s (State.ppuRun n s) := by
  induction n generalizing s with
  | zero => exact PpuFrame.refl s
  | succ k ih => exact (ppuCycle_frame s).trans (ih _)

theorem tickPpu_frame (fuel given : Nat) (s : State) : PpuFrame s (State.tickPpu fuel given s) := by
  induction fuel generalizing given s with
  | zero => exact PpuFrame.refl s
  | succ k ih =>
    simp only [State.tickPpu]
    split
    · exact PpuFrame.refl s
    · exact (ppuRun_frame _ s).trans (ih _ _)

/-! ### Bus writes -/

/-- `t` agrees with `s` on what no bus write changes: the parameters, the CPU's own state, the speed, the boot image, the fault, the
count of cycles, the opcode address and the host's events. -/
def BusFrame (s t : State) : Prop :=
  t = { t with
    params := s.params, cpu := s.cpu, doubleSpeed := s.doubleSpeed, bootRom := s.bootRom, fault := s.fault
    cycles := s.cycles, opAddr := s.opAddr, inputs := s.inputs }

theorem BusFrame.refl (s : State) : BusFrame s s := rfl

theorem BusFrame.trans {s t u : State} (h1 : BusFrame s t) (h2 : BusFrame t u) : BusFrame s u := by
  unfold BusFrame at *
  rw [h2, h1]

theorem PpuFrame.bus {s t : State} (h : PpuFrame s t) : BusFrame s t := by
  unfold PpuFrame at h
  unfold BusFrame
  rw [h]

theorem oamDmaCopy_frame (v : Byte) (n i : Nat) (s : State) : PpuFrame s (State.oamDmaCopy v n i s) := by
  induction n generalizing s i with
  | zero => exact PpuFrame.refl s
  | succ k ih => exact PpuFrame.trans (t := s.oamDmaByte v i) rfl (ih _ _)

theorem openWindow_frame {s t : State} (n : Nat) (h : BusFrame s t) :
    BusFrame s { t.chargeDraw with dmaUntil := n } := h.trans rfl

theorem oamDma_frame (s : State) (v : Byte) : BusFrame s (s.oamDma v) := by
  have h0 : BusFrame s (s.setPpu { s.ppu with dma := v }) := rfl
  have h := h0.trans (oamDmaCopy_frame v 160 0 (s.setPpu { s.ppu with dma := v })).bus
  exact openWindow_frame (s.cycles + 640) h

theorem writeHdma5_frame (s : State) (v : Byte) : BusFrame s (s.writeHdma5 v) := by
  unfold State.writeHdma5
  split
  · rfl
  · split
    · rfl
    · exact (generalDma_frame s _).bus

theorem writeLcdc_frame (s : State) (v : Byte) : BusFrame s (s.writeLcdc v) := by
  unfold State.writeLcdc
  dsimp only
  split
  · rfl
  · split <;> rfl

theorem writeLy_frame (s : State) : BusFrame s s.writeLy := by unfold State.writeLy; split <;> rfl

theorem writeLyc_frame (s : State) (v : Byte) : BusFrame s (s.writeLyc v) := by
  unfold State.writeLyc
  dsimp only
  split <;> rfl

theorem writeSc_frame (s : State) (v : Byte) : BusFrame s (s.writeSc v) := by
  unfold State.writeSc
  dsimp only
  split <;> rfl

theorem writeIo_frame (s : State) (r : IoReg) (v : Byte) : BusFrame s (s.writeIo r v) := by
  cases r with
  | sc => exact writeSc_frame s v
  | lcdc => exact writeLcdc_frame s v
  | ly => exact writeLy_frame s
  | lyc => exact writeLyc_frame s v
  | dma => exact oamDma_frame s v
  | hdma5 => exact writeHdma5_frame s v
  | _ => rfl

theorem storeAt_frame (s : State) (r : Region) (v : Byte) : BusFrame s (s.storeAt r v) := by
  cases r with
  | io r => exact writeIo_frame s r v
  | vram off => simp only [State.storeAt]; split <;> rfl
  | oam i => simp only [State.storeAt]; split <;> rfl
  | _ => rfl

theorem busWrite_frame (s : State) (a : Word) (v : Byte) : BusFrame s (s.busWrite a v) := by
  unfold State.busWrite
  split
  · split
    · rfl
    · exact BusFrame.trans (t := s.draw 1) rfl (storeAt_frame _ _ v)
  · exact storeAt_frame s _ v

section BusFields

variable {s t : State} (h : BusFrame s t)
include h

theorem BusFrame.cpu : t.cpu = s.cpu := by unfold BusFrame at h; rw [h]
theorem BusFrame.params : t.params = s.params := by unfold BusFrame at h; rw [h]
theorem BusFrame.doubleSpeed : t.doubleSpeed = s.doubleSpeed := by unfold BusFrame at h; rw [h]
theorem BusFrame.bootRom : t.bootRom = s.bootRom := by unfold BusFrame at h; rw [h]
theorem BusFrame.fault : t.fault = s.fault := by unfold BusFrame at h; rw [h]
theorem BusFrame.cycles : t.cycles = s.cycles := by unfold BusFrame at h; rw [h]
theorem BusFrame.opAddr : t.opAddr = s.opAddr := by unfold BusFrame at h; rw [h]
theorem BusFrame.inputs : t.inputs = s.inputs := by unfold BusFrame at h; rw [h]

end BusFields

@[simp] theorem busWrite_cpu (s : State) (a : Word) (v : Byte) : (s.busWrite a v).cpu = s.cpu := (busWrite_frame s a v).cpu
@[simp] theorem busWrite_params (s : State) (a : Word) (v : Byte) : (s.busWrite a v).params = s.params :=
  (busWrite_frame s a v).params
@[simp] theorem busWrite_fault (s : State) (a : Word) (v : Byte) : (s.busWrite a v).fault = s.fault :=
  (busWrite_frame s a v).fault
@[simp] theorem busWrite_cycles (s : State) (a : Word) (v : Byte) : (s.busWrite a v).cycles = s.cycles :=
  (busWrite_frame s a v).cycles

/-! ### The stack -/

@[simp] theorem pushByte_cpu (s : State) (v : Byte) : (s.pushByte v).cpu = { s.cpu with sp := s.cpu.sp - 1 } := by
  simp [State.pushByte]

/-- A push moves SP by two and no other register. -/
@[simp] theorem push16_cpu (s : State) (v : Word) : (s.push16 v).cpu = { s.cpu with sp := s.cpu.sp - 2 } := by
  have h : s.cpu.sp - 1 - 1 = s.cpu.sp - 2 := by ring
  simp only [State.push16, pushByte_cpu, h]

/-- A pop moves SP by two and no other register. -/
@[simp] theorem afterPop_cpu (s : State) : s.afterPop.cpu = { s.cpu with sp := s.cpu.sp + 2 } := by
  have h : s.cpu.sp + 1 + 1 = s.cpu.sp + 2 := by ring
  simp only [State.afterPop, popByte_cpu, h]

/-! ### Tick -/

/-- `t` agrees with `s` on what no `Tick` changes: everything but the clocks' own state. -/
def TickFrame (s t : State) : Prop :=
  t = { s with
    ppu := t.ppu, apu := t.apu, timer := t.timer, serial := t.serial, iflag := t.iflag
    cycles := t.cycles, charge := t.charge, draws := t.draws }

theorem TickFrame.trans {s t u : State} (h1 : TickFrame s t) (h2 : TickFrame t u) : TickFrame s u := by
  unfold TickFrame at *
  rw [h2, h1]

theorem PpuFrame.tick {s t : State} (h : PpuFrame s t) : TickFrame s t := by
  unfold PpuFrame at h
  unfold TickFrame
  rw [h]

theorem untimedRequests_frame (s : State) : TickFrame s s.untimedRequests := by
  unfold State.untimedRequests
  dsimp only
  split <;> rfl

theorem tick_frame (s : State) : TickFrame s s.tick := by
  unfold State.tick
  split
  · have h := (tickPpu_frame (s.ppu.hdmaLeft + 2) 0 s).tick
    unfold State.timedTick
    generalize State.tickPpu (s.ppu.hdmaLeft + 2) 0 s = t at h
    exact h.trans rfl
  · have h := (ppuRun_frame (Config.freeNat s.draws) (s.draw 1)).tick
    have h0 : TickFrame s (s.draw 1) := rfl
    unfold State.untimedTick
    generalize State.ppuRun (Config.freeNat s.draws) (s.draw 1) = t at h
    have h2 := untimedRequests_frame ((t.tickApu (Config.freeNat t.draws)).draw 1)
    dsimp only
    generalize State.untimedRequests ((t.tickApu (Config.freeNat t.draws)).draw 1) = u at h2
    have h1 : TickFrame t ((t.tickApu (Config.freeNat t.draws)).draw 1) := rfl
    exact ((h0.trans h).trans (h1.trans h2)).trans rfl

@[simp] theorem tick_cpu (s : State) : s.tick.cpu = s.cpu := by
  have h := tick_frame s
  unfold TickFrame at h
  rw [h]

@[simp] theorem tick_params (s : State) : s.tick.params = s.params := by
  have h := tick_frame s
  unfold TickFrame at h
  rw [h]

@[simp] theorem tick_cart (s : State) : s.tick.cart = s.cart := by
  have h := tick_frame s
  unfold TickFrame at h
  rw [h]

/-- No charge is left after a `Tick`. -/
@[simp] theorem tick_charge (s : State) : s.tick.charge = 0 := by
  unfold State.tick State.timedTick State.untimedTick
  split <;> rfl

end Sys2Proof.Machine
end

