-- ==== Sys2Proof/Laws/Store.lean ====
section
/-! SUPPORT. The laws of sparse storage: reads after writes, the canonical form, and the bound on the addresses listed. -/

namespace Sys2Proof.Machine

variable {w : Nat}

/-! ### Reads -/

@[simp] theorem read_nil (a : Nat) : Store.read ([] : Store w) a = 0 := rfl

theorem read_cons (k : Nat) (v : BitVec w) (t : Store w) (a : Nat) :
    Store.read ((k, v) :: t) a = if k = a then v else Store.read t a := rfl

theorem read_erase (m : Store w) (a b : Nat) :
    Store.read (Store.erase m a) b = if b = a then 0 else Store.read m b := by
  induction m with
  | nil => simp [Store.erase]
  | cons c t ih =>
    obtain ⟨k, v⟩ := c
    by_cases hk : k = a
    · subst hk
      simp only [Store.erase, if_true, ih, read_cons]
      split <;> simp_all [eq_comm]
    · simp only [Store.erase, hk, if_false, read_cons, ih]
      split <;> simp_all

theorem read_insert (m : Store w) (a b : Nat) (v : BitVec w) :
    Store.read (Store.insert m a v) b = if b = a then v else Store.read m b := by
  induction m with
  | nil => simp [Store.insert, read_cons, eq_comm]
  | cons c t ih =>
    obtain ⟨k, x⟩ := c
    simp only [Store.insert]
    split
    · simp [read_cons, eq_comm]
    · split
      · subst_vars
        simp only [read_cons, eq_comm]
        split <;> simp_all
      · simp only [read_cons, ih]
        split <;> split <;> simp_all

/-- A read after a write: the value written at that address, and the old value at every other. -/
theorem read_write (m : Store w) (a b : Nat) (v : BitVec w) :
    Store.read (Store.write m a v) b = if b = a then v else Store.read m b := by
  unfold Store.write Store.unlisted
  split
  · subst_vars; exact read_erase m a b
  · exact read_insert m a b v

@[simp] theorem read_write_same (m : Store w) (a : Nat) (v : BitVec w) : Store.read (Store.write m a v) a = v := by
  simp [read_write]

theorem read_write_other (m : Store w) {a b : Nat} (v : BitVec w) (h : b ≠ a) :
    Store.read (Store.write m a v) b = Store.read m b := by simp [read_write, h]

/-! ### The canonical form -/

theorem wfFrom_mono {lo lo' : Nat} (h : lo ≤ lo') (m : Store w) (hm : Store.wfFrom lo' m = true) :
    Store.wfFrom lo m = true := by
  cases m with
  | nil => rfl
  | cons c t =>
    simp only [Store.wfFrom, Bool.and_eq_true, decide_eq_true_eq] at hm ⊢
    exact ⟨⟨Nat.le_trans h hm.1.1, hm.1.2⟩, hm.2⟩

theorem erase_wfFrom {lo : Nat} (m : Store w) (a : Nat) (h : Store.wfFrom lo m = true) :
    Store.wfFrom lo (Store.erase m a) = true := by
  induction m generalizing lo with
  | nil => rfl
  | cons c t ih =>
    simp only [Store.wfFrom, Bool.and_eq_true, decide_eq_true_eq] at h
    simp only [Store.erase]
    split
    · exact ih (wfFrom_mono (Nat.le_succ_of_le h.1.1) t h.2)
    · simp only [Store.wfFrom, Bool.and_eq_true, decide_eq_true_eq]
      exact ⟨h.1, ih h.2⟩

theorem insert_wfFrom {lo : Nat} (m : Store w) {a : Nat} {v : BitVec w} (ha : lo ≤ a) (hv : v ≠ Store.unlisted)
    (h : Store.wfFrom lo m = true) : Store.wfFrom lo (Store.insert m a v) = true := by
  induction m generalizing lo with
  | nil => simp [Store.insert, Store.wfFrom, ha, hv]
  | cons c t ih =>
    obtain ⟨k, x⟩ := c
    simp only [Store.wfFrom, Bool.and_eq_true, decide_eq_true_eq] at h
    simp only [Store.insert]
    split
    · simp only [Store.wfFrom, Bool.and_eq_true, decide_eq_true_eq]
      exact ⟨⟨ha, hv⟩, ⟨⟨by omega, h.1.2⟩, h.2⟩⟩
    · split
      · subst_vars
        simp only [Store.wfFrom, Bool.and_eq_true, decide_eq_true_eq]
        exact ⟨⟨ha, hv⟩, h.2⟩
      · simp only [Store.wfFrom, Bool.and_eq_true, decide_eq_true_eq]
        exact ⟨h.1, ih (by omega) h.2⟩

/-- Every write keeps the canonical form. -/
theorem write_wf (m : Store w) (a : Nat) (v : BitVec w) (h : Store.wf m = true) : Store.wf (Store.write m a v) = true := by
  unfold Store.write
  split
  · exact erase_wfFrom m a h
  · exact insert_wfFrom m (Nat.zero_le a) ‹_› h

theorem ofList_wfFrom (a : Nat) (vs : List (BitVec w)) : Store.wfFrom a (Store.ofList a vs) = true := by
  induction vs generalizing a with
  | nil => rfl
  | cons v t ih =>
    simp only [Store.ofList]
    split
    · exact wfFrom_mono (Nat.le_succ a) _ (ih (a + 1))
    · simp only [Store.wfFrom, Bool.and_eq_true, decide_eq_true_eq]
      exact ⟨⟨Nat.le_refl a, ‹_›⟩, ih (a + 1)⟩

/-- A store built from a list is canonical. -/
theorem ofList_wf (a : Nat) (vs : List (BitVec w)) : Store.wf (Store.ofList a vs) = true :=
  wfFrom_mono (Nat.zero_le a) _ (ofList_wfFrom a vs)

/-! ### The bound -/

theorem below_cons (n k : Nat) (v : BitVec w) (t : Store w) :
    Store.below n ((k, v) :: t) = (decide (k < n) && Store.below n t) := rfl

theorem erase_below {n : Nat} (m : Store w) (a : Nat) (h : Store.below n m = true) :
    Store.below n (Store.erase m a) = true := by
  induction m with
  | nil => rfl
  | cons c t ih =>
    obtain ⟨k, v⟩ := c
    simp only [below_cons, Bool.and_eq_true] at h
    simp only [Store.erase]
    split
    · exact ih h.2
    · simp only [below_cons, Bool.and_eq_true]; exact ⟨h.1, ih h.2⟩

theorem insert_below {n : Nat} (m : Store w) {a : Nat} (v : BitVec w) (ha : a < n) (h : Store.below n m = true) :
    Store.below n (Store.insert m a v) = true := by
  induction m with
  | nil => simp [Store.insert, ha, Store.below]
  | cons c t ih =>
    obtain ⟨k, x⟩ := c
    simp only [below_cons, Bool.and_eq_true, decide_eq_true_eq] at h
    simp only [Store.insert]
    split
    · simp only [below_cons, Bool.and_eq_true, decide_eq_true_eq]; exact ⟨ha, h.1, h.2⟩
    · split
      · simp only [below_cons, Bool.and_eq_true, decide_eq_true_eq]; exact ⟨ha, h.2⟩
      · simp only [below_cons, Bool.and_eq_true, decide_eq_true_eq]; exact ⟨h.1, ih h.2⟩

/-- A write below the bound keeps the bound. -/
theorem write_below {n : Nat} (m : Store w) {a : Nat} (v : BitVec w) (ha : a < n) (h : Store.below n m = true) :
    Store.below n (Store.write m a v) = true := by
  unfold Store.write
  split
  · exact erase_below m a h
  · exact insert_below m v ha h

end Sys2Proof.Machine
end

