-- ==== Sys2Proof/Laws/ApuRanges.lean ====
section
/-! SUPPORT. Every APU operation keeps the fields in the ranges of 64 rule R1300 and the register and wave memories in their size. -/

namespace Sys2Proof.Machine

/-- The registers listed are below 0x26, the wave bytes below 16. -/
abbrev Apu.MemBounds (a : Apu) : Prop := Store.below 0x26 a.nr = true ∧ Store.below 16 a.wave = true

theorem reset_apuRanges : State.reset.apu.Ranges := by decide

/-! ### Ranges -/

theorem maxLen_bound (n : ChanId) : n.maxLen ≤ if n = .three then 256 else 64 := by cases n <;> decide

theorem chan_len_bound {a : Apu} (n : ChanId) (h : a.Ranges) : (a.chan n).len ≤ n.maxLen := by
  obtain ⟨_, ⟨h1, h2, h3, h4⟩, _⟩ := h
  cases n <;> assumption

theorem setReg_ranges {a : Apu} (r : Nat) (v : Byte) (h : a.Ranges) : (a.setReg r v).Ranges := h

theorem setChan_ranges {a : Apu} (n : ChanId) (c : Chan) (hc : c.len ≤ n.maxLen) (h : a.Ranges) :
    (a.setChan n c).Ranges := by
  obtain ⟨h0, ⟨h1, h2, h3, h4⟩, h5⟩ := h
  cases n
  · exact ⟨h0, ⟨hc, h2, h3, h4⟩, h5⟩
  · exact ⟨h0, ⟨h1, hc, h3, h4⟩, h5⟩
  · exact ⟨h0, ⟨h1, h2, hc, h4⟩, h5⟩
  · exact ⟨h0, ⟨h1, h2, h3, hc⟩, h5⟩

theorem advance_ranges {a : Apu} (n : ChanId) (h : a.Ranges) : (a.advance n).Ranges := by
  obtain ⟨⟨h1, h2, h3, h4, h5⟩, h6⟩ := id h
  cases n
  · exact ⟨⟨h1, h2, Nat.mod_lt _ (by decide), h4, h5⟩, h6⟩
  · exact ⟨⟨h1, h2, h3, Nat.mod_lt _ (by decide), h5⟩, h6⟩
  · exact ⟨⟨h1, h2, h3, h4, Nat.mod_lt _ (by decide)⟩, h6⟩
  · simp only [Apu.advance]; split <;> exact h

theorem tickChan_ranges {a : Apu} (n : ChanId) (h : a.Ranges) : (a.tickChan n).Ranges := by
  unfold Apu.tickChan
  split
  · exact advance_ranges n (setChan_ranges n _ (chan_len_bound n h) h)
  · exact setChan_ranges n _ (chan_len_bound n h) h

theorem clockLength_ranges {a : Apu} (n : ChanId) (h : a.Ranges) : (a.clockLength n).Ranges := by
  unfold Apu.clockLength
  dsimp only
  split
  · exact setChan_ranges n _ (Nat.le_trans (Nat.sub_le _ 1) (chan_len_bound n h)) h
  · exact h

theorem clockLengths_ranges {a : Apu} (h : a.Ranges) : a.clockLengths.Ranges :=
  clockLength_ranges _ (clockLength_ranges _ (clockLength_ranges _ (clockLength_ranges _ h)))

theorem envelopeStep_le (up : Bool) {vol : Nat} (h : vol ≤ 15) : envelopeStep up vol ≤ 15 := by
  unfold envelopeStep
  split <;> split <;> omega

theorem envelopeClock_le (r : Byte) (free : BitVec 3) {vol timer : Nat} (hv : vol ≤ 15) (ht : timer ≤ 7) :
    (envelopeClock r free vol timer).1 ≤ 15 ∧ (envelopeClock r free vol timer).2 ≤ 7 := by
  have hf := free.isLt
  unfold envelopeClock
  dsimp only
  split
  · exact ⟨hv, ht⟩
  · have hu : (if timer = 0 then free.toNat else timer - 1) ≤ 7 := by split <;> omega
    generalize (if timer = 0 then free.toNat else timer - 1) = u at hu
    split
    · exact ⟨envelopeStep_le _ hv, Nat.le_of_lt_succ (Nat.mod_lt _ (Nat.succ_pos 7))⟩
    · exact ⟨hv, hu⟩

theorem clockEnvelopes_ranges {a : Apu} (h : a.Ranges) : a.clockEnvelopes.Ranges := by
  obtain ⟨h1, h2, ⟨v1, v2, v4, t1, t2, t4⟩, h3⟩ := h
  have e1 := envelopeClock_le (a.reg 0x12) (Config.freeEnvTimer a.envDraws) v1 t1
  have e2 := envelopeClock_le (a.reg 0x17) (Config.freeEnvTimer (a.envDraws + 1)) v2 t2
  have e4 := envelopeClock_le (a.reg 0x21) (Config.freeEnvTimer (a.envDraws + 2)) v4 t4
  exact ⟨h1, h2, ⟨e1.1, e2.1, e4.1, e1.2, e2.2, e4.2⟩, h3⟩

theorem sweepCheck_ranges {a : Apu} (h : a.Ranges) : a.sweepCheck.Ranges := by
  unfold Apu.sweepCheck
  split
  · exact setChan_ranges .one _ (chan_len_bound .one h) h
  · exact h

theorem sweepStore_ranges {a : Apu} {f : Nat} (hf : f ≤ 2047) (h : a.Ranges) : (a.sweepStore f).Ranges :=
  ⟨h.1, h.2.1, h.2.2.1, hf, h.2.2.2.2⟩

theorem sweepReload_le (a : Apu) : a.sweepReload ≤ 8 := by
  unfold Apu.sweepReload
  dsimp only
  split <;> omega

theorem clockSweep_ranges {a : Apu} (h : a.Ranges) : a.clockSweep.Ranges := by
  have h1 : ({ a with sweepTimer := a.sweepReload } : Apu).Ranges :=
    ⟨h.1, h.2.1, h.2.2.1, h.2.2.2.1, sweepReload_le a⟩
  have ht : (if 0 < a.sweepTimer then a.sweepTimer - 1 else a.sweepTimer) ≤ 8 := by
    have := h.2.2.2.2
    split <;> omega
  unfold Apu.clockSweep
  generalize ({ a with sweepTimer := a.sweepReload } : Apu) = b at h1
  generalize (if 0 < a.sweepTimer then a.sweepTimer - 1 else a.sweepTimer) = t at ht
  dsimp only
  split
  · split
    · split
      · rename_i hc
        exact sweepCheck_ranges (sweepStore_ranges hc.1 (sweepCheck_ranges h1))
      · exact sweepCheck_ranges h1
    · exact h1
  · exact ⟨h.1, h.2.1, h.2.2.1, h.2.2.2.1, ht⟩

theorem sequencerStep_ranges {a : Apu} (n : Nat) (h : a.Ranges) : (a.sequencerStep n).Ranges := by
  unfold Apu.sequencerStep
  dsimp only
  have h1 : (if n % 2 = 0 then a.clockLengths else a).Ranges := by
    split
    · exact clockLengths_ranges h
    · exact h
  generalize (if n % 2 = 0 then a.clockLengths else a) = b at h1
  have h2 : (if n = 2 ∨ n = 6 then b.clockSweep else b).Ranges := by
    split
    · exact clockSweep_ranges h1
    · exact h1
  generalize (if n = 2 ∨ n = 6 then b.clockSweep else b) = c at h2
  split
  · exact clockEnvelopes_ranges h2
  · exact h2

theorem tickSequencer_ranges {a : Apu} (h : a.Ranges) : a.tickSequencer.Ranges := by
  unfold Apu.tickSequencer
  obtain ⟨⟨h1, h2, h3⟩, h4⟩ := id h
  split
  · rename_i hc
    exact ⟨⟨hc, h2, h3⟩, h4⟩
  · have h5 : ({ a with fsCount := 0 } : Apu).Ranges := ⟨⟨Nat.succ_pos 8191, h2, h3⟩, h4⟩
    obtain ⟨⟨g1, _, g3⟩, g4⟩ := sequencerStep_ranges a.fsStep h5
    exact ⟨⟨g1, Nat.mod_lt _ (by decide), g3⟩, g4⟩

theorem cycle_ranges {a : Apu} (h : a.Ranges) : a.cycle.Ranges := by
  unfold Apu.cycle
  split
  · exact tickChan_ranges _ (tickChan_ranges _ (tickChan_ranges _ (tickChan_ranges _ (tickSequencer_ranges h))))
  · exact h

/-- Any number of APU cycles keeps the ranges. -/
theorem run_ranges (n : Nat) (a : Apu) (h : a.Ranges) : (Apu.run n a).Ranges := by
  induction n generalizing a with
  | zero => exact h
  | succ k ih => exact ih _ (cycle_ranges h)

theorem nibble_le (v : Byte) : v.toNat / 16 ≤ 15 := by have := v.isLt; omega

theorem freq_le (a : Apu) (n : ChanId) : a.freq n ≤ 2047 := by
  unfold Apu.freq
  have := (a.reg n.nrx3).isLt
  omega

theorem triggerOwn_ranges {a : Apu} (n : ChanId) (h : a.Ranges) : (a.triggerOwn n).Ranges := by
  obtain ⟨⟨b1, b2, b3, b4, b5⟩, h2, ⟨v1, v2, v4, t1, t2, t4⟩, h5, h6⟩ := h
  have hp : ∀ r, (a.reg r).toNat % 8 ≤ 7 := fun r => by omega
  cases n
  · have h1 : ({ a with
        vol1 := (a.reg 0x12).toNat / 16, envTimer1 := (a.reg 0x12).toNat % 8
        shadow := a.freq .one
        sweepTimer := a.sweepReload
        sweepOn := decide ((a.reg 0x10).toNat / 16 % 8 ≠ 0) || decide ((a.reg 0x10).toNat % 8 ≠ 0) } : Apu).Ranges :=
      ⟨⟨b1, b2, b3, b4, b5⟩, h2, ⟨nibble_le _, v2, v4, hp _, t2, t4⟩, freq_le a .one, sweepReload_le a⟩
    simp only [Apu.triggerOwn]
    split
    · exact sweepCheck_ranges h1
    · exact h1
  · exact ⟨⟨b1, b2, b3, b4, b5⟩, h2, ⟨v1, nibble_le _, v4, t1, hp _, t4⟩, h5, h6⟩
  · exact ⟨⟨b1, b2, b3, b4, Nat.succ_pos 31⟩, h2, ⟨v1, v2, v4, t1, t2, t4⟩, h5, h6⟩
  · exact ⟨⟨b1, b2, b3, b4, b5⟩, h2, ⟨v1, v2, nibble_le _, t1, t2, hp _⟩, h5, h6⟩

theorem trigger_ranges {a : Apu} (n : ChanId) (h : a.Ranges) : (a.trigger n).Ranges := by
  refine triggerOwn_ranges n (setChan_ranges n _ ?_ h)
  dsimp only
  split
  · exact Nat.le_refl _
  · exact chan_len_bound n h

theorem writeReg_ranges {a : Apu} (r : Nat) (v : Byte) (h : a.Ranges) : (a.writeReg r v).Ranges := by
  have h0 : (a.setReg r v).Ranges := h
  have hd : ∀ n, ((a.setReg r v).dacGate n).Ranges := fun n => by
    unfold Apu.dacGate
    split
    · exact h0
    · exact setChan_ranges n _ (chan_len_bound n h0) h0
  have ht : ∀ n, ((a.setReg r v).triggerBit n v).Ranges := fun n => by
    unfold Apu.triggerBit
    split
    · exact trigger_ranges n h0
    · exact h0
  have hl : ∀ n, ((a.setReg r v).loadLength n v).Ranges := fun n => setChan_ranges n _ (Nat.sub_le _ _) h0
  unfold Apu.writeReg
  split
  · dsimp only
    split
    all_goals first | exact hl _ | exact hd _ | exact ht _ | exact h0
  · exact h

theorem powerOff_ranges (a : Apu) : a.powerOff.Ranges := by
  refine ⟨?_, ?_, ?_, ?_⟩ <;> simp [Apu.powerOff, Chan.off]

theorem writeNr52_ranges {a : Apu} (v : Byte) (h : a.Ranges) : (a.writeNr52 v).Ranges := by
  unfold Apu.writeNr52
  split
  · split
    · exact h
    · exact ⟨⟨Nat.succ_pos 8191, Nat.succ_pos 7, h.1.2.2⟩, h.2⟩
  · split
    · exact powerOff_ranges a
    · exact h

/-! ### The memories -/

theorem setReg_apuBounds {a : Apu} {r : Nat} (v : Byte) (hr : r < 0x26) (h : a.MemBounds) : (a.setReg r v).MemBounds :=
  ⟨write_below _ _ hr h.1, h.2⟩

/-- The operations on an APU that leave its two memories alone. -/
def Apu.memView (a : Apu) : Memory × Memory := (a.nr, a.wave)

theorem memBounds_of_view {a b : Apu} (h : a.MemBounds) (e : b.memView = a.memView) : b.MemBounds := by
  simp only [Apu.memView, Prod.mk.injEq] at e
  unfold Apu.MemBounds at *
  rw [e.1, e.2]
  exact h

theorem setChan_view (a : Apu) (n : ChanId) (c : Chan) : (a.setChan n c).memView = a.memView := by cases n <;> rfl

theorem tickChan_view (a : Apu) (n : ChanId) : (a.tickChan n).memView = a.memView := by
  have hadv : ∀ b : Apu, (b.advance n).memView = b.memView := fun b => by
    cases n
    case four => simp only [Apu.advance]; split <;> rfl
    all_goals rfl
  unfold Apu.tickChan
  split
  · exact (hadv _).trans (setChan_view a n _)
  · exact setChan_view a n _

theorem clockLength_view (a : Apu) (n : ChanId) : (a.clockLength n).memView = a.memView := by
  unfold Apu.clockLength
  dsimp only
  split
  · exact setChan_view a n _
  · rfl

theorem clockLengths_view (a : Apu) : a.clockLengths.memView = a.memView :=
  (clockLength_view _ _).trans ((clockLength_view _ _).trans ((clockLength_view _ _).trans (clockLength_view _ _)))

theorem sweepCheck_view (a : Apu) : a.sweepCheck.memView = a.memView := by
  unfold Apu.sweepCheck
  split
  · exact setChan_view a .one _
  · rfl

theorem sweepStore_bounds {a : Apu} (f : Nat) (h : a.MemBounds) : (a.sweepStore f).MemBounds :=
  setReg_apuBounds _ (by decide) (setReg_apuBounds (a := { a with shadow := f }) _ (by decide) h)

theorem clockSweep_bounds {a : Apu} (h : a.MemBounds) : a.clockSweep.MemBounds := by
  have h1 : ({ a with sweepTimer := a.sweepReload } : Apu).MemBounds := h
  unfold Apu.clockSweep
  generalize ({ a with sweepTimer := a.sweepReload } : Apu) = b at h1
  generalize (if 0 < a.sweepTimer then a.sweepTimer - 1 else a.sweepTimer) = t
  have h2 := memBounds_of_view h1 (sweepCheck_view b)
  dsimp only
  split
  · split
    · split
      · exact memBounds_of_view (sweepStore_bounds _ h2) (sweepCheck_view _)
      · exact h2
    · exact h1
  · exact h

theorem sequencerStep_bounds {a : Apu} (n : Nat) (h : a.MemBounds) : (a.sequencerStep n).MemBounds := by
  unfold Apu.sequencerStep
  dsimp only
  have h1 : (if n % 2 = 0 then a.clockLengths else a).MemBounds := by
    split
    · exact memBounds_of_view h (clockLengths_view a)
    · exact h
  generalize (if n % 2 = 0 then a.clockLengths else a) = b at h1
  have h2 : (if n = 2 ∨ n = 6 then b.clockSweep else b).MemBounds := by
    split
    · exact clockSweep_bounds h1
    · exact h1
  generalize (if n = 2 ∨ n = 6 then b.clockSweep else b) = c at h2
  split
  · exact h2
  · exact h2

theorem cycle_bounds {a : Apu} (h : a.MemBounds) : a.cycle.MemBounds := by
  have hs : a.tickSequencer.MemBounds := by
    unfold Apu.tickSequencer
    split
    · exact h
    · exact sequencerStep_bounds (a := { a with fsCount := 0 }) _ h
  unfold Apu.cycle
  split
  · exact memBounds_of_view hs ((tickChan_view _ _).trans ((tickChan_view _ _).trans ((tickChan_view _ _).trans
      (tickChan_view _ _))))
  · exact h

theorem run_bounds (n : Nat) (a : Apu) (h : a.MemBounds) : (Apu.run n a).MemBounds := by
  induction n generalizing a with
  | zero => exact h
  | succ k ih => exact ih _ (cycle_bounds h)

theorem trigger_view (a : Apu) (n : ChanId) : (a.trigger n).memView = a.memView := by
  have ho : ∀ b : Apu, (b.triggerOwn n).memView = b.memView := fun b => by
    cases n
    case one =>
      simp only [Apu.triggerOwn]
      split
      · exact (sweepCheck_view _).trans rfl
      · rfl
    all_goals rfl
  exact (ho _).trans (setChan_view a n _)

theorem writeReg_bounds {a : Apu} {r : Nat} (v : Byte) (hr : r < 0x26) (h : a.MemBounds) : (a.writeReg r v).MemBounds := by
  have h0 := setReg_apuBounds v hr h
  have hd : ∀ n, ((a.setReg r v).dacGate n).MemBounds := fun n => by
    unfold Apu.dacGate
    split
    · exact h0
    · exact memBounds_of_view h0 (setChan_view _ n _)
  have ht : ∀ n, ((a.setReg r v).triggerBit n v).MemBounds := fun n => by
    unfold Apu.triggerBit
    split
    · exact memBounds_of_view h0 (trigger_view _ n)
    · exact h0
  have hl : ∀ n, ((a.setReg r v).loadLength n v).MemBounds := fun n => memBounds_of_view h0 (setChan_view _ n _)
  unfold Apu.writeReg
  split
  · dsimp only
    split
    all_goals first | exact hl _ | exact hd _ | exact ht _ | exact h0
  · exact h

theorem writeNr52_bounds {a : Apu} (v : Byte) (h : a.MemBounds) : (a.writeNr52 v).MemBounds := by
  unfold Apu.writeNr52
  split
  · split <;> exact h
  · split
    · exact ⟨rfl, h.2⟩
    · exact h

end Sys2Proof.Machine
end

