-- ==== Sys2Proof/Laws/Bus.lean ====
section
/-! SUPPORT. The bus: the region of an address by its range, an access outside the OAM DMA window, and how an access depends on the
CPU's own state: not at all. -/

namespace Sys2Proof.Machine

/-! ### Regions -/

section Regions

variable (cgb : Bool) {a : Word}

theorem regionOf_rom (h : a.toNat < 0x8000) : regionOf cgb a = .rom a.toNat := by simp [regionOf, h]

theorem regionOf_vram (h1 : 0x8000 ≤ a.toNat) (h2 : a.toNat < 0xA000) : regionOf cgb a = .vram (a.toNat - 0x8000) := by
  simp (disch := omega) only [regionOf, if_pos, if_neg]

theorem regionOf_cartRam (h1 : 0xA000 ≤ a.toNat) (h2 : a.toNat < 0xC000) : regionOf cgb a = .cartRam (a.toNat - 0xA000) := by
  simp (disch := omega) only [regionOf, if_pos, if_neg]

theorem regionOf_wram (h1 : 0xC000 ≤ a.toNat) (h2 : a.toNat < 0xE000) : regionOf cgb a = wramRegion (a.toNat - 0xC000) := by
  simp (disch := omega) only [regionOf, if_pos, if_neg]

theorem regionOf_echo (h1 : 0xE000 ≤ a.toNat) (h2 : a.toNat < 0xFE00) : regionOf cgb a = wramRegion (a.toNat - 0xE000) := by
  simp (disch := omega) only [regionOf, if_pos, if_neg]

theorem regionOf_oam (h1 : 0xFE00 ≤ a.toNat) (h2 : a.toNat < 0xFEA0) : regionOf cgb a = .oam (a.toNat - 0xFE00) := by
  simp (disch := omega) only [regionOf, if_pos, if_neg]

theorem regionOf_gap (h1 : 0xFEA0 ≤ a.toNat) (h2 : a.toNat < 0xFF00) : regionOf cgb a = .unmapped := by
  simp (disch := omega) only [regionOf, if_pos, if_neg]

theorem regionOf_page (h1 : 0xFF00 ≤ a.toNat) (h2 : a.toNat < 0xFF80) :
    regionOf cgb a = match ioRegOf cgb (a.toNat - 0xFF00) with | some r => .io r | none => .unmapped := by
  cases h : ioRegOf cgb (a.toNat - 0xFF00) <;> simp (disch := omega) only [regionOf, if_pos, if_neg, h]

theorem regionOf_hram (h1 : 0xFF80 ≤ a.toNat) (h2 : a.toNat < 0xFFFF) : regionOf cgb a = .hram (a.toNat - 0xFF80) := by
  simp (disch := omega) only [regionOf, if_pos, if_neg]

end Regions

/-! ### Accesses outside the window -/

theorem busWrite_open {s : State} {a : Word} (h : s.windowOpen a = false) (v : Byte) :
    s.busWrite a v = s.storeAt (regionOf s.params.cgb a) v := by
  simp only [State.busWrite, h, Bool.false_eq_true, if_false]

theorem busRead_open {s : State} {a : Word} (h : s.windowOpen a = false) (hu : s.untimedAt a = false) :
    s.busRead a = s.peek true a := by
  simp only [State.busRead, State.windowReads, h, hu, Bool.false_and, Bool.or_self, Bool.false_eq_true, if_false]

/-- A read that looks at no free value. -/
theorem busRead_plain {s : State} {a : Word} (h : s.plainRead a = true) : s.busRead a = s.peek true a := by
  simp only [State.plainRead, State.readDraws] at h
  cases h1 : s.windowOpen a <;> cases h2 : s.untimedAt a
  · exact busRead_open h1 h2
  all_goals simp [h1, h2] at h

/-! ### The CPU's own state -/

section Cpu

variable (s : State) (p : Cpu)

@[simp] theorem busRead_setCpu (a : Word) : (s.setCpu p).busRead a = s.busRead a := rfl
@[simp] theorem readDraws_setCpu (a : Word) : (s.setCpu p).readDraws a = s.readDraws a := rfl
@[simp] theorem afterRead_setCpu (a : Word) : (s.setCpu p).afterRead a = (s.afterRead a).setCpu p := rfl
@[simp] theorem windowOpen_setCpu (a : Word) : (s.setCpu p).windowOpen a = s.windowOpen a := rfl

theorem oamDmaCopy_setCpu (v : Byte) (n i : Nat) :
    State.oamDmaCopy v n i (s.setCpu p) = (State.oamDmaCopy v n i s).setCpu p := by
  induction n generalizing s i with
  | zero => rfl
  | succ k ih => exact ih (s.oamDmaByte v i) (i + 1)

theorem vramDmaCopy_setCpu (n : Nat) : State.vramDmaCopy n (s.setCpu p) = (State.vramDmaCopy n s).setCpu p := by
  induction n generalizing s with
  | zero => rfl
  | succ k ih => exact ih s.vramDmaByte

theorem openWindow_setCpu (n : Nat) :
    ({ (s.setCpu p).chargeDraw with dmaUntil := n } : State) = ({ s.chargeDraw with dmaUntil := n } : State).setCpu p := rfl

theorem oamDma_setCpu (v : Byte) : (s.setCpu p).oamDma v = (s.oamDma v).setCpu p := by
  have h := oamDmaCopy_setCpu (s.setPpu { s.ppu with dma := v }) p v 160 0
  have e : (s.setCpu p).setPpu { (s.setCpu p).ppu with dma := v } = (s.setPpu { s.ppu with dma := v }).setCpu p := rfl
  unfold State.oamDma
  dsimp only
  rw [e, h]
  exact openWindow_setCpu _ p (s.cycles + 640)

theorem endGeneral_setCpu :
    ((s.setCpu p).setPpu { (s.setCpu p).ppu with hdmaLeft := 0 }).chargeDraw =
      (s.setPpu { s.ppu with hdmaLeft := 0 }).chargeDraw.setCpu p := rfl

theorem generalDma_setCpu (n : Nat) : (s.setCpu p).generalDma n = (s.generalDma n).setCpu p := by
  have h := vramDmaCopy_setCpu s p (16 * n)
  unfold State.generalDma State.vramDmaBlocks
  dsimp only
  rw [h]
  exact endGeneral_setCpu _ p

theorem writeHdma5_setCpu (v : Byte) : (s.setCpu p).writeHdma5 v = (s.writeHdma5 v).setCpu p := by
  unfold State.writeHdma5
  rw [setCpu_ppu]
  split
  · rfl
  · split
    · rfl
    · exact generalDma_setCpu s p _

theorem writeLcdc_setCpu (v : Byte) : (s.setCpu p).writeLcdc v = (s.writeLcdc v).setCpu p := by
  unfold State.writeLcdc
  dsimp only
  rw [setCpu_ppu]
  split
  · rfl
  · split <;> rfl

theorem writeLy_setCpu : (s.setCpu p).writeLy = s.writeLy.setCpu p := by
  by_cases h : s.ppu.lcdOn = true
  · rw [State.writeLy, State.writeLy, if_pos h, if_pos (show (s.setCpu p).ppu.lcdOn = true from h)]
    rfl
  · rw [State.writeLy, State.writeLy, if_neg h, if_neg (show ¬ (s.setCpu p).ppu.lcdOn = true from h)]
    rfl

theorem writeLyc_setCpu (v : Byte) : (s.setCpu p).writeLyc v = (s.writeLyc v).setCpu p := by
  by_cases h : s.ppu.lcdOn = true
  · simp only [State.writeLyc]
    rw [if_pos h, if_pos (show (s.setCpu p).ppu.lcdOn = true from h)]
    rfl
  · simp only [State.writeLyc]
    rw [if_neg h, if_neg (show ¬ (s.setCpu p).ppu.lcdOn = true from h)]
    rfl

theorem writeIo_setCpu (r : IoReg) (v : Byte) : (s.setCpu p).writeIo r v = (s.writeIo r v).setCpu p := by
  cases r with
  | dma => exact oamDma_setCpu s p v
  | hdma5 => exact writeHdma5_setCpu s p v
  | lcdc => exact writeLcdc_setCpu s p v
  | sc =>
    simp only [State.writeIo, State.writeSc]
    split <;> rfl
  | ly => exact writeLy_setCpu s p
  | lyc => exact writeLyc_setCpu s p v
  | _ => rfl

theorem storeAt_setCpu (r : Region) (v : Byte) : (s.setCpu p).storeAt r v = (s.storeAt r v).setCpu p := by
  cases r with
  | io r => exact writeIo_setCpu s p r v
  | vram off =>
    by_cases h : s.ppu.vramLocked = true
    · simp only [State.storeAt, setCpu_ppu, h, if_true]
    · simp only [State.storeAt, setCpu_ppu, h]
      rfl
  | oam i =>
    by_cases h : s.ppu.oamLocked = true
    · simp only [State.storeAt, setCpu_ppu, h, if_true]
    · simp only [State.storeAt, setCpu_ppu, h]
      rfl
  | _ => rfl

/-- A bus write neither reads nor writes the CPU's own state. -/
theorem busWrite_setCpu (a : Word) (v : Byte) : (s.setCpu p).busWrite a v = (s.busWrite a v).setCpu p := by
  unfold State.busWrite
  rw [windowOpen_setCpu, setCpu_draws, setCpu_params]
  split
  · split
    · rfl
    · exact storeAt_setCpu (s.draw 1) p _ v
  · exact storeAt_setCpu s p _ v

/-- A push in terms of its two bus writes. -/
theorem push16_eq (v : Word) :
    s.push16 v =
      ((s.busWrite (s.cpu.sp - 1) (hiByte v)).busWrite (s.cpu.sp - 2) (loByte v)).setCpu { s.cpu with sp := s.cpu.sp - 2 } := by
  have e : s.cpu.sp - 1 - 1 = s.cpu.sp - 2 := by ring
  simp only [State.push16, State.pushByte, busWrite_setCpu, setCpu_cpu, e]
  rfl

end Cpu

end Sys2Proof.Machine
end

