-- ==== Sys2Proof/Laws/Exec.lean ====
section
/-! SUPPORT. What an instruction and a step can do, said once: a property of the state that every named operation keeps is kept by
every instruction, and by every step. -/

namespace Sys2Proof.Machine

/-- A property kept by everything an instruction is made of. -/
structure ExecClosed (P : State → Prop) : Prop where
  cpu : ∀ s p, P s → P (s.setCpu p)
  draw : ∀ s n, P s → P (s.draw n)
  charge : ∀ s n, P s → P (s.addCharge n)
  write : ∀ s a v, P s → P (s.busWrite a v)
  speed : ∀ (s : State) b, P s → P { s with doubleSpeed := b, key1Prep := false }
  div : ∀ (s : State) d, P s → P { s with timer := { s.timer with div16 := d } }

namespace ExecClosed

variable {P : State → Prop} (h : ExecClosed P) {s : State}
include h

theorem pushByte (v : Byte) (hs : P s) : P (s.pushByte v) := h.write _ _ _ (h.cpu _ _ hs)

theorem push16 (v : Word) (hs : P s) : P (s.push16 v) := h.pushByte _ (h.pushByte _ hs)

theorem afterPop (hs : P s) : P s.afterPop := h.cpu _ _ (h.draw _ _ (h.cpu _ _ (h.draw _ _ hs)))

theorem modifyHl (f : Byte → Byte × Flags) (hs : P s) : P (s.modifyHl f) := h.cpu _ _ (h.write _ _ _ (h.draw _ _ hs))

theorem enterHalt (hs : P s) : P s.enterHalt := by
  unfold State.enterHalt
  split
  · exact h.cpu _ _ hs
  · split
    · exact h.cpu _ _ hs
    · exact hs

theorem stopSkip (hs : P s) : P s.stopSkip := by
  unfold State.stopSkip
  split
  · exact h.cpu _ _ hs
  · exact hs

theorem enterStop (hs : P s) : P s.enterStop := by
  unfold State.enterStop
  refine h.draw _ _ (h.div _ _ ?_)
  split
  · exact h.speed _ _ (h.stopSkip hs)
  · exact h.cpu _ _ (h.stopSkip hs)

end ExecClosed

/-- An answer whose next state, if it has one, has a property. -/
def Result.Keeps (P : State → Prop) (r : Result) : Prop := ∀ t, r = .next t → P t

theorem keeps_done {P : State → Prop} (h : ExecClosed P) {n : Nat} {s : State} (hs : P s) : Result.Keeps P (done n s) := by
  intro t e
  cases e
  exact h.charge _ _ hs

theorem keeps_fault (P : State → Prop) (f : Fault) : Result.Keeps P (.fault f) := by
  intro t e
  cases e

theorem keeps_ite {P : State → Prop} {b : Bool} {x y : Result} (hx : Result.Keeps P x) (hy : Result.Keeps P y) :
    Result.Keeps P (if b then x else y) := by
  cases b
  · exact hy
  · exact hx

section
variable {P : State → Prop} (h : ExecClosed P) {s : State} (hs : P s)
include h hs

theorem keeps_cpu (n : Nat) (p : Cpu) : Result.Keeps P (done n (s.setCpu p)) := keeps_done h (h.cpu _ _ hs)

theorem keeps_read (n : Nat) (a : Word) (p : Cpu) : Result.Keeps P (done n ((s.afterRead a).setCpu p)) :=
  keeps_done h (h.cpu _ _ (h.draw _ _ hs))

theorem keeps_write (n : Nat) (a : Word) (v : Byte) : Result.Keeps P (done n (s.busWrite a v)) :=
  keeps_done h (h.write _ _ _ hs)

theorem keeps_modify (n : Nat) (f : Byte → Byte × Flags) : Result.Keeps P (done n (s.modifyHl f)) :=
  keeps_done h (h.modifyHl f hs)

theorem keeps_cbRotate (k : Nat) (r : Option Reg8) : Result.Keeps P (cbRotate k r s) := by
  unfold cbRotate
  split
  all_goals first | exact keeps_cpu h hs _ _ | exact keeps_modify h hs _ _

theorem keeps_cbInstruction (op : Byte) : Result.Keeps P (cbInstruction op s) := by
  unfold cbInstruction
  dsimp only
  split
  all_goals
    first
    | exact keeps_cbRotate h hs _ _
    | exact keeps_cpu h hs _ _
    | exact keeps_read h hs _ _ _
    | exact keeps_modify h hs _ _

/-- Every instruction keeps what its operations keep. -/
theorem exec_keeps (i : Instr) : Result.Keeps P (exec i s) := by
  cases i with
  | illegal op => exact keeps_fault P _
  | halt => exact keeps_done h (h.enterHalt hs)
  | stop => exact keeps_done h (h.enterStop hs)
  | cbPrefix => exact keeps_cbInstruction h (h.cpu _ _ (h.draw _ _ hs)) _
  | nop => exact keeps_done h hs
  | ei =>
    show Result.Keeps P (execEi s)
    unfold execEi
    split
    · exact keeps_read h hs _ _ _
    · exact keeps_done h hs
  | jpCc cc a => exact keeps_ite (keeps_cpu h hs _ _) (keeps_done h hs)
  | jrCc cc e => exact keeps_ite (keeps_cpu h hs _ _) (keeps_done h hs)
  | callCc cc a => exact keeps_ite (keeps_done h (h.cpu _ _ (h.push16 _ hs))) (keeps_done h hs)
  | retCc cc => exact keeps_ite (keeps_done h (h.cpu _ _ (h.afterPop hs))) (keeps_done h hs)
  | callNn a => exact keeps_done h (h.cpu _ _ (h.push16 _ hs))
  | rst t => exact keeps_done h (h.cpu _ _ (h.push16 _ hs))
  | ret => exact keeps_done h (h.cpu _ _ (h.afterPop hs))
  | reti => exact keeps_done h (h.cpu _ _ (h.afterPop hs))
  | pop q => exact keeps_done h (h.cpu _ _ (h.afterPop hs))
  | popAf => exact keeps_done h (h.cpu _ _ (h.afterPop hs))
  | push q => exact keeps_done h (h.push16 _ hs)
  | ldNnSp a => exact keeps_done h (h.write _ _ _ (h.write _ _ _ hs))
  | ldHldA => exact keeps_done h (h.cpu _ _ (h.write _ _ _ hs))
  | ldHliA => exact keeps_done h (h.cpu _ _ (h.write _ _ _ hs))
  | ldAHld => exact keeps_done h (h.cpu _ _ (h.cpu _ _ (h.draw _ _ hs)))
  | ldAHli => exact keeps_done h (h.cpu _ _ (h.cpu _ _ (h.draw _ _ hs)))
  | ldHlSpE e => exact keeps_done h (h.cpu _ _ (h.cpu _ _ hs))
  | addHlRr rr => exact keeps_done h (h.cpu _ _ (h.cpu _ _ hs))
  | addSpE e => exact keeps_done h (h.cpu _ _ (h.cpu _ _ hs))
  | _ =>
    first
    | exact keeps_cpu h hs _ _
    | exact keeps_read h hs _ _ _
    | exact keeps_write h hs _ _ _
    | exact keeps_modify h hs _ _

end

/-- A property kept by everything a step does besides running an instruction. -/
structure StepClosed (P : State → Prop) : Prop extends ExecClosed P where
  start : ∀ (s : State), P s → P { s with charge := 0 }
  fetchAt : ∀ (s : State) a, P s → P { s with opAddr := a }
  queue : ∀ (s : State) q, P s → P { s with inputs := q }
  request : ∀ (s : State) x, P s → P { s with iflag := x }
  joypad : ∀ (s : State) j, P s → P { s with joy := j }
  clock : ∀ (s : State) n, P s → P (s.rtcEvent n)
  tick : ∀ s : State, P s → P s.tick

section
variable {P : State → Prop} (h : StepClosed P) {s : State} (hs : P s)
include h hs

theorem afterOpcode_closed : P s.afterOpcode := h.cpu _ _ (h.fetchAt _ _ (h.draw _ _ hs))

theorem afterFetch_closed : P s.afterFetch := h.cpu _ _ (h.draw _ _ hs)

theorem fetch_closed : P s.fetch.state := by
  unfold State.fetch
  dsimp only
  split
  · exact afterOpcode_closed h hs
  · exact afterFetch_closed h (afterOpcode_closed h hs)
  · exact afterFetch_closed h (afterFetch_closed h (afterOpcode_closed h hs))

omit hs in
theorem keeps_tick {r : Result} (hr : Result.Keeps P r) : Result.Keeps P (tickResult r) := by
  intro t e
  cases r with
  | next u => cases e; exact h.tick _ (hr u rfl)
  | fault f => cases e
  | refused x => cases e

theorem dropEi_closed : P s.dropEi := by
  unfold State.dropEi
  split
  · exact h.draw _ _ (h.cpu _ _ hs)
  · exact hs

theorem dispatch_closed : P s.dispatch := by
  have h1 := h.cpu _ { s.cpu with ime := false } (h.request _ (s.iflag &&& ~~~ (BitVec.twoPow 5 (lowestBit s.pending))) hs)
  exact dropEi_closed h (h.cpu _ _ (h.push16 s.cpu.pc h1))

theorem dispatchOrRun_keeps : Result.Keeps P s.dispatchOrRun := by
  unfold State.dispatchOrRun
  split
  · exact keeps_tick h (keeps_done h.toExecClosed (dispatch_closed h hs))
  · exact keeps_tick h (exec_keeps h.toExecClosed (fetch_closed h hs) _)

theorem cpuStep_keeps : Result.Keeps P s.cpuStep := by
  unfold State.cpuStep
  have h1 : P ({ s.commitEi with charge := 0 } : State) := h.start _ (h.cpu _ _ hs)
  split
  · intro t e
    cases e
    exact hs
  · unfold State.haltOrRun
    split
    · split
      · exact keeps_tick h (keeps_done h.toExecClosed h1)
      · exact dispatchOrRun_keeps h (h.cpu _ _ h1)
    · exact dispatchOrRun_keeps h h1

theorem joypadEvent_closed (b : BitVec 3) (p : Bool) : P (s.joypadEvent b p) :=
  h.cpu _ _ (h.request _ _ (h.joypad _ _ hs))

/-- Every step keeps what its operations keep. -/
theorem step_keeps : Result.Keeps P (step s) := by
  unfold step State.stepMachine
  split
  · exact keeps_fault P _
  · split
    · exact cpuStep_keeps h hs
    · exact cpuStep_keeps h (h.queue _ _ hs)
    · intro t e
      cases e
      exact joypadEvent_closed h (h.queue _ _ hs) _ _
    · intro t e
      cases e
      exact h.clock _ _ (h.queue _ _ hs)

end

end Sys2Proof.Machine
end

