-- ==== Sys2Proof/Laws/Line.lean ====
section
/-! SUPPORT. The PPU's position and mode: what one PPU cycle does to them, and that every operation keeps `Ppu.LineInv`. -/

namespace Sys2Proof.Machine

/-- What `Ppu.LineInv` looks at. -/
def Ppu.lineView (p : Ppu) : Nat × Nat × PpuMode × Nat × Nat × Byte :=
  (p.line, p.lineCycle, p.mode, p.sprites.length, p.mode3Len, p.lcdc)

theorem LineInv.of_view {p q : Ppu} (h : p.LineInv) (e : q.lineView = p.lineView) : q.LineInv := by
  simp only [Ppu.lineView, Prod.mk.injEq] at e
  obtain ⟨e1, e2, e3, e4, e5, e6⟩ := e
  unfold Ppu.LineInv Ppu.lcdOn at *
  rw [e1, e2, e3, e4, e5, e6]
  exact h

theorem reset_line : State.reset.ppu.LineInv := by decide

/-! ### Operations that leave the position alone -/

theorem vramDmaCopy_view (n : Nat) (s : State) : (State.vramDmaCopy n s).ppu.lineView = s.ppu.lineView := by
  induction n generalizing s with
  | zero => rfl
  | succ k ih => exact (ih _).trans rfl

theorem vramDmaBlocks_view (n : Nat) (s : State) : (State.vramDmaBlocks n s).ppu.lineView = s.ppu.lineView := by
  unfold State.vramDmaBlocks
  exact vramDmaCopy_view (16 * n) s

theorem endBlock_view (s : State) (left : Nat) (active : Bool) :
    (s.setPpu { s.ppu with hdmaLeft := left, hdmaActive := active }).chargeDraw.ppu.lineView = s.ppu.lineView := rfl

theorem endGeneral_view (s : State) :
    (s.setPpu { s.ppu with hdmaLeft := 0 }).chargeDraw.ppu.lineView = s.ppu.lineView := rfl

theorem hblankDma_view (s : State) : s.hblankDma.ppu.lineView = s.ppu.lineView := by
  unfold State.hblankDma
  split
  · exact (endBlock_view _ _ _).trans (vramDmaBlocks_view 1 s)
  · rfl

theorem writeHdma5_view (s : State) (v : Byte) : (s.writeHdma5 v).ppu.lineView = s.ppu.lineView := by
  unfold State.writeHdma5
  split
  · rfl
  · split
    · rfl
    · exact (endGeneral_view _).trans (vramDmaBlocks_view _ s)

theorem oamDmaCopy_view (v : Byte) (n i : Nat) (s : State) :
    (State.oamDmaCopy v n i s).ppu.lineView = s.ppu.lineView := by
  induction n generalizing s i with
  | zero => rfl
  | succ k ih => exact (ih _ _).trans rfl

theorem openWindow_view (s : State) (n : Nat) :
    ({ s.chargeDraw with dmaUntil := n } : State).ppu.lineView = s.ppu.lineView := rfl

theorem oamDma_view (s : State) (v : Byte) : (s.oamDma v).ppu.lineView = s.ppu.lineView :=
  (openWindow_view _ _).trans (oamDmaCopy_view v 160 0 _)

theorem compareLy_view (s : State) : s.compareLy.ppu.lineView = s.ppu.lineView := rfl

theorem ppuPixel_view (s : State) : s.ppuPixel.ppu.lineView = s.ppu.lineView := by
  unfold State.ppuPixel
  split <;> rfl

/-! ### The position-0 events -/

theorem selectSprites_length (p : Ppu) : p.selectSprites.length ≤ 10 := by
  unfold Ppu.selectSprites
  exact List.length_take_le 10 _

theorem mode3LenOf_bounds (p : Ppu) {k : Nat} (hk : k ≤ 10) : 172 ≤ p.mode3LenOf k ∧ p.mode3LenOf k ≤ 232 := by
  unfold Ppu.mode3LenOf
  split <;> omega

theorem modeAt_start {line mode3Len : Nat} (h : line < 144) : modeAt line 0 mode3Len = .oamSearch := by
  simp [modeAt, h]

/-- The position-0 events of a visible line put the PPU in mode 2 with a fresh selection. -/
theorem startLine_line {p : Ppu} (hl : p.line < 144) (hc : p.lineCycle = 0) : p.startLine.LineInv := by
  have hb := mode3LenOf_bounds p (selectSprites_length p)
  refine ⟨?_, ?_, selectSprites_length p, hb.1, hb.2, fun _ => ?_⟩
  · simp only [Ppu.startLine]; omega
  · simp only [Ppu.startLine, hc]; omega
  · simp only [Ppu.startLine, hc, modeAt_start hl]

theorem restartFrame_line (s : State) : s.restartFrame.ppu.LineInv :=
  LineInv.of_view (startLine_line (p := { s.ppu with line := 0, lineCycle := 0 }) (by simp) rfl)
    ((compareLy_view _).trans rfl)

theorem writeLcdc_line {s : State} (v : Byte) (h : s.ppu.LineInv) : (s.writeLcdc v).ppu.LineInv := by
  unfold State.writeLcdc
  dsimp only
  split
  · rename_i hc
    simp only [Bool.and_eq_true, Bool.not_eq_true'] at hc
    refine ⟨by simp, by simp, h.2.2.1, h.2.2.2.1, h.2.2.2.2.1, fun ho => ?_⟩
    simp only [setPpu_ppu, Ppu.lcdOn, hc.2] at ho
    exact absurd ho (by decide)
  · split
    · exact restartFrame_line _
    · rename_i h1 h2
      obtain ⟨a, b, c, d, e, f⟩ := h
      refine ⟨a, b, c, d, e, fun ho => f ?_⟩
      simp only [Bool.and_eq_true, Bool.not_eq_true', not_and, Bool.not_eq_false, Bool.not_eq_true] at h1 h2
      change v.getLsbD 7 = true at ho
      by_contra hoff
      exact absurd (h2 (by simpa using hoff)) (by simp [ho])

theorem writeLy_line {s : State} (h : s.ppu.LineInv) : s.writeLy.ppu.LineInv := by
  unfold State.writeLy
  split
  · exact restartFrame_line s
  · rename_i hoff
    exact ⟨by simp, by simp, h.2.2.1, h.2.2.2.1, h.2.2.2.2.1, fun ho => absurd ho hoff⟩

/-! ### One PPU cycle -/

theorem ppuAdvance_line (s : State) : s.ppuAdvance.ppu.line =
    if s.ppu.lineCycle + 1 < 456 then s.ppu.line else (s.ppu.line + 1) % 154 := by
  unfold State.ppuAdvance
  split <;> rfl

theorem ppuAdvance_lineCycle (s : State) : s.ppuAdvance.ppu.lineCycle =
    if s.ppu.lineCycle + 1 < 456 then s.ppu.lineCycle + 1 else 0 := by
  unfold State.ppuAdvance
  split <;> rfl

/-- Advancing changes the position alone among what `Ppu.LineInv` looks at. -/
theorem ppuAdvance_rest (s : State) : s.ppuAdvance.ppu.mode = s.ppu.mode ∧
    s.ppuAdvance.ppu.sprites = s.ppu.sprites ∧ s.ppuAdvance.ppu.mode3Len = s.ppu.mode3Len ∧
    s.ppuAdvance.ppu.lcdc = s.ppu.lcdc := by
  unfold State.ppuAdvance
  split <;> exact ⟨rfl, rfl, rfl, rfl⟩

theorem hblankEntry_view (s : State) : s.hblankEntry.ppu.lineView = s.ppu.endTransfer.lineView :=
  (hblankDma_view _).trans rfl

/-- The position after the events is the position before them. -/
theorem ppuEvents_position (s : State) :
    s.ppuEvents.ppu.line = s.ppu.line ∧ s.ppuEvents.ppu.lineCycle = s.ppu.lineCycle ∧
    s.ppuEvents.ppu.lcdc = s.ppu.lcdc := by
  have hh := hblankEntry_view s
  simp only [Ppu.lineView, Prod.mk.injEq] at hh
  unfold State.ppuEvents
  split
  · split
    · exact ⟨rfl, rfl, rfl⟩
    · split
      · exact ⟨rfl, rfl, rfl⟩
      · split
        · exact ⟨hh.1, hh.2.1, hh.2.2.2.2.2⟩
        · exact ⟨rfl, rfl, rfl⟩
  · split
    · exact ⟨rfl, rfl, rfl⟩
    · split <;> exact ⟨rfl, rfl, rfl⟩

/-- The events give the mode of the position (62 rules R1111, R1112), from a state just advanced: the mode is still that of the
position before. -/
theorem ppuEvents_line {s : State} {line0 : Nat} (hl : s.ppu.line < 154) (hc : s.ppu.lineCycle < 456)
    (hs : s.ppu.sprites.length ≤ 10) (h1 : 172 ≤ s.ppu.mode3Len) (h2 : s.ppu.mode3Len ≤ 232)
    (hm : if s.ppu.lineCycle = 0 then s.ppu.mode = modeAt line0 455 s.ppu.mode3Len ∧ s.ppu.line = (line0 + 1) % 154 ∧ line0 < 154
      else s.ppu.mode = modeAt s.ppu.line (s.ppu.lineCycle - 1) s.ppu.mode3Len) :
    s.ppuEvents.ppu.LineInv := by
  unfold State.ppuEvents
  by_cases hv : s.ppu.line < 144
  · rw [if_pos hv]
    by_cases h0 : s.ppu.lineCycle = 0
    · rw [if_pos h0]
      exact startLine_line hv h0
    · rw [if_neg h0]
      rw [if_neg h0] at hm
      by_cases h80 : s.ppu.lineCycle = 80
      · rw [if_pos h80]
        refine ⟨hl, hc, hs, h1, h2, fun _ => ?_⟩
        simp only [setPpu_ppu, modeAt, h80]
        rw [if_neg (by omega), if_neg (by omega), if_pos (by omega)]
      · rw [if_neg h80]
        by_cases he : s.ppu.lineCycle = 80 + s.ppu.mode3Len
        · rw [if_pos he]
          have hi : s.ppu.endTransfer.LineInv := by
            refine ⟨hl, hc, hs, h1, h2, fun _ => ?_⟩
            show PpuMode.hblank = modeAt s.ppu.line s.ppu.lineCycle s.ppu.mode3Len
            unfold modeAt
            rw [if_neg (by omega), if_neg (by omega), if_neg (by omega)]
          exact LineInv.of_view hi (hblankEntry_view s)
        · rw [if_neg he]
          refine ⟨hl, hc, hs, h1, h2, fun _ => ?_⟩
          rw [hm]
          simp only [modeAt]
          repeat' split
          all_goals first | rfl | omega
  · rw [if_neg hv]
    by_cases h144 : s.ppu.line = 144 ∧ s.ppu.lineCycle = 0
    · rw [if_pos h144]
      refine ⟨hl, hc, hs, h1, h2, fun _ => ?_⟩
      show PpuMode.vblank = modeAt s.ppu.line s.ppu.lineCycle s.ppu.mode3Len
      simp only [modeAt, h144.1]
      rfl
    · rw [if_neg h144]
      have hmode : s.ppu.mode = .vblank := by
        by_cases h0 : s.ppu.lineCycle = 0
        · rw [if_pos h0] at hm
          rw [hm.1]
          simp only [modeAt]
          rw [if_pos (by omega)]
        · rw [if_neg h0] at hm
          rw [hm]
          simp only [modeAt]
          rw [if_pos (by omega)]
      have hi : s.ppu.LineInv := by
        refine ⟨hl, hc, hs, h1, h2, fun _ => ?_⟩
        rw [hmode]
        simp only [modeAt]
        rw [if_pos (by omega)]
      split
      · exact LineInv.of_view hi (compareLy_view s)
      · exact hi

theorem ppuCycle_line {s : State} (h : s.ppu.LineInv) : s.ppuCycle.ppu.LineInv := by
  obtain ⟨hl, hc, hs, h1, h2, hm⟩ := h
  by_cases ho : s.ppu.lcdOn = true
  · unfold State.ppuCycle
    rw [if_pos ho]
    refine LineInv.of_view ?_ (ppuPixel_view _)
    have e1 := ppuAdvance_line s
    have e2 := ppuAdvance_lineCycle s
    obtain ⟨e3, e4, e5, e6⟩ := ppuAdvance_rest s
    refine ppuEvents_line (line0 := s.ppu.line) ?_ ?_ (by rw [e4]; exact hs) (by rw [e5]; exact h1)
      (by rw [e5]; exact h2) ?_
    · rw [e1]; split <;> omega
    · rw [e2]; split <;> omega
    · rw [e1, e2, e3, e5, hm ho]
      by_cases hx : s.ppu.lineCycle + 1 < 456
      · simp only [hx, if_true]
        rw [if_neg (by omega)]
        rfl
      · simp only [hx, if_false, if_true]
        have : s.ppu.lineCycle = 455 := by omega
        exact ⟨by rw [this], trivial, hl⟩
  · unfold State.ppuCycle
    rw [if_neg ho]
    exact ⟨hl, hc, hs, h1, h2, hm⟩

theorem ppuRun_line (n : Nat) (s : State) (h : s.ppu.LineInv) : (State.ppuRun n s).ppu.LineInv := by
  induction n generalizing s with
  | zero => exact h
  | succ k ih => exact ih _ (ppuCycle_line h)

theorem tickPpu_line (fuel given : Nat) (s : State) (h : s.ppu.LineInv) :
    (State.tickPpu fuel given s).ppu.LineInv := by
  induction fuel generalizing given s with
  | zero => exact h
  | succ k ih =>
    simp only [State.tickPpu]
    split
    · exact h
    · exact ih _ _ (ppuRun_line _ s h)

theorem untimedRequests_ppu (s : State) : s.untimedRequests.ppu = s.ppu := by
  unfold State.untimedRequests
  dsimp only
  split <;> rfl

/-- `Tick` keeps the position, the selection's bound and the mode of the position. -/
theorem tick_line {s : State} (h : s.ppu.LineInv) : s.tick.ppu.LineInv := by
  unfold State.tick
  split
  · have h1 := tickPpu_line (s.ppu.hdmaLeft + 2) 0 s h
    unfold State.timedTick
    generalize State.tickPpu (s.ppu.hdmaLeft + 2) 0 s = t at h1
    exact h1
  · have h1 := ppuRun_line (Config.freeNat s.draws) (s.draw 1) h
    unfold State.untimedTick
    generalize State.ppuRun (Config.freeNat s.draws) (s.draw 1) = t at h1
    dsimp only
    rw [untimedRequests_ppu]
    exact h1

/-! ### Bus writes -/

theorem writeIo_line {s : State} (r : IoReg) (v : Byte) (h : s.ppu.LineInv) : (s.writeIo r v).ppu.LineInv := by
  cases r with
  | sc => simp only [State.writeIo, State.writeSc]; split <;> exact h
  | lcdc => exact writeLcdc_line v h
  | ly => exact writeLy_line h
  | lyc =>
    have h1 : (s.setPpu { s.ppu with lyc := v }).ppu.LineInv := h
    simp only [State.writeIo, State.writeLyc]
    split
    · exact LineInv.of_view h1 (compareLy_view _)
    · exact h1
  | dma => exact LineInv.of_view h (oamDma_view s v)
  | hdma5 => exact LineInv.of_view h (writeHdma5_view s v)
  | _ => exact h

theorem storeAt_line {s : State} (r : Region) (v : Byte) (h : s.ppu.LineInv) : (s.storeAt r v).ppu.LineInv := by
  cases r with
  | io r => exact writeIo_line r v h
  | vram off => simp only [State.storeAt]; split <;> exact h
  | oam i => simp only [State.storeAt]; split <;> exact h
  | _ => exact h

/-- A bus write keeps the position a position and the mode its mode. -/
theorem busWrite_line {s : State} (a : Word) (v : Byte) (h : s.ppu.LineInv) : (s.busWrite a v).ppu.LineInv := by
  unfold State.busWrite
  split
  · split
    · exact h
    · exact storeAt_line (s := s.draw 1) _ v h
  · exact storeAt_line _ v h

end Sys2Proof.Machine
end

