-- ==== Sys2Proof/Laws/Ranges.lean ====
section
/-! SUPPORT. Every shared operation keeps the counters in range, the reserved bits clear, the memories in their size, the bank
register of a banked cartridge nonzero, and the hardware the same. -/

namespace Sys2Proof.Machine

/-! ### The PPU's reserved bits and its DMA counter -/

/-- The part of `State.Ranges` about the PPU. -/
abbrev Ppu.RegInv (p : Ppu) : Prop :=
  (p.hdmaLeft ≤ 128 ∧ (p.hdmaActive = true → p.hdmaLeft ≠ 0)) ∧
  p.stat &&& 0x87 = 0 ∧ p.bcps &&& 0x40 = 0 ∧ p.ocps &&& 0x40 = 0

/-- What it looks at. -/
def Ppu.regView (p : Ppu) : Nat × Bool × Byte × Byte × Byte := (p.hdmaLeft, p.hdmaActive, p.stat, p.bcps, p.ocps)

theorem RegInv.of_view {p q : Ppu} (h : p.RegInv) (e : q.regView = p.regView) : q.RegInv := by
  simp only [Ppu.regView, Prod.mk.injEq] at e
  obtain ⟨e1, e2, e3, e4, e5⟩ := e
  unfold Ppu.RegInv at *
  rw [e1, e2, e3, e4, e5]
  exact h

theorem vramDmaCopy_regView (n : Nat) (s : State) : (State.vramDmaCopy n s).ppu.regView = s.ppu.regView := by
  induction n generalizing s with
  | zero => rfl
  | succ k ih => exact (ih _).trans rfl

theorem vramDmaBlocks_regInv (n : Nat) {s : State} (h : s.ppu.RegInv) : (State.vramDmaBlocks n s).ppu.RegInv := by
  unfold State.vramDmaBlocks
  exact RegInv.of_view h (vramDmaCopy_regView (16 * n) s)

theorem endBlock_regInv {s : State} (h : s.ppu.RegInv) :
    (s.setPpu { s.ppu with hdmaLeft := s.ppu.hdmaLeft - 1, hdmaActive := decide (s.ppu.hdmaLeft - 1 ≠ 0)
      }).chargeDraw.ppu.RegInv := by
  refine ⟨⟨?_, fun ha => ?_⟩, h.2⟩
  · exact Nat.le_trans (Nat.sub_le _ 1) h.1.1
  · exact of_decide_eq_true ha

theorem endGeneral_regInv {s : State} (ha : s.ppu.hdmaActive = false) (h : s.ppu.RegInv) :
    (s.setPpu { s.ppu with hdmaLeft := 0 }).chargeDraw.ppu.RegInv := by
  refine ⟨⟨Nat.zero_le _, fun hx => ?_⟩, h.2⟩
  have hx' : s.ppu.hdmaActive = true := hx
  rw [ha] at hx'
  exact absurd hx' (by decide)

theorem hblankDma_regInv {s : State} (h : s.ppu.RegInv) : s.hblankDma.ppu.RegInv := by
  unfold State.hblankDma
  split
  · exact endBlock_regInv (vramDmaBlocks_regInv 1 h)
  · exact h

theorem vramDmaBlocks_active (n : Nat) (s : State) : (State.vramDmaBlocks n s).ppu.hdmaActive = s.ppu.hdmaActive := by
  have h := vramDmaCopy_regView (16 * n) s
  simp only [Ppu.regView, Prod.mk.injEq] at h
  unfold State.vramDmaBlocks
  exact h.2.1

theorem writeHdma5_regInv {s : State} (v : Byte) (h : s.ppu.RegInv) : (s.writeHdma5 v).ppu.RegInv := by
  unfold State.writeHdma5
  split
  · refine ⟨⟨?_, fun _ => ?_⟩, h.2⟩
    · show v.toNat % 128 + 1 ≤ 128
      omega
    · exact Nat.succ_ne_zero _
  · split
    · exact ⟨⟨h.1.1, fun hx => absurd hx (by simp)⟩, h.2⟩
    · rename_i ha
      refine endGeneral_regInv ?_ (vramDmaBlocks_regInv _ h)
      rw [vramDmaBlocks_active]
      simpa using ha

theorem oamDmaCopy_regView (v : Byte) (n i : Nat) (s : State) :
    (State.oamDmaCopy v n i s).ppu.regView = s.ppu.regView := by
  induction n generalizing s i with
  | zero => rfl
  | succ k ih => exact (ih _ _).trans rfl

theorem openWindow_regView (s : State) (n : Nat) :
    ({ s.chargeDraw with dmaUntil := n } : State).ppu.regView = s.ppu.regView := rfl

theorem oamDma_regView (s : State) (v : Byte) : (s.oamDma v).ppu.regView = s.ppu.regView :=
  (openWindow_regView _ _).trans (oamDmaCopy_regView v 160 0 _)

theorem openWindow_fields (t : State) (n : Nat) :
    ({ t.chargeDraw with dmaUntil := n } : State).timer = t.timer ∧
    ({ t.chargeDraw with dmaUntil := n } : State).serial = t.serial ∧
    ({ t.chargeDraw with dmaUntil := n } : State).cart = t.cart := ⟨rfl, rfl, rfl⟩

theorem oamDma_fields (s : State) (v : Byte) :
    (s.oamDma v).timer = s.timer ∧ (s.oamDma v).serial = s.serial ∧ (s.oamDma v).cart = s.cart := by
  have hc := oamDmaCopy_frame v 160 0 (s.setPpu { s.ppu with dma := v })
  unfold State.oamDma
  refine ⟨(openWindow_fields _ _).1.trans ?_, (openWindow_fields _ _).2.1.trans ?_, (openWindow_fields _ _).2.2.trans ?_⟩ <;>
    (unfold PpuFrame at hc; generalize State.oamDmaCopy v 160 0 (s.setPpu { s.ppu with dma := v }) = t at hc ⊢; rw [hc]; rfl)

theorem compareLy_regView (s : State) : s.compareLy.ppu.regView = s.ppu.regView := rfl

theorem lineStart_regView (s : State) : s.lineStart.ppu.regView = s.ppu.regView := rfl

theorem restartFrame_regView (s : State) : s.restartFrame.ppu.regView = s.ppu.regView :=
  (compareLy_regView _).trans ((lineStart_regView _).trans rfl)

theorem ppuEvents_regInv {s : State} (h : s.ppu.RegInv) : s.ppuEvents.ppu.RegInv := by
  unfold State.ppuEvents
  split
  · split
    · exact RegInv.of_view h (lineStart_regView s)
    · split
      · exact h
      · split
        · exact hblankDma_regInv (s := (s.setPpu s.ppu.endTransfer).requestIf (s.ppu.stat.getLsbD 3) 1) h
        · exact h
  · split
    · exact h
    · split
      · exact RegInv.of_view h (compareLy_regView s)
      · exact h

theorem ppuAdvance_regView (s : State) : s.ppuAdvance.ppu.regView = s.ppu.regView := by
  unfold State.ppuAdvance
  split <;> rfl

theorem ppuPixel_regView (s : State) : s.ppuPixel.ppu.regView = s.ppu.regView := by
  unfold State.ppuPixel
  split <;> rfl

theorem ppuRun_regInv (n : Nat) (s : State) (h : s.ppu.RegInv) : (State.ppuRun n s).ppu.RegInv := by
  induction n generalizing s with
  | zero => exact h
  | succ k ih =>
    refine ih _ ?_
    unfold State.ppuCycle
    split
    · exact RegInv.of_view (ppuEvents_regInv (RegInv.of_view h (ppuAdvance_regView s))) (ppuPixel_regView _)
    · exact h

theorem tickPpu_regInv (fuel given : Nat) (s : State) (h : s.ppu.RegInv) : (State.tickPpu fuel given s).ppu.RegInv := by
  induction fuel generalizing given s with
  | zero => exact h
  | succ k ih =>
    simp only [State.tickPpu]
    split
    · exact h
    · exact ih _ _ (ppuRun_regInv _ s h)

/-! ### The timer and the serial counter -/

theorem timerPeriod_le (tac : BitVec 3) : 0 < timerPeriod tac ∧ timerPeriod tac ≤ 1024 := by
  unfold timerPeriod
  split <;> omega

theorem increments_sub (n : Nat) (t : Timer) (b : Bool) : (Timer.increments n t b).1.sub = t.sub := by
  induction n generalizing t b with
  | zero => rfl
  | succ k ih =>
    refine (ih _ _).trans ?_
    unfold Timer.increment
    split <;> rfl

theorem timerTick_sub {t : Timer} (c : Nat) (h : t.sub < 1024) : (t.tick c).1.sub < 1024 := by
  have hp := timerPeriod_le t.tac
  unfold Timer.tick
  dsimp only
  split
  · rw [increments_sub]
    exact Nat.lt_of_lt_of_le (Nat.mod_lt _ hp.1) hp.2
  · exact h

theorem shifts_bits (n : Nat) (bit : Int) (p : Serial) : (Serial.shifts n bit p).1.bits ≤ p.bits := by
  induction n generalizing p with
  | zero => exact Nat.le_refl _
  | succ k ih =>
    simp only [Serial.shifts]
    split
    · split
      · exact Nat.sub_le _ 1
      · exact Nat.le_trans (ih _) (Nat.sub_le _ 1)
    · exact Nat.le_refl _

theorem shifts_sc (n : Nat) (bit : Int) (p : Serial) :
    (Serial.shifts n bit p).1.sc = p.sc ∨ (Serial.shifts n bit p).1.sc = p.sc &&& 0x7F := by
  induction n generalizing p with
  | zero => exact Or.inl rfl
  | succ k ih =>
    simp only [Serial.shifts]
    split
    · split
      · exact Or.inr rfl
      · exact ih _
    · exact Or.inl rfl

/-- Clearing bit 7 keeps reserved bits clear. -/
theorem reserved_and {x m y : Byte} (h : x &&& m = 0) : x &&& y &&& m = 0 := by
  rw [BitVec.and_assoc, BitVec.and_comm y m, ← BitVec.and_assoc, h]
  exact BitVec.zero_and

/-- The part of `State.Ranges` about the serial port. -/
abbrev State.SerialInv (s : State) : Prop := s.serial.bits ≤ 8 ∧ s.serial.sc &&& ~~~ s.params.scMask = 0

theorem serialTick_inv (p : Serial) (budget c : Nat) (m : Byte) (h1 : p.bits ≤ 8) (h2 : p.sc &&& m = 0) :
    (p.tick budget c).1.bits ≤ 8 ∧ (p.tick budget c).1.sc &&& m = 0 := by
  unfold Serial.tick
  split
  · refine ⟨Nat.le_trans (shifts_bits _ _ _) h1, ?_⟩
    rcases shifts_sc p.bits ((budget / 8 : Nat) : Int) { p with phase := p.phase - (c : Int) } with e | e
    · rw [e]; exact h2
    · rw [e]; exact reserved_and h2
  · exact ⟨h1, h2⟩

/-! ### The device ranges of a state -/

/-- `State.Ranges` without the CPU's counter and the charge, which an instruction changes before its `Tick`. -/
abbrev State.DeviceRanges (s : State) : Prop := s.timer.sub < 1024 ∧ s.SerialInv ∧ s.ppu.RegInv

theorem ranges_iff (s : State) : s.Ranges ↔ s.cpu.eiDelay ≤ 2 ∧ s.charge = 0 ∧ s.DeviceRanges := by
  constructor
  · rintro ⟨⟨a, b, c, d⟩, e, f, g, h, i⟩
    exact ⟨a, d, b, ⟨c, i⟩, e, f, g, h⟩
  · rintro ⟨a, d, b, ⟨c, i⟩, e, f, g, h⟩
    exact ⟨⟨a, b, c, d⟩, e, f, g, h, i⟩

theorem reset_ranges : State.reset.Ranges := by decide

theorem and_reserved (v m : Byte) : v &&& m &&& ~~~ m = 0 := by
  rw [BitVec.and_assoc, BitVec.and_not_self]
  exact BitVec.and_zero

theorem bump_reserved {r : Byte} (h : r &&& 0x40 = 0) : bumpPaletteIndex r &&& 0x40 = 0 := by
  unfold bumpPaletteIndex
  split
  · clear h; revert r; decide
  · exact h

theorem writeIo_device {s : State} (r : IoReg) (v : Byte) (h : s.DeviceRanges) : (s.writeIo r v).DeviceRanges := by
  obtain ⟨h1, ⟨h2, h3⟩, hr⟩ := id h
  obtain ⟨h4, h5, h6, h7⟩ := id hr
  cases r with
  | sc =>
    simp only [State.writeIo, State.writeSc]
    split
    · exact ⟨h1, ⟨Nat.le_refl 8, and_reserved _ _⟩, hr⟩
    · exact ⟨h1, ⟨Nat.zero_le 8, and_reserved _ _⟩, hr⟩
  | stat => exact ⟨h1, ⟨h2, h3⟩, h4, and_reserved v 0x78, h6, h7⟩
  | bcps => exact ⟨h1, ⟨h2, h3⟩, h4, h5, and_reserved v 0xBF, h7⟩
  | ocps => exact ⟨h1, ⟨h2, h3⟩, h4, h5, h6, and_reserved v 0xBF⟩
  | bcpd => exact ⟨h1, ⟨h2, h3⟩, h4, h5, bump_reserved h6, h7⟩
  | ocpd => exact ⟨h1, ⟨h2, h3⟩, h4, h5, h6, bump_reserved h7⟩
  | lcdc =>
    simp only [State.writeIo, State.writeLcdc]
    split
    · exact h
    · split
      · exact ⟨h1, ⟨h2, h3⟩, RegInv.of_view hr ((restartFrame_regView _).trans rfl)⟩
      · exact h
  | ly =>
    simp only [State.writeIo, State.writeLy]
    split
    · exact ⟨h1, ⟨h2, h3⟩, RegInv.of_view hr (restartFrame_regView s)⟩
    · exact h
  | lyc =>
    simp only [State.writeIo, State.writeLyc]
    split
    · exact ⟨h1, ⟨h2, h3⟩, RegInv.of_view hr ((compareLy_regView _).trans rfl)⟩
    · exact h
  | dma =>
    have hf := oamDma_fields s v
    have hp := (oamDma_frame s v).params
    simp only [State.writeIo]
    unfold State.DeviceRanges State.SerialInv
    rw [hf.1, hf.2.1, hp]
    exact ⟨h1, ⟨h2, h3⟩, RegInv.of_view hr (oamDma_regView s v)⟩
  | hdma5 =>
    have hf : PpuFrame s (s.writeHdma5 v) := by
      unfold State.writeHdma5
      split
      · rfl
      · split
        · rfl
        · exact generalDma_frame s _
    have hi := writeHdma5_regInv v hr
    simp only [State.writeIo]
    generalize s.writeHdma5 v = t at hf hi
    unfold PpuFrame at hf
    refine ⟨?_, ?_, hi⟩
    · rw [hf]; exact h1
    · unfold State.SerialInv; rw [hf]; exact ⟨h2, h3⟩
  | _ => exact h

theorem storeAt_device {s : State} (r : Region) (v : Byte) (h : s.DeviceRanges) : (s.storeAt r v).DeviceRanges := by
  cases r with
  | io r => exact writeIo_device r v h
  | vram off => simp only [State.storeAt]; split <;> exact h
  | oam i => simp only [State.storeAt]; split <;> exact h
  | _ => exact h

/-- A bus write keeps the device counters and reserved bits. -/
theorem busWrite_device {s : State} (a : Word) (v : Byte) (h : s.DeviceRanges) : (s.busWrite a v).DeviceRanges := by
  unfold State.busWrite
  split
  · split
    · exact h
    · exact storeAt_device (s := s.draw 1) _ v h
  · exact storeAt_device _ v h

theorem tickApu_device (n : Nat) {s : State} (h : s.DeviceRanges) : (s.tickApu n).DeviceRanges := h

theorem tickTimer_device (c : Nat) {s : State} (h : s.DeviceRanges) : (s.tickTimer c).DeviceRanges :=
  ⟨timerTick_sub c h.1, h.2⟩

theorem tickSerial_device (c : Nat) {s : State} (h : s.DeviceRanges) : (s.tickSerial c).DeviceRanges :=
  ⟨h.1, serialTick_inv _ _ _ _ h.2.1.1 h.2.1.2, h.2.2⟩

theorem ppuFrame_device {s t : State} (hf : PpuFrame s t) (hp : t.ppu.RegInv) (h : s.DeviceRanges) : t.DeviceRanges := by
  unfold PpuFrame at hf
  refine ⟨?_, ?_, hp⟩
  · rw [hf]; exact h.1
  · unfold State.SerialInv; rw [hf]; exact h.2.1

theorem untimedRequests_device {s : State} (h : s.DeviceRanges) : s.untimedRequests.DeviceRanges := by
  unfold State.untimedRequests
  dsimp only
  split
  · exact ⟨h.1, ⟨Nat.zero_le 8, reserved_and h.2.1.2⟩, h.2.2⟩
  · exact h

theorem endTick_device {s : State} (n : Nat) (h : s.DeviceRanges) :
    ({ s with cycles := n, charge := 0 } : State).DeviceRanges := h

/-- `Tick` keeps the device counters and reserved bits. -/
theorem tick_device {s : State} (h : s.DeviceRanges) : s.tick.DeviceRanges := by
  unfold State.tick
  split
  · exact endTick_device _ (tickSerial_device _ (tickTimer_device _ (tickApu_device _
      (ppuFrame_device (tickPpu_frame _ 0 s) (tickPpu_regInv _ 0 s h.2.2) h))))
  · have h0 : (s.draw 1).DeviceRanges := h
    exact endTick_device _ (untimedRequests_device
      (ppuFrame_device (s := (State.ppuRun (Config.freeNat s.draws) (s.draw 1)).tickApu _) rfl
        (ppuRun_regInv _ (s.draw 1) h.2.2)
        (tickApu_device _ (ppuFrame_device (ppuRun_frame _ (s.draw 1)) (ppuRun_regInv _ (s.draw 1) h.2.2) h0))))

/-! ### The cartridge -/

theorem remapZero_ne (f : Byte) : remapZero f ≠ 0 := by
  unfold remapZero
  split
  · decide
  · assumption

theorem control_bankInv {c : Cart} (a : Nat) (v : Byte) (h : c.BankInv) : (c.control a v).BankInv := by
  unfold Cart.control
  split
  · exact h
  all_goals
    repeat' split
    all_goals first | exact fun _ => remapZero_ne _ | exact h

theorem writeRam_bankInv {c : Cart} (b : Bool) (off : Nat) (v : Byte) (h : c.BankInv) : (c.writeRam b off v).BankInv := by
  unfold Cart.writeRam
  split <;> exact h

theorem writeIo_cart (s : State) (r : IoReg) (v : Byte) : (s.writeIo r v).cart = s.cart := by
  cases r with
  | sc => simp only [State.writeIo, State.writeSc]; split <;> rfl
  | lcdc =>
    simp only [State.writeIo, State.writeLcdc]
    split
    · rfl
    · split <;> rfl
  | ly => simp only [State.writeIo, State.writeLy]; split <;> rfl
  | lyc => simp only [State.writeIo, State.writeLyc]; split <;> rfl
  | dma =>
    exact (oamDma_fields s v).2.2
  | hdma5 =>
    simp only [State.writeIo, State.writeHdma5]
    split
    · rfl
    · split
      · rfl
      · have hc := generalDma_frame s (v.toNat % 128 + 1)
        unfold PpuFrame at hc
        rw [hc]
  | _ => rfl

/-- A bus write reaches the cartridge by a control write, a RAM write, or not at all. -/
theorem storeAt_cart (s : State) (r : Region) (v : Byte) :
    (s.storeAt r v).cart = s.cart ∨ (∃ a, (s.storeAt r v).cart = s.cart.control a v) ∨
    (∃ off, (s.storeAt r v).cart = s.cart.writeRam s.params.ramPermissive off v) := by
  cases r with
  | rom a => exact Or.inr (Or.inl ⟨a, rfl⟩)
  | cartRam off => exact Or.inr (Or.inr ⟨off, rfl⟩)
  | io r => exact Or.inl (writeIo_cart s r v)
  | vram off => refine Or.inl ?_; simp only [State.storeAt]; split <;> rfl
  | oam i => refine Or.inl ?_; simp only [State.storeAt]; split <;> rfl
  | _ => exact Or.inl rfl

theorem busWrite_cart (s : State) (a : Word) (v : Byte) :
    (s.busWrite a v).cart = s.cart ∨ (∃ x, (s.busWrite a v).cart = s.cart.control x v) ∨
    (∃ off, (s.busWrite a v).cart = s.cart.writeRam s.params.ramPermissive off v) := by
  unfold State.busWrite
  split
  · split
    · exact Or.inl rfl
    · exact storeAt_cart (s.draw 1) _ v
  · exact storeAt_cart s _ v

/-- A bus write keeps the bank register of a banked cartridge nonzero (61 rule R1013). -/
theorem busWrite_bankInv {s : State} (a : Word) (v : Byte) (h : s.cart.BankInv) : (s.busWrite a v).cart.BankInv := by
  rcases busWrite_cart s a v with e | ⟨x, e⟩ | ⟨off, e⟩ <;> rw [e]
  · exact h
  · exact control_bankInv x v h
  · exact writeRam_bankInv _ off v h

/-! ### The hardware -/

theorem SameHardware.refl (s : State) : SameHardware s s := by unfold SameHardware; simp

theorem SameHardware.trans {s t u : State} (h1 : SameHardware s t) (h2 : SameHardware t u) : SameHardware s u := by
  unfold SameHardware at *
  obtain ⟨a1, a2, a3, a4, a5, a6, a7, a8, a9, a10, a11⟩ := h1
  obtain ⟨b1, b2, b3, b4, b5, b6, b7, b8, b9, b10, b11⟩ := h2
  exact ⟨b1.trans a1, b2.trans a2, b3.trans a3, b4.trans a4, b5.trans a5, b6.trans a6, b7.trans a7, b8.trans a8,
    b9.trans a9, b10.trans a10, b11.trans a11⟩

/-- What 61 rule R1071 says is fixed from the load on. -/
def Cart.fixed (c : Cart) : Memory × Nat × Variant × Nat × Nat × Bool × Bool × Bool × Bool :=
  (c.rom, c.romLen, c.variant, c.romBanks, c.ramSize, c.hasRam, c.hasBattery, c.hasRtc, c.hasRumble)

theorem control_fixed (c : Cart) (a : Nat) (v : Byte) : (c.control a v).fixed = c.fixed := by
  unfold Cart.control
  split <;> (repeat' split) <;> rfl

theorem writeRam_fixed (c : Cart) (b : Bool) (off : Nat) (v : Byte) : (c.writeRam b off v).fixed = c.fixed := by
  unfold Cart.writeRam
  split <;> rfl

theorem rtcAdvance_fixed (c : Cart) (n : Nat) : (c.rtcAdvance n).fixed = c.fixed := by
  unfold Cart.rtcAdvance
  split <;> rfl

theorem sameHardware_of {s t : State} (h1 : t.params = s.params) (h2 : t.bootRom = s.bootRom)
    (h3 : t.cart.fixed = s.cart.fixed) : SameHardware s t := by
  simp only [Cart.fixed, Prod.mk.injEq] at h3
  exact ⟨h1, h2, h3⟩

/-- A bus write never changes the hardware: no ROM byte, no bank count, no parameter. -/
theorem busWrite_hardware (s : State) (a : Word) (v : Byte) : SameHardware s (s.busWrite a v) := by
  refine sameHardware_of (busWrite_frame s a v).params (busWrite_frame s a v).bootRom ?_
  rcases busWrite_cart s a v with e | ⟨x, e⟩ | ⟨off, e⟩ <;> rw [e]
  · exact control_fixed _ x v
  · exact writeRam_fixed _ _ off v

theorem tick_hardware (s : State) : SameHardware s s.tick := by
  have h := tick_frame s
  unfold TickFrame at h
  refine sameHardware_of ?_ ?_ ?_ <;> rw [h]

end Sys2Proof.Machine
end

