-- ==== Sys2Proof/Laws/MemBounds.lean ====
section
/-! SUPPORT. Every memory operation stays inside the size of its memory: the DMA engines, the PPU, the APU, a bus write, and `Tick`. -/

namespace Sys2Proof.Machine

/-- The part of `State.MemBounds` about the PPU. -/
abbrev Ppu.MemBounds (p : Ppu) : Prop :=
  Store.below 0x4000 p.vram = true ∧ Store.below 160 p.oam = true ∧ Store.below 64 p.bgPal = true ∧
  Store.below 64 p.objPal = true ∧ Store.below 23040 p.frame = true

/-! ### Indexes -/

theorem vramBank_le (s : State) : s.vramBank ≤ 1 := by
  unfold State.vramBank
  split
  · exact Nat.lt_succ_iff.mp s.ppu.vbk.isLt
  · exact Nat.zero_le 1

theorem vram_index (s : State) (off : BitVec 13) : s.vramBank * 0x2000 + off.toNat < 0x4000 := by
  have h1 := vramBank_le s
  have h2 := off.isLt
  omega

theorem wramBank_le (s : State) : s.wramBank ≤ 7 := by
  unfold State.wramBank
  split
  · exact Nat.lt_succ_iff.mp s.svbk.isLt
  · decide

/-- The offset of a region is inside it. -/
def Region.InBounds (r : Region) : Prop :=
  match r with
  | .vram off | .cartRam off => off < 0x2000
  | .wramLow off | .wramHigh off => off < 0x1000
  | .oam i => i < 160
  | .hram i => i < 127
  | .io (.apu r) => r < 0x26
  | .io (.wave i) => i < 16
  | _ => True

theorem ioRegOf_bounds (cgb : Bool) (off : Nat) {r : IoReg} (h : ioRegOf cgb off = some r) : (Region.io r).InBounds := by
  revert h
  unfold ioRegOf
  split <;> (try split) <;> (try split) <;> intro h <;> cases h <;> first | trivial | (show _ < _; omega)

theorem ite_bounds {c : Prop} [Decidable c] {x y : Region} (hx : c → x.InBounds) (hy : ¬ c → y.InBounds) :
    (if c then x else y).InBounds := by
  by_cases h : c
  · rw [if_pos h]; exact hx h
  · rw [if_neg h]; exact hy h

theorem wramRegion_bounds {off : Nat} (h : off < 0x2000) : (wramRegion off).InBounds :=
  ite_bounds (fun h1 => h1) (fun h1 => show off - 0x1000 < 0x1000 by omega)

/-- Every offset that the address map gives is inside its region. -/
theorem regionOf_bounds (cgb : Bool) (addr : Word) : (regionOf cgb addr).InBounds := by
  have hlt := addr.isLt
  unfold regionOf
  generalize addr.toNat = a at hlt ⊢
  dsimp only
  refine ite_bounds (fun _ => ?_) fun h1 => ?_
  · trivial
  refine ite_bounds (fun _ => ?_) fun h2 => ?_
  · show a - 0x8000 < 0x2000
    omega
  refine ite_bounds (fun _ => ?_) fun h3 => ?_
  · show a - 0xA000 < 0x2000
    omega
  refine ite_bounds (fun _ => ?_) fun h4 => ?_
  · have h : a - 0xC000 < 0x2000 := by omega
    revert h
    generalize a - 0xC000 = off
    exact wramRegion_bounds
  refine ite_bounds (fun _ => ?_) fun h5 => ?_
  · have h : a - 0xE000 < 0x2000 := by omega
    revert h
    generalize a - 0xE000 = off
    exact wramRegion_bounds
  refine ite_bounds (fun _ => ?_) fun h6 => ?_
  · show a - 0xFE00 < 160
    omega
  refine ite_bounds (fun _ => ?_) fun h7 => ?_
  · trivial
  refine ite_bounds (fun _ => ?_) fun h8 => ?_
  · split
    · rename_i h
      exact ioRegOf_bounds _ _ h
    · trivial
  refine ite_bounds (fun _ => ?_) fun h9 => ?_
  · show a - 0xFF80 < 127
    omega
  · trivial

/-- Replacing the PPU needs only the bounds of the new one. -/
theorem setPpu_bounds {s : State} {p : Ppu} (h : s.MemBounds) (hp : p.MemBounds) : (s.setPpu p).MemBounds := ⟨h.1, hp, h.2.2⟩

/-- Replacing the APU needs only the bounds of the new one. -/
theorem setApu_bounds {s : State} {a : Apu} (h : s.MemBounds) (ha : a.MemBounds) : ({ s with apu := a } : State).MemBounds :=
  ⟨h.1, h.2.1, ha⟩

theorem draw_bounds {s : State} (n : Nat) (h : s.MemBounds) : (s.draw n).MemBounds := h

theorem setCpu_bounds {s : State} (p : Cpu) (h : s.MemBounds) : (s.setCpu p).MemBounds := h

theorem addCharge_bounds {s : State} (n : Nat) (h : s.MemBounds) : (s.addCharge n).MemBounds := h

theorem requestIf_bounds {s : State} (b : Bool) (i : Nat) (h : s.MemBounds) : (s.requestIf b i).MemBounds := h

/-! ### DMA -/

theorem oamDmaByte_bounds {s : State} (v : Byte) {i : Nat} (hi : i < 160) (h : s.MemBounds) : (s.oamDmaByte v i).MemBounds :=
  draw_bounds _ (setPpu_bounds h ⟨h.2.1.1, write_below _ _ hi h.2.1.2.1, h.2.1.2.2⟩)

theorem oamDmaCopy_bounds (v : Byte) (n i : Nat) (s : State) (hn : n + i ≤ 160) (h : s.MemBounds) :
    (State.oamDmaCopy v n i s).MemBounds := by
  induction n generalizing s i with
  | zero => exact h
  | succ k ih => exact ih _ _ (by omega) (oamDmaByte_bounds v (by omega) h)

theorem openWindow_bounds {s : State} (n : Nat) (h : s.MemBounds) : ({ s.chargeDraw with dmaUntil := n } : State).MemBounds := h

theorem oamDma_bounds {s : State} (v : Byte) (h : s.MemBounds) : (s.oamDma v).MemBounds :=
  openWindow_bounds (s.cycles + 640) (oamDmaCopy_bounds v 160 0 _ (Nat.le_refl 160) (setPpu_bounds (p := { s.ppu with dma := v }) h h.2.1))

theorem vramDmaByte_bounds {s : State} (h : s.MemBounds) : s.vramDmaByte.MemBounds :=
  draw_bounds _ (setPpu_bounds h ⟨write_below _ _ (vram_index s _) h.2.1.1, h.2.1.2⟩)

theorem vramDmaCopy_bounds (n : Nat) (s : State) (h : s.MemBounds) : (State.vramDmaCopy n s).MemBounds := by
  induction n generalizing s with
  | zero => exact h
  | succ k ih => exact ih _ (vramDmaByte_bounds h)

theorem vramDmaBlocks_bounds (n : Nat) {s : State} (h : s.MemBounds) : (State.vramDmaBlocks n s).MemBounds := by
  unfold State.vramDmaBlocks
  exact vramDmaCopy_bounds (16 * n) s h

theorem endBlock_bounds {s : State} (left : Nat) (active : Bool) (h : s.MemBounds) :
    (s.setPpu { s.ppu with hdmaLeft := left, hdmaActive := active }).chargeDraw.MemBounds := h

theorem endGeneral_bounds {s : State} (h : s.MemBounds) : (s.setPpu { s.ppu with hdmaLeft := 0 }).chargeDraw.MemBounds := h

theorem hblankDma_bounds {s : State} (h : s.MemBounds) : s.hblankDma.MemBounds := by
  unfold State.hblankDma
  split
  · exact endBlock_bounds _ _ (vramDmaBlocks_bounds 1 h)
  · exact h

theorem generalDma_bounds (n : Nat) {s : State} (h : s.MemBounds) : (s.generalDma n).MemBounds :=
  endGeneral_bounds (vramDmaBlocks_bounds n h)

theorem writeHdma5_bounds (v : Byte) {s : State} (h : s.MemBounds) : (s.writeHdma5 v).MemBounds := by
  unfold State.writeHdma5
  split
  · exact h
  · split
    · exact h
    · exact generalDma_bounds _ h

/-! ### The PPU -/

theorem compareLy_bounds {s : State} (h : s.MemBounds) : s.compareLy.MemBounds := h

theorem lineStart_bounds {s : State} (h : s.MemBounds) : s.lineStart.MemBounds := h

theorem restartFrame_bounds {s : State} (h : s.MemBounds) : s.restartFrame.MemBounds :=
  compareLy_bounds (lineStart_bounds (setPpu_bounds (p := { s.ppu with line := 0, lineCycle := 0 }) h h.2.1))

theorem writeLcdc_bounds {s : State} (v : Byte) (h : s.MemBounds) : (s.writeLcdc v).MemBounds := by
  have h1 : (s.setPpu { s.ppu with lcdc := v }).MemBounds := h
  unfold State.writeLcdc
  dsimp only
  split
  · exact h
  · split
    · exact restartFrame_bounds h1
    · exact h1

theorem writeLy_bounds {s : State} (h : s.MemBounds) : s.writeLy.MemBounds := by
  unfold State.writeLy
  split
  · exact restartFrame_bounds h
  · exact h

theorem writeLyc_bounds {s : State} (v : Byte) (h : s.MemBounds) : (s.writeLyc v).MemBounds := by
  have h1 : (s.setPpu { s.ppu with lyc := v }).MemBounds := h
  unfold State.writeLyc
  dsimp only
  split
  · exact compareLy_bounds h1
  · exact h1

theorem ppuEvents_bounds {s : State} (h : s.MemBounds) : s.ppuEvents.MemBounds := by
  unfold State.ppuEvents
  split
  · split
    · exact h
    · split
      · exact h
      · split
        · exact hblankDma_bounds (s := (s.setPpu s.ppu.endTransfer).requestIf (s.ppu.stat.getLsbD 3) 1) h
        · exact h
  · split
    · exact h
    · split <;> exact h

theorem ppuAdvance_bounds {s : State} (h : s.MemBounds) : s.ppuAdvance.MemBounds := by
  unfold State.ppuAdvance
  split <;> exact h

theorem ppuPixel_bounds {s : State} (h : s.MemBounds) : s.ppuPixel.MemBounds := by
  unfold State.ppuPixel
  split
  · rename_i hx
    obtain ⟨h1, ⟨hv, ho, hb, hp, hf⟩, h3⟩ := h
    exact ⟨h1, ⟨hv, ho, hb, hp, write_below _ _ (by omega) hf⟩, h3⟩
  · exact h

theorem ppuCycle_bounds {s : State} (h : s.MemBounds) : s.ppuCycle.MemBounds := by
  unfold State.ppuCycle
  split
  · exact ppuPixel_bounds (ppuEvents_bounds (ppuAdvance_bounds h))
  · exact h

theorem ppuRun_bounds (n : Nat) (s : State) (h : s.MemBounds) : (State.ppuRun n s).MemBounds := by
  induction n generalizing s with
  | zero => exact h
  | succ k ih => exact ih _ (ppuCycle_bounds h)

theorem tickPpu_bounds (fuel given : Nat) (s : State) (h : s.MemBounds) : (State.tickPpu fuel given s).MemBounds := by
  induction fuel generalizing given s with
  | zero => exact h
  | succ k ih =>
    simp only [State.tickPpu]
    split
    · exact h
    · exact ih _ _ (ppuRun_bounds _ s h)


/-! ### The cartridge -/

/-- The cell is one of the `n` cells. -/
def RamTarget.InBounds (n : Nat) (t : RamTarget) : Prop :=
  match t with
  | .cell i | .nibble i => i < n
  | _ => True

theorem ite_target {p : Prop} [Decidable p] {n : Nat} {x y : RamTarget} (hx : p → x.InBounds n) (hy : y.InBounds n) :
    (if p then x else y).InBounds n := by
  by_cases h : p
  · rw [if_pos h]; exact hx h
  · rw [if_neg h]; exact hy

theorem ramCell_bounds {c : Cart} (hs : c.Shaped) (k off : Nat) : (c.ramCell k off).InBounds c.ramSize :=
  ite_target (fun h => Nat.mod_lt _ (hs.1 h)) trivial

/-- Every cell the window reaches is a cell of the cartridge RAM. -/
theorem ramTarget_bounds {c : Cart} (hs : c.Shaped) (b : Bool) (off : Nat) : (c.ramTarget b off).InBounds c.ramSize := by
  unfold Cart.ramTarget
  dsimp only
  split
  · exact ramCell_bounds hs _ _
  · exact ite_target (fun _ => ramCell_bounds hs _ _) trivial
  · rename_i hv
    refine ite_target (fun _ => ?_) trivial
    show off % 512 < c.ramSize
    rw [hs.2 hv]
    exact Nat.mod_lt _ (by decide)
  · exact ite_target (fun _ => ite_target (fun _ => ramCell_bounds hs _ _) (ite_target (fun _ => trivial) trivial)) trivial
  · exact ite_target (fun _ => ramCell_bounds hs _ _) trivial
  · exact ite_target (fun _ => trivial) (ite_target (fun _ => ramCell_bounds hs _ _) trivial)

/-- The cartridge RAM is inside its size, and the cartridge is shaped as a load leaves it. -/
abbrev Cart.Bounds (c : Cart) : Prop := Store.below c.ramSize c.ram = true ∧ c.Shaped

theorem control_bounds {c : Cart} (a : Nat) (v : Byte) (h : c.Bounds) : (c.control a v).Bounds := by
  unfold Cart.control
  split <;> (repeat' split) <;> exact h

theorem writeRam_bounds {c : Cart} (b : Bool) (off : Nat) (v : Byte) (h : c.Bounds) : (c.writeRam b off v).Bounds := by
  have ht := ramTarget_bounds h.2 b off
  unfold Cart.writeRam
  split
  · rename_i i e
    rw [e] at ht
    exact ⟨write_below _ _ ht h.1, h.2⟩
  · rename_i i e
    rw [e] at ht
    exact ⟨write_below _ _ ht h.1, h.2⟩
  all_goals exact h

theorem rtcAdvance_bounds {c : Cart} (n : Nat) (h : c.Bounds) : (c.rtcAdvance n).Bounds := by
  unfold Cart.rtcAdvance
  split <;> exact h

/-! ### Bus writes -/

theorem writeIo_bounds {s : State} {r : IoReg} (v : Byte) (hr : (Region.io r).InBounds) (h : s.MemBounds) :
    (s.writeIo r v).MemBounds := by
  cases r with
  | sc => simp only [State.writeIo, State.writeSc]; split <;> exact h
  | apu r => exact setApu_bounds h (writeReg_bounds v hr h.2.2)
  | nr52 => exact setApu_bounds h (writeNr52_bounds v h.2.2)
  | wave i => exact ⟨h.1, h.2.1, h.2.2.1, write_below _ _ hr h.2.2.2⟩
  | lcdc => exact writeLcdc_bounds v h
  | ly => exact writeLy_bounds h
  | lyc => exact writeLyc_bounds v h
  | dma => exact oamDma_bounds v h
  | hdma5 => exact writeHdma5_bounds v h
  | bcpd =>
    obtain ⟨h1, ⟨hv, ho, hb, hp, hf⟩, h3⟩ := h
    refine ⟨h1, ⟨hv, ho, ?_, hp, hf⟩, h3⟩
    simp only [State.writeIo, setPpu_ppu, Ppu.writeBcpd]
    split
    · exact hb
    · exact write_below _ _ (Nat.mod_lt _ (by decide)) hb
  | ocpd =>
    obtain ⟨h1, ⟨hv, ho, hb, hp, hf⟩, h3⟩ := h
    refine ⟨h1, ⟨hv, ho, hb, ?_, hf⟩, h3⟩
    simp only [State.writeIo, setPpu_ppu, Ppu.writeOcpd]
    split
    · exact hp
    · exact write_below _ _ (Nat.mod_lt _ (by decide)) hp
  | _ => exact h

/-- The bounds of every memory, with the shape of the cartridge they depend on. -/
abbrev State.BoundInv (s : State) : Prop := s.MemBounds ∧ s.cart.Shaped

theorem storeAt_bounds {s : State} {r : Region} (v : Byte) (hr : r.InBounds) (h : s.BoundInv) : (s.storeAt r v).BoundInv := by
  obtain ⟨⟨⟨hw, hh, hram⟩, ⟨hv, ho, hb, hp, hf⟩, h3⟩, hs⟩ := id h
  cases r with
  | io r => exact ⟨writeIo_bounds v hr h.1, by show (s.writeIo r v).cart.Shaped; rw [writeIo_cart]; exact hs⟩
  | rom a =>
    have hc := control_bounds a v ⟨hram, hs⟩
    exact ⟨⟨⟨hw, hh, hc.1⟩, h.1.2⟩, hc.2⟩
  | vram off =>
    simp only [State.storeAt]
    split
    · exact h
    · refine ⟨⟨h.1.1, ⟨write_below _ _ ?_ hv, ho, hb, hp, hf⟩, h3⟩, hs⟩
      have h1 := vramBank_le s
      have h2 : off < 0x2000 := hr
      omega
  | cartRam off =>
    have hc := writeRam_bounds s.params.ramPermissive off v ⟨hram, hs⟩
    exact ⟨⟨⟨hw, hh, hc.1⟩, h.1.2⟩, hc.2⟩
  | wramLow off =>
    have h2 : off < 0x1000 := hr
    exact ⟨⟨⟨write_below _ _ (by omega) hw, hh, hram⟩, h.1.2⟩, hs⟩
  | wramHigh off =>
    have h1 := wramBank_le s
    have h2 : off < 0x1000 := hr
    exact ⟨⟨⟨write_below _ _ (by omega) hw, hh, hram⟩, h.1.2⟩, hs⟩
  | oam i =>
    simp only [State.storeAt]
    split
    · exact h
    · exact ⟨⟨h.1.1, ⟨hv, write_below _ _ hr ho, hb, hp, hf⟩, h3⟩, hs⟩
  | hram i => exact ⟨⟨⟨hw, write_below _ _ hr hh, hram⟩, h.1.2⟩, hs⟩
  | ie => exact h
  | unmapped => exact h

/-- A bus write stays inside every memory. -/
theorem busWrite_bounds {s : State} (a : Word) (v : Byte) (h : s.BoundInv) : (s.busWrite a v).BoundInv := by
  unfold State.busWrite
  split
  · split
    · exact h
    · exact storeAt_bounds (s := s.draw 1) v (regionOf_bounds _ a) h
  · exact storeAt_bounds v (regionOf_bounds _ a) h

/-! ### Tick -/

theorem untimedRequests_bounds {s : State} (h : s.MemBounds) : s.untimedRequests.MemBounds := by
  unfold State.untimedRequests
  dsimp only
  split <;> exact h

theorem tickApu_bounds (n : Nat) {s : State} (h : s.MemBounds) : (s.tickApu n).MemBounds :=
  setApu_bounds h (run_bounds n _ h.2.2)

theorem endTick_bounds {s : State} (n : Nat) (h : s.MemBounds) : ({ s with cycles := n, charge := 0 } : State).MemBounds := h

theorem tickSerial_bounds (c : Nat) {s : State} (h : s.MemBounds) : (s.tickSerial c).MemBounds := h

theorem tickTimer_bounds (c : Nat) {s : State} (h : s.MemBounds) : (s.tickTimer c).MemBounds := h

/-- `Tick` stays inside every memory. -/
theorem tick_bounds {s : State} (h : s.MemBounds) : s.tick.MemBounds := by
  unfold State.tick
  split
  · exact endTick_bounds _ (tickSerial_bounds _ (tickTimer_bounds _ (tickApu_bounds _ (tickPpu_bounds _ 0 s h))))
  · exact endTick_bounds _ (untimedRequests_bounds
      (draw_bounds 1 (tickApu_bounds _ (ppuRun_bounds _ _ (draw_bounds 1 h)))))

end Sys2Proof.Machine
end

