-- ==== Sys2Proof/Laws/MemWf.lean ====
section
/-! SUPPORT. Every memory operation keeps the canonical form of every memory: the DMA engines, the PPU, the APU, a bus write,
`Tick`, and the state at reset. -/

namespace Sys2Proof.Machine

/-- The canonical form of the PPU's memories. -/
abbrev Ppu.MemWf (p : Ppu) : Prop :=
  Store.wf p.vram = true ∧ Store.wf p.oam = true ∧ Store.wf p.bgPal = true ∧ Store.wf p.objPal = true ∧
  Store.wf p.frame = true

/-- The canonical form of the APU's memories. -/
abbrev Apu.MemWf (a : Apu) : Prop := Store.wf a.nr = true ∧ Store.wf a.wave = true

theorem reset_memWf : State.reset.MemWf := by decide

/-- Replacing the PPU needs only the canonical form of the new one. -/
theorem setPpu_memWf {s : State} {p : Ppu} (h : s.MemWf) (hp : p.MemWf) : (s.setPpu p).MemWf := ⟨h.1, hp, h.2.2⟩

/-- Replacing the APU needs only the canonical form of the new one. -/
theorem setApu_memWf {s : State} {a : Apu} (h : s.MemWf) (ha : a.MemWf) : ({ s with apu := a } : State).MemWf :=
  ⟨h.1, h.2.1, ha⟩

theorem draw_memWf {s : State} (n : Nat) (h : s.MemWf) : (s.draw n).MemWf := h

theorem setCpu_memWf {s : State} (p : Cpu) (h : s.MemWf) : (s.setCpu p).MemWf := h

theorem addCharge_memWf {s : State} (n : Nat) (h : s.MemWf) : (s.addCharge n).MemWf := h

theorem requestIf_memWf {s : State} (b : Bool) (i : Nat) (h : s.MemWf) : (s.requestIf b i).MemWf := h

/-! ### DMA -/

theorem oamDmaByte_memWf {s : State} (v : Byte) (i : Nat) (h : s.MemWf) : (s.oamDmaByte v i).MemWf :=
  draw_memWf _ (setPpu_memWf h ⟨h.2.1.1, write_wf _ _ _ h.2.1.2.1, h.2.1.2.2⟩)

theorem oamDmaCopy_memWf (v : Byte) (n i : Nat) (s : State) (h : s.MemWf) : (State.oamDmaCopy v n i s).MemWf := by
  induction n generalizing s i with
  | zero => exact h
  | succ k ih => exact ih _ _ (oamDmaByte_memWf v i h)

theorem openWindow_memWf {s : State} (n : Nat) (h : s.MemWf) : ({ s.chargeDraw with dmaUntil := n } : State).MemWf := h

theorem oamDma_memWf {s : State} (v : Byte) (h : s.MemWf) : (s.oamDma v).MemWf :=
  openWindow_memWf (s.cycles + 640) (oamDmaCopy_memWf v 160 0 _ (setPpu_memWf (p := { s.ppu with dma := v }) h h.2.1))

theorem vramDmaByte_memWf {s : State} (h : s.MemWf) : s.vramDmaByte.MemWf :=
  draw_memWf _ (setPpu_memWf h ⟨write_wf _ _ _ h.2.1.1, h.2.1.2⟩)

theorem vramDmaCopy_memWf (n : Nat) (s : State) (h : s.MemWf) : (State.vramDmaCopy n s).MemWf := by
  induction n generalizing s with
  | zero => exact h
  | succ k ih => exact ih _ (vramDmaByte_memWf h)

theorem vramDmaBlocks_memWf (n : Nat) {s : State} (h : s.MemWf) : (State.vramDmaBlocks n s).MemWf := by
  unfold State.vramDmaBlocks
  exact vramDmaCopy_memWf (16 * n) s h

theorem endBlock_memWf {s : State} (left : Nat) (active : Bool) (h : s.MemWf) :
    (s.setPpu { s.ppu with hdmaLeft := left, hdmaActive := active }).chargeDraw.MemWf := h

theorem endGeneral_memWf {s : State} (h : s.MemWf) : (s.setPpu { s.ppu with hdmaLeft := 0 }).chargeDraw.MemWf := h

theorem hblankDma_memWf {s : State} (h : s.MemWf) : s.hblankDma.MemWf := by
  unfold State.hblankDma
  split
  · exact endBlock_memWf _ _ (vramDmaBlocks_memWf 1 h)
  · exact h

theorem generalDma_memWf (n : Nat) {s : State} (h : s.MemWf) : (s.generalDma n).MemWf :=
  endGeneral_memWf (vramDmaBlocks_memWf n h)

theorem writeHdma5_memWf (v : Byte) {s : State} (h : s.MemWf) : (s.writeHdma5 v).MemWf := by
  unfold State.writeHdma5
  split
  · exact h
  · split
    · exact h
    · exact generalDma_memWf _ h

/-! ### The PPU -/

theorem compareLy_memWf {s : State} (h : s.MemWf) : s.compareLy.MemWf := h

theorem lineStart_memWf {s : State} (h : s.MemWf) : s.lineStart.MemWf := h

theorem restartFrame_memWf {s : State} (h : s.MemWf) : s.restartFrame.MemWf :=
  compareLy_memWf (lineStart_memWf (setPpu_memWf (p := { s.ppu with line := 0, lineCycle := 0 }) h h.2.1))

theorem writeLcdc_memWf {s : State} (v : Byte) (h : s.MemWf) : (s.writeLcdc v).MemWf := by
  have h1 : (s.setPpu { s.ppu with lcdc := v }).MemWf := h
  unfold State.writeLcdc
  dsimp only
  split
  · exact h
  · split
    · exact restartFrame_memWf h1
    · exact h1

theorem writeLy_memWf {s : State} (h : s.MemWf) : s.writeLy.MemWf := by
  unfold State.writeLy
  split
  · exact restartFrame_memWf h
  · exact h

theorem writeLyc_memWf {s : State} (v : Byte) (h : s.MemWf) : (s.writeLyc v).MemWf := by
  have h1 : (s.setPpu { s.ppu with lyc := v }).MemWf := h
  unfold State.writeLyc
  dsimp only
  split
  · exact compareLy_memWf h1
  · exact h1

theorem ppuEvents_memWf {s : State} (h : s.MemWf) : s.ppuEvents.MemWf := by
  unfold State.ppuEvents
  split
  · split
    · exact h
    · split
      · exact h
      · split
        · exact hblankDma_memWf (s := (s.setPpu s.ppu.endTransfer).requestIf (s.ppu.stat.getLsbD 3) 1) h
        · exact h
  · split
    · exact h
    · split <;> exact h

theorem ppuAdvance_memWf {s : State} (h : s.MemWf) : s.ppuAdvance.MemWf := by
  unfold State.ppuAdvance
  split <;> exact h

theorem ppuPixel_memWf {s : State} (h : s.MemWf) : s.ppuPixel.MemWf := by
  unfold State.ppuPixel
  split
  · obtain ⟨h1, ⟨hv, ho, hb, hp, hf⟩, h3⟩ := h
    exact ⟨h1, ⟨hv, ho, hb, hp, write_wf _ _ _ hf⟩, h3⟩
  · exact h

theorem ppuCycle_memWf {s : State} (h : s.MemWf) : s.ppuCycle.MemWf := by
  unfold State.ppuCycle
  split
  · exact ppuPixel_memWf (ppuEvents_memWf (ppuAdvance_memWf h))
  · exact h

theorem ppuRun_memWf (n : Nat) (s : State) (h : s.MemWf) : (State.ppuRun n s).MemWf := by
  induction n generalizing s with
  | zero => exact h
  | succ k ih => exact ih _ (ppuCycle_memWf h)

theorem tickPpu_memWf (fuel given : Nat) (s : State) (h : s.MemWf) : (State.tickPpu fuel given s).MemWf := by
  induction fuel generalizing given s with
  | zero => exact h
  | succ k ih =>
    simp only [State.tickPpu]
    split
    · exact h
    · exact ih _ _ (ppuRun_memWf _ s h)

/-! ### The APU -/

theorem setReg_apuWf {a : Apu} (r : Nat) (v : Byte) (h : a.MemWf) : (a.setReg r v).MemWf := ⟨write_wf _ _ _ h.1, h.2⟩

theorem setChan_apuWf {a : Apu} (n : ChanId) (c : Chan) (h : a.MemWf) : (a.setChan n c).MemWf := by cases n <;> exact h

theorem advance_apuWf {a : Apu} (n : ChanId) (h : a.MemWf) : (a.advance n).MemWf := by
  cases n
  case four => simp only [Apu.advance]; split <;> exact h
  all_goals exact h

theorem tickChan_apuWf {a : Apu} (n : ChanId) (h : a.MemWf) : (a.tickChan n).MemWf := by
  unfold Apu.tickChan
  split
  · exact advance_apuWf n (setChan_apuWf n _ h)
  · exact setChan_apuWf n _ h

theorem clockLength_apuWf {a : Apu} (n : ChanId) (h : a.MemWf) : (a.clockLength n).MemWf := by
  unfold Apu.clockLength
  dsimp only
  split
  · exact setChan_apuWf n _ h
  · exact h

theorem clockLengths_apuWf {a : Apu} (h : a.MemWf) : a.clockLengths.MemWf :=
  clockLength_apuWf _ (clockLength_apuWf _ (clockLength_apuWf _ (clockLength_apuWf _ h)))

theorem sweepCheck_apuWf {a : Apu} (h : a.MemWf) : a.sweepCheck.MemWf := by
  unfold Apu.sweepCheck
  split
  · exact setChan_apuWf .one _ h
  · exact h

theorem sweepStore_apuWf {a : Apu} (f : Nat) (h : a.MemWf) : (a.sweepStore f).MemWf :=
  setReg_apuWf _ _ (setReg_apuWf (a := { a with shadow := f }) _ _ h)

theorem clockSweep_apuWf {a : Apu} (h : a.MemWf) : a.clockSweep.MemWf := by
  have h1 : ({ a with sweepTimer := a.sweepReload } : Apu).MemWf := h
  unfold Apu.clockSweep
  generalize ({ a with sweepTimer := a.sweepReload } : Apu) = b at h1
  generalize (if 0 < a.sweepTimer then a.sweepTimer - 1 else a.sweepTimer) = t
  dsimp only
  split
  · split
    · split
      · exact sweepCheck_apuWf (sweepStore_apuWf _ (sweepCheck_apuWf h1))
      · exact sweepCheck_apuWf h1
    · exact h1
  · exact h

theorem sequencerStep_apuWf {a : Apu} (n : Nat) (h : a.MemWf) : (a.sequencerStep n).MemWf := by
  unfold Apu.sequencerStep
  dsimp only
  have h1 : (if n % 2 = 0 then a.clockLengths else a).MemWf := by
    split
    · exact clockLengths_apuWf h
    · exact h
  generalize (if n % 2 = 0 then a.clockLengths else a) = b at h1
  have h2 : (if n = 2 ∨ n = 6 then b.clockSweep else b).MemWf := by
    split
    · exact clockSweep_apuWf h1
    · exact h1
  generalize (if n = 2 ∨ n = 6 then b.clockSweep else b) = c at h2
  split
  · exact h2
  · exact h2

theorem tickSequencer_apuWf {a : Apu} (h : a.MemWf) : a.tickSequencer.MemWf := by
  unfold Apu.tickSequencer
  split
  · exact h
  · exact sequencerStep_apuWf (a := { a with fsCount := 0 }) _ h

theorem cycle_apuWf {a : Apu} (h : a.MemWf) : a.cycle.MemWf := by
  unfold Apu.cycle
  split
  · exact tickChan_apuWf _ (tickChan_apuWf _ (tickChan_apuWf _ (tickChan_apuWf _ (tickSequencer_apuWf h))))
  · exact h

theorem run_apuWf (n : Nat) (a : Apu) (h : a.MemWf) : (Apu.run n a).MemWf := by
  induction n generalizing a with
  | zero => exact h
  | succ k ih => exact ih _ (cycle_apuWf h)

theorem triggerOwn_apuWf {a : Apu} (n : ChanId) (h : a.MemWf) : (a.triggerOwn n).MemWf := by
  cases n
  case one =>
    simp only [Apu.triggerOwn]
    split
    · exact sweepCheck_apuWf h
    · exact h
  all_goals exact h

theorem trigger_apuWf {a : Apu} (n : ChanId) (h : a.MemWf) : (a.trigger n).MemWf :=
  triggerOwn_apuWf n (setChan_apuWf n _ h)

theorem writeReg_apuWf {a : Apu} (r : Nat) (v : Byte) (h : a.MemWf) : (a.writeReg r v).MemWf := by
  have hd : ∀ n, ((a.setReg r v).dacGate n).MemWf := fun n => by
    unfold Apu.dacGate
    split
    · exact setReg_apuWf r v h
    · exact setChan_apuWf n _ (setReg_apuWf r v h)
  have ht : ∀ n, ((a.setReg r v).triggerBit n v).MemWf := fun n => by
    unfold Apu.triggerBit
    split
    · exact trigger_apuWf n (setReg_apuWf r v h)
    · exact setReg_apuWf r v h
  have hl : ∀ n, ((a.setReg r v).loadLength n v).MemWf := fun n => setChan_apuWf n _ (setReg_apuWf r v h)
  unfold Apu.writeReg
  split
  · dsimp only
    split
    all_goals first | exact hl _ | exact hd _ | exact ht _ | exact setReg_apuWf r v h
  · exact h

theorem writeNr52_apuWf {a : Apu} (v : Byte) (h : a.MemWf) : (a.writeNr52 v).MemWf := by
  unfold Apu.writeNr52
  split
  · split <;> exact h
  · split
    · exact ⟨rfl, h.2⟩
    · exact h

/-! ### The cartridge -/

theorem control_cartWf (c : Cart) (a : Nat) (v : Byte) : (c.control a v).rom = c.rom ∧ (c.control a v).ram = c.ram := by
  unfold Cart.control
  split <;> (repeat' split) <;> exact ⟨rfl, rfl⟩

theorem writeRam_rom (c : Cart) (b : Bool) (off : Nat) (v : Byte) : (c.writeRam b off v).rom = c.rom := by
  unfold Cart.writeRam
  split <;> rfl

theorem writeRam_wf (c : Cart) (b : Bool) (off : Nat) (v : Byte) (h : Store.wf c.ram = true) :
    Store.wf (c.writeRam b off v).ram = true := by
  unfold Cart.writeRam
  split
  · exact write_wf _ _ _ h
  · exact write_wf _ _ _ h
  all_goals exact h

/-! ### Bus writes -/

theorem writeIo_memWf {s : State} (r : IoReg) (v : Byte) (h : s.MemWf) : (s.writeIo r v).MemWf := by
  cases r with
  | sc => simp only [State.writeIo, State.writeSc]; split <;> exact h
  | apu r => exact setApu_memWf h (writeReg_apuWf r v h.2.2)
  | nr52 => exact setApu_memWf h (writeNr52_apuWf v h.2.2)
  | wave i => exact ⟨h.1, h.2.1, h.2.2.1, write_wf _ _ _ h.2.2.2⟩
  | lcdc => exact writeLcdc_memWf v h
  | ly => exact writeLy_memWf h
  | lyc => exact writeLyc_memWf v h
  | dma => exact oamDma_memWf v h
  | hdma5 => exact writeHdma5_memWf v h
  | bcpd =>
    obtain ⟨h1, ⟨hv, ho, hb, hp, hf⟩, h3⟩ := h
    refine ⟨h1, ⟨hv, ho, ?_, hp, hf⟩, h3⟩
    simp only [State.writeIo, setPpu_ppu, Ppu.writeBcpd]
    split
    · exact hb
    · exact write_wf _ _ _ hb
  | ocpd =>
    obtain ⟨h1, ⟨hv, ho, hb, hp, hf⟩, h3⟩ := h
    refine ⟨h1, ⟨hv, ho, hb, ?_, hf⟩, h3⟩
    simp only [State.writeIo, setPpu_ppu, Ppu.writeOcpd]
    split
    · exact hp
    · exact write_wf _ _ _ hp
  | _ => exact h

theorem storeAt_memWf {s : State} (r : Region) (v : Byte) (h : s.MemWf) : (s.storeAt r v).MemWf := by
  obtain ⟨⟨hrom, hram, hboot, hw, hh⟩, ⟨hv, ho, hb, hp, hf⟩, h3⟩ := id h
  cases r with
  | io r => exact writeIo_memWf r v h
  | rom a =>
    obtain ⟨e1, e2⟩ := control_cartWf s.cart a v
    exact ⟨⟨by simpa only [State.storeAt, e1] using hrom, by simpa only [State.storeAt, e2] using hram, hboot, hw, hh⟩, h.2⟩
  | vram off =>
    simp only [State.storeAt]
    split
    · exact h
    · exact ⟨h.1, ⟨write_wf _ _ _ hv, ho, hb, hp, hf⟩, h3⟩
  | cartRam off =>
    exact ⟨⟨by simpa only [State.storeAt, writeRam_rom] using hrom, writeRam_wf _ _ _ _ hram, hboot, hw, hh⟩, h.2⟩
  | wramLow off => exact ⟨⟨hrom, hram, hboot, write_wf _ _ _ hw, hh⟩, h.2⟩
  | wramHigh off => exact ⟨⟨hrom, hram, hboot, write_wf _ _ _ hw, hh⟩, h.2⟩
  | oam i =>
    simp only [State.storeAt]
    split
    · exact h
    · exact ⟨h.1, ⟨hv, write_wf _ _ _ ho, hb, hp, hf⟩, h3⟩
  | hram i => exact ⟨⟨hrom, hram, hboot, hw, write_wf _ _ _ hh⟩, h.2⟩
  | ie => exact h
  | unmapped => exact h

/-- A bus write keeps every memory canonical. -/
theorem busWrite_memWf {s : State} (a : Word) (v : Byte) (h : s.MemWf) : (s.busWrite a v).MemWf := by
  unfold State.busWrite
  split
  · split
    · exact h
    · exact storeAt_memWf (s := s.draw 1) _ v h
  · exact storeAt_memWf _ v h

theorem push16_memWf {s : State} (v : Word) (h : s.MemWf) : (s.push16 v).MemWf := by
  have hp : ∀ (u : State) (b : Byte), u.MemWf → (u.pushByte b).MemWf := fun u b hu =>
    busWrite_memWf _ _ (setCpu_memWf _ hu)
  exact hp _ _ (hp _ _ h)

/-! ### Tick -/

theorem untimedRequests_memWf {s : State} (h : s.MemWf) : s.untimedRequests.MemWf := by
  unfold State.untimedRequests
  dsimp only
  split <;> exact h

theorem tickApu_memWf (n : Nat) {s : State} (h : s.MemWf) : (s.tickApu n).MemWf := setApu_memWf h (run_apuWf n _ h.2.2)

theorem endTick_memWf {s : State} (n : Nat) (h : s.MemWf) : ({ s with cycles := n, charge := 0 } : State).MemWf := h

theorem tickSerial_memWf (c : Nat) {s : State} (h : s.MemWf) : (s.tickSerial c).MemWf := h

theorem tickTimer_memWf (c : Nat) {s : State} (h : s.MemWf) : (s.tickTimer c).MemWf := h

/-- `Tick` keeps every memory canonical. -/
theorem tick_memWf {s : State} (h : s.MemWf) : s.tick.MemWf := by
  unfold State.tick
  split
  · exact endTick_memWf _ (tickSerial_memWf _ (tickTimer_memWf _ (tickApu_memWf _ (tickPpu_memWf _ 0 s h))))
  · exact endTick_memWf _ (untimedRequests_memWf
      (draw_memWf 1 (tickApu_memWf _ (ppuRun_memWf _ _ (draw_memWf 1 h)))))

/-- Placing a byte keeps every memory canonical. -/
theorem poke_memWf {s : State} (a : Word) (v : Byte) (h : s.MemWf) : (s.poke a v).MemWf := by
  obtain ⟨⟨hrom, hram, hboot, hw, hh⟩, ⟨hv, ho, hb, hp, hf⟩, h3⟩ := id h
  unfold State.poke
  split
  · split
    · exact ⟨⟨hrom, hram, write_wf _ _ _ hboot, hw, hh⟩, h.2⟩
    · exact ⟨⟨write_wf _ _ _ hrom, hram, hboot, hw, hh⟩, h.2⟩
  · exact ⟨h.1, ⟨write_wf _ _ _ hv, ho, hb, hp, hf⟩, h3⟩
  · refine ⟨⟨?_, ?_, hboot, hw, hh⟩, h.2⟩
    · unfold Cart.pokeRam; dsimp only; split <;> exact hrom
    · unfold Cart.pokeRam
      dsimp only
      split
      · exact write_wf _ _ _ hram
      all_goals exact hram
  · exact ⟨⟨hrom, hram, hboot, write_wf _ _ _ hw, hh⟩, h.2⟩
  · exact ⟨⟨hrom, hram, hboot, write_wf _ _ _ hw, hh⟩, h.2⟩
  · exact ⟨h.1, ⟨hv, write_wf _ _ _ ho, hb, hp, hf⟩, h3⟩
  · exact ⟨⟨hrom, hram, hboot, hw, write_wf _ _ _ hh⟩, h.2⟩
  all_goals exact h

end Sys2Proof.Machine
end

