-- ==== Sys2Proof/Laws/PerInstr.lean ====
section
/-! SUPPORT. Claims about every instruction as syntax, one lemma per constructor. -/

namespace Sys2Proof.Laws.EncodedLength

/-- The encoding of a well-formed instruction has the length its first byte calls for (30 rules R300, R346); the row PREFIX is the
first byte of a longer instruction (46 rule R712). -/
def Statement (i : Instr) : Prop :=
  i.wf = true → i ≠ .cbPrefix → (encode i).length = 1 + operandBytes ((encode i).headD 0)

theorem ldRR (dst : Reg8) (src : Reg8) : Statement (.ldRR dst src) := fun _ _ => by cases dst <;> cases src <;> rfl

theorem ldRN (dst : Reg8) (n : Byte) : Statement (.ldRN dst n) := fun _ _ => by cases dst <;> rfl

theorem ldRHl (dst : Reg8) : Statement (.ldRHl dst) := fun _ _ => by cases dst <;> rfl

theorem ldHlR (src : Reg8) : Statement (.ldHlR src) := fun _ _ => by cases src <;> rfl

theorem ldHlN (n : Byte) : Statement (.ldHlN n) := fun _ _ => rfl

theorem ldABc : Statement .ldABc := fun _ _ => rfl

theorem ldADe : Statement .ldADe := fun _ _ => rfl

theorem ldBcA : Statement .ldBcA := fun _ _ => rfl

theorem ldDeA : Statement .ldDeA := fun _ _ => rfl

theorem ldANn (a : Word) : Statement (.ldANn a) := fun _ _ => rfl

theorem ldNnA (a : Word) : Statement (.ldNnA a) := fun _ _ => rfl

theorem ldhAC : Statement .ldhAC := fun _ _ => rfl

theorem ldhCA : Statement .ldhCA := fun _ _ => rfl

theorem ldhAN (n : Byte) : Statement (.ldhAN n) := fun _ _ => rfl

theorem ldhNA (n : Byte) : Statement (.ldhNA n) := fun _ _ => rfl

theorem ldAHld : Statement .ldAHld := fun _ _ => rfl

theorem ldHldA : Statement .ldHldA := fun _ _ => rfl

theorem ldAHli : Statement .ldAHli := fun _ _ => rfl

theorem ldHliA : Statement .ldHliA := fun _ _ => rfl

theorem ldRrNn (rr : Reg16) (v : Word) : Statement (.ldRrNn rr v) := fun _ _ => by cases rr <;> rfl

theorem ldNnSp (a : Word) : Statement (.ldNnSp a) := fun _ _ => rfl

theorem ldSpHl : Statement .ldSpHl := fun _ _ => rfl

theorem ldHlSpE (e : Byte) : Statement (.ldHlSpE e) := fun _ _ => rfl

theorem push (q : StkReg) : Statement (.push q) := fun _ _ => by cases q <;> rfl

theorem pop (q : StkReg) : Statement (.pop q) := by
  intro h _
  cases q
  · rfl
  · rfl
  · rfl
  · exact absurd h (by decide)

theorem popAf : Statement .popAf := fun _ _ => rfl

theorem addR (src : Reg8) : Statement (.addR src) := fun _ _ => by cases src <;> rfl

theorem addHl : Statement .addHl := fun _ _ => rfl

theorem addN (n : Byte) : Statement (.addN n) := fun _ _ => rfl

theorem adcR (src : Reg8) : Statement (.adcR src) := fun _ _ => by cases src <;> rfl

theorem adcHl : Statement .adcHl := fun _ _ => rfl

theorem adcN (n : Byte) : Statement (.adcN n) := fun _ _ => rfl

theorem subR (src : Reg8) : Statement (.subR src) := fun _ _ => by cases src <;> rfl

theorem subHl : Statement .subHl := fun _ _ => rfl

theorem subN (n : Byte) : Statement (.subN n) := fun _ _ => rfl

theorem sbcR (src : Reg8) : Statement (.sbcR src) := fun _ _ => by cases src <;> rfl

theorem sbcHl : Statement .sbcHl := fun _ _ => rfl

theorem sbcN (n : Byte) : Statement (.sbcN n) := fun _ _ => rfl

theorem andR (src : Reg8) : Statement (.andR src) := fun _ _ => by cases src <;> rfl

theorem andHl : Statement .andHl := fun _ _ => rfl

theorem andN (n : Byte) : Statement (.andN n) := fun _ _ => rfl

theorem xorR (src : Reg8) : Statement (.xorR src) := fun _ _ => by cases src <;> rfl

theorem xorHl : Statement .xorHl := fun _ _ => rfl

theorem xorN (n : Byte) : Statement (.xorN n) := fun _ _ => rfl

theorem orR (src : Reg8) : Statement (.orR src) := fun _ _ => by cases src <;> rfl

theorem orHl : Statement .orHl := fun _ _ => rfl

theorem orN (n : Byte) : Statement (.orN n) := fun _ _ => rfl

theorem cpR (src : Reg8) : Statement (.cpR src) := fun _ _ => by cases src <;> rfl

theorem cpHl : Statement .cpHl := fun _ _ => rfl

theorem cpN (n : Byte) : Statement (.cpN n) := fun _ _ => rfl

theorem incR (dst : Reg8) : Statement (.incR dst) := fun _ _ => by cases dst <;> rfl

theorem incHl : Statement .incHl := fun _ _ => rfl

theorem decR (dst : Reg8) : Statement (.decR dst) := fun _ _ => by cases dst <;> rfl

theorem decHl : Statement .decHl := fun _ _ => rfl

theorem daa : Statement .daa := fun _ _ => rfl

theorem cpl : Statement .cpl := fun _ _ => rfl

theorem scf : Statement .scf := fun _ _ => rfl

theorem ccf : Statement .ccf := fun _ _ => rfl

theorem addHlRr (rr : Reg16) : Statement (.addHlRr rr) := fun _ _ => by cases rr <;> rfl

theorem incRr (rr : Reg16) : Statement (.incRr rr) := fun _ _ => by cases rr <;> rfl

theorem decRr (rr : Reg16) : Statement (.decRr rr) := fun _ _ => by cases rr <;> rfl

theorem addSpE (e : Byte) : Statement (.addSpE e) := fun _ _ => rfl

theorem rlca : Statement .rlca := fun _ _ => rfl

theorem rrca : Statement .rrca := fun _ _ => rfl

theorem rla : Statement .rla := fun _ _ => rfl

theorem rra : Statement .rra := fun _ _ => rfl

theorem rlcR (r : Reg8) : Statement (.rlcR r) := fun _ _ => rfl

theorem rlcHl : Statement .rlcHl := fun _ _ => rfl

theorem rrcR (r : Reg8) : Statement (.rrcR r) := fun _ _ => rfl

theorem rrcHl : Statement .rrcHl := fun _ _ => rfl

theorem rlR (r : Reg8) : Statement (.rlR r) := fun _ _ => rfl

theorem rlHl : Statement .rlHl := fun _ _ => rfl

theorem rrR (r : Reg8) : Statement (.rrR r) := fun _ _ => rfl

theorem rrHl : Statement .rrHl := fun _ _ => rfl

theorem slaR (r : Reg8) : Statement (.slaR r) := fun _ _ => rfl

theorem slaHl : Statement .slaHl := fun _ _ => rfl

theorem sraR (r : Reg8) : Statement (.sraR r) := fun _ _ => rfl

theorem sraHl : Statement .sraHl := fun _ _ => rfl

theorem swapR (r : Reg8) : Statement (.swapR r) := fun _ _ => rfl

theorem swapHl : Statement .swapHl := fun _ _ => rfl

theorem srlR (r : Reg8) : Statement (.srlR r) := fun _ _ => rfl

theorem srlHl : Statement .srlHl := fun _ _ => rfl

theorem bitR (n : BitVec 3) (r : Reg8) : Statement (.bitR n r) := fun _ _ => rfl

theorem bitHl (n : BitVec 3) : Statement (.bitHl n) := fun _ _ => rfl

theorem resR (n : BitVec 3) (r : Reg8) : Statement (.resR n r) := fun _ _ => rfl

theorem resHl (n : BitVec 3) : Statement (.resHl n) := fun _ _ => rfl

theorem setR (n : BitVec 3) (r : Reg8) : Statement (.setR n r) := fun _ _ => rfl

theorem setHl (n : BitVec 3) : Statement (.setHl n) := fun _ _ => rfl

theorem jpNn (a : Word) : Statement (.jpNn a) := fun _ _ => rfl

theorem jpCc (cc : Cond) (a : Word) : Statement (.jpCc cc a) := fun _ _ => by cases cc <;> rfl

theorem jpHl : Statement .jpHl := fun _ _ => rfl

theorem jrE (e : Byte) : Statement (.jrE e) := fun _ _ => rfl

theorem jrCc (cc : Cond) (e : Byte) : Statement (.jrCc cc e) := fun _ _ => by cases cc <;> rfl

theorem callNn (a : Word) : Statement (.callNn a) := fun _ _ => rfl

theorem callCc (cc : Cond) (a : Word) : Statement (.callCc cc a) := fun _ _ => by cases cc <;> rfl

theorem ret : Statement .ret := fun _ _ => rfl

theorem retCc (cc : Cond) : Statement (.retCc cc) := fun _ _ => by cases cc <;> rfl

theorem reti : Statement .reti := fun _ _ => rfl

theorem rst (t : BitVec 3) : Statement (.rst t) := fun _ _ => by revert t; decide

theorem nop : Statement .nop := fun _ _ => rfl

theorem halt : Statement .halt := fun _ _ => rfl

theorem stop : Statement .stop := fun _ _ => rfl

theorem di : Statement .di := fun _ _ => rfl

theorem ei : Statement .ei := fun _ _ => rfl

theorem illegal (op : Byte) : Statement (.illegal op) := by
  intro h
  revert op
  decide

theorem cbPrefix : Statement .cbPrefix := fun _ h => absurd rfl h

end Sys2Proof.Laws.EncodedLength
end

