-- ==== Sys2Proof/Laws/Words.lean ====
section
/-! SUPPORT. The byte and word helpers as numbers, and what a register write gives. -/

namespace Sys2Proof.Machine

/-! ### Bytes and words -/

theorem append_toNat (h l : Byte) : (h ++ l : Word).toNat = h.toNat * 256 + l.toNat := by
  rw [BitVec.toNat_append, Nat.shiftLeft_eq, Nat.mul_comm, ← Nat.two_pow_add_eq_or_of_lt l.isLt]

theorem hiByte_toNat (v : Word) : (hiByte v).toNat = v.toNat / 256 := by
  have := v.isLt
  simp only [hiByte, BitVec.toNat_setWidth, BitVec.toNat_ushiftRight, Nat.shiftRight_eq_div_pow]
  omega

theorem loByte_toNat (v : Word) : (loByte v).toNat = v.toNat % 256 := by simp [loByte]

theorem hiByte_eq (v : Word) : hiByte v = BitVec.ofNat 8 (v.toNat / 256) := by
  apply BitVec.eq_of_toNat_eq
  rw [hiByte_toNat, BitVec.toNat_ofNat]
  have := v.isLt
  omega

theorem loByte_eq (v : Word) : loByte v = BitVec.ofNat 8 (v.toNat % 256) := by
  apply BitVec.eq_of_toNat_eq
  rw [loByte_toNat, BitVec.toNat_ofNat]
  omega

@[simp] theorem hiByte_append (h l : Byte) : hiByte (h ++ l : Word) = h := by
  apply BitVec.eq_of_toNat_eq
  rw [hiByte_toNat, append_toNat]
  have := l.isLt
  omega

@[simp] theorem loByte_append (h l : Byte) : loByte (h ++ l : Word) = l := by
  apply BitVec.eq_of_toNat_eq
  rw [loByte_toNat, append_toNat]
  have := l.isLt
  omega

/-- A word is its two bytes. -/
@[simp] theorem hiByte_loByte (v : Word) : (hiByte v ++ loByte v : Word) = v := by
  apply BitVec.eq_of_toNat_eq
  rw [append_toNat, hiByte_toNat, loByte_toNat]
  omega

theorem highPage_eq (n : Byte) : highPage n = BitVec.ofNat 16 (0xFF00 + n.toNat) := by
  apply BitVec.eq_of_toNat_eq
  have e : (highPage n).toNat = 0xFF * 256 + n.toNat := append_toNat 0xFF n
  rw [e, BitVec.toNat_ofNat]
  have := n.isLt
  omega

/-- An immediate word read back from its two bytes. -/
theorem imm16_of_bytes (v : Word) : imm16 (v.setWidth 8) ((v >>> 8).setWidth 8) = v := hiByte_loByte v

/-- A relative target on the integers. -/
theorem relative_toNat (pc : Word) (e : Byte) : ((relative pc e).toNat : Int) = ((pc.toNat : Int) + e.toInt) % 65536 := by
  have h : (e.signExtend 16).toInt = e.toInt := BitVec.toInt_signExtend_of_le (by decide)
  have hp := pc.isLt
  rw [← h]
  simp only [relative, BitVec.toNat_add]
  rw [BitVec.toInt_eq_toNat_bmod]
  generalize (e.signExtend 16).toNat = k
  simp only [Int.bmod]
  split <;> omega

/-! ### Registers -/

theorem sameControl_refl (p : Cpu) : SameControl p p := ⟨rfl, rfl, rfl, rfl, rfl⟩

/-- Writing a register gives that register and nothing else. -/
theorem gives_setReg (p : Cpu) (r : Reg8) (v : Byte) (f : Flags) : p.Gives { p.setReg r v with f := f } r v f := by
  refine ⟨fun x => ?_, rfl, ?_, ?_, ?_⟩
  · cases r <;> cases x <;> rfl
  all_goals cases r <;> first | rfl | exact sameControl_refl _

/-- Writing a pair or SP gives that pair and nothing else. -/
theorem givesPair_setPair (p : Cpu) (rr : Reg16) (v : Word) (f : Flags) :
    p.GivesPair { p.setPair rr v with f := f } rr v f := by
  refine ⟨fun x => ?_, ?_, rfl, ?_, ?_⟩
  · cases rr <;> cases x <;> simp [Cpu.pair, Cpu.setPair]
  all_goals cases rr <;> first | rfl | exact sameControl_refl _

theorem setReg_flags (p : Cpu) (r : Reg8) (v : Byte) : ({ p.setReg r v with f := p.f } : Cpu) = p.setReg r v := by
  cases r <;> rfl

theorem setPair_flags (p : Cpu) (rr : Reg16) (v : Word) : ({ p.setPair rr v with f := p.f } : Cpu) = p.setPair rr v := by
  cases rr <;> rfl

/-- The condition of a branch. -/
theorem holds_iff (f : Flags) (cc : Cond) : f.holds cc = true ↔ CondHolds cc f := by
  cases cc <;> simp [Flags.holds, CondHolds]

/-! ### Steps -/

/-- No source is both enabled and requested. -/
theorem pending_eq_zero (s : State) : s.pending = 0 ↔ ∀ j, j < 5 → s.requested j = false := by
  constructor
  · intro h j hj
    have e := congrArg (fun x => BitVec.getLsbD x j) h
    simpa [State.pending, State.requested, hj] using e
  · intro h
    apply BitVec.eq_of_getLsbD_eq
    intro j hj
    have e := h j hj
    simpa [State.pending, State.requested, hj] using e

theorem commitEi_eq (s : State) : ({ s.commitEi with charge := 0 } : State) = s.stepStart := by
  by_cases h : s.cpu.eiDelay = 1 <;> simp [State.commitEi, State.stepStart, State.setCpu, h]

/-- A step of a machine that is ready. -/
theorem step_ready {s : State} (h : s.Ready) : step s = s.stepStart.haltOrRun := by
  obtain ⟨hf, hi, hs⟩ := h
  simp only [step, State.stepMachine, hf, hi, State.cpuStep, hs, commitEi_eq, Bool.false_eq_true, if_false]

/-- Without a dispatch the step runs an instruction. -/
theorem dispatchOrRun_of (s : State) (h : s.cpu.ime = true → ∀ j, j < 5 → s.requested j = false) :
    s.dispatchOrRun = s.runInstruction := by
  unfold State.dispatchOrRun
  rw [if_neg]
  intro hc
  simp only [Bool.and_eq_true, decide_eq_true_eq] at hc
  exact hc.2 ((pending_eq_zero s).2 (h hc.1))

theorem tickResult_eq (r : Result) : tickResult r = Ticked r := by cases r <;> rfl

theorem operandBytes_le (op : Byte) : operandBytes op ≤ 2 := by
  unfold operandBytes
  split_ifs <;> decide

end Sys2Proof.Machine
end

