-- ==== Sys2Proof/Tests/Slice0.lean ====
section
/-! SUPPORT. Tests. First the ill-formed terms, then one word for each instruction's decoding, written from the encoding lines of the
spec, then single steps with results from the vectors of spec file 95 or worked out by hand from the rules, then a concrete state
that meets the hypotheses of each statement that has some. -/

namespace Sys2Proof.Tests

-- One theorem after the other: each `decide +kernel` would take a thread of its own.
set_option Elab.async false

open Sys2Proof Sys2Proof.Machine

/-! ### Well-formedness -/

/-- 0x00 is no undefined byte (30 rule R340), and AF is popped by an instruction of its own (41 rule R464). -/
theorem test_ill_formed_terms :
    (Instr.illegal 0x00).wf = false ∧ (Instr.illegal 0xCB).wf = false ∧ (Instr.pop .af).wf = false := by decide

/-- The eleven undefined bytes are well formed. -/
theorem test_undefined_bytes_well_formed : (illegalOpcodes.map fun op => (Instr.illegal op).wf) = List.replicate 11 true := by decide

/-! ### Decoding -/

/-- What the decoder reads, none where it refuses. -/
def reads (bytes : List Byte) : Option (Instr × List Byte) :=
  match decode bytes with
  | .ok r => some r
  | .error _ => none

/-- An immediate that is not there is no instruction (30 rule R346). -/
theorem test_decode_truncated : reads [] = none ∧ reads [0x3E] = none ∧ reads [0xC3, 0x50] = none := by decide +kernel

/-- The encoding lines of 40: one word for each of its instructions. -/
theorem test_decode_load8 :
    reads [0b01111000] = some (.ldRR .a .b, []) ∧
    reads [0b00101110, 0x9A] = some (.ldRN .l 0x9A, []) ∧
    reads [0b01010110] = some (.ldRHl .d, []) ∧
    reads [0b01110011] = some (.ldHlR .e, []) ∧
    reads [0b00110110, 0x12] = some (.ldHlN 0x12, []) ∧
    reads [0b00001010] = some (.ldABc, []) ∧
    reads [0b00011010] = some (.ldADe, []) ∧
    reads [0b00000010] = some (.ldBcA, []) ∧
    reads [0b00010010] = some (.ldDeA, []) ∧
    reads [0b11111010, 0x34, 0x12] = some (.ldANn 0x1234, []) ∧
    reads [0b11101010, 0x34, 0x12] = some (.ldNnA 0x1234, []) ∧
    reads [0b11110010] = some (.ldhAC, []) ∧
    reads [0b11100010] = some (.ldhCA, []) ∧
    reads [0b11110000, 0x44] = some (.ldhAN 0x44, []) ∧
    reads [0b11100000, 0x46] = some (.ldhNA 0x46, []) ∧
    reads [0b00111010] = some (.ldAHld, []) ∧
    reads [0b00110010] = some (.ldHldA, []) ∧
    reads [0b00101010] = some (.ldAHli, []) ∧
    reads [0b00100010] = some (.ldHliA, []) := by
  and_intros <;> decide +kernel

/-- The encoding lines of 41: one word for each of its instructions. -/
theorem test_decode_load16 :
    reads [0b00110001, 0xFE, 0xFF] = some (.ldRrNn .sp 0xFFFE, []) ∧
    reads [0b00001000, 0x00, 0xC1] = some (.ldNnSp 0xC100, []) ∧
    reads [0b11111001] = some (.ldSpHl, []) ∧
    reads [0b11111000, 0xFF] = some (.ldHlSpE 0xFF, []) ∧
    reads [0b11110101] = some (.push .af, []) ∧
    reads [0b11010001] = some (.pop .de, []) ∧
    reads [0b11110001] = some (.popAf, []) := by
  and_intros <;> decide +kernel

/-- The encoding lines of 42: one word for each of its instructions. -/
theorem test_decode_alu8 :
    reads [0b10000000] = some (.addR .b, []) ∧
    reads [0b10000110] = some (.addHl, []) ∧
    reads [0b11000110, 0x01] = some (.addN 0x01, []) ∧
    reads [0b10001001] = some (.adcR .c, []) ∧
    reads [0b10001110] = some (.adcHl, []) ∧
    reads [0b11001110, 0x02] = some (.adcN 0x02, []) ∧
    reads [0b10010010] = some (.subR .d, []) ∧
    reads [0b10010110] = some (.subHl, []) ∧
    reads [0b11010110, 0x03] = some (.subN 0x03, []) ∧
    reads [0b10011011] = some (.sbcR .e, []) ∧
    reads [0b10011110] = some (.sbcHl, []) ∧
    reads [0b11011110, 0x04] = some (.sbcN 0x04, []) ∧
    reads [0b10100100] = some (.andR .h, []) ∧
    reads [0b10100110] = some (.andHl, []) ∧
    reads [0b11100110, 0x05] = some (.andN 0x05, []) ∧
    reads [0b10101101] = some (.xorR .l, []) ∧
    reads [0b10101110] = some (.xorHl, []) ∧
    reads [0b11101110, 0x06] = some (.xorN 0x06, []) ∧
    reads [0b10110111] = some (.orR .a, []) ∧
    reads [0b10110110] = some (.orHl, []) ∧
    reads [0b11110110, 0x07] = some (.orN 0x07, []) ∧
    reads [0b10111000] = some (.cpR .b, []) ∧
    reads [0b10111110] = some (.cpHl, []) ∧
    reads [0b11111110, 0x08] = some (.cpN 0x08, []) ∧
    reads [0b00111100] = some (.incR .a, []) ∧
    reads [0b00110100] = some (.incHl, []) ∧
    reads [0b00000101] = some (.decR .b, []) ∧
    reads [0b00110101] = some (.decHl, []) ∧
    reads [0b00100111] = some (.daa, []) ∧
    reads [0b00101111] = some (.cpl, []) ∧
    reads [0b00110111] = some (.scf, []) ∧
    reads [0b00111111] = some (.ccf, []) := by
  and_intros <;> decide +kernel

/-- The encoding lines of 43: one word for each of its instructions. -/
theorem test_decode_alu16 :
    reads [0b00101001] = some (.addHlRr .hl, []) ∧
    reads [0b00000011] = some (.incRr .bc, []) ∧
    reads [0b00111011] = some (.decRr .sp, []) ∧
    reads [0b11101000, 0x80] = some (.addSpE 0x80, []) := by
  and_intros <;> decide +kernel

/-- The encoding lines of 44: one word for each of its instructions. -/
theorem test_decode_rotate :
    reads [0b00000111] = some (.rlca, []) ∧
    reads [0b00001111] = some (.rrca, []) ∧
    reads [0b00010111] = some (.rla, []) ∧
    reads [0b00011111] = some (.rra, []) ∧
    reads [0b11001011, 0b00000000] = some (.rlcR .b, []) ∧
    reads [0b11001011, 0b00000110] = some (.rlcHl, []) ∧
    reads [0b11001011, 0b00001001] = some (.rrcR .c, []) ∧
    reads [0b11001011, 0b00001110] = some (.rrcHl, []) ∧
    reads [0b11001011, 0b00010010] = some (.rlR .d, []) ∧
    reads [0b11001011, 0b00010110] = some (.rlHl, []) ∧
    reads [0b11001011, 0b00011011] = some (.rrR .e, []) ∧
    reads [0b11001011, 0b00011110] = some (.rrHl, []) ∧
    reads [0b11001011, 0b00100100] = some (.slaR .h, []) ∧
    reads [0b11001011, 0b00100110] = some (.slaHl, []) ∧
    reads [0b11001011, 0b00101101] = some (.sraR .l, []) ∧
    reads [0b11001011, 0b00101110] = some (.sraHl, []) ∧
    reads [0b11001011, 0b00110111] = some (.swapR .a, []) ∧
    reads [0b11001011, 0b00110110] = some (.swapHl, []) ∧
    reads [0b11001011, 0b00111000] = some (.srlR .b, []) ∧
    reads [0b11001011, 0b00111110] = some (.srlHl, []) ∧
    reads [0b11001011, 0b01111100] = some (.bitR 7 .h, []) ∧
    reads [0b11001011, 0b01011110] = some (.bitHl 3, []) ∧
    reads [0b11001011, 0b10111111] = some (.resR 7 .a, []) ∧
    reads [0b11001011, 0b10000110] = some (.resHl 0, []) ∧
    reads [0b11001011, 0b11011000] = some (.setR 3 .b, []) ∧
    reads [0b11001011, 0b11111110] = some (.setHl 7, []) := by
  and_intros <;> decide +kernel

/-- The encoding lines of 45: one word for each of its instructions. -/
theorem test_decode_control :
    reads [0b11000011, 0x50, 0x01] = some (.jpNn 0x0150, []) ∧
    reads [0b11011010, 0x34, 0x12] = some (.jpCc .c 0x1234, []) ∧
    reads [0b11101001] = some (.jpHl, []) ∧
    reads [0b00011000, 0xFE] = some (.jrE 0xFE, []) ∧
    reads [0b00110000, 0x10] = some (.jrCc .nc 0x10, []) ∧
    reads [0b11001101, 0x34, 0x12] = some (.callNn 0x1234, []) ∧
    reads [0b11000100, 0x34, 0x12] = some (.callCc .nz 0x1234, []) ∧
    reads [0b11001001] = some (.ret, []) ∧
    reads [0b11001000] = some (.retCc .z, []) ∧
    reads [0b11011001] = some (.reti, []) ∧
    reads [0b11111111] = some (.rst 7, []) := by
  and_intros <;> decide +kernel

/-- The encoding lines of 46: one word for each of its instructions. -/
theorem test_decode_system :
    reads [0b00000000] = some (.nop, []) ∧
    reads [0b01110110] = some (.halt, []) ∧
    reads [0b00010000] = some (.stop, []) ∧
    reads [0b11110011] = some (.di, []) ∧
    reads [0b11111011] = some (.ei, []) ∧
    reads [0b11010011] = some (.illegal 0xD3, []) ∧
    reads [0b11001011] = some (.cbPrefix, []) := by
  and_intros <;> decide +kernel

/-! ### Single steps -/

/-- The flags by the high nibble of F (10 rule R101). -/
def flags (n : Nat) : Flags :=
  { z := n.testBit 3, n := n.testBit 2, h := n.testBit 1, c := n.testBit 0 }

/-- The CPU of the harness of 95 section 2.1. -/
def cpu0 : Cpu :=
  { Cpu.reset with a := 0, b := 0, c := 0, d := 0, e := 0, h := 0, l := 0, f := flags 0 }

/-- The harness with bytes at 0x0100 and cells of memory. -/
def start (p : Cpu) (cells : List (Word × Byte)) (bytes : List Byte) : State :=
  cells.foldl (fun s c => s.poke c.1 c.2) (({ State.reset with cpu := p } : State).pokeAll 0x0100 bytes)

/-- After one step: the CPU, some bytes and the cycles. -/
def outcome (s : State) (addrs : List Word) : Option (Cpu × List Byte × Nat) :=
  match step s with
  | .next t => some (t.cpu, addrs.map (t.peek true), t.cycles)
  | .fault _ | .refused _ => none

/-- 40 rule R400, 95 section 2.1. -/
theorem test_ld_b_c :
    outcome (start { cpu0 with c := 0x5A } [] [0x41]) [] =
      some ({ cpu0 with c := 0x5A, b := 0x5A, pc := 0x0101 }, [], 4) := by
  decide +kernel

/-- 40 rule R401, 95 section 2.1. -/
theorem test_ld_d_n :
    outcome (start cpu0 [] [0x16, 0xFE]) [] =
      some ({ cpu0 with d := 0xFE, pc := 0x0102 }, [], 8) := by
  decide +kernel

/-- 40 rule R404, 95 section 2.1. -/
theorem test_ld_at_hl_n :
    outcome (start { cpu0 with h := 0xC0, l := 0x10 } [] [0x36, 0x42]) [0xC010] =
      some ({ cpu0 with h := 0xC0, l := 0x10, pc := 0x0102 }, [0x42], 12) := by
  decide +kernel

/-- 40 rule R402, 95 section 2.1. -/
theorem test_ld_a_at_hl :
    outcome (start { cpu0 with h := 0xC0, l := 0x00 } [(0xC000, 0x99)] [0x7E]) [] =
      some ({ cpu0 with h := 0xC0, l := 0x00, a := 0x99, pc := 0x0101 }, [], 8) := by
  decide +kernel

/-- 40 rule R403, 95 section 2.1. -/
theorem test_ld_at_hl_h :
    outcome (start { cpu0 with h := 0xC1, l := 0x23 } [] [0x74]) [0xC123] =
      some ({ cpu0 with h := 0xC1, l := 0x23, pc := 0x0101 }, [0xC1], 8) := by
  decide +kernel

/-- 40 rule R402, 95 section 2.1. -/
theorem test_ld_l_at_hl :
    outcome (start { cpu0 with h := 0xC0, l := 0x05 } [(0xC005, 0x77)] [0x6E]) [] =
      some ({ cpu0 with h := 0xC0, l := 0x77, pc := 0x0101 }, [], 8) := by
  decide +kernel

/-- 40 rule R405, 95 section 2.1. -/
theorem test_ld_a_at_bc :
    outcome (start { cpu0 with b := 0xC0, c := 0x20 } [(0xC020, 0x5C)] [0x0A]) [] =
      some ({ cpu0 with b := 0xC0, c := 0x20, a := 0x5C, pc := 0x0101 }, [], 8) := by
  decide +kernel

/-- 40 rule R408, 95 section 2.1. -/
theorem test_ld_at_de_a :
    outcome (start { cpu0 with a := 0xAB, d := 0xC0, e := 0x30 } [] [0x12]) [0xC030] =
      some ({ cpu0 with a := 0xAB, d := 0xC0, e := 0x30, pc := 0x0101 }, [0xAB], 8) := by
  decide +kernel

/-- 40 rule R418, 95 section 2.1. -/
theorem test_ld_hli_a :
    outcome (start { cpu0 with a := 0x11, h := 0xC0, l := 0xFF } [] [0x22]) [0xC0FF] =
      some ({ cpu0 with a := 0x11, h := 0xC1, l := 0x00, pc := 0x0101 }, [0x11], 8) := by
  decide +kernel

/-- 40 rule R415, 95 section 2.1. -/
theorem test_ld_a_hld :
    outcome (start { cpu0 with h := 0xC0, l := 0x00 } [(0xC000, 0x66)] [0x3A]) [] =
      some ({ cpu0 with h := 0xBF, l := 0xFF, a := 0x66, pc := 0x0101 }, [], 8) := by
  decide +kernel

/-- 40 rule R418, 95 section 2.1. -/
theorem test_ld_hli_a_wraps_hl :
    outcome (start { cpu0 with a := 0x01, h := 0xFF, l := 0xFF } [] [0x22]) [0xFFFF] =
      some ({ cpu0 with a := 0x01, h := 0x00, l := 0x00, pc := 0x0101 }, [0x01], 8) := by
  decide +kernel

/-- 40 rule R410, 95 section 2.1. -/
theorem test_ld_at_nn_a :
    outcome (start { cpu0 with a := 0xEE } [] [0xEA, 0x34, 0xC2]) [0xC234] =
      some ({ cpu0 with a := 0xEE, pc := 0x0103 }, [0xEE], 16) := by
  decide +kernel

/-- 40 rule R409, 95 section 2.1. -/
theorem test_ld_a_at_nn :
    outcome (start cpu0 [(0xC000, 0x3C)] [0xFA, 0x00, 0xC0]) [] =
      some ({ cpu0 with a := 0x3C, pc := 0x0103 }, [], 16) := by
  decide +kernel

/-- 40 rule R414, 95 section 2.1. -/
theorem test_ldh_at_n_a :
    outcome (start { cpu0 with a := 0x21 } [] [0xE0, 0x80]) [0xFF80] =
      some ({ cpu0 with a := 0x21, pc := 0x0102 }, [0x21], 12) := by
  decide +kernel

/-- 40 rule R413, 95 section 2.1. -/
theorem test_ldh_a_at_n_reads_if :
    outcome ({ start cpu0 [] [0xF0, 0x0F] with iflag := 0x01 }) [] =
      some ({ cpu0 with a := 0xE1, pc := 0x0102 }, [], 12) := by
  decide +kernel

/-- 40 rule R412, 95 section 2.1. -/
theorem test_ldh_at_c_a :
    outcome (start { cpu0 with a := 0x5E, c := 0x81 } [] [0xE2]) [0xFF81] =
      some ({ cpu0 with a := 0x5E, c := 0x81, pc := 0x0101 }, [0x5E], 8) := by
  decide +kernel

/-- 40 rule R411, 95 section 2.1. -/
theorem test_ldh_a_at_c :
    outcome (start { cpu0 with c := 0x82 } [(0xFF82, 0x47)] [0xF2]) [] =
      some ({ cpu0 with c := 0x82, a := 0x47, pc := 0x0101 }, [], 8) := by
  decide +kernel

/-- 41 rule R450, 95 section 2.1. -/
theorem test_ld_bc_nn :
    outcome (start cpu0 [] [0x01, 0x34, 0x12]) [] =
      some ({ cpu0 with b := 0x12, c := 0x34, pc := 0x0103 }, [], 12) := by
  decide +kernel

/-- 41 rule R451, 95 section 2.1. -/
theorem test_ld_at_nn_sp :
    outcome (start { cpu0 with sp := 0xABCD } [] [0x08, 0x00, 0xC0]) [0xC000, 0xC001] =
      some ({ cpu0 with sp := 0xABCD, pc := 0x0103 }, [0xCD, 0xAB], 20) := by
  decide +kernel

/-- 41 rule R452, 95 section 2.1. -/
theorem test_ld_sp_hl :
    outcome (start { cpu0 with h := 0xC1, l := 0x00 } [] [0xF9]) [] =
      some ({ cpu0 with h := 0xC1, l := 0x00, sp := 0xC100, pc := 0x0101 }, [], 8) := by
  decide +kernel

/-- 41 rule R453, 95 section 2.1. -/
theorem test_ld_hl_sp_e_plus_1_h_and_c_from_low_byte :
    outcome (start { cpu0 with sp := 0x00FF } [] [0xF8, 0x01]) [] =
      some ({ cpu0 with sp := 0x00FF, h := 0x01, pc := 0x0102, f := flags 3 }, [], 12) := by
  decide +kernel

/-- 41 rule R453, 95 section 2.1. -/
theorem test_ld_hl_sp_e_minus_1 :
    outcome (start { cpu0 with sp := 0x0000 } [] [0xF8, 0xFF]) [] =
      some ({ cpu0 with sp := 0x0000, h := 0xFF, l := 0xFF, pc := 0x0102 }, [], 12) := by
  decide +kernel

/-- 41 rule R462, 95 section 2.1. -/
theorem test_push_bc :
    outcome (start { cpu0 with b := 0x12, c := 0x34 } [] [0xC5]) [0xFFFD, 0xFFFC] =
      some ({ cpu0 with b := 0x12, c := 0x34, sp := 0xFFFC, pc := 0x0101 }, [0x12, 0x34], 16) := by
  decide +kernel

/-- 41 rule R463, 95 section 2.1. -/
theorem test_pop_bc :
    outcome (start { cpu0 with sp := 0xC000 } [(0xC000, 0x78), (0xC001, 0x56)] [0xC1]) [] =
      some ({ cpu0 with sp := 0xC002, b := 0x56, c := 0x78, pc := 0x0101 }, [], 12) := by
  decide +kernel

/-- 41 rule R464, 95 section 2.1. -/
theorem test_pop_af_low_nibble_of_f_dropped :
    outcome (start { cpu0 with sp := 0xC000 } [(0xC000, 0xFF), (0xC001, 0x12)] [0xF1]) [] =
      some ({ cpu0 with sp := 0xC002, a := 0x12, pc := 0x0101, f := flags 15 }, [], 12) := by
  decide +kernel

/-- 42 rule R510, 95 section 2.1. -/
theorem test_add_a_b :
    outcome (start { cpu0 with a := 0x3A, b := 0xC6 } [] [0x80]) [] =
      some ({ cpu0 with a := 0x00, b := 0xC6, pc := 0x0101, f := flags 11 }, [], 4) := by
  decide +kernel

/-- 42 rule R510, 95 section 2.1. -/
theorem test_add_a_b_half_carry :
    outcome (start { cpu0 with a := 0x0F, b := 0x01 } [] [0x80]) [] =
      some ({ cpu0 with a := 0x10, b := 0x01, pc := 0x0101, f := flags 2 }, [], 4) := by
  decide +kernel

/-- 42 rule R512, 95 section 2.1. -/
theorem test_add_a_n :
    outcome (start { cpu0 with a := 0x01 } [] [0xC6, 0xFF]) [] =
      some ({ cpu0 with a := 0x00, pc := 0x0102, f := flags 11 }, [], 8) := by
  decide +kernel

/-- 42 rule R511, 95 section 2.1. -/
theorem test_add_a_at_hl :
    outcome (start { cpu0 with a := 0x12, h := 0xC0, l := 0x00 } [(0xC000, 0x34)] [0x86]) [] =
      some ({ cpu0 with a := 0x46, h := 0xC0, l := 0x00, pc := 0x0101 }, [], 8) := by
  decide +kernel

/-- 42 rule R513, 95 section 2.1. -/
theorem test_adc_a_c_carry_in :
    outcome (start { cpu0 with a := 0xE1, c := 0x0F, f := flags 1 } [] [0x89]) [] =
      some ({ cpu0 with a := 0xF1, c := 0x0F, pc := 0x0101, f := flags 2 }, [], 4) := by
  decide +kernel

/-- 42 rule R515, 95 section 2.1. -/
theorem test_adc_a_n_carry_makes_0x100 :
    outcome (start { cpu0 with a := 0x00, f := flags 1 } [] [0xCE, 0xFF]) [] =
      some ({ cpu0 with a := 0x00, pc := 0x0102, f := flags 11 }, [], 8) := by
  decide +kernel

/-- 42 rule R513, 95 section 2.1. -/
theorem test_adc_a_a :
    outcome (start { cpu0 with a := 0x88, f := flags 1 } [] [0x8F]) [] =
      some ({ cpu0 with a := 0x11, pc := 0x0101, f := flags 3 }, [], 4) := by
  decide +kernel

/-- 42 rule R516, 95 section 2.1. -/
theorem test_sub_a_e :
    outcome (start { cpu0 with a := 0x3E, e := 0x3E } [] [0x93]) [] =
      some ({ cpu0 with a := 0x00, e := 0x3E, pc := 0x0101, f := flags 12 }, [], 4) := by
  decide +kernel

/-- 42 rule R518, 95 section 2.1. -/
theorem test_sub_a_n_borrow :
    outcome (start { cpu0 with a := 0x00 } [] [0xD6, 0x01]) [] =
      some ({ cpu0 with a := 0xFF, pc := 0x0102, f := flags 7 }, [], 8) := by
  decide +kernel

/-- 42 rule R516, 95 section 2.1. -/
theorem test_sub_a_a :
    outcome (start { cpu0 with a := 0x55, f := flags 1 } [] [0x97]) [] =
      some ({ cpu0 with a := 0x00, pc := 0x0101, f := flags 12 }, [], 4) := by
  decide +kernel

/-- 42 rule R519, 95 section 2.1. -/
theorem test_sbc_a_h_carry_in :
    outcome (start { cpu0 with a := 0x3B, h := 0x2A, f := flags 1 } [] [0x9C]) [] =
      some ({ cpu0 with a := 0x10, h := 0x2A, pc := 0x0101, f := flags 4 }, [], 4) := by
  decide +kernel

/-- 42 rule R521, 95 section 2.1. -/
theorem test_sbc_a_n :
    outcome (start { cpu0 with a := 0x3B, f := flags 1 } [] [0xDE, 0x3A]) [] =
      some ({ cpu0 with a := 0x00, pc := 0x0102, f := flags 12 }, [], 8) := by
  decide +kernel

/-- 42 rule R519, 95 section 2.1. -/
theorem test_sbc_a_a_carry_in :
    outcome (start { cpu0 with a := 0x10, f := flags 1 } [] [0x9F]) [] =
      some ({ cpu0 with a := 0xFF, pc := 0x0101, f := flags 7 }, [], 4) := by
  decide +kernel

/-- 42 rule R522, 95 section 2.1. -/
theorem test_and_a_l :
    outcome (start { cpu0 with a := 0x5A, l := 0x3F } [] [0xA5]) [] =
      some ({ cpu0 with a := 0x1A, l := 0x3F, pc := 0x0101, f := flags 2 }, [], 4) := by
  decide +kernel

/-- 42 rule R524, 95 section 2.1. -/
theorem test_and_a_n_zero :
    outcome (start { cpu0 with a := 0xFF } [] [0xE6, 0x00]) [] =
      some ({ cpu0 with a := 0x00, pc := 0x0102, f := flags 10 }, [], 8) := by
  decide +kernel

/-- 42 rule R525, 95 section 2.1. -/
theorem test_xor_a_a :
    outcome (start { cpu0 with a := 0xFF, f := flags 1 } [] [0xAF]) [] =
      some ({ cpu0 with a := 0x00, pc := 0x0101, f := flags 8 }, [], 4) := by
  decide +kernel

/-- 42 rule R527, 95 section 2.1. -/
theorem test_xor_a_n :
    outcome (start { cpu0 with a := 0xFF } [] [0xEE, 0x0F]) [] =
      some ({ cpu0 with a := 0xF0, pc := 0x0102 }, [], 8) := by
  decide +kernel

/-- 42 rule R529, 95 section 2.1. -/
theorem test_or_a_at_hl :
    outcome (start { cpu0 with a := 0x5A, h := 0xC0, l := 0x00 } [(0xC000, 0x0F)] [0xB6]) [] =
      some ({ cpu0 with a := 0x5F, h := 0xC0, l := 0x00, pc := 0x0101 }, [], 8) := by
  decide +kernel

/-- 42 rule R528, 95 section 2.1. -/
theorem test_or_a_a_zero :
    outcome (start { cpu0 with a := 0x00 } [] [0xB7]) [] =
      some ({ cpu0 with a := 0x00, pc := 0x0101, f := flags 8 }, [], 4) := by
  decide +kernel

/-- 42 rule R533, 95 section 2.1. -/
theorem test_cp_a_n_equal :
    outcome (start { cpu0 with a := 0x3C } [] [0xFE, 0x3C]) [] =
      some ({ cpu0 with a := 0x3C, pc := 0x0102, f := flags 12 }, [], 8) := by
  decide +kernel

/-- 42 rule R533, 95 section 2.1. -/
theorem test_cp_a_n_a_n :
    outcome (start { cpu0 with a := 0x3C } [] [0xFE, 0x40]) [] =
      some ({ cpu0 with a := 0x3C, pc := 0x0102, f := flags 5 }, [], 8) := by
  decide +kernel

/-- 42 rule R532, 95 section 2.1. -/
theorem test_cp_a_at_hl :
    outcome (start { cpu0 with a := 0x3C, h := 0xC0, l := 0x00 } [(0xC000, 0x2F)] [0xBE]) [] =
      some ({ cpu0 with a := 0x3C, h := 0xC0, l := 0x00, pc := 0x0101, f := flags 6 }, [], 8) := by
  decide +kernel

/-- 42 rule R531, 95 section 2.1. -/
theorem test_cp_a_a_same_register :
    outcome (start { cpu0 with a := 0x80, f := flags 1 } [] [0xBF]) [] =
      some ({ cpu0 with a := 0x80, pc := 0x0101, f := flags 12 }, [], 4) := by
  decide +kernel

/-- 42 rule R540, 95 section 2.1. -/
theorem test_inc_a_to_zero_cf_kept :
    outcome (start { cpu0 with a := 0xFF, f := flags 1 } [] [0x3C]) [] =
      some ({ cpu0 with a := 0x00, pc := 0x0101, f := flags 11 }, [], 4) := by
  decide +kernel

/-- 42 rule R540, 95 section 2.1. -/
theorem test_inc_b_half_carry :
    outcome (start { cpu0 with b := 0x0F } [] [0x04]) [] =
      some ({ cpu0 with b := 0x10, pc := 0x0101, f := flags 2 }, [], 4) := by
  decide +kernel

/-- 42 rule R542, 95 section 2.1. -/
theorem test_dec_c_to_zero :
    outcome (start { cpu0 with c := 0x01 } [] [0x0D]) [] =
      some ({ cpu0 with c := 0x00, pc := 0x0101, f := flags 12 }, [], 4) := by
  decide +kernel

/-- 42 rule R542, 95 section 2.1. -/
theorem test_dec_d_borrow_from_bit_4 :
    outcome (start { cpu0 with d := 0x10 } [] [0x15]) [] =
      some ({ cpu0 with d := 0x0F, pc := 0x0101, f := flags 6 }, [], 4) := by
  decide +kernel

/-- 42 rule R541, 95 section 2.1. -/
theorem test_inc_at_hl :
    outcome (start { cpu0 with h := 0xC0, l := 0x00 } [(0xC000, 0x7F)] [0x34]) [0xC000] =
      some ({ cpu0 with h := 0xC0, l := 0x00, pc := 0x0101, f := flags 2 }, [0x80], 12) := by
  decide +kernel

/-- 42 rule R543, 95 section 2.1. -/
theorem test_dec_at_hl :
    outcome (start { cpu0 with h := 0xC0, l := 0x00 } [(0xC000, 0x00)] [0x35]) [0xC000] =
      some ({ cpu0 with h := 0xC0, l := 0x00, pc := 0x0101, f := flags 6 }, [0xFF], 12) := by
  decide +kernel

/-- 42 rule R545, 95 section 2.1. -/
theorem test_daa_after_add_0x45_0x38 :
    outcome (start { cpu0 with a := 0x7D } [] [0x27]) [] =
      some ({ cpu0 with a := 0x83, pc := 0x0101 }, [], 4) := by
  decide +kernel

/-- 42 rule R545, 95 section 2.1. -/
theorem test_daa_after_add_0x99_0x01 :
    outcome (start { cpu0 with a := 0x9A } [] [0x27]) [] =
      some ({ cpu0 with a := 0x00, pc := 0x0101, f := flags 9 }, [], 4) := by
  decide +kernel

/-- 42 rule R546, 95 section 2.1. -/
theorem test_cpl :
    outcome (start { cpu0 with a := 0x35 } [] [0x2F]) [] =
      some ({ cpu0 with a := 0xCA, pc := 0x0101, f := flags 6 }, [], 4) := by
  decide +kernel

/-- 42 rule R547, 95 section 2.1. -/
theorem test_scf :
    outcome (start { cpu0 with f := flags 14 } [] [0x37]) [] =
      some ({ cpu0 with pc := 0x0101, f := flags 9 }, [], 4) := by
  decide +kernel

/-- 42 rule R548, 95 section 2.1. -/
theorem test_ccf_set_to_clear :
    outcome (start { cpu0 with f := flags 3 } [] [0x3F]) [] =
      some ({ cpu0 with pc := 0x0101 }, [], 4) := by
  decide +kernel

/-- 43 rule R560, 95 section 2.1. -/
theorem test_add_hl_bc :
    outcome (start { cpu0 with h := 0x8A, l := 0x23, b := 0x06, c := 0x05 } [] [0x09]) [] =
      some ({ cpu0 with h := 0x90, l := 0x28, b := 0x06, c := 0x05, pc := 0x0101, f := flags 2 }, [], 8) := by
  decide +kernel

/-- 43 rule R560, 95 section 2.1. -/
theorem test_add_hl_hl :
    outcome (start { cpu0 with h := 0x8A, l := 0x23, f := flags 8 } [] [0x29]) [] =
      some ({ cpu0 with h := 0x14, l := 0x46, pc := 0x0101, f := flags 11 }, [], 8) := by
  decide +kernel

/-- 43 rule R563, 95 section 2.1. -/
theorem test_add_sp_e_plus_2 :
    outcome (start { cpu0 with sp := 0xFFF8 } [] [0xE8, 0x02]) [] =
      some ({ cpu0 with sp := 0xFFFA, pc := 0x0102 }, [], 16) := by
  decide +kernel

/-- 43 rule R563, 95 section 2.1. -/
theorem test_add_sp_e_minus_1 :
    outcome (start { cpu0 with sp := 0x0000 } [] [0xE8, 0xFF]) [] =
      some ({ cpu0 with sp := 0xFFFF, pc := 0x0102 }, [], 16) := by
  decide +kernel

/-- 43 rule R561, 95 section 2.1. -/
theorem test_inc_bc_no_flags :
    outcome (start { cpu0 with b := 0xFF, c := 0xFF } [] [0x03]) [] =
      some ({ cpu0 with b := 0x00, c := 0x00, pc := 0x0101 }, [], 8) := by
  decide +kernel

/-- 43 rule R562, 95 section 2.1. -/
theorem test_dec_de :
    outcome (start { cpu0 with d := 0x00, e := 0x00, f := flags 8 } [] [0x1B]) [] =
      some ({ cpu0 with d := 0xFF, e := 0xFF, pc := 0x0101, f := flags 8 }, [], 8) := by
  decide +kernel

/-- 44 rule R600, 95 section 2.1. -/
theorem test_rlca :
    outcome (start { cpu0 with a := 0x85 } [] [0x07]) [] =
      some ({ cpu0 with a := 0x0B, pc := 0x0101, f := flags 1 }, [], 4) := by
  decide +kernel

/-- 44 rule R600, 95 section 2.1. -/
theorem test_rlca_a_0_z_stays_0 :
    outcome (start { cpu0 with a := 0x00, f := flags 8 } [] [0x07]) [] =
      some ({ cpu0 with a := 0x00, pc := 0x0101 }, [], 4) := by
  decide +kernel

/-- 44 rule R601, 95 section 2.1. -/
theorem test_rrca :
    outcome (start { cpu0 with a := 0x01 } [] [0x0F]) [] =
      some ({ cpu0 with a := 0x80, pc := 0x0101, f := flags 1 }, [], 4) := by
  decide +kernel

/-- 44 rule R602, 95 section 2.1. -/
theorem test_rla :
    outcome (start { cpu0 with a := 0x95, f := flags 1 } [] [0x17]) [] =
      some ({ cpu0 with a := 0x2B, pc := 0x0101, f := flags 1 }, [], 4) := by
  decide +kernel

/-- 44 rule R603, 95 section 2.1. -/
theorem test_rra :
    outcome (start { cpu0 with a := 0x81 } [] [0x1F]) [] =
      some ({ cpu0 with a := 0x40, pc := 0x0101, f := flags 1 }, [], 4) := by
  decide +kernel

/-- 44 rule R610, 95 section 2.1. -/
theorem test_rlc_b :
    outcome (start { cpu0 with b := 0x85 } [] [0xCB, 0x00]) [] =
      some ({ cpu0 with b := 0x0B, pc := 0x0102, f := flags 1 }, [], 8) := by
  decide +kernel

/-- 44 rule R611, 95 section 2.1. -/
theorem test_rlc_at_hl :
    outcome (start { cpu0 with h := 0xC0, l := 0x00 } [(0xC000, 0x00)] [0xCB, 0x06]) [0xC000] =
      some ({ cpu0 with h := 0xC0, l := 0x00, pc := 0x0102, f := flags 8 }, [0x00], 16) := by
  decide +kernel

/-- 44 rule R612, 95 section 2.1. -/
theorem test_rrc_c :
    outcome (start { cpu0 with c := 0x01 } [] [0xCB, 0x09]) [] =
      some ({ cpu0 with c := 0x80, pc := 0x0102, f := flags 1 }, [], 8) := by
  decide +kernel

/-- 44 rule R614, 95 section 2.1. -/
theorem test_rl_d_to_zero :
    outcome (start { cpu0 with d := 0x80 } [] [0xCB, 0x12]) [] =
      some ({ cpu0 with d := 0x00, pc := 0x0102, f := flags 9 }, [], 8) := by
  decide +kernel

/-- 44 rule R616, 95 section 2.1. -/
theorem test_rr_e :
    outcome (start { cpu0 with e := 0x01, f := flags 1 } [] [0xCB, 0x1B]) [] =
      some ({ cpu0 with e := 0x80, pc := 0x0102, f := flags 1 }, [], 8) := by
  decide +kernel

/-- 44 rule R618, 95 section 2.1. -/
theorem test_sla_h :
    outcome (start { cpu0 with h := 0xFF } [] [0xCB, 0x24]) [] =
      some ({ cpu0 with h := 0xFE, pc := 0x0102, f := flags 1 }, [], 8) := by
  decide +kernel

/-- 44 rule R620, 95 section 2.1. -/
theorem test_sra_l_sign_kept :
    outcome (start { cpu0 with l := 0x8A } [] [0xCB, 0x2D]) [] =
      some ({ cpu0 with l := 0xC5, pc := 0x0102 }, [], 8) := by
  decide +kernel

/-- 44 rule R620, 95 section 2.1. -/
theorem test_sra_a_0x01_to_zero :
    outcome (start { cpu0 with a := 0x01 } [] [0xCB, 0x2F]) [] =
      some ({ cpu0 with a := 0x00, pc := 0x0102, f := flags 9 }, [], 8) := by
  decide +kernel

/-- 44 rule R622, 95 section 2.1. -/
theorem test_swap_a :
    outcome (start { cpu0 with a := 0xF0, f := flags 1 } [] [0xCB, 0x37]) [] =
      some ({ cpu0 with a := 0x0F, pc := 0x0102 }, [], 8) := by
  decide +kernel

/-- 44 rule R624, 95 section 2.1. -/
theorem test_srl_a :
    outcome (start { cpu0 with a := 0x01 } [] [0xCB, 0x3F]) [] =
      some ({ cpu0 with a := 0x00, pc := 0x0102, f := flags 9 }, [], 8) := by
  decide +kernel

/-- 44 rule R625, 95 section 2.1. -/
theorem test_srl_at_hl :
    outcome (start { cpu0 with h := 0xC0, l := 0x00 } [(0xC000, 0xFF)] [0xCB, 0x3E]) [0xC000] =
      some ({ cpu0 with h := 0xC0, l := 0x00, pc := 0x0102, f := flags 1 }, [0x7F], 16) := by
  decide +kernel

/-- 44 rule R630, 95 section 2.1. -/
theorem test_bit_7_h_set :
    outcome (start { cpu0 with h := 0x80, f := flags 1 } [] [0xCB, 0x7C]) [] =
      some ({ cpu0 with h := 0x80, pc := 0x0102, f := flags 3 }, [], 8) := by
  decide +kernel

/-- 44 rule R631, 95 section 2.1. -/
theorem test_bit_3_at_hl :
    outcome (start { cpu0 with h := 0xC0, l := 0x00 } [(0xC000, 0x08)] [0xCB, 0x5E]) [] =
      some ({ cpu0 with h := 0xC0, l := 0x00, pc := 0x0102, f := flags 2 }, [], 12) := by
  decide +kernel

/-- 44 rule R632, 95 section 2.1. -/
theorem test_res_7_a :
    outcome (start { cpu0 with a := 0xFF } [] [0xCB, 0xBF]) [] =
      some ({ cpu0 with a := 0x7F, pc := 0x0102 }, [], 8) := by
  decide +kernel

/-- 44 rule R633, 95 section 2.1. -/
theorem test_res_0_at_hl :
    outcome (start { cpu0 with h := 0xC0, l := 0x00 } [(0xC000, 0xFF)] [0xCB, 0x86]) [0xC000] =
      some ({ cpu0 with h := 0xC0, l := 0x00, pc := 0x0102 }, [0xFE], 16) := by
  decide +kernel

/-- 44 rule R634, 95 section 2.1. -/
theorem test_set_3_b :
    outcome (start { cpu0 with b := 0x00 } [] [0xCB, 0xD8]) [] =
      some ({ cpu0 with b := 0x08, pc := 0x0102 }, [], 8) := by
  decide +kernel

/-- 44 rule R635, 95 section 2.1. -/
theorem test_set_7_at_hl :
    outcome (start { cpu0 with h := 0xC0, l := 0x00 } [(0xC000, 0x01)] [0xCB, 0xFE]) [0xC000] =
      some ({ cpu0 with h := 0xC0, l := 0x00, pc := 0x0102 }, [0x81], 16) := by
  decide +kernel

/-- 45 rule R650, 95 section 2.1. -/
theorem test_jp_nn :
    outcome (start cpu0 [] [0xC3, 0x50, 0x01]) [] =
      some ({ cpu0 with pc := 0x0150 }, [], 16) := by
  decide +kernel

/-- 45 rule R652, 95 section 2.1. -/
theorem test_jp_hl :
    outcome (start { cpu0 with h := 0x12, l := 0x34 } [] [0xE9]) [] =
      some ({ cpu0 with h := 0x12, l := 0x34, pc := 0x1234 }, [], 4) := by
  decide +kernel

/-- 45 rule R651, 95 section 2.1. -/
theorem test_jp_nz_nn_taken :
    outcome (start cpu0 [] [0xC2, 0x00, 0x20]) [] =
      some ({ cpu0 with pc := 0x2000 }, [], 16) := by
  decide +kernel

/-- 45 rule R651, 95 section 2.1. -/
theorem test_jp_z_nn_not_taken :
    outcome (start cpu0 [] [0xCA, 0x00, 0x20]) [] =
      some ({ cpu0 with pc := 0x0103 }, [], 12) := by
  decide +kernel

/-- 45 rule R653, 95 section 2.1. -/
theorem test_jr_e_plus_5 :
    outcome (start cpu0 [] [0x18, 0x05]) [] =
      some ({ cpu0 with pc := 0x0107 }, [], 12) := by
  decide +kernel

/-- 45 rule R654, 95 section 2.1. -/
theorem test_jr_nc_e_not_taken :
    outcome (start { cpu0 with f := flags 1 } [] [0x30, 0x10]) [] =
      some ({ cpu0 with pc := 0x0102, f := flags 1 }, [], 8) := by
  decide +kernel

/-- 45 rule R654, 95 section 2.1. -/
theorem test_jr_z_e_taken_minus_128 :
    outcome (start { cpu0 with f := flags 8 } [] [0x28, 0x80]) [] =
      some ({ cpu0 with pc := 0x0082, f := flags 8 }, [], 12) := by
  decide +kernel

/-- 45 rule R655, 95 section 2.1. -/
theorem test_call_nn :
    outcome (start cpu0 [] [0xCD, 0x34, 0x12]) [0xFFFD, 0xFFFC] =
      some ({ cpu0 with sp := 0xFFFC, pc := 0x1234 }, [0x01, 0x03], 24) := by
  decide +kernel

/-- 45 rule R656, 95 section 2.1. -/
theorem test_call_nz_nn_not_taken :
    outcome (start { cpu0 with f := flags 8 } [] [0xC4, 0x34, 0x12]) [] =
      some ({ cpu0 with pc := 0x0103, f := flags 8 }, [], 12) := by
  decide +kernel

/-- 45 rule R656, 95 section 2.1. -/
theorem test_call_c_nn_taken :
    outcome (start { cpu0 with f := flags 1 } [] [0xDC, 0x34, 0x12]) [0xFFFD, 0xFFFC] =
      some ({ cpu0 with sp := 0xFFFC, pc := 0x1234, f := flags 1 }, [0x01, 0x03], 24) := by
  decide +kernel

/-- 45 rule R657, 95 section 2.1. -/
theorem test_ret :
    outcome (start { cpu0 with sp := 0xC000 } [(0xC000, 0x00), (0xC001, 0x02)] [0xC9]) [] =
      some ({ cpu0 with sp := 0xC002, pc := 0x0200 }, [], 16) := by
  decide +kernel

/-- 45 rule R658, 95 section 2.1. -/
theorem test_ret_z_not_taken :
    outcome (start { cpu0 with sp := 0xC000 } [] [0xC8]) [] =
      some ({ cpu0 with sp := 0xC000, pc := 0x0101 }, [], 8) := by
  decide +kernel

/-- 45 rule R658, 95 section 2.1. -/
theorem test_ret_nc_taken :
    outcome (start { cpu0 with sp := 0xC000 } [(0xC000, 0x34), (0xC001, 0x12)] [0xD0]) [] =
      some ({ cpu0 with sp := 0xC002, pc := 0x1234 }, [], 20) := by
  decide +kernel

/-- 45 rule R661, 95 section 2.1. -/
theorem test_reti :
    outcome (start { cpu0 with sp := 0xC000 } [(0xC000, 0x00), (0xC001, 0x03)] [0xD9]) [] =
      some ({ cpu0 with sp := 0xC002, pc := 0x0300, ime := true }, [], 16) := by
  decide +kernel

/-- 45 rule R665, 95 section 2.1. -/
theorem test_rst_0x38 :
    outcome (start cpu0 [] [0xFF]) [0xFFFD, 0xFFFC] =
      some ({ cpu0 with sp := 0xFFFC, pc := 0x0038 }, [0x01, 0x01], 16) := by
  decide +kernel

/-- 40 rule R406, by hand. -/
theorem test_ld_a_at_de :
    outcome (start { cpu0 with d := 0xC0, e := 0x40 } [(0xC040, 0x5D)] [0x1A]) [] =
      some ({ cpu0 with d := 0xC0, e := 0x40, a := 0x5D, pc := 0x0101 }, [], 8) := by
  decide +kernel

/-- 40 rule R407, by hand. -/
theorem test_ld_at_bc_a :
    outcome (start { cpu0 with a := 0xAC, b := 0xC0, c := 0x50 } [] [0x02]) [0xC050] =
      some ({ cpu0 with a := 0xAC, b := 0xC0, c := 0x50, pc := 0x0101 }, [0xAC], 8) := by
  decide +kernel

/-- 40 rule R416, by hand. -/
theorem test_ld_hld_a :
    outcome (start { cpu0 with a := 0x22, h := 0xC1 } [] [0x32]) [0xC100] =
      some ({ cpu0 with a := 0x22, h := 0xC0, l := 0xFF, pc := 0x0101 }, [0x22], 8) := by
  decide +kernel

/-- 40 rule R417, by hand. -/
theorem test_ld_a_hli :
    outcome (start { cpu0 with h := 0xC0, l := 0xFF } [(0xC0FF, 0x67)] [0x2A]) [] =
      some ({ cpu0 with h := 0xC1, l := 0x00, a := 0x67, pc := 0x0101 }, [], 8) := by
  decide +kernel

/-- 42 rule R514, by hand. -/
theorem test_adc_a_at_hl :
    outcome (start { cpu0 with a := 0x80, h := 0xC0, f := flags 1 } [(0xC000, 0x7F)] [0x8E]) [] =
      some ({ cpu0 with a := 0x00, h := 0xC0, f := flags 11, pc := 0x0101 }, [], 8) := by
  decide +kernel

/-- 42 rule R517, by hand. -/
theorem test_sub_a_at_hl :
    outcome (start { cpu0 with a := 0x3E, h := 0xC0 } [(0xC000, 0x40)] [0x96]) [] =
      some ({ cpu0 with a := 0xFE, h := 0xC0, f := flags 5, pc := 0x0101 }, [], 8) := by
  decide +kernel

/-- 42 rule R520, by hand. -/
theorem test_sbc_a_at_hl :
    outcome (start { cpu0 with a := 0x3B, h := 0xC0, f := flags 1 } [(0xC000, 0x4F)] [0x9E]) [] =
      some ({ cpu0 with a := 0xEB, h := 0xC0, f := flags 7, pc := 0x0101 }, [], 8) := by
  decide +kernel

/-- 42 rule R523, by hand. -/
theorem test_and_a_at_hl :
    outcome (start { cpu0 with a := 0x5A, h := 0xC0 } [(0xC000, 0xA5)] [0xA6]) [] =
      some ({ cpu0 with a := 0x00, h := 0xC0, f := flags 10, pc := 0x0101 }, [], 8) := by
  decide +kernel

/-- 42 rule R526, by hand. -/
theorem test_xor_a_at_hl :
    outcome (start { cpu0 with a := 0xFF, h := 0xC0 } [(0xC000, 0x8A)] [0xAE]) [] =
      some ({ cpu0 with a := 0x75, h := 0xC0, pc := 0x0101 }, [], 8) := by
  decide +kernel

/-- 42 rule R530, by hand. -/
theorem test_or_a_n :
    outcome (start { cpu0 with a := 0x5A } [] [0xF6, 0x03]) [] =
      some ({ cpu0 with a := 0x5B, pc := 0x0102 }, [], 8) := by
  decide +kernel

/-- 44 rule R613, by hand. -/
theorem test_rrc_at_hl :
    outcome (start { cpu0 with h := 0xC0 } [(0xC000, 0x01)] [0xCB, 0x0E]) [0xC000] =
      some ({ cpu0 with h := 0xC0, f := flags 1, pc := 0x0102 }, [0x80], 16) := by
  decide +kernel

/-- 44 rule R615, by hand. -/
theorem test_rl_at_hl :
    outcome (start { cpu0 with h := 0xC0, f := flags 1 } [(0xC000, 0x91)] [0xCB, 0x16]) [0xC000] =
      some ({ cpu0 with h := 0xC0, f := flags 1, pc := 0x0102 }, [0x23], 16) := by
  decide +kernel

/-- 44 rule R617, by hand. -/
theorem test_rr_at_hl :
    outcome (start { cpu0 with h := 0xC0 } [(0xC000, 0x8A)] [0xCB, 0x1E]) [0xC000] =
      some ({ cpu0 with h := 0xC0, pc := 0x0102 }, [0x45], 16) := by
  decide +kernel

/-- 44 rule R619, by hand. -/
theorem test_sla_at_hl :
    outcome (start { cpu0 with h := 0xC0 } [(0xC000, 0xFF)] [0xCB, 0x26]) [0xC000] =
      some ({ cpu0 with h := 0xC0, f := flags 1, pc := 0x0102 }, [0xFE], 16) := by
  decide +kernel

/-- 44 rule R621, by hand. -/
theorem test_sra_at_hl :
    outcome (start { cpu0 with h := 0xC0 } [(0xC000, 0x8A)] [0xCB, 0x2E]) [0xC000] =
      some ({ cpu0 with h := 0xC0, pc := 0x0102 }, [0xC5], 16) := by
  decide +kernel

/-- 44 rule R623, by hand. -/
theorem test_swap_at_hl :
    outcome (start { cpu0 with h := 0xC0, f := flags 1 } [(0xC000, 0xF1)] [0xCB, 0x36]) [0xC000] =
      some ({ cpu0 with h := 0xC0, pc := 0x0102 }, [0x1F], 16) := by
  decide +kernel

/-- 46 rule R700, by hand. -/
theorem test_nop :
    outcome (start cpu0 [] [0x00]) [] =
      some ({ cpu0 with pc := 0x0101 }, [], 4) := by
  decide +kernel

/-- 46 rule R706, by hand. -/
theorem test_di :
    outcome (start { cpu0 with ime := true } [] [0xF3]) [] =
      some ({ cpu0 with ime := false, pc := 0x0101 }, [], 4) := by
  decide +kernel

/-- 46 rule R707, by hand. -/
theorem test_ei :
    outcome (start cpu0 [] [0xFB]) [] =
      some ({ cpu0 with eiDelay := 2, pc := 0x0101 }, [], 4) := by
  decide +kernel

/-- 46 rule R708, by hand. -/
theorem test_ei_before_halt :
    outcome (start cpu0 [] [0xFB, 0x76]) [] =
      some ({ cpu0 with eiDelay := 1, pc := 0x0101 }, [], 4) := by
  decide +kernel

/-- 46 rule R701, by hand. -/
theorem test_halt :
    outcome (start { cpu0 with ime := true } [] [0x76]) [] =
      some ({ cpu0 with ime := true, halted := true, pc := 0x0101 }, [], 4) := by
  decide +kernel

/-- Three bytes of the eleven: the fault of 46 rule R710, with the opcode's address. -/
theorem test_illegal :
    [0xD3, 0xEC, 0xFD].map (fun op : Byte =>
        match step (start cpu0 [] [op]) with
        | .fault f => some f
        | .next _ | .refused _ => none) =
      [some (.illegalOpcode 0x0100 0xD3), some (.illegalOpcode 0x0100 0xEC), some (.illegalOpcode 0x0100 0xFD)] := by
  decide +kernel

/-- The HALT bug: a request pending with IME clear sets `skip_inc` (46 rule R701). -/
theorem test_halt_bug :
    outcome { start cpu0 [(0xFFFF, 0x04)] [0x76] with iflag := 0x04 } [] =
      some ({ cpu0 with skipInc := true, pc := 0x0101 }, [], 4) := by
  decide +kernel

/-- The parameters of 95 section 2.1, DMG and CGB. -/
def params (cgb : Bool) : Params := { Params.reset with cgb := cgb, haltBugCgb := false, stopSkipsNextByte := false }

/-- STOP stops the DMG machine and switches the speed of the CGB machine (46 rule R705). -/
theorem test_stop :
    outcome { start cpu0 [] [0x10, 0x00] with params := params false } [] =
      some ({ cpu0 with stopped := true, pc := 0x0101 }, [], 4) ∧
    outcome { start cpu0 [] [0x10, 0x00] with params := params true, key1Prep := true } [] =
      some ({ cpu0 with pc := 0x0101 }, [], 4) := by
  and_intros <;> decide +kernel

/-- The dispatch of 95 section 1.9: VBlank before Timer, the Timer request kept. -/
theorem test_dispatch :
    outcome { start { cpu0 with ime := true, sp := 0xD000 } [(0xFFFF, 0x05)] [0x00] with iflag := 0x05 } [0xCFFF, 0xCFFE, 0xFF0F] =
      some ({ cpu0 with sp := 0xCFFE, pc := 0x0040 }, [0x01, 0x00, 0xE4], 20) := by
  decide +kernel

/-- Two overflows of TIMA in one instruction (95 section 2.2). -/
theorem test_timer_two_overflows :
    outcome { start { cpu0 with sp := 0xD000 } [] [0xCD, 0x00, 0x02] with
        timer := { Timer.reset with tac := 5, tima := 0xFF, tma := 0xFF, sub := 8 } } [0xFF05, 0xFF0F] =
      some ({ cpu0 with sp := 0xCFFE, pc := 0x0200 }, [0xFF, 0xE4], 24) := by
  decide +kernel

/-- The line modes of 95 section 1.4: the PPU after 8 cycles from reset, and at the ends of modes 2 and 3 of line 0. -/
theorem test_line_modes :
    [8, 87, 88, 259, 260].map (fun n => (State.ppuRun n State.reset).ppu.mode) =
      [.oamSearch, .oamSearch, .transfer, .transfer, .hblank] := by
  decide +kernel

/-- The registers of the APU after reset (95 section 2.9). -/
theorem test_apu_reads :
    (List.range 23).map (fun i => State.reset.peek true (0xFF10 + BitVec.ofNat 16 i)) =
      [0x80, 0xBF, 0xF3, 0xFF, 0xBF, 0xFF, 0x3F, 0x00, 0xFF, 0xBF, 0x7F, 0xFF] ++
      [0x9F, 0xFF, 0xBF, 0xFF, 0xFF, 0x00, 0x00, 0xBF, 0x77, 0xF3, 0xF1] := by
  decide +kernel

/-- A block at the mode-0 entry of a line, the last one, which wraps in its bank; and none in DMG mode (62 rules R1161, R1164). -/
theorem test_hblank_dma :
    (let s (cgb : Bool) : State := { start cpu0 [(0xC000, 0x01), (0xC008, 0x09)] [] with
       params := { Params.reset with cgb := cgb }
       ppu := { Ppu.reset with
         line := 0, lineCycle := 251, mode := .transfer, hdmaSrc := 0xC000, hdmaDst := 0x1FF8, hdmaActive := true, hdmaLeft := 1 } }
     let run (cgb : Bool) := (State.ppuRun 1 (s cgb)).ppu
     (run true).vram = [(0, 0x09), (0x1FF8, 0x01)] ∧ (run true).readHdma5 = 0xFF ∧ (run false).vram = []) := by
  decide +kernel

/-- The palette port of 95 section 1.8: the byte goes to the index, which advances and wraps. -/
theorem test_palette_port :
    (let s (r : Byte) : State := { State.reset with params := { Params.reset with cgb := true }, ppu := { Ppu.reset with bcps := r } }
     (((s 0x80).busWrite 0xFF69 0xFF).peek true 0xFF68 = 0xC1 ∧ ((s 0x80).busWrite 0xFF69 0xFF).ppu.bgPal = [(0, 0xFF)]) ∧
     (((s 0xBF).busWrite 0xFF69 0x01).peek true 0xFF68 = 0xC0 ∧ ((s 0xBF).busWrite 0xFF69 0x01).ppu.bgPal = [(0x3F, 0x01)]) ∧
     ((s 0x05).busWrite 0xFF69 0x33).peek true 0xFF69 = 0x33) := by
  decide +kernel

/-- The joypad of 95 section 2.6: pressing down with the d-pad selected requests, pressing A does not. -/
theorem test_joypad_event :
    (let s : State := { State.reset with joy := { Joypad.reset with sel := 2 } }
     let t := s.joypadEvent 3 true
     (t.peek true 0xFF00 = 0xE7 ∧ t.iflag = 0x10) ∧
     (({ t with iflag := 0 } : State).joypadEvent 4 true).iflag = 0) := by
  decide +kernel

/-- 511 days 23:59:59 and one second more (95 section 2.5). -/
theorem test_rtc_wrap :
    (({ Cart.reset with hasRtc := true, rtcLive := { s := 59, m := 59, h := 23, dl := 0xFF, dh := 0x01 } } : Cart).rtcAdvance 1).rtcLive =
      { s := 0, m := 0, h := 0, dl := 0, dh := 0x80 } := by
  decide +kernel

/-! ### The hypotheses of the statements -/

/-- Whether an answer is a next state. -/
def completes (r : Result) : Bool :=
  match r with
  | .next _ => true
  | .fault _ | .refused _ => false

/-- An answer that is a next state has one. -/
theorem exists_next {r : Result} (h : completes r = true) : ∃ t, r = .next t := by
  cases r <;> simp_all [completes]

/-- A machine with bytes at 0x0100, a byte in work RAM and interrupts enabled but not requested. -/
def busy : State := start { cpu0 with ime := true } [(0xC000, 0x07), (0xFFFF, 0x1F)] [0x06, 0x42]

/-- The same about to fetch across the top of the address space: LD B,0x42 at 0xFFFF and 0x0000. -/
def atTop : State := start { cpu0 with pc := 0xFFFF } [(0xFFFF, 0x06), (0x0000, 0x42)] []

/-- `DecodeOfEncode`. -/
theorem test_decode_of_encode_hypotheses :
    ((Instr.ldRrNn .sp 0xFFFF).wf = true ∧ (Instr.ldRrNn .sp 0xFFFF = .cbPrefix → [(0x76 : Byte)] = [])) ∧
    (Instr.cbPrefix.wf = true ∧ (Instr.cbPrefix = .cbPrefix → ([] : List Byte) = [])) := by decide

/-- `StepRunsDecodedInstruction`, both clauses, the first also where PC wraps. -/
theorem test_step_hypotheses :
    (busy.Ready ∧ busy.cpu.halted = false ∧ busy.stepStart.cpu.ime = true ∧ (∀ j, j < 5 → busy.requested j = false) ∧
      busy.cpu.skipInc = false ∧ decode (State.bytesAt 3 busy.stepStart busy.cpu.pc) = .ok (.ldRN .b 0x42, [0x00])) ∧
    (atTop.Ready ∧ atTop.cpu.skipInc = false ∧
      decode (State.bytesAt 3 atTop.stepStart atTop.cpu.pc) = .ok (.ldRN .b 0x42, [0x00])) ∧
    (let s : State := { busy with cpu := { busy.cpu with skipInc := true } }
     s.Ready ∧ s.cpu.halted = false ∧ s.cpu.skipInc = true ∧
      decode (s.stepStart.busRead s.cpu.pc ::
        State.bytesAt 2 (s.stepStart.draw (s.stepStart.readDraws s.cpu.pc)) s.cpu.pc) = .ok (.ldRN .b 0x06, [0x42])) := by
  unfold State.Ready
  and_intros <;> decide +kernel

/-- `InterruptDispatch`: the first source, and the last by a deferred EI. -/
theorem test_dispatch_hypotheses :
    (let s : State := { busy with iflag := 0x1F }
     s.Ready ∧ s.stepStart.cpu.ime = true ∧ s.requested 0 = true ∧ ∀ j, j < 0 → s.requested j = false) ∧
    (let s : State := { start { cpu0 with eiDelay := 1 } [(0xFFFF, 0x10)] [] with iflag := 0x1F }
     s.Ready ∧ s.stepStart.cpu.ime = true ∧ s.requested 4 = true ∧ ∀ j, j < 4 → s.requested j = false) := by
  refine ⟨⟨⟨rfl, rfl, rfl⟩, rfl, ?_, ?_⟩, ⟨rfl, rfl, rfl⟩, rfl, ?_, ?_⟩ <;> decide +kernel

/-- `HaltedStep`: waiting and woken. -/
theorem test_halted_hypotheses :
    (let s : State := { busy with cpu := { busy.cpu with halted := true } }
     s.Ready ∧ s.cpu.halted = true ∧ ∀ j, j < 5 → s.requested j = false) ∧
    (let s : State := { busy with cpu := { busy.cpu with halted := true }, iflag := 0x10 }
     s.Ready ∧ s.cpu.halted = true ∧ 4 < 5 ∧ s.requested 4 = true) := by
  refine ⟨⟨⟨rfl, rfl, rfl⟩, rfl, ?_⟩, ⟨rfl, rfl, rfl⟩, rfl, ?_, ?_⟩ <;> decide +kernel

/-- `QuiescentStates`: faulted, stopped, and a joypad event. -/
theorem test_quiescent_hypotheses :
    ({ busy with fault := some (.illegalOpcode 0x0100 0xD3) } : State).fault = some (.illegalOpcode 0x0100 0xD3) ∧
    (let s : State := { busy with cpu := { busy.cpu with stopped := true } }
     s.fault = none ∧ s.inputs = [] ∧ s.cpu.stopped = true) ∧
    (let s : State := { busy with inputs := [.joypad 7 true, .cpuStep] }
     s.fault = none ∧ s.inputs = .joypad 7 true :: [.cpuStep]) := by
  and_intros <;> rfl

/-- `UndefinedOpcodeFaults` and `OnlyUndefinedBytesStop`: a step at 0xFD, and the two faults. -/
theorem test_undefined_hypotheses :
    (let s := start cpu0 [] [0xFD]
     s.Ready ∧ s.cpu.halted = false ∧ s.stepStart.cpu.ime = false ∧ s.stepStart.busRead s.cpu.pc = 0xFD ∧
      (0xFD : Byte) ∈ illegalOpcodes ∧ ∃ f, step s = .fault f) ∧
    exec (.illegal 0xD3) busy = .fault (.illegalOpcode busy.opAddr 0xD3) := by
  have stops {r : Result} (h : (match r with | .fault _ => true | .next _ | .refused _ => false) = true) : ∃ f, r = .fault f := by
    cases r <;> simp_all
  exact ⟨⟨⟨rfl, rfl, rfl⟩, rfl, rfl, by decide +kernel, by decide, stops (by decide +kernel)⟩, rfl⟩

/-- `ControlStateWriters`: each of the six changes happens. -/
theorem test_control_writers_hypotheses :
    (∃ t, exec .di busy = .next t ∧ t.cpu.ime ≠ busy.cpu.ime) ∧
    (∃ t, exec .ei busy = .next t ∧ t.cpu.eiDelay ≠ busy.cpu.eiDelay) ∧
    (∃ t, exec .halt busy = .next t ∧ t.cpu.halted ≠ busy.cpu.halted) ∧
    (let s : State := { busy with cpu := cpu0, iflag := 0x01, params := params false }
     ∃ t, exec .halt s = .next t ∧ t.cpu.skipInc ≠ s.cpu.skipInc) ∧
    (let s : State := { busy with params := params false }
     ∃ t, exec .stop s = .next t ∧ t.cpu.stopped ≠ s.cpu.stopped) ∧
    (let s : State := { busy with params := params true, key1Prep := true }
     ∃ t, exec .stop s = .next t ∧ t.doubleSpeed ≠ s.doubleSpeed) := by
  and_intros <;> exact ⟨_, rfl, by decide +kernel⟩

/-- `FlagAndStackPointerWriters` and `NonStoringFrame`. -/
theorem test_writers_hypotheses :
    (Instr.ldRHl .b).wf = true ∧ (Instr.ldRHl .b).keepsFlags = true ∧ (Instr.ldRHl .b).writesSp = false ∧
    (Instr.ldRHl .b).storesOrStops = false ∧ ∃ t, exec (.ldRHl .b) busy = .next t := ⟨rfl, rfl, rfl, rfl, _, rfl⟩

/-- The invariants that every step keeps, on a state that a run has not reached: line 153 at cycle 455, an active HBlank DMA. -/
theorem test_invariant_hypotheses :
    let s : State := { busy with
      params := params true
      ppu := { busy.ppu with lineCycle := 455, hdmaActive := true, hdmaLeft := 128, mode3Len := 232 }
      cart := { busy.cart with variant := .mbc1 } }
    s.MemWf ∧ s.MemBounds ∧ s.cart.Shaped ∧ s.ppu.LineInv ∧ s.Ranges ∧ s.apu.Ranges ∧ s.cart.BankInv ∧ s.bootMapped = false ∧
    ∃ t, step s = .next t := by
  and_intros
  all_goals first | decide +kernel | (refine exists_next ?_; decide +kernel)

/-- A load of `n` zero bytes but for the color byte and the type byte of the header. -/
def request (n : Nat) (color type : Byte) : LoadRequest where
  image := List.replicate 0x143 0 ++ color :: (List.replicate 3 0 ++ type :: List.replicate (n - 0x148) 0)
  bootRom := none
  saveRam := []
  rtc := none
  colorHardware := true
  timed := true
  ramPermissive := false
  haltBugCgb := false
  stopSkipsNextByte := false
  serialNormal := 4096
  serialFast := 128

/-- Its length. -/
theorem request_length (n : Nat) (color type : Byte) (h : 0x148 ≤ n) : (request n color type).image.length = n := by
  simp only [request, List.length_append, List.length_cons, List.length_replicate]; omega

/-- Its type byte. -/
theorem request_type (n : Nat) (color type : Byte) : (request n color type).image.getD 0x147 0 = type := by
  simp [-List.reduceReplicate, request, List.getD_eq_getElem?_getD, List.getElem?_append]

/-- Its color byte. -/
theorem request_color (n : Nat) (color type : Byte) : (request n color type).image.getD 0x143 0 = color := by
  simp [-List.reduceReplicate, request, List.getD_eq_getElem?_getD]

/-- `LoadMeetsInvariants`: the shortest image loads. -/
theorem test_load_hypotheses : ∃ s, load (request 0x4000 0x00 0x00) State.reset = .ok s := by
  have h := request_length 0x4000 0x00 0x00 (by decide)
  simp only [load, LoadRequest.byteAt, request_type, h]
  exact ⟨_, rfl⟩

/-- `LoadOutcome`: an image one byte short, a boot ROM of a wrong length, both types that are refused, and images that load, one
for each mode, without and with a boot ROM. -/
theorem test_load_outcome_hypotheses :
    (request 0x3FFF 0x00 0x00).image.length < 0x4000 ∧
    (∃ b, some [(0x00 : Byte)] = some b ∧ b.length ≠ 256) ∧
    (¬ (request 0x4000 0x00 0x22).image.length < 0x4000 ∧ (request 0x4000 0x00 0x22).image.getD 0x147 0 = 0x22) ∧
    (¬ (request 0x4000 0x00 0xFE).image.length < 0x4000 ∧ (request 0x4000 0x00 0xFE).image.getD 0x147 0 = 0xFE) ∧
    (¬ (request 0x4000 0x80 0x03).image.length < 0x4000 ∧ (request 0x4000 0x80 0x03).image.getD 0x147 0 = 0x03 ∧
      (request 0x4000 0x80 0x03).bootRom = none ∧ (0x03 : Byte) ≠ 0x22 ∧ (0x03 : Byte) ≠ 0xFE) ∧
    ((request 0x4000 0x80 0x03).colorHardware && ((request 0x4000 0x80 0x03).image.getD 0x143 0).getLsbD 7) = true ∧
    ((request 0x4000 0x00 0x03).colorHardware && ((request 0x4000 0x00 0x03).image.getD 0x143 0).getLsbD 7) = false ∧
    (List.replicate 256 (0x00 : Byte)).length = 256 := by
  simp (disch := decide) only [request_length, request_type, request_color, List.length_replicate]
  exact ⟨by decide, ⟨_, rfl, by decide⟩, by decide, by decide, ⟨by decide, trivial, rfl, by decide⟩, rfl, rfl, trivial⟩

/-- `ClocksLeaveCpuAndMemory`: DMG mode, no HBlank DMA, a request. -/
theorem test_clocks_hypotheses :
    busy.params.cgb = false ∧ busy.ppu.hdmaActive = false ∧ ({ busy with iflag := 0x10 } : State).iflag.getLsbD 4 = true := by decide +kernel

/-- `ReadAfterWrite`, and the stores and stack statements that speak of open and plain addresses. -/
theorem test_open_ram_hypotheses :
    ([0xC000, 0xDFFF, 0xE000, 0xFDFF, 0xFF80, 0xFFFE, 0xFFFF, 0x8000, 0x9FFF, 0xFE00, 0xFE9F] : List Word).all busy.openRam = true ∧
    ([0x8000, 0xA000, 0xFDFF, 0xFE00, 0xFEFF, 0xFF80, 0xFFFF] : List Word).all busy.plainAt = true ∧
    ([0x0000, 0x7FFF, 0xFF00, 0xFF7F] : List Word).all busy.plainAt = false ∧
    (busy.plainRead 0x0000 = true ∧ busy.plainRead 0xFFFF = true ∧ busy.cellAt 0xC000 ≠ busy.cellAt 0xC001) := by
  and_intros <;> decide +kernel

/-- A cartridge of a variant with 8 KiB of enabled RAM and 512 banks. -/
def withCart (v : Variant) : State :=
  { busy with cart := { Cart.reset with
    variant := v, romBanks := 512, romLen := 0x800000, hasRam := true, ramSize := 0x2000, ramEnable := true } }

/-- `ReadAfterWrite`, its clause on cartridge RAM, at both ends of the window. -/
theorem test_cart_ram_hypotheses :
    ((withCart .mbc1).cellAt 0xA000 = some (.cartRam 0) ∧ (withCart .mbc1).windowOpen 0xA000 = false) ∧
    (withCart .mbc5).cellAt 0xBFFF = some (.cartRam 0x1FFF) ∧
    (withCart .mbc2).cellAt 0xBFFF = some (.cartRam 0x1FF) := by
  and_intros <;> decide +kernel

/-- `BusWriteFrame` and `EchoRam`: the boundary addresses of the clauses. -/
theorem test_bus_frame_hypotheses :
    busy.plainAt 0x8000 = true ∧ (0x7FFF : Word).toNat < 0x8000 ∧
    (0xFF04 ≤ (0xFF04 : Word).toNat ∧ (0xFF07 : Word).toNat ≤ 0xFF07) ∧
    (0xFF10 ≤ (0xFF10 : Word).toNat ∧ (0xFF3F : Word).toNat ≤ 0xFF3F) ∧
    (0xFF40 ≤ (0xFF40 : Word).toNat ∧ (0xFF4B : Word).toNat ≤ 0xFF4B ∧ (0xFF4B : Word) ≠ 0xFF46) ∧
    (0xFF51 ≤ (0xFF51 : Word).toNat ∧ (0xFF54 : Word).toNat ≤ 0xFF54) ∧
    (0xFF68 ≤ (0xFF68 : Word).toNat ∧ (0xFF6B : Word).toNat ≤ 0xFF6B) ∧
    (0xE000 ≤ (0xE000 : Word).toNat ∧ (0xFDFF : Word).toNat < 0xFE00) := by
  and_intros <;> decide +kernel

/-- `UnmappedAddresses`: the ends of the ranges, in both modes. -/
theorem test_unmapped_hypotheses :
    ([0xFEA0, 0xFEFF, 0xFF03, 0xFF08, 0xFF0E, 0xFF15, 0xFF1F, 0xFF27, 0xFF2F, 0xFF4C, 0xFF7F] : List Word).all
      (fun a => unmappedAddress a.toNat && !busy.windowOpen a) = true ∧
    busy.params.cgb = false ∧
    ([0xFF4D, 0xFF4F, 0xFF51, 0xFF55, 0xFF68, 0xFF6B, 0xFF70] : List Word).all
      (fun a => cgbOnlyAddress a.toNat && !busy.windowOpen a) = true := by
  and_intros <;> decide +kernel

/-- `RegisterReadback`: a row of each table, and the other registers. -/
theorem test_readback_hypotheses :
    ((0xFF07, 0x07, 0xF8) ∈ readback ∧ busy.windowOpen 0xFF07 = false) ∧
    ((0xFF70, 0x07, 0xF8) ∈ readbackCgb ∧ (params true).cgb = true ∧ busy.windowOpen 0xFF70 = false) ∧
    ((0xFF10, 0x7F, 0x80) ∈ readbackApu ∧ busy.apu.power = true ∧ busy.windowOpen 0xFF10 = false) ∧
    (busy.windowOpen 0xFF30 = false ∧ busy.windowOpen 0xFF3F = false ∧ busy.windowOpen 0xFF41 = false) ∧
    (busy.windowOpen 0xFF02 = false ∧ busy.windowOpen 0xFF4D = false ∧ busy.windowOpen 0xFF26 = false) ∧
    (0x7F : Byte).getLsbD 7 = false ∧
    (busy.windowOpen 0xFF44 = false ∧ busy.windowOpen 0xFF69 = false ∧ busy.windowOpen 0xFF6B = false) := by
  and_intros <;> decide +kernel

/-- `VideoLocks`: modes 2 and 3, at the ends of the ranges. -/
theorem test_locks_hypotheses :
    let s (m : PpuMode) : State := { busy with ppu := { busy.ppu with mode := m } }
    ((s .transfer).ppu.lcdc.getLsbD 7 = true ∧ (s .transfer).windowOpen 0x8000 = false ∧ (s .transfer).windowOpen 0x9FFF = false) ∧
    ((s .oamSearch).ppu.lcdc.getLsbD 7 = true ∧ (s .oamSearch).windowOpen 0xFE00 = false ∧
      (s .oamSearch).windowOpen 0xFE9F = false) := by
  and_intros <;> decide +kernel

/-- `OamDmaWindow`: before a transfer, in the last cycle of the window, and just past it. -/
theorem test_window_hypotheses :
    busy.windowOpen 0xFF46 = false ∧
    (let s : State := { busy with cycles := 639, dmaUntil := 640 }
     s.params.timed = true ∧ s.cycles < s.dmaUntil ∧ ¬ (0xFF80 ≤ (0xFFFF : Word).toNat ∧ (0xFFFF : Word).toNat ≤ 0xFFFE) ∧
      (0xFF80 ≤ (0xFFFE : Word).toNat ∧ (0xFFFE : Word).toNat ≤ 0xFFFE)) ∧
    (let s : State := { busy with cycles := 640, dmaUntil := 640 }
     s.params.timed = true ∧ s.dmaUntil ≤ s.cycles) := by
  and_intros <;> decide +kernel

/-- `RamGate`: a control write of every variant that has one, and both ends of the window. -/
theorem test_ram_gate_hypotheses :
    ([.mbc1, .mbc2, .mbc3, .mbc5, .huc1] : List Variant).all (fun v =>
      decide ((withCart v).cart.variant = v) && !(withCart v).windowOpen 0x1EFF && !(withCart v).windowOpen 0xA000 &&
      !(withCart v).windowOpen 0xBFFF && !(withCart v).params.ramPermissive) = true ∧
    ((0x1EFF : Word).toNat < 0x2000 ∧ (0x3EFF : Word).toNat < 0x4000 ∧ (0x3EFF : Word).toNat / 256 % 2 = 0) ∧
    (0xA000 ≤ (0xA000 : Word).toNat ∧ (0xBFFF : Word).toNat < 0xC000) ∧
    ((0x0B : Byte).toNat % 16 ≠ 10 ∧ (0x0A : Byte) ≠ 0x0E) ∧
    ((withCart .huc1).cart.variant = .huc1 ∧ (0x1FFF : Word).toNat < 0x2000 ∧ (withCart .huc1).windowOpen 0x1FFF = false ∧
      ((withCart .huc1).busWrite 0x1FFF 0x0E).infraredAt 0xBFFF = true) := by
  and_intros <;> decide +kernel

/-- `BankSwitching`: every variant, at the ends of its register. -/
theorem test_bank_hypotheses :
    ([.none, .mbc1, .mbc2, .mbc3, .mbc5, .huc1] : List Variant).all (fun v =>
      decide ((withCart v).cart.variant = v) && !(withCart v).windowOpen 0x2000 && !(withCart v).windowOpen 0x3FFF &&
      !(withCart v).windowOpen (BitVec.ofNat 16 (0x4000 + 0)) && !(withCart v).windowOpen (BitVec.ofNat 16 (0x4000 + 0x3FFF))) = true ∧
    (0x2000 ≤ (0x2000 : Word).toNat ∧ (0x3FFF : Word).toNat < 0x4000 ∧ (0x2FFF : Word).toNat < 0x3000) ∧
    (0x3000 ≤ (0x3000 : Word).toNat ∧ (0x3FFF : Word).toNat / 256 % 2 = 1) := by
  and_intros <;> decide +kernel

/-- `StackWrites`, `StackReads` and `Jumps`: every condition holds somewhere and fails somewhere. -/
theorem test_condition_hypotheses :
    (CondHolds .nz (flags 0) ∧ ¬ CondHolds .nz (flags 8)) ∧ (CondHolds .z (flags 8) ∧ ¬ CondHolds .z (flags 0)) ∧
    (CondHolds .nc (flags 0) ∧ ¬ CondHolds .nc (flags 1)) ∧ (CondHolds .c (flags 1) ∧ ¬ CondHolds .c (flags 0)) := by
  simp [CondHolds, flags, Nat.testBit]

/-- `StackWrites` and `PopReversesPush`: both bytes open, also where SP wraps. -/
theorem test_stack_hypotheses :
    (busy.openRam (busy.cpu.sp - 1) = true ∧ busy.openRam (busy.cpu.sp - 2) = true ∧
      busy.cellAt (busy.cpu.sp - 1) ≠ busy.cellAt (busy.cpu.sp - 2)) ∧
    (let s : State := { busy with cpu := { busy.cpu with sp := 0x0000 } }
     s.openRam (s.cpu.sp - 1) = true ∧ s.openRam (s.cpu.sp - 2) = true) := by
  and_intros <;> decide +kernel

/-- `BcdArithmetic` at its upper end. -/
theorem test_bcd_hypotheses :
    let s : State := { busy with cpu := { cpu0 with a := 0x99, b := 0x99 } }
    99 < 100 ∧ s.cpu.a.toNat = bcd 99 ∧ (s.cpu.reg .b).toNat = bcd 99 := by decide +kernel

/-- `SystemInstructions`: a request pending or not, IME set or not, either mode, and both forms of EI. -/
theorem test_system_hypotheses :
    (¬ ∃ j, j < 5 ∧ busy.requested j = true) ∧
    (let s : State := { busy with iflag := 0x10 }
     (4 < 5 ∧ s.requested 4 = true) ∧ s.cpu.ime = true) ∧
    (let s : State := { busy with cpu := cpu0, iflag := 0x10, params := params true, key1Prep := true }
     s.requested 4 = true ∧ s.cpu.ime = false ∧ s.params.cgb = true ∧ s.params.haltBugCgb = false ∧ s.key1Prep = true ∧
      s.cpu.eiDelay = 0) ∧
    (params false).cgb = false ∧ ({ cpu0 with eiDelay := 2 } : Cpu).eiDelay ≠ 0 := by
  refine ⟨?_, ?_, ?_, rfl, by decide⟩
  · rintro ⟨j, hj, hr⟩
    have h : ∀ j, j < 5 → busy.requested j = false := by decide +kernel
    simp [h j hj] at hr
  · decide +kernel
  · decide +kernel

/-- `TimerClosedForm`: disabled, below the overflow, and at it. -/
theorem test_timer_hypotheses :
    ({ Timer.reset with tac := 3 } : Timer).tac.toNat < 4 ∧
    (let t : Timer := { Timer.reset with tac := 5, tima := 0xFF, sub := 15 }
     4 ≤ t.tac.toNat ∧ (t.sub + 0) / 16 < 256 - t.tima.toNat ∧ 256 - t.tima.toNat ≤ (t.sub + 1) / 16) := by
  decide +kernel

/-- `SerialTransfer`: the writes that start and that stop a transfer, one shift before the last bit, the last, and an idle port. -/
theorem test_serial_hypotheses :
    (busy.windowOpen 0xFF02 = false ∧ (0x81 : Byte).getLsbD 7 = true ∧ (0x81 : Byte).getLsbD 0 = true ∧
      (0x80 : Byte).getLsbD 0 = false ∧ (0x01 : Byte).getLsbD 7 = false) ∧
    (let s : State := { busy with serial := { sb := 0, sc := 0x81, bits := 2, phase := 512 } }
     512 = (if s.params.cgb && s.serial.sc.getLsbD 1 then s.params.serialFast else s.params.serialNormal) / 8 ∧
      s.serial.phase = ((512 : Nat) : Int) ∧ (512 - 512) / 512 + 1 < s.serial.bits ∧ s.serial.bits ≤ (1024 - 512) / 512 + 1 ∧
      0 < s.serial.bits) ∧
    busy.serial.bits = 0 := by
  and_intros <;> decide +kernel

/-- A machine at a position of the frame, in the mode of the position, with a line of ten sprites. -/
def atPosition (line cycle : Nat) : State :=
  { busy with
    params := params true
    ppu := { busy.ppu with
      lcdc := 0x93, line := line, lineCycle := cycle, mode := modeAt line cycle 232, mode3Len := 232
      hdmaSrc := 0xC000, hdmaDst := 0x1FF8, hdmaActive := true, hdmaLeft := 1 } }

/-- `LineMachine`: the LCD on before every event, and at the last position of the frame; and the LCD off. -/
theorem test_line_machine_hypotheses :
    ([(153, 455), (0, 455), (0, 79), (143, 311), (143, 455), (153, 447), (77, 100)] : List (Nat × Nat)).all (fun p =>
      (atPosition p.1 p.2).ppu.lcdc.getLsbD 7 && decide (atPosition p.1 p.2).ppu.LineInv) = true ∧
    (busy.windowOpen 0xFF44 = false ∧ busy.windowOpen 0xFF40 = false ∧ busy.windowOpen 0xFF45 = false) ∧
    (busy.ppu.lcdc.getLsbD 7 = true ∧ (0x91 : Byte).getLsbD 7 = true ∧ (0x11 : Byte).getLsbD 7 = false) ∧
    ({ busy.ppu with lcdc := 0x11 } : Ppu).lcdc.getLsbD 7 = false := by
  and_intros <;> decide +kernel

/-- `OamDmaCopy` and `JoypadRegister`. -/
theorem test_dma_hypotheses :
    busy.windowOpen 0xFF46 = false ∧ busy.windowOpen 0xFF00 = false ∧ busy.infraredAt 0xC09F = false := by
  and_intros <;> decide +kernel

/-- `VramDma`: a transfer that wraps and whose source ends at 0xDFFF, a cancel, a start, the last block of an HBlank DMA, and the
cycle before it. -/
theorem test_vram_dma_hypotheses :
    (let s : State := { busy with params := params true, ppu := { busy.ppu with hdmaSrc := 0xDFF0, hdmaDst := 0x1FF0 } }
     s.params.cgb = true ∧ s.windowOpen 0xFF55 = false ∧ (0x00 : Byte).toNat < 0x80 ∧ s.ppu.hdmaActive = false ∧
      (s.ppu.hdmaSrc + BitVec.ofNat 16 15).toNat < 0xE000 ∧ s.infraredAt (s.ppu.hdmaSrc + BitVec.ofNat 16 15) = false) ∧
    ((atPosition 0 0).ppu.hdmaActive = true ∧ (0x7F : Byte).toNat < 0x80 ∧ 0x80 ≤ (0x80 : Byte).toNat) ∧
    (let s := atPosition 143 311
     s.ppu.LineInv ∧ s.ppu.hdmaLeft ≠ 0 ∧ s.params.cgb = true ∧ s.ppu.hdmaActive = true ∧ s.ppu.lcdc.getLsbD 7 = true ∧
      s.ppu.line < 144 ∧ s.ppu.lineCycle + 1 = 80 + s.ppu.mode3Len) ∧
    (atPosition 143 310).ppu.LineInv ∧ (atPosition 143 310).ppu.lineCycle + 1 ≠ 80 + (atPosition 143 310).ppu.mode3Len := by
  and_intros <;> decide +kernel

/-- `ApuSequencer` and `LengthDisablesOnce`: power on and off, a counter at 1, a channel without length, a channel off. -/
theorem test_apu_hypotheses :
    (let a : Apu := { Apu.reset with fsCount := 8191, fsStep := 7 }
     a.power = true ∧ a.fsCount < 8192 ∧ a.fsStep < 8 ∧ ({ a with power := false } : Apu).power = false) ∧
    (let a : Apu := { Apu.reset.setReg 0x14 0x40 with ch1 := { on := true, len := 1, timer := 0 } }
     (a.reg ChanId.one.nrx4).getLsbD 6 = true ∧ 0 < (a.chan .one).len ∧ (a.reg ChanId.two.nrx4).getLsbD 6 = false ∧
      (a.chan .two).on = false) := by
  and_intros <;> decide +kernel

/-- `SpritePriority`: two sprites in OAM order that both show a color at x = 0, and a machine that shows none. -/
theorem test_sprite_hypotheses :
    let a : Sprite := { index := 0, y := 16, x := 8, tile := 0, attr := 0 }
    let b : Sprite := { index := 39, y := 16, x := 8, tile := 0, attr := 0 }
    let p : Ppu := { Ppu.reset with lcdc := 0x93, vram := [(0, 0xFF)], sprites := [a, b] }
    p.sprites.Pairwise (fun x y => x.index < y.index) ∧ a.pixel false p 0 0 ≠ 0 ∧ b.pixel false p 0 0 ≠ 0 ∧
    p.spriteSample false 0 0 = some { index := 1, sprite := a } ∧ p.spriteSample false 8 0 = none := by
  decide +kernel

/-- `RtcSeconds`: a running clock at the end of its circle, and a halted one. -/
theorem test_rtc_hypotheses :
    let c (dh : Byte) : Cart := { Cart.reset with hasRtc := true, rtcLive := { s := 59, m := 59, h := 23, dl := 0xFF, dh := dh } }
    ((c 0x01).hasRtc = true ∧ (c 0x01).rtcLive.dh.getLsbD 6 = false ∧ (c 0x01).rtcLive.s.toNat < 60 ∧
      (c 0x01).rtcLive.m.toNat < 60 ∧ (c 0x01).rtcLive.h.toNat < 24) ∧
    ((c 0x41).hasRtc = true ∧ (c 0x41).rtcLive.dh.getLsbD 6 = true) := by
  decide +kernel

end Sys2Proof.Tests
end

section
/-! PROOFS. What an instruction may change of the CPU's own state and of the speed, said once for all instructions, and the statements
about the writers of the control state, the flags and SP (O11, O12). -/

namespace Sys2Proof.Machine

/-- Between `p` and `q`, the CPU's own state before and after the instruction `i`: the control bits change by their writers
alone, the flags are kept outside the rows of 10 rule R112 that write them, and SP outside the list of 10 rule R107. -/
structure CpuFrame (i : Instr) (p q : Cpu) : Prop where
  ime : q.ime ≠ p.ime → i = .di ∨ i = .reti
  eiDelay : q.eiDelay ≠ p.eiDelay → i = .ei ∨ i = .di ∨ i = .reti
  halted : q.halted ≠ p.halted → i = .halt
  skipInc : q.skipInc ≠ p.skipInc → i = .halt
  stopped : q.stopped ≠ p.stopped → i = .stop
  flags : i.wf = true → i.keepsFlags = true → q.f = p.f
  sp : i.writesSp = false → q.sp = p.sp

namespace CpuFrame

variable {i : Instr} {p q : Cpu}

theorem of_sameControl (hc : SameControl p q) (hf : i.wf = true → i.keepsFlags = true → q.f = p.f)
    (hs : i.writesSp = false → q.sp = p.sp) : CpuFrame i p q := by
  obtain ⟨h1, h2, h3, h4, h5⟩ := hc
  exact ⟨(absurd h1 ·), (absurd h2 ·), (absurd h3 ·), (absurd h5 ·), (absurd h4 ·), hf, hs⟩

theorem refl (i : Instr) (p : Cpu) : CpuFrame i p p :=
  of_sameControl (sameControl_refl p) (fun _ _ => rfl) (fun _ => rfl)

theorem setPc (a : Word) (h : CpuFrame i p q) : CpuFrame i p { q with pc := a } :=
  ⟨h.ime, h.eiDelay, h.halted, h.skipInc, h.stopped, h.flags, h.sp⟩

theorem of_setPc {a : Word} (h : CpuFrame i { p with pc := a } q) : CpuFrame i p q :=
  ⟨h.ime, h.eiDelay, h.halted, h.skipInc, h.stopped, h.flags, h.sp⟩

theorem setReg (r : Reg8) (v : Byte) (h : CpuFrame i p q) : CpuFrame i p (q.setReg r v) := by
  cases r <;> exact ⟨h.ime, h.eiDelay, h.halted, h.skipInc, h.stopped, h.flags, h.sp⟩

theorem setFlags (f : Flags) (hi : i.keepsFlags = false) (h : CpuFrame i p q) : CpuFrame i p { q with f := f } :=
  ⟨h.ime, h.eiDelay, h.halted, h.skipInc, h.stopped,
    fun _ hk => absurd (hi.symm.trans hk) Bool.false_ne_true, h.sp⟩

theorem setSp (v : Word) (hi : i.writesSp = true) (h : CpuFrame i p q) : CpuFrame i p { q with sp := v } :=
  ⟨h.ime, h.eiDelay, h.halted, h.skipInc, h.stopped, h.flags, fun hk => absurd (hk.symm.trans hi) Bool.false_ne_true⟩

theorem setPair (rr : Reg16) (v : Word) (hi : rr = .sp → i.writesSp = true) (h : CpuFrame i p q) :
    CpuFrame i p (q.setPair rr v) := by
  cases rr
  case sp => exact h.setSp v (hi rfl)
  all_goals exact ⟨h.ime, h.eiDelay, h.halted, h.skipInc, h.stopped, h.flags, h.sp⟩

theorem setStackPair (qq : StkReg) (v : Word) (hi : qq = .af → i.wf = false ∨ i.keepsFlags = false) (h : CpuFrame i p q) :
    CpuFrame i p (q.setStackPair qq v) := by
  cases qq
  case af =>
    refine ⟨h.ime, h.eiDelay, h.halted, h.skipInc, h.stopped, fun hw hk => ?_, h.sp⟩
    rcases hi rfl with hn | hn
    · exact absurd (hn.symm.trans hw) Bool.false_ne_true
    · exact absurd (hn.symm.trans hk) Bool.false_ne_true
  all_goals exact ⟨h.ime, h.eiDelay, h.halted, h.skipInc, h.stopped, h.flags, h.sp⟩

end CpuFrame

/-- Between `s` and `t` the CPU's own state and the speed change as the instruction `i` may change them. -/
def InstrFrame (i : Instr) (s t : State) : Prop := CpuFrame i s.cpu t.cpu ∧ (t.doubleSpeed ≠ s.doubleSpeed → i = .stop)

section
variable {i : Instr} {s : State}

theorem instrFrame_done {n : Nat} {t : State} (h : InstrFrame i s t) : Result.Keeps (InstrFrame i s) (done n t) := by
  intro u e
  cases e
  exact h

theorem instrFrame_of {n : Nat} {t : State} (hd : t.doubleSpeed = s.doubleSpeed) (h : CpuFrame i s.cpu t.cpu) :
    Result.Keeps (InstrFrame i s) (done n t) := instrFrame_done ⟨h, (absurd hd ·)⟩

theorem instrFrame_idle (n : Nat) : Result.Keeps (InstrFrame i s) (done n s) := instrFrame_of rfl (.refl i s.cpu)

theorem instrFrame_write (n : Nat) (a : Word) (v : Byte) : Result.Keeps (InstrFrame i s) (done n (s.busWrite a v)) := by
  refine instrFrame_of (busWrite_frame s a v).doubleSpeed ?_
  rw [busWrite_cpu]
  exact .refl i s.cpu

theorem modifyHl_cpu (f : Byte → Byte × Flags) :
    (s.modifyHl f).cpu = { s.cpu with f := (f (s.busRead s.cpu.hl)).2 } := by
  simp [State.modifyHl]

theorem modifyHl_doubleSpeed (f : Byte → Byte × Flags) : (s.modifyHl f).doubleSpeed = s.doubleSpeed :=
  (busWrite_frame _ _ _).doubleSpeed

theorem instrFrame_modify (n : Nat) (f : Byte → Byte × Flags) (hi : i.keepsFlags = false) :
    Result.Keeps (InstrFrame i s) (done n (s.modifyHl f)) := by
  refine instrFrame_of (modifyHl_doubleSpeed f) ?_
  rw [modifyHl_cpu]
  exact (CpuFrame.refl i s.cpu).setFlags _ hi

theorem instrFrame_modifyKeeping (n : Nat) (f : Byte → Byte) :
    Result.Keeps (InstrFrame i s) (done n (s.modifyHl fun v => (f v, s.cpu.f))) := by
  refine instrFrame_of (modifyHl_doubleSpeed _) ?_
  rw [modifyHl_cpu]
  exact .refl i s.cpu

theorem push16_doubleSpeed (v : Word) : (s.push16 v).doubleSpeed = s.doubleSpeed :=
  (busWrite_frame _ _ _).doubleSpeed.trans (busWrite_frame _ _ _).doubleSpeed

theorem push16_cpuFrame (v : Word) (hi : i.writesSp = true) : CpuFrame i s.cpu (s.push16 v).cpu := by
  rw [push16_cpu]
  exact (CpuFrame.refl i s.cpu).setSp _ hi

theorem afterPop_cpuFrame (hi : i.writesSp = true) : CpuFrame i s.cpu s.afterPop.cpu := by
  rw [afterPop_cpu]
  exact (CpuFrame.refl i s.cpu).setSp _ hi

theorem instrFrame_call (n : Nat) (a : Word) (hi : i.writesSp = true) :
    Result.Keeps (InstrFrame i s) (done n (s.callTo a)) :=
  instrFrame_of (push16_doubleSpeed _) ((push16_cpuFrame _ hi).setPc a)

theorem instrFrame_return (n : Nat) (hi : i.writesSp = true) : Result.Keeps (InstrFrame i s) (done n s.returnTo) :=
  instrFrame_of rfl ((afterPop_cpuFrame hi).setPc _)

theorem instrFrame_reg (n : Nat) (r : Reg8) (v : Byte) : Result.Keeps (InstrFrame i s) (done n (s.setReg r v)) :=
  instrFrame_of rfl ((CpuFrame.refl i s.cpu).setReg r v)

theorem instrFrame_readReg (n : Nat) (a : Word) (r : Reg8) (v : Byte) :
    Result.Keeps (InstrFrame i s) (done n ((s.afterRead a).setReg r v)) :=
  instrFrame_of rfl ((CpuFrame.refl i s.cpu).setReg r v)

theorem instrFrame_pair (n : Nat) (rr : Reg16) (v : Word) (hi : rr = .sp → i.writesSp = true) :
    Result.Keeps (InstrFrame i s) (done n (s.setPair rr v)) := instrFrame_of rfl ((CpuFrame.refl i s.cpu).setPair rr v hi)

theorem instrFrame_flags (n : Nat) (f : Flags) (hi : i.keepsFlags = false) :
    Result.Keeps (InstrFrame i s) (done n (s.setFlags f)) := instrFrame_of rfl ((CpuFrame.refl i s.cpu).setFlags f hi)

theorem instrFrame_readFlags (n : Nat) (a : Word) (f : Flags) (hi : i.keepsFlags = false) :
    Result.Keeps (InstrFrame i s) (done n ((s.afterRead a).setFlags f)) :=
  instrFrame_of rfl ((CpuFrame.refl i s.cpu).setFlags f hi)

theorem instrFrame_regFlags (n : Nat) (r : Reg8) (x : Byte × Flags) (hi : i.keepsFlags = false) :
    Result.Keeps (InstrFrame i s) (done n (s.setRegFlags r x)) :=
  instrFrame_of rfl (((CpuFrame.refl i s.cpu).setReg r x.1).setFlags x.2 hi)

theorem instrFrame_acc (n : Nat) (x : Byte × Flags) (hi : i.keepsFlags = false) :
    Result.Keeps (InstrFrame i s) (done n (s.setAcc x)) := instrFrame_regFlags n .a x hi

theorem instrFrame_readAcc (n : Nat) (a : Word) (x : Byte × Flags) (hi : i.keepsFlags = false) :
    Result.Keeps (InstrFrame i s) (done n ((s.afterRead a).setAcc x)) :=
  instrFrame_of rfl (((CpuFrame.refl i s.cpu).setReg .a x.1).setFlags x.2 hi)

theorem instrFrame_jump (n : Nat) (a : Word) : Result.Keeps (InstrFrame i s) (done n (s.jump a)) :=
  instrFrame_of rfl ((CpuFrame.refl i s.cpu).setPc a)

end

theorem cbRotate_frame (kind : Nat) (r : Option Reg8) (s : State) :
    Result.Keeps (InstrFrame .cbPrefix s) (cbRotate kind r s) := by
  cases r with
  | some r => rcases kind with _ | _ | _ | _ | _ | _ | _ | kind <;> exact instrFrame_regFlags 8 r _ rfl
  | none => rcases kind with _ | _ | _ | _ | _ | _ | _ | kind <;> exact instrFrame_modify 16 _ rfl

theorem cbInstruction_frame (op : Byte) (s : State) : Result.Keeps (InstrFrame .cbPrefix s) (cbInstruction op s) := by
  unfold cbInstruction
  dsimp only
  split
  · exact cbRotate_frame _ _ s
  · exact instrFrame_flags 8 _ rfl
  · exact instrFrame_readFlags 12 _ _ rfl
  · exact instrFrame_reg 8 _ _
  · exact instrFrame_modifyKeeping 16 _
  · exact instrFrame_reg 8 _ _
  · exact instrFrame_modifyKeeping 16 _

theorem enterHalt_frame (s : State) : InstrFrame .halt s s.enterHalt := by
  have hall : ∀ p : Cpu, p.ime = s.cpu.ime → p.eiDelay = s.cpu.eiDelay → p.stopped = s.cpu.stopped → p.f = s.cpu.f →
      p.sp = s.cpu.sp → InstrFrame .halt s (s.setCpu p) := fun p h1 h2 h3 h4 h5 =>
    ⟨⟨(absurd h1 ·), (absurd h2 ·), fun _ => rfl, fun _ => rfl, (absurd h3 ·), fun _ _ => h4, fun _ => h5⟩,
      (absurd rfl ·)⟩
  unfold State.enterHalt
  split
  · exact hall _ rfl rfl rfl rfl rfl
  · split
    · exact hall _ rfl rfl rfl rfl rfl
    · exact hall s.cpu rfl rfl rfl rfl rfl

theorem stopSkip_cpuFrame (i : Instr) (s : State) : CpuFrame i s.cpu s.stopSkip.cpu := by
  unfold State.stopSkip
  split
  · exact (CpuFrame.refl i s.cpu).setPc _
  · exact .refl i s.cpu

theorem enterStop_frame (s : State) : InstrFrame .stop s s.enterStop := by
  refine ⟨?_, fun _ => rfl⟩
  have h := stopSkip_cpuFrame .stop s
  unfold State.enterStop
  dsimp only
  split
  · exact h
  · exact ⟨h.ime, h.eiDelay, h.halted, h.skipInc, fun _ => rfl, h.flags, h.sp⟩

/-- Every instruction changes the control bits, the flags, SP and the speed only where it may. -/
theorem exec_frame (i : Instr) (s : State) : Result.Keeps (InstrFrame i s) (exec i s) := by
  cases i with
  | ldRR | ldRN | resR | setR => exact instrFrame_reg _ _ _
  | ldRHl | ldABc | ldADe | ldANn | ldhAC | ldhAN => exact instrFrame_readReg _ _ _ _
  | ldHlR | ldHlN | ldBcA | ldDeA | ldNnA | ldhCA | ldhNA => exact instrFrame_write _ _ _
  | addR | addN | adcR | adcN | subR | subN | sbcR | sbcN | andR | andN | xorR | xorN | orR | orN | daa | cpl | rlca | rrca
  | rla | rra => exact instrFrame_acc _ _ rfl
  | addHl | adcHl | subHl | sbcHl | andHl | xorHl | orHl => exact instrFrame_readAcc _ _ _ rfl
  | cpR | cpN | scf | ccf | bitR => exact instrFrame_flags _ _ rfl
  | cpHl | bitHl => exact instrFrame_readFlags _ _ _ rfl
  | incR | decR | rlcR | rrcR | rlR | rrR | slaR | sraR | swapR | srlR => exact instrFrame_regFlags _ _ _ rfl
  | incHl | decHl | rlcHl | rrcHl | rlHl | rrHl | slaHl | sraHl | swapHl | srlHl => exact instrFrame_modify _ _ rfl
  | resHl | setHl => exact instrFrame_modifyKeeping _ _
  | ldAHld | ldAHli => exact instrFrame_of rfl (((CpuFrame.refl _ s.cpu).setReg .a _).setPair .hl _ nofun)
  | ldHldA | ldHliA =>
    refine instrFrame_of (busWrite_frame _ _ _).doubleSpeed (CpuFrame.setPair .hl _ nofun ?_)
    rw [busWrite_cpu]
    exact .refl _ s.cpu
  | ldNnSp a =>
    refine instrFrame_of ((busWrite_frame _ _ _).trans (busWrite_frame _ _ _)).doubleSpeed ?_
    rw [busWrite_cpu, busWrite_cpu]
    exact .refl _ s.cpu
  | ldRrNn rr | incRr rr | decRr rr => exact instrFrame_pair _ _ _ (fun e => by rw [e]; rfl)
  | ldSpHl => exact instrFrame_pair _ _ _ (fun _ => rfl)
  | addSpE => exact instrFrame_of rfl (((CpuFrame.refl _ s.cpu).setSp _ rfl).setFlags _ rfl)
  | ldHlSpE | addHlRr => exact instrFrame_of rfl (((CpuFrame.refl _ s.cpu).setPair .hl _ nofun).setFlags _ rfl)
  | push => exact instrFrame_of (push16_doubleSpeed _) (push16_cpuFrame _ rfl)
  | pop q => exact instrFrame_of rfl ((afterPop_cpuFrame rfl).setStackPair q _ (fun e => by rw [e]; exact .inl rfl))
  | popAf => exact instrFrame_of rfl ((afterPop_cpuFrame rfl).setStackPair .af _ (fun _ => .inr rfl))
  | jpNn | jpHl | jrE => exact instrFrame_jump _ _
  | jpCc | jrCc => exact keeps_ite (instrFrame_jump _ _) (instrFrame_idle _)
  | callNn | rst => exact instrFrame_call _ _ rfl
  | callCc => exact keeps_ite (instrFrame_call _ _ rfl) (instrFrame_idle _)
  | ret => exact instrFrame_return _ rfl
  | retCc => exact keeps_ite (instrFrame_return _ rfl) (instrFrame_idle _)
  | reti =>
    have h := afterPop_cpuFrame (i := .reti) (s := s) rfl
    exact instrFrame_of rfl ⟨fun _ => .inr rfl, fun _ => .inr (.inr rfl), h.halted, h.skipInc, h.stopped, h.flags, h.sp⟩
  | di =>
    exact instrFrame_of rfl ⟨fun _ => .inl rfl, fun _ => .inr (.inl rfl), (absurd rfl ·), (absurd rfl ·), (absurd rfl ·),
      fun _ _ => rfl, fun _ => rfl⟩
  | ei =>
    show Result.Keeps (InstrFrame .ei s) (execEi s)
    unfold execEi
    split
    · exact instrFrame_of rfl ⟨(absurd rfl ·), fun _ => .inl rfl, (absurd rfl ·), (absurd rfl ·), (absurd rfl ·),
        fun _ _ => rfl, fun _ => rfl⟩
    · exact instrFrame_idle 4
  | nop => exact instrFrame_idle _
  | halt => exact instrFrame_done (enterHalt_frame s)
  | stop => exact instrFrame_done (enterStop_frame s)
  | illegal => exact keeps_fault _ _
  | cbPrefix =>
    intro t e
    obtain ⟨hc, hd⟩ := cbInstruction_frame _ s.afterFetch t e
    exact ⟨hc.of_setPc, hd⟩

/-- No instruction changes the parameters, the fault, the count of cycles or the waiting events of `s`. -/
def SameOutside (s t : State) : Prop :=
  t.params = s.params ∧ t.fault = s.fault ∧ t.cycles = s.cycles ∧ t.inputs = s.inputs

theorem sameOutside_closed (s : State) : ExecClosed (SameOutside s) where
  cpu _ _ h := h
  draw _ _ h := h
  charge _ _ h := h
  speed _ _ h := h
  div _ _ h := h
  write t a v h := by
    obtain ⟨h1, h2, h3, h4⟩ := h
    have hb := busWrite_frame t a v
    exact ⟨hb.params.trans h1, hb.fault.trans h2, hb.cycles.trans h3, hb.inputs.trans h4⟩

/-- Settles O11: the frame of each instruction gives the writers, and what every operation keeps every instruction keeps. -/
theorem controlStateWriters : Obligations.ControlStateWriters := by
  intro i s t h
  obtain ⟨hc, hspeed⟩ := exec_frame i s t h
  have ho : SameOutside s t := exec_keeps (sameOutside_closed s) ⟨rfl, rfl, rfl, rfl⟩ i t h
  exact ⟨hc.ime, hc.eiDelay, hc.halted, hc.skipInc, hc.stopped, hspeed, ho⟩

/-- Settles O12, from the frame of each instruction. -/
theorem flagAndStackPointerWriters : Obligations.FlagAndStackPointerWriters := by
  intro i s t hw h
  obtain ⟨hc, -⟩ := exec_frame i s t h
  exact ⟨hc.flags hw, hc.sp⟩

end Sys2Proof.Machine
end

section
/-! PROOFS. The ranges of the devices, of the APU and of the CPU's counter are kept by every step (O15). -/

namespace Sys2Proof.Machine

/-! ### The ranges of the APU -/

theorem PpuFrame.apu {s t : State} (h : PpuFrame s t) : t.apu = s.apu := by unfold PpuFrame at h; rw [h]

theorem openWindow_apu (s : State) (n : Nat) : ({ s.chargeDraw with dmaUntil := n } : State).apu = s.apu := rfl

theorem oamDma_apu (s : State) (v : Byte) : (s.oamDma v).apu = s.apu :=
  (openWindow_apu _ _).trans (oamDmaCopy_frame v 160 0 (s.setPpu { s.ppu with dma := v })).apu

theorem writeHdma5_apu (s : State) (v : Byte) : (s.writeHdma5 v).apu = s.apu := by
  unfold State.writeHdma5
  split
  · rfl
  · split
    · rfl
    · exact (generalDma_frame s _).apu

theorem writeIo_apuRanges {s : State} (r : IoReg) (v : Byte) (h : s.apu.Ranges) : (s.writeIo r v).apu.Ranges := by
  cases r with
  | apu r => exact writeReg_ranges r v h
  | nr52 => exact writeNr52_ranges v h
  | sc => simp only [State.writeIo, State.writeSc]; split <;> exact h
  | lcdc =>
    simp only [State.writeIo, State.writeLcdc]
    split
    · exact h
    · split <;> exact h
  | ly => simp only [State.writeIo, State.writeLy]; split <;> exact h
  | lyc => simp only [State.writeIo, State.writeLyc]; split <;> exact h
  | dma => rw [State.writeIo, oamDma_apu]; exact h
  | hdma5 => rw [State.writeIo, writeHdma5_apu]; exact h
  | _ => exact h

theorem storeAt_apuRanges {s : State} (r : Region) (v : Byte) (h : s.apu.Ranges) : (s.storeAt r v).apu.Ranges := by
  cases r with
  | io r => exact writeIo_apuRanges r v h
  | vram off => simp only [State.storeAt]; split <;> exact h
  | oam i => simp only [State.storeAt]; split <;> exact h
  | _ => exact h

theorem busWrite_apuRanges {s : State} (a : Word) (v : Byte) (h : s.apu.Ranges) : (s.busWrite a v).apu.Ranges := by
  unfold State.busWrite
  split
  · split
    · exact h
    · exact storeAt_apuRanges (s := s.draw 1) _ v h
  · exact storeAt_apuRanges _ v h

theorem tickApu_apuRanges (n : Nat) {s t : State} (hf : PpuFrame s t) (h : s.apu.Ranges) : (t.tickApu n).apu.Ranges := by
  show (Apu.run n t.apu).Ranges
  rw [hf.apu]
  exact run_ranges n _ h

theorem untimedRequests_apu (s : State) : s.untimedRequests.apu = s.apu := by
  unfold State.untimedRequests
  dsimp only
  split <;> rfl

theorem tick_apuRanges {s : State} (h : s.apu.Ranges) : s.tick.apu.Ranges := by
  unfold State.tick
  split
  · exact tickApu_apuRanges _ (tickPpu_frame _ 0 s) h
  · show (State.untimedRequests _).apu.Ranges
    rw [untimedRequests_apu]
    exact tickApu_apuRanges (s := s.draw 1) _ (ppuRun_frame _ _) h

/-! ### The devices -/

/-- The ranges that no operation leaves, not even between an instruction's effect and its `Tick`. -/
def State.UnitRanges (s : State) : Prop := s.DeviceRanges ∧ s.apu.Ranges

theorem unitRanges_closed : StepClosed State.UnitRanges where
  cpu _ _ h := h
  draw _ _ h := h
  charge _ _ h := h
  speed _ _ h := h
  div _ _ h := h
  start _ h := h
  fetchAt _ _ h := h
  queue _ _ h := h
  request _ _ h := h
  joypad _ _ h := h
  clock _ _ h := h
  write _ a v h := ⟨busWrite_device a v h.1, busWrite_apuRanges a v h.2⟩
  tick _ h := ⟨tick_device h.1, tick_apuRanges h.2⟩

/-! ### The pending EI and the charge -/

theorem exec_eiDelay_le (i : Instr) {s : State} (h : s.cpu.eiDelay ≤ 2) :
    Result.Keeps (fun t => t.cpu.eiDelay ≤ 2) (exec i s) := by
  intro t e
  by_cases hk : t.cpu.eiDelay = s.cpu.eiDelay
  · rw [hk]
    exact h
  · rcases (exec_frame i s t e).1.eiDelay hk with rfl | rfl | rfl
    · change execEi s = .next t at e
      unfold execEi at e
      split at e <;> cases e
      · show (if s.busRead s.cpu.pc = 0x76 then 1 else 2) ≤ 2
        split <;> decide
      · exact h
    · cases e
      exact Nat.zero_le 2
    · cases e
      exact Nat.zero_le 2

theorem fetch_eiDelay (s : State) : s.fetch.state.cpu.eiDelay = s.cpu.eiDelay := by
  unfold State.fetch
  dsimp only
  split <;> rfl

theorem dropEi_eiDelay_le (s : State) : s.dropEi.cpu.eiDelay ≤ s.cpu.eiDelay := by
  unfold State.dropEi
  split
  · show (if Config.freeBool s.draws then s.cpu.eiDelay else 0) ≤ s.cpu.eiDelay
    split
    · exact Nat.le_refl _
    · exact Nat.zero_le _
  · exact Nat.le_refl _

theorem dispatch_eiDelay_le (s : State) : s.dispatch.cpu.eiDelay ≤ s.cpu.eiDelay := by
  refine Nat.le_trans (dropEi_eiDelay_le _) ?_
  simp

/-- The CPU's part of `State.Ranges`. -/
def State.CpuRanges (s : State) : Prop := s.cpu.eiDelay ≤ 2 ∧ s.charge = 0

/-- `Tick` spends the charge and keeps the pending EI. -/
theorem tickResult_cpuRanges {r : Result} (h : Result.Keeps (fun t => t.cpu.eiDelay ≤ 2) r) :
    Result.Keeps State.CpuRanges (tickResult r) := by
  intro t e
  cases r with
  | next u =>
    cases e
    exact ⟨by rw [tick_cpu]; exact h u rfl, tick_charge u⟩
  | fault f => cases e
  | refused x => cases e

theorem dispatchOrRun_cpuRanges {s : State} (h : s.cpu.eiDelay ≤ 2) : Result.Keeps State.CpuRanges s.dispatchOrRun := by
  unfold State.dispatchOrRun
  split
  · refine tickResult_cpuRanges fun t e => ?_
    cases e
    exact Nat.le_trans (dispatch_eiDelay_le s) h
  · exact tickResult_cpuRanges (exec_eiDelay_le _ (by rw [fetch_eiDelay]; exact h))

theorem haltOrRun_cpuRanges {s : State} (h : s.cpu.eiDelay ≤ 2) : Result.Keeps State.CpuRanges s.haltOrRun := by
  unfold State.haltOrRun
  split
  · split
    · refine tickResult_cpuRanges fun t e => ?_
      cases e
      exact h
    · exact dispatchOrRun_cpuRanges h
  · exact dispatchOrRun_cpuRanges h

theorem cpuStep_cpuRanges {s : State} (h : s.CpuRanges) : Result.Keeps State.CpuRanges s.cpuStep := by
  unfold State.cpuStep
  split
  · intro t e
    cases e
    exact h
  · exact haltOrRun_cpuRanges (Nat.le_trans (Nat.sub_le _ 1) h.1)

theorem step_cpuRanges {s : State} (h : s.CpuRanges) : Result.Keeps State.CpuRanges (step s) := by
  unfold step State.stepMachine
  split
  · exact keeps_fault _ _
  · split
    · exact cpuStep_cpuRanges h
    · exact cpuStep_cpuRanges h
    · intro t e
      cases e
      exact h
    · intro t e
      cases e
      exact h

/-- Settles O15: the devices keep their ranges through every operation, the CPU's counter and the charge through the step. -/
theorem deviceRangesInvariant : Obligations.DeviceRangesInvariant := by
  intro s t hr ha h
  obtain ⟨hei, hcharge, hdevice⟩ := (ranges_iff s).1 hr
  obtain ⟨hdevice', ha'⟩ := step_keeps unitRanges_closed ⟨hdevice, ha⟩ t h
  obtain ⟨hei', hcharge'⟩ := step_cpuRanges ⟨hei, hcharge⟩ t h
  exact ⟨(ranges_iff t).2 ⟨hei', hcharge', hdevice'⟩, ha'⟩

end Sys2Proof.Machine
end

section
/-! PROOFS. The register file: pairs, F as a byte, AF (O30). -/

namespace Sys2Proof.Machine

theorem toByte_toNat (f : Flags) :
    f.toByte.toNat = f.z.toNat * 128 + f.n.toNat * 64 + f.h.toNat * 32 + f.c.toNat * 16 := by
  have hz := Bool.toNat_le f.z
  have hn := Bool.toNat_le f.n
  have hh := Bool.toNat_le f.h
  have hc := Bool.toNat_le f.c
  rw [Flags.toByte, BitVec.toNat_ofNat]
  omega

/-- F read back from a byte is its high nibble (10 rule R110). -/
theorem toByte_ofByte (v : Byte) : (Flags.ofByte v).toByte = v &&& 0xF0 := by
  revert v
  decide

theorem ofByte_loByte (v : Word) :
    Flags.ofByte (loByte v) = { z := v.getLsbD 7, n := v.getLsbD 6, h := v.getLsbD 5, c := v.getLsbD 4 } := by
  simp [Flags.ofByte, loByte]

theorem gives_setReg_sameFlags (p : Cpu) (r : Reg8) (v : Byte) : p.Gives (p.setReg r v) r v p.f := by
  have h := gives_setReg p r v p.f
  rwa [setReg_flags] at h

theorem givesPair_setPair_sameFlags (p : Cpu) (rr : Reg16) (v : Word) : p.GivesPair (p.setPair rr v) rr v p.f := by
  have h := givesPair_setPair p rr v p.f
  rwa [setPair_flags] at h

theorem stackPair_setStackPair_af (p : Cpu) (v : Word) : (p.setStackPair .af v).stackPair .af = v &&& 0xFFF0 := by
  show hiByte v ++ (Flags.ofByte (loByte v)).toByte = v &&& 0xFFF0
  rw [toByte_ofByte]
  calc (hiByte v ++ (loByte v &&& 0xF0) : Word)
      = (hiByte v &&& 0xFF) ++ (loByte v &&& 0xF0) := by rw [show hiByte v &&& 0xFF = hiByte v from BitVec.and_allOnes]
    _ = (hiByte v ++ loByte v) &&& ((0xFF : Byte) ++ (0xF0 : Byte)) := BitVec.and_append.symm
    _ = v &&& 0xFFF0 := by rw [hiByte_loByte]; rfl

/-- Settles O30: the two halves of a word as numbers, and the flags as the high nibble of a byte. -/
theorem registerFile : Obligations.RegisterFile := by
  intro p
  refine ⟨⟨append_toNat p.b p.c, append_toNat p.d p.e, append_toNat p.h p.l, rfl⟩, ?_, ⟨rfl, rfl, rfl⟩,
    givesPair_setPair_sameFlags p, gives_setReg_sameFlags p, fun v =>
      ⟨hiByte_toNat v, ofByte_loByte v, stackPair_setStackPair_af p v⟩⟩
  show (p.a ++ p.f.toByte : Word).toNat = _
  rw [append_toNat, toByte_toNat]
  omega

end Sys2Proof.Machine
end

section
/-! PROOFS. What a register reads after a write (O25). -/

namespace Sys2Proof.Machine

/-! ### An access to the register behind an address -/

theorem peek_io {s : State} {a : Word} {r : IoReg} (hr : regionOf s.params.cgb a = .io r) : s.peek true a = s.peekIo r := by
  simp only [State.peek, hr]

theorem busWrite_io {s : State} {a : Word} {r : IoReg} (ho : s.windowOpen a = false) (hr : regionOf s.params.cgb a = .io r)
    (v : Byte) : s.busWrite a v = s.writeIo r v := by
  rw [busWrite_open ho, hr]
  rfl

theorem peek_busWrite_io {s : State} {a : Word} {r : IoReg} (ho : s.windowOpen a = false)
    (hr : regionOf s.params.cgb a = .io r) (v : Byte) : (s.busWrite a v).peek true a = (s.writeIo r v).peekIo r := by
  rw [peek_io (r := r) (by rw [busWrite_params]; exact hr), busWrite_io ho hr]

/-! ### The registers that store some bits of what is written -/

/-- The bits of a written byte that a register stores and the bits it reads as ones, for a register whose write leaves nothing
else in its own read (10 section 4; 62 rule R1101; 64 rule R1301). A register of the APU stores while the `power` is on. -/
def IoReg.masks (power : Bool) : IoReg → Option (Byte × Byte)
  | .sb | .tima | .tma | .lcdc | .scy | .scx | .lyc | .dma | .bgp | .obp0 | .obp1 | .wy | .wx => some (0xFF, 0x00)
  | .div => some (0x00, 0x00)
  | .boot | .hdma1 | .hdma2 | .hdma3 | .hdma4 => some (0x00, 0xFF)
  | .tac | .svbk => some (0x07, 0xF8)
  | .iflag => some (0x1F, 0xE0)
  | .vbk => some (0x01, 0xFE)
  | .bcps | .ocps => some (0xBF, 0x40)
  | .apu r => if power then some (~~~ apuMask r, apuMask r) else none
  | _ => none

/-- The same by address, IE at 0xFFFF among them. -/
def masksAt (cgb power : Bool) (a : Word) : Option (Byte × Byte) :=
  match regionOf cgb a with
  | .io r => r.masks power
  | .ie => some (0xFF, 0x00)
  | _ => none

theorem readback_masks (cgb power : Bool) : ∀ e ∈ readback, masksAt cgb power e.1 = some e.2 :=
  List.map_inj_left.1 (by cases cgb <;> rfl)

theorem readbackCgb_masks (power : Bool) : ∀ e ∈ readbackCgb, masksAt true power e.1 = some e.2 := List.map_inj_left.1 rfl

theorem readbackApu_masks (cgb : Bool) : ∀ e ∈ readbackApu, masksAt cgb true e.1 = some e.2 :=
  List.map_inj_left.1 (by cases cgb <;> decide)

theorem keep_all (v : Byte) : v = (v &&& 0xFF) ||| 0x00 := by revert v; decide

theorem keep_none (v m : Byte) : m = (v &&& 0x00) ||| m := by simp

theorem keep_setWidth3 (v : Byte) : 0xF8 ||| (v.setWidth 3).setWidth 8 = (v &&& 0x07) ||| 0xF8 := by revert v; decide

theorem keep_setWidth5 (v : Byte) : 0xE0 ||| (v.setWidth 5).setWidth 8 = (v &&& 0x1F) ||| 0xE0 := by revert v; decide

theorem keep_setWidth1 (v : Byte) : 0xFE ||| (v.setWidth 1).setWidth 8 = (v &&& 0x01) ||| 0xFE := by revert v; decide

theorem writeLcdc_lcdc (s : State) (v : Byte) : (s.writeLcdc v).ppu.lcdc = v := by
  unfold State.writeLcdc
  dsimp only
  split
  · rfl
  · split <;> rfl

theorem writeLyc_lyc (s : State) (v : Byte) : (s.writeLyc v).ppu.lyc = v := by
  unfold State.writeLyc
  dsimp only
  split <;> rfl

theorem oamDmaCopy_dma (v : Byte) (n i : Nat) (s : State) : (State.oamDmaCopy v n i s).ppu.dma = s.ppu.dma := by
  induction n generalizing s i with
  | zero => rfl
  | succ k ih => exact (ih _ _).trans rfl

theorem openWindow_ppu (s : State) (n : Nat) : ({ s.chargeDraw with dmaUntil := n } : State).ppu = s.ppu := rfl

theorem oamDma_dma (s : State) (v : Byte) : (s.oamDma v).ppu.dma = v :=
  (congrArg Ppu.dma (openWindow_ppu _ _)).trans (oamDmaCopy_dma v 160 0 _)

theorem or_mask (v m : Byte) : v ||| m = (v &&& ~~~ m) ||| m := by
  ext i hi
  simp only [BitVec.getElem_or, BitVec.getElem_and, BitVec.getElem_not]
  cases m[i] <;> simp

theorem dacGate_view (a : Apu) (n : ChanId) : (a.dacGate n).memView = a.memView := by
  unfold Apu.dacGate
  split
  · rfl
  · exact setChan_view a n _

theorem triggerBit_view (a : Apu) (n : ChanId) (v : Byte) : (a.triggerBit n v).memView = a.memView := by
  unfold Apu.triggerBit
  split
  · exact trigger_view a n
  · rfl

theorem loadLength_view (a : Apu) (n : ChanId) (v : Byte) : (a.loadLength n v).memView = a.memView := setChan_view a n _

/-- With the power on a write stores the byte, and its effects touch neither a register nor wave RAM. -/
theorem writeReg_view {a : Apu} (hp : a.power = true) (r : Nat) (v : Byte) :
    (a.writeReg r v).memView = (a.setReg r v).memView := by
  unfold Apu.writeReg
  rw [if_pos hp]
  dsimp only
  split
  · exact loadLength_view _ .one v
  · exact dacGate_view _ .one
  · exact triggerBit_view _ .one v
  · exact loadLength_view _ .two v
  · exact dacGate_view _ .two
  · exact triggerBit_view _ .two v
  · exact dacGate_view _ .three
  · exact loadLength_view _ .three v
  · exact triggerBit_view _ .three v
  · exact loadLength_view _ .four v
  · exact dacGate_view _ .four
  · exact triggerBit_view _ .four v
  · rfl

theorem writeReg_reg {a : Apu} (hp : a.power = true) (r : Nat) (v : Byte) : (a.writeReg r v).reg r = v := by
  have hnr : (a.writeReg r v).nr = Store.write a.nr r v := congrArg Prod.fst (writeReg_view hp r v)
  rw [Apu.reg, hnr]
  exact read_write_same a.nr r v

theorem peekIo_writeIo {r : IoReg} {keep ones : Byte} {s : State} (h : r.masks s.apu.power = some (keep, ones)) (v : Byte) :
    (s.writeIo r v).peekIo r = (v &&& keep) ||| ones := by
  cases r with
  | lcdc => cases h; exact (writeLcdc_lcdc s v).trans (keep_all v)
  | lyc => cases h; exact (writeLyc_lyc s v).trans (keep_all v)
  | dma => cases h; exact (oamDma_dma s v).trans (keep_all v)
  | sb | tima | tma | scy | scx | bgp | obp0 | obp1 | wy | wx => cases h; exact keep_all v
  | div => cases h; simp [State.writeIo, State.peekIo]
  | boot | hdma1 | hdma2 | hdma3 | hdma4 => cases h; exact keep_none v 0xFF
  | tac | svbk => cases h; exact keep_setWidth3 v
  | iflag => cases h; exact keep_setWidth5 v
  | vbk => cases h; exact keep_setWidth1 v
  | bcps | ocps => cases h; exact BitVec.or_comm _ _
  | apu r =>
    simp only [IoReg.masks] at h
    split at h
    · rename_i hp
      cases h
      show (s.apu.writeReg r v).reg r ||| apuMask r = _
      rw [writeReg_reg hp, or_mask]
    · cases h
  | p1 | sc | nr52 | wave | stat | ly | key1 | hdma5 | bcpd | ocpd => cases h

/-- A register reads the bits it stores of the byte written, and ones in its unused bits. -/
theorem peek_busWrite_masks {s : State} {a : Word} {keep ones : Byte} (ho : s.windowOpen a = false)
    (h : masksAt s.params.cgb s.apu.power a = some (keep, ones)) (v : Byte) :
    (s.busWrite a v).peek true a = (v &&& keep) ||| ones := by
  unfold masksAt at h
  split at h
  · rename_i r hr
    rw [peek_busWrite_io ho hr]
    exact peekIo_writeIo h v
  · rename_i hr
    cases h
    simp only [State.peek, hr, busWrite_open ho, State.storeAt]
    exact keep_all v
  · cases h

/-! ### Wave RAM and NR52 -/

theorem ioRegOf_wave (cgb : Bool) : ∀ i < 16, ioRegOf cgb (0x30 + i) = some (.wave i) := by
  cases cgb <;> decide

theorem regionOf_wave (cgb : Bool) {a : Word} (h1 : 0xFF30 ≤ a.toNat) (h2 : a.toNat ≤ 0xFF3F) :
    regionOf cgb a = .io (.wave (a.toNat - 0xFF30)) := by
  rw [regionOf_page cgb (by omega) (by omega), show a.toNat - 0xFF00 = 0x30 + (a.toNat - 0xFF30) by omega,
    ioRegOf_wave cgb _ (by omega)]

theorem peek_busWrite_wave {s : State} {a : Word} (ho : s.windowOpen a = false) (h1 : 0xFF30 ≤ a.toNat)
    (h2 : a.toNat ≤ 0xFF3F) (v : Byte) : (s.busWrite a v).peek true a = v := by
  rw [peek_busWrite_io ho (regionOf_wave _ h1 h2)]
  exact read_write_same _ _ v

/-- After a power-off NR52 reads its unused bits alone (64 rules R1341, R1344). -/
theorem readNr52_powerOff {a : Apu} (hp : a.power = true) {v : Byte} (hv : v.getLsbD 7 = false) :
    (a.writeNr52 v).readNr52 = 0x70 := by
  simp only [Apu.writeNr52, hv, hp, Bool.false_eq_true, if_false, if_true]
  rfl

/-! ### Registers with bits of their own -/

theorem mode_code_le (m : PpuMode) : m.code ≤ 3 := by cases m <;> decide

/-- The bits of STAT above its status (62 rule R1103). -/
theorem readStat_high (p : Ppu) : p.readStat &&& 0xF8 = 0x80 ||| (p.stat &&& 0x78) := by
  have hlow : ∀ n ≤ 7, BitVec.ofNat 8 n &&& 0xF8 = 0 := by decide
  have hstat : ∀ x : Byte, (0x80 ||| (x &&& 0x78)) &&& 0xF8 = 0x80 ||| (x &&& 0x78) := by decide
  have hn : p.coincidence.toNat * 4 + (if p.lcdOn then p.mode.code else 0) ≤ 7 := by
    have hc := Bool.toNat_le p.coincidence
    have hm := mode_code_le p.mode
    split <;> omega
  rw [Ppu.readStat, BitVec.and_or_distrib_right, hlow _ hn, hstat]
  simp

theorem peekIo_writeIo_stat (s : State) (v : Byte) :
    (s.writeIo .stat v).peekIo .stat &&& 0xF8 = (v &&& 0x78) ||| 0x80 := by
  have hv : ∀ v : Byte, 0x80 ||| (v &&& 0x78 &&& 0x78) = (v &&& 0x78) ||| 0x80 := by decide
  exact (readStat_high _).trans (hv v)

theorem writeSc_sc (s : State) (v : Byte) : (s.writeSc v).serial.sc = v &&& s.params.scMask := by
  unfold State.writeSc
  dsimp only
  split <;> rfl

theorem peekIo_writeIo_sc (s : State) (v : Byte) :
    (s.writeIo .sc v).peekIo .sc = if s.params.cgb then (v &&& 0x83) ||| 0x7C else (v &&& 0x81) ||| 0x7E := by
  show (if (s.writeSc v).params.cgb then 0x7C else 0x7E) ||| (s.writeSc v).serial.sc = _
  rw [(writeSc_frame s v).params, writeSc_sc, Params.scMask]
  split <;> exact BitVec.or_comm _ _

theorem peekIo_writeIo_key1 (s : State) (v : Byte) :
    (s.writeIo .key1 v).peekIo .key1 = (v &&& 0x01) ||| (if s.doubleSpeed then 0xFE else 0x7E) := by
  have hv : ∀ (b : Bool) (v : Byte),
      0x7E ||| BitVec.ofNat 8 (b.toNat * 128 + (v.getLsbD 0).toNat) = (v &&& 0x01) ||| (if b then 0xFE else 0x7E) := by decide
  exact hv s.doubleSpeed v

theorem lyVisible_of_line_zero {p : Ppu} (h : p.line = 0) : p.lyVisible = 0 := by
  unfold Ppu.lyVisible
  rw [h]
  split <;> rfl

theorem writeLy_line_zero (s : State) : s.writeLy.ppu.line = 0 := by
  unfold State.writeLy
  split <;> rfl

/-- LY reads 0 after any write (62 rule R1115). -/
theorem peekIo_writeIo_ly (s : State) (v : Byte) : (s.writeIo .ly v).peekIo .ly = 0 :=
  congrArg (BitVec.ofNat 8) (lyVisible_of_line_zero (writeLy_line_zero s))

/-! ### The palette ports -/

theorem bumpPaletteIndex_spec (r : Byte) :
    (bumpPaletteIndex r).toNat % 64 = (if r.getLsbD 7 then (r.toNat + 1) % 64 else r.toNat % 64) ∧
      (bumpPaletteIndex r).getLsbD 7 = r.getLsbD 7 := by
  revert r
  decide

/-- A data write stores the byte unless the PPU owns the palettes, and steps the index (62 rule R1151). -/
theorem palettePort_write (locked : Bool) (v r : Byte) (pal : Memory) :
    PalettePort locked v r (bumpPaletteIndex r) pal (if locked then pal else Store.write pal (r.toNat % 64) v) := by
  refine ⟨fun j => ?_, bumpPaletteIndex_spec r⟩
  cases locked
  · simp [read_write]
  · simp

/-- Settles O25: by the stored bits of each register, and the clauses of the registers with bits of their own. -/
theorem registerReadback : Obligations.RegisterReadback := by
  intro s v a ho
  refine ⟨?_, fun h => peek_busWrite_wave ho h.1 h.2 v, ?_, ?_, ?_, ?_, ?_, ?_, ?_⟩
  · rintro keep ones (h | ⟨hc, h⟩ | ⟨hp, h⟩)
    · exact peek_busWrite_masks ho (readback_masks _ _ _ h) v
    · exact peek_busWrite_masks ho (by rw [hc]; exact readbackCgb_masks _ _ h) v
    · exact peek_busWrite_masks ho (by rw [hp]; exact readbackApu_masks _ _ h) v
  · rintro rfl
    rw [peek_busWrite_io (r := .stat) ho rfl]
    exact peekIo_writeIo_stat s v
  · rintro rfl
    rw [peek_busWrite_io (r := .sc) ho rfl]
    exact peekIo_writeIo_sc s v
  · rintro rfl hc
    rw [peek_busWrite_io (r := .key1) ho (by rw [hc]; rfl)]
    exact peekIo_writeIo_key1 s v
  · rintro rfl hp hv
    rw [peek_busWrite_io (r := .nr52) ho rfl]
    exact readNr52_powerOff hp hv
  · rintro rfl
    rw [peek_busWrite_io (r := .ly) ho rfl]
    exact peekIo_writeIo_ly s v
  · rintro rfl hc
    have hr : regionOf s.params.cgb 0xFF69 = .io .bcpd := by rw [hc]; rfl
    dsimp only
    rw [peek_busWrite_io ho hr, busWrite_io ho hr]
    exact ⟨palettePort_write _ _ _ _, rfl⟩
  · rintro rfl hc
    have hr : regionOf s.params.cgb 0xFF6B = .io .ocpd := by rw [hc]; rfl
    dsimp only
    rw [peek_busWrite_io ho hr, busWrite_io ho hr]
    exact ⟨palettePort_write _ _ _ _, rfl⟩

end Sys2Proof.Machine
end

section
/-! PROOFS. Every step keeps every memory canonical and inside its size (O13). -/

namespace Sys2Proof.Machine

/-- Every memory is canonical and inside its size, and the cartridge is shaped as a load leaves it. -/
def State.MemInv (s : State) : Prop := s.MemWf ∧ s.BoundInv

/-- The clock is no memory: advancing it leaves the image and the cartridge RAM (61 rule R1045). -/
theorem rtcAdvance_memory (c : Cart) (n : Nat) : (c.rtcAdvance n).rom = c.rom ∧ (c.rtcAdvance n).ram = c.ram := by
  unfold Cart.rtcAdvance
  split <;> exact ⟨rfl, rfl⟩

theorem rtcEvent_memInv {s : State} (n : Nat) (h : s.MemInv) : (s.rtcEvent n).MemInv := by
  obtain ⟨⟨⟨hrom, hram, hrest⟩, hwf⟩, ⟨⟨hw, hh, hsize⟩, hbounds⟩, hshape⟩ := h
  obtain ⟨erom, eram⟩ := rtcAdvance_memory s.cart n
  obtain ⟨hsize', hshape'⟩ := rtcAdvance_bounds n ⟨hsize, hshape⟩
  exact ⟨⟨⟨erom ▸ hrom, eram ▸ hram, hrest⟩, hwf⟩, ⟨⟨hw, hh, hsize'⟩, hbounds⟩, hshape'⟩

theorem tick_memInv {s : State} (h : s.MemInv) : s.tick.MemInv := by
  obtain ⟨hwf, hbounds, hshape⟩ := h
  exact ⟨tick_memWf hwf, tick_bounds hbounds, by rw [tick_cart]; exact hshape⟩

theorem memInv_closed : StepClosed State.MemInv where
  cpu _ _ h := h
  draw _ _ h := h
  charge _ _ h := h
  speed _ _ h := h
  div _ _ h := h
  start _ h := h
  fetchAt _ _ h := h
  queue _ _ h := h
  request _ _ h := h
  joypad _ _ h := h
  write _ a v h := ⟨busWrite_memWf a v h.1, busWrite_bounds a v h.2⟩
  clock _ n h := rtcEvent_memInv n h
  tick _ h := tick_memInv h

/-- Settles O13: a bus write, `Tick` and the cartridge's clock keep the memories, and a step is made of these. -/
theorem memoryInvariant : Obligations.MemoryInvariant := by
  intro s t hwf hbounds hshape h
  exact step_keeps memInv_closed ⟨hwf, hbounds, hshape⟩ t h

end Sys2Proof.Machine
end

section
/-! PROOFS. No instruction and no step stops the machine but the fetch of an undefined byte (O10). -/

namespace Sys2Proof

/-! ### The undefined bytes in the decoder -/

theorem decodeCb_ne_illegal (b x : Byte) : decodeCb b ≠ .illegal x := by
  unfold decodeCb decodeRot
  dsimp only
  split
  · split <;> nofun
  all_goals nofun

theorem decodeBlock0_ne_illegal (op b1 b2 x : Byte) : decodeBlock0 op b1 b2 ≠ .illegal x := by
  unfold decodeBlock0
  split <;> split <;> nofun

theorem decodeBlock1_ne_illegal (op x : Byte) : decodeBlock1 op ≠ .illegal x := by
  unfold decodeBlock1
  split <;> nofun

theorem decodeAluR8_ne_illegal (ooo : Nat) (r : Option Reg8) (x : Byte) : decodeAluR8 ooo r ≠ .illegal x := by
  unfold decodeAluR8
  split <;> nofun

theorem decodeAluN_ne_illegal (ooo : Nat) (n x : Byte) : decodeAluN ooo n ≠ .illegal x := by
  unfold decodeAluN
  split <;> nofun

/-- The last block names `illegal` in three places of its table (30 rule R340). -/
theorem decodeBlock3_illegal {op b1 b2 x : Byte} (h : decodeBlock3 op b1 b2 = .illegal x) :
    x = op ∧ (fieldZ op = 3 ∧ fieldY op ∉ [0, 6, 7] ∨ fieldZ op = 4 ∧ fieldY op ∉ [0, 1, 2, 3] ∨
      fieldZ op = 5 ∧ fieldQ op ≠ 0 ∧ fieldP op ≠ 0) := by
  unfold decodeBlock3 at h
  split at h
  case h_4 hz => split at h <;> simp_all
  case h_5 hz => split at h <;> simp_all
  case h_6 hz => split at h <;> simp_all
  case h_7 hz => exact absurd h (decodeAluN_ne_illegal _ _ _)
  case h_8 => cases h
  all_goals split at h <;> cases h

/-- These places are the eleven undefined bytes and the byte 0xCB. -/
theorem mem_illegalOpcodes_of_fields (op : Byte) (hcb : op ≠ 0xCB) (h0 : fieldX op ≠ 0) (h1 : fieldX op ≠ 1)
    (h2 : fieldX op ≠ 2)
    (h : fieldZ op = 3 ∧ fieldY op ∉ [0, 6, 7] ∨ fieldZ op = 4 ∧ fieldY op ∉ [0, 1, 2, 3] ∨
      fieldZ op = 5 ∧ fieldQ op ≠ 0 ∧ fieldP op ≠ 0) : op ∈ illegalOpcodes := by
  revert op
  decide

/-- Only an undefined byte names `illegal`, which holds that byte (30 rule R340). -/
theorem decodeOp_illegal {op b1 b2 x : Byte} (h : decodeOp op b1 b2 = .illegal x) : x = op ∧ op ∈ illegalOpcodes := by
  unfold decodeOp at h
  split at h
  · exact absurd h (decodeCb_ne_illegal b1 x)
  next hcb =>
    split at h
    · exact absurd h (decodeBlock0_ne_illegal op b1 b2 x)
    · exact absurd h (decodeBlock1_ne_illegal op x)
    · exact absurd h (decodeAluR8_ne_illegal _ _ x)
    next h0 h1 h2 =>
      obtain ⟨e, hf⟩ := decodeBlock3_illegal h
      exact ⟨e, mem_illegalOpcodes_of_fields op hcb h0 h1 h2 hf⟩

end Sys2Proof

namespace Sys2Proof.Machine

/-! ### Instructions -/

theorem ite_next {b : Bool} {m n : Nat} {s u : State} : ∃ t, (if b then done m s else done n u) = .next t := by
  cases b <;> exact ⟨_, rfl⟩

theorem cbRotate_next (kind : Nat) (r : Option Reg8) (s : State) : ∃ t, cbRotate kind r s = .next t := by
  unfold cbRotate
  split <;> exact ⟨_, rfl⟩

theorem cbInstruction_next (op : Byte) (s : State) : ∃ t, cbInstruction op s = .next t := by
  unfold cbInstruction
  dsimp only
  split
  · exact cbRotate_next _ _ s
  all_goals exact ⟨_, rfl⟩

theorem execEi_next (s : State) : ∃ t, execEi s = .next t := by
  unfold execEi
  split <;> exact ⟨_, rfl⟩

/-- Every instruction but `illegal` gives a next state (20 rule R212). -/
theorem exec_next_or_illegal (i : Instr) (s : State) : (∃ t, exec i s = .next t) ∨ ∃ op, i = .illegal op := by
  cases i with
  | illegal op => exact .inr ⟨op, rfl⟩
  | cbPrefix => exact .inl (cbInstruction_next _ _)
  | ei => exact .inl (execEi_next s)
  | jpCc | jrCc | callCc | retCc => exact .inl ite_next
  | _ => exact .inl ⟨_, rfl⟩

/-! ### Steps -/

/-- The answer is no refusal, and a fault only for a reason of `F`. -/
def Result.StopsOnly (F : Fault → Prop) (r : Result) : Prop := (∀ x, r ≠ .refused x) ∧ ∀ f, r = .fault f → F f

theorem stopsOnly_next (F : Fault → Prop) (t : State) : Result.StopsOnly F (.next t) := ⟨nofun, nofun⟩

theorem exec_stopsOnly (i : Instr) (s : State) :
    Result.StopsOnly (fun f => ∃ op, i = .illegal op ∧ f = .illegalOpcode s.opAddr op) (exec i s) := by
  rcases exec_next_or_illegal i s with ⟨t, e⟩ | ⟨op, rfl⟩
  · rw [e]
    exact stopsOnly_next _ t
  · refine ⟨nofun, fun f e => ⟨op, rfl, ?_⟩⟩
    cases e
    rfl

theorem tickResult_stopsOnly {F : Fault → Prop} {r : Result} (h : Result.StopsOnly F r) :
    Result.StopsOnly F (tickResult r) := by
  cases r with
  | next t => exact stopsOnly_next F _
  | fault f => exact h
  | refused x => exact h

/-- `f` is the fault of an undefined byte at PC (60 rule R802). -/
def State.UndefinedAtPc (s : State) (f : Fault) : Prop :=
  ∃ op, op ∈ illegalOpcodes ∧ s.busRead s.cpu.pc = op ∧ f = .illegalOpcode s.cpu.pc op

theorem fetch_illegal {s : State} {op : Byte} (h : s.fetch.instr = .illegal op) :
    op = s.busRead s.cpu.pc ∧ s.busRead s.cpu.pc ∈ illegalOpcodes := by
  unfold State.fetch at h
  dsimp only at h
  split at h <;> exact decodeOp_illegal h

theorem fetch_opAddr (s : State) : s.fetch.state.opAddr = s.cpu.pc := by
  unfold State.fetch
  dsimp only
  split <;> rfl

theorem runInstruction_stopsOnly (s : State) : Result.StopsOnly s.UndefinedAtPc s.runInstruction := by
  obtain ⟨hr, hf⟩ := exec_stopsOnly s.fetch.instr s.fetch.state
  refine tickResult_stopsOnly ⟨hr, fun f e => ?_⟩
  obtain ⟨op, hi, rfl⟩ := hf f e
  obtain ⟨rfl, hmem⟩ := fetch_illegal hi
  exact ⟨_, hmem, rfl, by rw [fetch_opAddr]⟩

theorem dispatchOrRun_stopsOnly (s : State) : Result.StopsOnly s.UndefinedAtPc s.dispatchOrRun := by
  unfold State.dispatchOrRun
  split
  · exact stopsOnly_next _ _
  · exact runInstruction_stopsOnly s

theorem haltOrRun_stopsOnly (s : State) : Result.StopsOnly s.UndefinedAtPc s.haltOrRun := by
  unfold State.haltOrRun
  split
  · split
    · exact stopsOnly_next _ _
    · exact dispatchOrRun_stopsOnly (s.setCpu { s.cpu with halted := false })
  · exact dispatchOrRun_stopsOnly s

theorem cpuStep_stopsOnly (s : State) : Result.StopsOnly s.stepStart.UndefinedAtPc s.cpuStep := by
  unfold State.cpuStep
  split
  · exact stopsOnly_next _ s
  · rw [commitEi_eq]
    exact haltOrRun_stopsOnly s.stepStart

/-- A step is never refused, and faults for an earlier fault or for an undefined byte at PC (60 rules R800 to R802). -/
theorem step_stopsOnly (s : State) :
    Result.StopsOnly (fun f => s.fault = some f ∨ s.stepStart.UndefinedAtPc f) (step s) := by
  have hrun : ∀ q, Result.StopsOnly (fun f => s.fault = some f ∨ s.stepStart.UndefinedAtPc f)
      ({ s with inputs := q } : State).cpuStep := fun q =>
    ⟨(cpuStep_stopsOnly _).1, fun f e => .inr ((cpuStep_stopsOnly { s with inputs := q }).2 f e)⟩
  unfold step State.stepMachine
  split
  next f hf =>
    refine ⟨nofun, fun g e => ?_⟩
    cases e
    exact .inl hf
  · split
    · exact hrun s.inputs
    next rest _ => exact hrun rest
    · exact stopsOnly_next _ _
    · exact stopsOnly_next _ _

/-- Settles O10: every instruction but `illegal` completes, and only an undefined byte decodes to it. -/
theorem onlyUndefinedBytesStop : Obligations.OnlyUndefinedBytesStop :=
  ⟨fun i s => (exec_stopsOnly i s).1, fun i s => (exec_stopsOnly i s).2,
    fun s => (step_stopsOnly s).1, fun s => (step_stopsOnly s).2⟩

end Sys2Proof.Machine
end

section
/-! PROOFS. The echo (O23) and the unmapped addresses (O24): an access sees the address by its region and its place in the OAM DMA
window alone. -/

namespace Sys2Proof.Machine

/-! ### The echo -/

section
variable {s : State} {a b : Word} (hr : regionOf s.params.cgb a = regionOf s.params.cgb b) (hw : s.windowOpen a = s.windowOpen b)
include hr hw

theorem busRead_congr : s.busRead a = s.busRead b := by
  unfold State.busRead State.windowReads State.untimedAt State.peek
  rw [hr, hw]

theorem afterRead_congr : s.afterRead a = s.afterRead b := by
  unfold State.afterRead State.readDraws State.untimedAt State.infraredAt
  rw [hr, hw]

theorem busWrite_congr (v : Byte) : s.busWrite a v = s.busWrite b v := by
  unfold State.busWrite
  rw [hr, hw]

end

/-- Both addresses are outside high RAM, the only range that the window spares (70 rule R923). -/
theorem windowOpen_below_hram (s : State) {a b : Word} (ha : a.toNat < 0xFF80) (hb : b.toNat < 0xFF80) :
    s.windowOpen a = s.windowOpen b := by
  simp only [State.windowOpen, decide_eq_false (Nat.not_le.2 ha), decide_eq_false (Nat.not_le.2 hb), Bool.false_and]

/-- Settles O23: an address of the echo has the region of the address 0x2000 below. -/
theorem echoRam : Obligations.EchoRam := by
  intro s a v h1 h2
  have e : (a - 0x2000).toNat = a.toNat - 0x2000 := BitVec.toNat_sub_of_le (BitVec.le_def.2 (Nat.le_trans (by decide) h1))
  have hr : regionOf s.params.cgb a = regionOf s.params.cgb (a - 0x2000) := by
    rw [regionOf_echo _ h1 h2, regionOf_wram _ (by omega) (by omega), e, Nat.sub_sub]
  have hw := windowOpen_below_hram s (a := a) (b := a - 0x2000) (by omega) (by omega)
  exact ⟨busRead_congr hr hw, afterRead_congr hr hw, busWrite_congr hr hw v⟩

/-! ### Unmapped addresses -/

theorem ioRegOf_unmapped (cgb : Bool) : ∀ off < 0x80,
    (unmappedAddress (0xFF00 + off) || (!cgb && cgbOnlyAddress (0xFF00 + off))) = true → ioRegOf cgb off = none := by
  cases cgb <;> decide

/-- Outside the I/O page the set names only the gap below it. -/
theorem gap_of_unmapped {a : Nat} (h : unmappedAddress a = true ∨ cgbOnlyAddress a = true) (hp : ¬ (0xFF00 ≤ a ∧ a < 0xFF80)) :
    0xFEA0 ≤ a ∧ a < 0xFF00 := by
  simp only [unmappedAddress, cgbOnlyAddress, Bool.or_eq_true, Bool.and_eq_true, decide_eq_true_eq] at h
  omega

theorem regionOf_unmapped {cgb : Bool} {a : Word}
    (h : unmappedAddress a.toNat = true ∨ cgb = false ∧ cgbOnlyAddress a.toNat = true) : regionOf cgb a = .unmapped := by
  by_cases hp : 0xFF00 ≤ a.toNat ∧ a.toNat < 0xFF80
  · have hoff : 0xFF00 + (a.toNat - 0xFF00) = a.toNat := by omega
    have hnone := ioRegOf_unmapped cgb (a.toNat - 0xFF00) (by omega) (by rw [hoff]; simpa using h)
    rw [regionOf_page cgb hp.1 hp.2, hnone]
  · obtain ⟨h1, h2⟩ := gap_of_unmapped (h.imp_right And.right) hp
    exact regionOf_gap cgb h1 h2

/-- Settles O24: every address of the set has the unmapped region. -/
theorem unmappedAddresses : Obligations.UnmappedAddresses := by
  intro s a v h ho
  have hr := regionOf_unmapped h
  have hu : s.untimedAt a = false := by simp [State.untimedAt, hr]
  constructor
  · rw [busRead_open ho hu]
    simp only [State.peek, hr]
  · rw [busWrite_open ho, hr]
    rfl

end Sys2Proof.Machine
end

section
/-! PROOFS. The cells behind the addresses: what decides the byte an address reads, what a plain store does to the cells, and
what is read back after it (O21). -/

namespace Sys2Proof.Machine

/-! ### The byte of an address by its cell -/

/-- The byte a cell holds; a clock register is read through its latch (61 rule R1044). -/
def State.cellByte (s : State) : Cell → Byte
  | .vram i => Store.read s.ppu.vram i
  | .cartRam i => Store.read s.cart.ram i
  | .clock select => s.cart.rtcLatched.get select
  | .wram i => Store.read s.wram i
  | .oam i => Store.read s.ppu.oam i
  | .hram i => Store.read s.hram i
  | .ie => s.ie

/-- The window reads its cell, the latched clock or nothing; only the infrared receiver looks at the free byte. -/
theorem readRam_congr {c d : Cart} {p : Bool} {off : Nat} (x y : Byte) (ht : d.ramTarget p off = c.ramTarget p off)
    (hl : d.rtcLatched = c.rtcLatched) (hi : c.ramTarget p off ≠ .infrared)
    (hc : ∀ i, c.ramTarget p off = .cell i ∨ c.ramTarget p off = .nibble i → Store.read d.ram i = Store.read c.ram i) :
    d.readRam p x off = c.readRam p y off := by
  unfold Cart.readRam
  rw [ht, hl]
  cases htarget : c.ramTarget p off with
  | cell i => exact hc i (.inl htarget)
  | nibble i => exact congrArg (0xF0 ||| ·) (hc i (.inr htarget))
  | clock select => rfl
  | infrared => exact absurd htarget hi
  | closed => rfl

/-- Where only memory differs, an address reads the same byte if its cell, if it has one, holds the same byte. -/
theorem OnlyMemory.peek_eq {s t : State} (h : OnlyMemory s t) {b : Word} (hi : s.infraredAt b = false)
    (hc : ∀ c, s.cellAt b = some c → t.cellByte c = s.cellByte c) : t.peek true b = s.peek true b := by
  obtain ⟨p, n, d, w, hr, ie, vr, om, ram, clk, rfl⟩ : ∃ p n d w hr ie vr om ram clk, t = { s with
      cpu := p, charge := n, draws := d, wram := w, hram := hr, ie := ie
      ppu := { s.ppu with vram := vr, oam := om }, cart := { s.cart with ram := ram, rtcLive := clk } } :=
    ⟨_, _, _, _, _, _, _, _, _, _, h⟩
  unfold State.peek
  unfold State.cellAt at hc
  unfold State.infraredAt at hi
  dsimp only
  cases hreg : regionOf s.params.cgb b <;> simp only [hreg] at hc hi ⊢
  case vram off => exact congrArg (if s.ppu.vramLocked = true then 0xFF else ·) (hc _ rfl)
  case oam i => exact congrArg (if s.ppu.oamLocked = true then 0xFF else ·) (hc _ rfl)
  case cartRam off =>
    refine readRam_congr (c := s.cart) _ _ rfl rfl (of_decide_eq_false hi) fun i ht => hc (.cartRam i) ?_
    rcases ht with ht | ht <;> rw [ht]
  case wramLow off => exact hc _ rfl
  case wramHigh off => exact hc _ rfl
  case hram i => exact hc _ rfl
  case ie => exact hc _ rfl
  all_goals rfl

/-! ### Plain stores -/

/-- A bus write is the store at the address's region, or, in the OAM DMA window, may be discarded (70 rule R923). -/
theorem busWrite_cases (s : State) (a : Word) (v : Byte) :
    ∃ n, s.busWrite a v = s.draw n ∨ s.busWrite a v = (s.draw n).storeAt (regionOf s.params.cgb a) v := by
  unfold State.busWrite
  split
  · split
    · exact ⟨1, .inl rfl⟩
    · exact ⟨1, .inr rfl⟩
  · exact ⟨0, .inr rfl⟩

theorem plainAt_iff (s : State) (a : Word) :
    s.plainAt a = true ↔ (∀ x, regionOf s.params.cgb a ≠ .rom x) ∧ ∀ r, regionOf s.params.cgb a ≠ .io r := by
  unfold State.plainAt
  cases regionOf s.params.cgb a <;> simp

theorem writeRam_frame (c : Cart) (p : Bool) (off : Nat) (v : Byte) :
    c.writeRam p off v = { c with ram := (c.writeRam p off v).ram, rtcLive := (c.writeRam p off v).rtcLive } := by
  unfold Cart.writeRam
  split <;> rfl

theorem storeAt_onlyMemory (s : State) {r : Region} (hrom : ∀ a, r ≠ .rom a) (hio : ∀ x, r ≠ .io x) (v : Byte) :
    OnlyMemory s (s.storeAt r v) := by
  cases r with
  | rom a => exact absurd rfl (hrom a)
  | io x => exact absurd rfl (hio x)
  | vram off => simp only [State.storeAt]; split <;> rfl
  | oam i => simp only [State.storeAt]; split <;> rfl
  | cartRam off => exact congrArg (fun c => ({ s with cart := c } : State)) (writeRam_frame s.cart _ off v)
  | wramLow off | wramHigh off | hram i | ie | unmapped => rfl

theorem busWrite_onlyMemory {s : State} {a : Word} (h : s.plainAt a = true) (v : Byte) : OnlyMemory s (s.busWrite a v) := by
  obtain ⟨hrom, hio⟩ := (plainAt_iff s a).1 h
  obtain ⟨n, e | e⟩ := busWrite_cases s a v
  · rw [e]
    rfl
  · rw [e]
    exact storeAt_onlyMemory (s.draw n) hrom hio v

theorem writeRam_rtcLatched (c : Cart) (p : Bool) (off : Nat) (v : Byte) :
    (c.writeRam p off v).rtcLatched = c.rtcLatched := by rw [writeRam_frame]

theorem read_writeRam_other {c : Cart} {p : Bool} {off i : Nat} (v : Byte) (h1 : c.ramTarget p off ≠ .cell i)
    (h2 : c.ramTarget p off ≠ .nibble i) : Store.read (c.writeRam p off v).ram i = Store.read c.ram i := by
  unfold Cart.writeRam
  cases htarget : c.ramTarget p off with
  | cell j => exact read_write_other _ v fun e => h1 (by rw [htarget, e])
  | nibble j => exact read_write_other _ _ fun e => h2 (by rw [htarget, e])
  | clock | infrared | closed => rfl

/-- A plain store changes no cell but the address's own. -/
theorem cellByte_storeAt_other {s : State} {a : Word} {c : Cell} (h : s.plainAt a = true) (hc : s.cellAt a ≠ some c)
    (v : Byte) : (s.storeAt (regionOf s.params.cgb a) v).cellByte c = s.cellByte c := by
  obtain ⟨hrom, hio⟩ := (plainAt_iff s a).1 h
  unfold State.cellAt at hc
  cases hreg : regionOf s.params.cgb a <;> simp only [hreg] at hc
  case rom x => exact absurd hreg (hrom x)
  case io r => exact absurd hreg (hio r)
  case vram off =>
    simp only [State.storeAt]
    split
    · rfl
    · cases c with
      | vram i => exact read_write_other _ v fun e => hc (by rw [e])
      | _ => rfl
  case oam j =>
    simp only [State.storeAt]
    split
    · rfl
    · cases c with
      | oam i => exact read_write_other _ v fun e => hc (by rw [e])
      | _ => rfl
  case cartRam off =>
    cases c with
    | cartRam i => exact read_writeRam_other v (fun e => hc (by rw [e])) fun e => hc (by rw [e])
    | clock select => exact congrArg (·.get select) (writeRam_rtcLatched _ _ _ v)
    | _ => rfl
  case wramLow off | wramHigh off =>
    cases c with
    | wram i => exact read_write_other _ v fun e => hc (by rw [e])
    | _ => rfl
  case hram j =>
    cases c with
    | hram i => exact read_write_other _ v fun e => hc (by rw [e])
    | _ => rfl
  case ie =>
    cases c with
    | ie => exact absurd rfl hc
    | _ => rfl
  case unmapped => rfl

theorem cellByte_busWrite_other {s : State} {a : Word} {c : Cell} (h : s.plainAt a = true) (hc : s.cellAt a ≠ some c)
    (v : Byte) : (s.busWrite a v).cellByte c = s.cellByte c := by
  obtain ⟨n, e | e⟩ := busWrite_cases s a v <;> rw [e]
  · rfl
  · exact cellByte_storeAt_other (s := s.draw n) h hc v

/-- A plain write changes no byte but those of its own cell (20 rule R222). -/
theorem busWrite_sameBytesBut {s : State} {a : Word} (h : s.plainAt a = true) (v : Byte) :
    SameBytesBut s (s.busWrite a v) a := by
  intro b hi hb
  refine (busWrite_onlyMemory h v).peek_eq hi fun c hc => cellByte_busWrite_other h (fun e => ?_) v
  rcases hb with hb | hb
  · exact nomatch hb.symm.trans e
  · exact hb (hc.trans e.symm)

/-! ### Reading back -/

theorem windowOpen_busWrite {s : State} {a : Word} (h : s.plainAt a = true) (v : Byte) (b : Word) :
    (s.busWrite a v).windowOpen b = s.windowOpen b := by
  have hm := busWrite_onlyMemory h v
  unfold OnlyMemory at hm
  rw [hm]
  rfl

theorem untimedAt_of_plainAt {s : State} {a : Word} (h : s.plainAt a = true) : s.untimedAt a = false := by
  obtain ⟨-, hio⟩ := (plainAt_iff s a).1 h
  unfold State.untimedAt
  split
  case h_4 => exact Bool.and_false _
  all_goals exact absurd ‹_› (hio _)

/-- After a plain write outside the window the bus reads what is stored. -/
theorem busRead_busWrite {s : State} {a : Word} (h : s.plainAt a = true) (hw : s.windowOpen a = false) (v : Byte) :
    (s.busWrite a v).busRead a = (s.busWrite a v).peek true a := by
  refine busRead_open (by rw [windowOpen_busWrite h, hw]) ?_
  have hu := untimedAt_of_plainAt h
  unfold State.untimedAt at hu ⊢
  rw [busWrite_params]
  exact hu

theorem plainAt_of_openRam {s : State} {a : Word} (h : s.openRam a = true) : s.plainAt a = true := by
  unfold State.openRam at h
  unfold State.plainAt
  cases hreg : regionOf s.params.cgb a <;> simp_all

theorem windowOpen_of_openRam {s : State} {a : Word} (h : s.openRam a = true) : s.windowOpen a = false := by
  unfold State.openRam at h
  simp_all

/-- Open storage holds the byte just written. -/
theorem peek_busWrite_openRam {s : State} {a : Word} (h : s.openRam a = true) (v : Byte) :
    (s.busWrite a v).peek true a = v := by
  have hw := windowOpen_of_openRam h
  unfold State.openRam at h
  rw [busWrite_open hw]
  unfold State.peek
  rw [(storeAt_frame s _ v).params]
  cases hreg : regionOf s.params.cgb a <;> simp only [hreg, hw] at h ⊢
  case vram off =>
    have hl : s.ppu.vramLocked = false := by simpa using h
    simp only [State.storeAt, hl, Bool.false_eq_true, if_false]
    exact (if_neg (ne_true_of_eq_false hl)).trans (read_write_same _ _ v)
  case oam i =>
    have hl : s.ppu.oamLocked = false := by simpa using h
    simp only [State.storeAt, hl, Bool.false_eq_true, if_false]
    exact (if_neg (ne_true_of_eq_false hl)).trans (read_write_same _ _ v)
  case wramLow off | wramHigh off => exact read_write_same _ _ v
  case hram i => exact read_write_same _ _ v
  case ie => rfl
  all_goals simp at h

theorem ramTarget_writeRam (c : Cart) (p q : Bool) (off off' : Nat) (v : Byte) :
    (c.writeRam p off v).ramTarget q off' = c.ramTarget q off' := by
  rw [writeRam_frame]
  rfl

theorem ramCell_ne_nibble (c : Cart) (k off i : Nat) : c.ramCell k off ≠ .nibble i := by
  unfold Cart.ramCell
  split <;> nofun

theorem ite_ne_nibble {p : Prop} [Decidable p] {x y : RamTarget} {i : Nat} (hx : x ≠ .nibble i) (hy : y ≠ .nibble i) :
    (if p then x else y) ≠ .nibble i := by split <;> assumption

/-- The four-bit cells are those of MBC2 (61 rule R1030). -/
theorem ramTarget_nibble {c : Cart} {p : Bool} {off i : Nat} (h : c.ramTarget p off = .nibble i) : c.variant = .mbc2 := by
  have hcell (k : Nat) := ramCell_ne_nibble c k off i
  unfold Cart.ramTarget at h
  dsimp only at h
  split at h
  case h_1 => exact absurd h (hcell _)
  case h_2 => exact absurd h (ite_ne_nibble (hcell _) nofun)
  case h_3 hv => exact hv
  case h_4 => exact absurd h (ite_ne_nibble (ite_ne_nibble (hcell _) (ite_ne_nibble nofun nofun)) nofun)
  case h_5 => exact absurd h (ite_ne_nibble (hcell _) nofun)
  case h_6 => exact absurd h (ite_ne_nibble nofun (ite_ne_nibble (hcell _) nofun))

theorem ramTarget_cell {c : Cart} {p : Bool} {off i : Nat} (h : c.ramTarget p off = .cell i) : c.variant ≠ .mbc2 := by
  intro hv
  simp only [Cart.ramTarget, hv] at h
  split at h <;> cases h

/-- Enabled cartridge RAM holds the byte just written, MBC2 its low four bits under ones (61 rules R1015, R1030). -/
theorem readRam_writeRam {c : Cart} {p : Bool} {off i : Nat} (v x : Byte)
    (h : c.ramTarget p off = .cell i ∨ c.ramTarget p off = .nibble i) :
    (c.writeRam p off v).readRam p x off = if c.variant = .mbc2 then 0xF0 ||| (v &&& 0x0F) else v := by
  unfold Cart.readRam
  rw [ramTarget_writeRam]
  unfold Cart.writeRam
  rcases h with h | h <;> rw [h]
  · rw [if_neg (ramTarget_cell h)]
    exact read_write_same _ _ v
  · rw [if_pos (ramTarget_nibble h)]
    exact congrArg (0xF0 ||| ·) (read_write_same _ _ _)

theorem regionOf_of_cellAt_cartRam {s : State} {a : Word} {k : Nat} (h : s.cellAt a = some (.cartRam k)) :
    ∃ off, regionOf s.params.cgb a = .cartRam off ∧ (s.cart.ramTarget s.params.ramPermissive off = .cell k ∨
      s.cart.ramTarget s.params.ramPermissive off = .nibble k) := by
  unfold State.cellAt at h
  cases hreg : regionOf s.params.cgb a <;> simp only [hreg] at h
  case cartRam off =>
    refine ⟨off, rfl, ?_⟩
    split at h <;> cases h
    · exact .inl ‹_›
    · exact .inr ‹_›
  all_goals cases h

theorem peek_busWrite_cartRam {s : State} {a : Word} {k : Nat} (hc : s.cellAt a = some (.cartRam k))
    (hw : s.windowOpen a = false) (v : Byte) :
    (s.busWrite a v).peek true a = if s.cart.variant = .mbc2 then 0xF0 ||| (v &&& 0x0F) else v := by
  obtain ⟨off, hreg, ht⟩ := regionOf_of_cellAt_cartRam hc
  rw [busWrite_open hw, hreg]
  simp only [State.peek, State.storeAt, hreg]
  exact readRam_writeRam v _ ht

/-- Settles O21: a plain write outside the window leaves what is stored to be read, open RAM and cartridge RAM among it. -/
theorem readAfterWrite : Obligations.ReadAfterWrite := by
  intro s a v
  refine ⟨fun h => ?_, fun k hc hw => ?_⟩
  · rw [busRead_busWrite (plainAt_of_openRam h) (windowOpen_of_openRam h), peek_busWrite_openRam h]
  · obtain ⟨off, hreg, -⟩ := regionOf_of_cellAt_cartRam hc
    have hp : s.plainAt a = true := by simp only [State.plainAt, hreg]
    exact (busRead_busWrite hp hw v).trans (peek_busWrite_cartRam hc hw v)

end Sys2Proof.Machine
end

section
/-! PROOFS. What an instruction that neither stores nor stops leaves unchanged (O46). -/

namespace Sys2Proof.Machine

theorem OnlyCpu.onlyMemory {s t : State} (h : OnlyCpu s t) : OnlyMemory s t := by
  unfold OnlyCpu at h
  unfold OnlyMemory
  rw [h]

theorem OnlyCpu.cellByte {s t : State} (h : OnlyCpu s t) (c : Cell) : t.cellByte c = s.cellByte c := by
  unfold OnlyCpu at h
  rw [h]
  cases c <;> rfl

/-- The CPU's own state is no part of memory: every address reads the same byte. -/
theorem OnlyCpu.sameBytes {s t : State} (h : OnlyCpu s t) : SameBytes s t :=
  fun _ hi => h.onlyMemory.peek_eq hi fun c _ => h.cellByte c

theorem onlyCpu_done {n : Nat} {s t : State} (h : OnlyCpu s t) : Result.Keeps (OnlyCpu s) (done n t) := by
  intro u e
  cases e
  unfold OnlyCpu at h ⊢
  rw [h]
  rfl

theorem onlyCpu_enterHalt (s : State) : OnlyCpu s s.enterHalt := by
  unfold State.enterHalt
  split
  · rfl
  · split <;> rfl

theorem onlyCpu_ei (s : State) : Result.Keeps (OnlyCpu s) (execEi s) := by
  unfold execEi
  split <;> exact onlyCpu_done rfl

/-- Outside the stores, STOP and the bare prefix an instruction is made of reads and of updates of the CPU's own state. -/
theorem exec_onlyCpu {i : Instr} (hi : i.storesOrStops = false) (s : State) : Result.Keeps (OnlyCpu s) (exec i s) := by
  cases i with
  | ldHlR | ldHlN | ldBcA | ldDeA | ldNnA | ldhCA | ldhNA | ldHldA | ldHliA | ldNnSp | push | incHl | decHl | rlcHl | rrcHl
  | rlHl | rrHl | slaHl | sraHl | swapHl | srlHl | resHl | setHl | callNn | callCc | rst | stop | cbPrefix => cases hi
  | jpCc | jrCc | retCc => exact keeps_ite (onlyCpu_done rfl) (onlyCpu_done rfl)
  | halt => exact onlyCpu_done (onlyCpu_enterHalt s)
  | ei => exact onlyCpu_ei s
  | illegal => exact keeps_fault _ _
  | _ => exact onlyCpu_done rfl

/-- Settles O46: such an instruction changes the CPU alone, and no byte of memory depends on it. -/
theorem nonStoringFrame : Obligations.NonStoringFrame := by
  intro i s t hi h
  have hcpu : OnlyCpu s t := exec_onlyCpu hi s t h
  exact ⟨hcpu.sameBytes, hcpu⟩

end Sys2Proof.Machine
end

section
/-! PROOFS. What a bus write leaves unchanged, by the unit behind the address (O22). -/

namespace Sys2Proof.Machine

/-! ### The units of the I/O page -/

/-- The units that the registers of the I/O page belong to (20 rule R238). -/
inductive IoUnit
  | joypad | serial | timer | requests | apu | lcd | oamDma | speed | boot | vramDma | video | bank
  deriving DecidableEq

/-- The unit of a register. -/
def IoReg.unit : IoReg → IoUnit
  | .p1 => .joypad
  | .sb | .sc => .serial
  | .div | .tima | .tma | .tac => .timer
  | .iflag => .requests
  | .apu _ | .nr52 | .wave _ => .apu
  | .lcdc | .stat | .scy | .scx | .ly | .lyc | .bgp | .obp0 | .obp1 | .wy | .wx => .lcd
  | .dma => .oamDma
  | .key1 => .speed
  | .boot => .boot
  | .hdma5 => .vramDma
  | .vbk | .hdma1 | .hdma2 | .hdma3 | .hdma4 | .bcps | .bcpd | .ocps | .ocpd => .video
  | .svbk => .bank

/-- What a write to a register of the unit may change between `s` and `t`, the count of free values apart. -/
def IoUnit.Frame (s t : State) : IoUnit → Prop
  | .joypad => t = { s with joy := t.joy, iflag := t.iflag, draws := t.draws } ∧ t.joy.buttons = s.joy.buttons
  | .serial => t = { s with serial := t.serial, draws := t.draws }
  | .timer => t = { s with timer := t.timer, draws := t.draws }
  | .requests => t = { s with iflag := t.iflag, draws := t.draws }
  | .apu => t = { s with apu := t.apu, draws := t.draws }
  | .lcd => t = { s with ppu := t.ppu, iflag := t.iflag, draws := t.draws } ∧ t.ppu.vram = s.ppu.vram ∧ t.ppu.oam = s.ppu.oam
  | .oamDma =>
    t = { s with ppu := t.ppu, charge := t.charge, draws := t.draws, dmaUntil := t.dmaUntil } ∧
      t.ppu = { s.ppu with dma := t.ppu.dma, oam := t.ppu.oam }
  | .speed => t = { s with key1Prep := t.key1Prep, draws := t.draws }
  | .boot => t = { s with bootMapped := t.bootMapped, draws := t.draws }
  | .vramDma => t = { s with ppu := t.ppu, charge := t.charge, draws := t.draws } ∧ t.ppu.oam = s.ppu.oam
  | .video => t = { s with ppu := t.ppu, draws := t.draws } ∧ t.ppu.vram = s.ppu.vram ∧ t.ppu.oam = s.ppu.oam
  | .bank => t = { s with svbk := t.svbk, draws := t.draws }

/-- Taking a free value is no change of a unit. -/
theorem IoUnit.frame_draw (u : IoUnit) (s : State) (n : Nat) : u.Frame s (s.draw n) := by
  cases u with
  | serial | timer | requests | apu | speed | boot | bank => rfl
  | joypad | oamDma | vramDma => exact ⟨rfl, rfl⟩
  | lcd | video => exact ⟨rfl, rfl, rfl⟩

theorem IoUnit.Frame.trans {u : IoUnit} {s t w : State} (h1 : u.Frame s t) (h2 : u.Frame t w) : u.Frame s w := by
  cases u with
  | serial | timer | requests | apu | speed | boot | bank =>
    unfold IoUnit.Frame at *
    rw [h2, h1]
  | joypad | oamDma | vramDma =>
    obtain ⟨h1, k1⟩ := h1
    obtain ⟨h2, k2⟩ := h2
    exact ⟨by rw [h2, h1], by rw [k2, k1]⟩
  | lcd | video =>
    obtain ⟨h1, hv1, ho1⟩ := h1
    obtain ⟨h2, hv2, ho2⟩ := h2
    exact ⟨by rw [h2, h1], hv2.trans hv1, ho2.trans ho1⟩

/-! ### Register writes by unit -/

theorem compareLy_lcdFrame (s : State) : IoUnit.lcd.Frame s s.compareLy := ⟨rfl, rfl, rfl⟩

theorem lineStart_lcdFrame (s : State) : IoUnit.lcd.Frame s s.lineStart := ⟨rfl, rfl, rfl⟩

theorem restartFrame_lcdFrame (s : State) : IoUnit.lcd.Frame s s.restartFrame := by
  have h : IoUnit.lcd.Frame s (s.setPpu { s.ppu with line := 0, lineCycle := 0 }) := ⟨rfl, rfl, rfl⟩
  exact (h.trans (lineStart_lcdFrame _)).trans (compareLy_lcdFrame _)

theorem writeLcdc_lcdFrame (s : State) (v : Byte) : IoUnit.lcd.Frame s (s.writeLcdc v) := by
  have h : IoUnit.lcd.Frame s (s.setPpu { s.ppu with lcdc := v }) := ⟨rfl, rfl, rfl⟩
  unfold State.writeLcdc
  dsimp only
  split
  · exact ⟨rfl, rfl, rfl⟩
  · split
    · exact h.trans (restartFrame_lcdFrame _)
    · exact h

theorem writeLy_lcdFrame (s : State) : IoUnit.lcd.Frame s s.writeLy := by
  unfold State.writeLy
  split
  · exact restartFrame_lcdFrame s
  · exact ⟨rfl, rfl, rfl⟩

theorem writeLyc_lcdFrame (s : State) (v : Byte) : IoUnit.lcd.Frame s (s.writeLyc v) := by
  unfold State.writeLyc
  dsimp only
  split <;> exact ⟨rfl, rfl, rfl⟩

theorem writeSc_serialFrame (s : State) (v : Byte) : IoUnit.serial.Frame s (s.writeSc v) := by
  unfold State.writeSc
  dsimp only
  split <;> rfl

theorem oamDmaByte_oamDmaFrame (s : State) (v : Byte) (i : Nat) : IoUnit.oamDma.Frame s (s.oamDmaByte v i) := ⟨rfl, rfl⟩

theorem oamDmaCopy_oamDmaFrame (v : Byte) (n i : Nat) (s : State) : IoUnit.oamDma.Frame s (State.oamDmaCopy v n i s) := by
  induction n generalizing s i with
  | zero => exact ⟨rfl, rfl⟩
  | succ k ih => exact (oamDmaByte_oamDmaFrame s v i).trans (ih _ _)

theorem openWindow_oamDmaFrame (s : State) (n : Nat) : IoUnit.oamDma.Frame s { s.chargeDraw with dmaUntil := n } := ⟨rfl, rfl⟩

theorem oamDma_oamDmaFrame (s : State) (v : Byte) : IoUnit.oamDma.Frame s (s.oamDma v) := by
  have h : IoUnit.oamDma.Frame s (s.setPpu { s.ppu with dma := v }) := ⟨rfl, rfl⟩
  exact (h.trans (oamDmaCopy_oamDmaFrame v 160 0 _)).trans (openWindow_oamDmaFrame _ (s.cycles + 640))

theorem vramDmaByte_vramDmaFrame (s : State) : IoUnit.vramDma.Frame s s.vramDmaByte := ⟨rfl, rfl⟩

theorem vramDmaCopy_vramDmaFrame (n : Nat) (s : State) : IoUnit.vramDma.Frame s (State.vramDmaCopy n s) := by
  induction n generalizing s with
  | zero => exact ⟨rfl, rfl⟩
  | succ k ih => exact (vramDmaByte_vramDmaFrame s).trans (ih _)

theorem endGeneral_vramDmaFrame (s : State) :
    IoUnit.vramDma.Frame s (s.setPpu { s.ppu with hdmaLeft := 0 }).chargeDraw := ⟨rfl, rfl⟩

theorem generalDma_vramDmaFrame (s : State) (n : Nat) : IoUnit.vramDma.Frame s (s.generalDma n) :=
  (vramDmaCopy_vramDmaFrame (16 * n) s).trans (endGeneral_vramDmaFrame _)

theorem writeHdma5_vramDmaFrame (s : State) (v : Byte) : IoUnit.vramDma.Frame s (s.writeHdma5 v) := by
  unfold State.writeHdma5
  split
  · exact ⟨rfl, rfl⟩
  · split
    · exact ⟨rfl, rfl⟩
    · exact generalDma_vramDmaFrame s _

/-- A write to a register changes its own unit alone, with what the register's rule adds. -/
theorem writeIo_unitFrame (s : State) (r : IoReg) (v : Byte) : r.unit.Frame s (s.writeIo r v) := by
  cases r with
  | sc => exact writeSc_serialFrame s v
  | lcdc => exact writeLcdc_lcdFrame s v
  | ly => exact writeLy_lcdFrame s
  | lyc => exact writeLyc_lcdFrame s v
  | dma => exact oamDma_oamDmaFrame s v
  | hdma5 => exact writeHdma5_vramDmaFrame s v
  | sb | div | tima | tma | tac | iflag | apu | nr52 | wave | key1 | boot | svbk => rfl
  | p1 => exact ⟨rfl, rfl⟩
  | stat | scy | scx | bgp | obp0 | obp1 | wy | wx | vbk | hdma1 | hdma2 | hdma3 | hdma4 | bcps | bcpd | ocps | ocpd =>
    exact ⟨rfl, rfl, rfl⟩

/-! ### Addresses by unit -/

/-- Every register from 0xFF00 + `lo` to 0xFF00 + `hi` belongs to the unit, in both modes. -/
abbrev IoUnit.Spans (u : IoUnit) (lo hi : Nat) : Prop :=
  hi < 0x80 ∧ ∀ cgb, ∀ off < 0x80, lo ≤ off → off ≤ hi → ∀ r ∈ ioRegOf cgb off, r.unit = u

/-- A write to an address of a unit changes that unit alone. -/
theorem busWrite_unitFrame {s : State} {a : Word} {u : IoUnit} {lo hi : Nat} (hu : u.Spans lo hi)
    (h1 : 0xFF00 + lo ≤ a.toNat) (h2 : a.toNat ≤ 0xFF00 + hi) (v : Byte) : u.Frame s (s.busWrite a v) := by
  obtain ⟨hpage, hunit⟩ := hu
  obtain ⟨n, e | e⟩ := busWrite_cases s a v <;> rw [e]
  · exact u.frame_draw s n
  · rw [regionOf_page _ (by omega) (by omega)]
    cases hreg : ioRegOf s.params.cgb (a.toNat - 0xFF00) with
    | none => exact u.frame_draw s n
    | some r =>
      have hr := hunit _ (a.toNat - 0xFF00) (by omega) (by omega) (by omega) r hreg
      exact (u.frame_draw s n).trans (hr ▸ writeIo_unitFrame (s.draw n) r v)

theorem busWrite_unitFrame_at {s : State} {a : Word} {u : IoUnit} {off : Nat} (hu : u.Spans off off)
    (h : a = BitVec.ofNat 16 (0xFF00 + off)) (v : Byte) : u.Frame s (s.busWrite a v) := by
  have ha : a.toNat = 0xFF00 + off := by
    rw [h, BitVec.toNat_ofNat, Nat.mod_eq_of_lt (by have := hu.1; omega)]
  exact busWrite_unitFrame hu (by omega) (by omega) v

theorem lcd_spans : IoUnit.lcd.Spans 0x40 0x45 ∧ IoUnit.lcd.Spans 0x47 0x4B := by decide

/-- The registers of the LCD are those from 0xFF40 to 0xFF4B but for DMA between them. -/
theorem busWrite_lcdFrame {s : State} {a : Word} (h1 : 0xFF40 ≤ a.toNat) (h2 : a.toNat ≤ 0xFF4B) (h3 : a ≠ 0xFF46) (v : Byte) :
    IoUnit.lcd.Frame s (s.busWrite a v) := by
  have hne : a.toNat ≠ 0xFF46 := fun e => h3 (BitVec.eq_of_toNat_eq e)
  obtain ⟨hbelow, habove⟩ := lcd_spans
  by_cases h : a.toNat ≤ 0xFF45
  · exact busWrite_unitFrame hbelow h1 h v
  · exact busWrite_unitFrame habove (by omega) h2 v

theorem control_rtcLive (c : Cart) (a : Nat) (v : Byte) : (c.control a v).rtcLive = c.rtcLive := by
  unfold Cart.control
  split <;> (repeat' split) <;> rfl

/-- A write below 0x8000 reaches the mapper's registers alone (20 rule R232; 61 rule R1011). -/
theorem busWrite_mapperFrame {s : State} {a : Word} (h : a.toNat < 0x8000) (v : Byte) :
    s.busWrite a v = { s with cart := (s.busWrite a v).cart, draws := (s.busWrite a v).draws } ∧
      (s.busWrite a v).cart.ram = s.cart.ram ∧ (s.busWrite a v).cart.rom = s.cart.rom ∧
      (s.busWrite a v).cart.rtcLive = s.cart.rtcLive := by
  obtain ⟨n, e | e⟩ := busWrite_cases s a v <;> rw [e]
  · exact ⟨rfl, rfl, rfl, rfl⟩
  · rw [regionOf_rom _ h]
    obtain ⟨hrom, hram⟩ := control_cartWf s.cart a.toNat v
    exact ⟨rfl, hram, hrom, control_rtcLive _ _ v⟩

/-- Settles O22: a plain write changes its own cell, a write below 0x8000 the mapper, and a register's write its unit. -/
theorem busWriteFrame : Obligations.BusWriteFrame := by
  intro s a v
  have hb := busWrite_frame s a v
  refine ⟨fun h => ⟨busWrite_sameBytesBut h v, busWrite_onlyMemory h v⟩,
    ⟨hb.cpu, hb.params, hb.doubleSpeed, hb.fault, hb.cycles, hb.bootRom, hb.inputs, hb.opAddr⟩,
    fun h => busWrite_mapperFrame h v, ?joypad, ?serial, ?timer, ?requests, ?apu, ?lcd, ?oamDma, ?speed, ?boot, ?vramDma,
    ?video, ?bank⟩
  case joypad => exact fun h => busWrite_unitFrame_at (u := .joypad) (off := 0x00) (by decide) h v
  case serial =>
    rintro (h | h)
    · exact busWrite_unitFrame_at (u := .serial) (off := 0x01) (by decide) h v
    · exact busWrite_unitFrame_at (u := .serial) (off := 0x02) (by decide) h v
  case timer => exact fun ⟨h1, h2⟩ => busWrite_unitFrame (u := .timer) (lo := 0x04) (hi := 0x07) (by decide) h1 h2 v
  case requests => exact fun h => busWrite_unitFrame_at (u := .requests) (off := 0x0F) (by decide) h v
  case apu => exact fun ⟨h1, h2⟩ => busWrite_unitFrame (u := .apu) (lo := 0x10) (hi := 0x3F) (by decide) h1 h2 v
  case lcd => exact fun ⟨h1, h2, h3⟩ => busWrite_lcdFrame h1 h2 h3 v
  case oamDma => exact fun h => busWrite_unitFrame_at (u := .oamDma) (off := 0x46) (by decide) h v
  case speed => exact fun h => busWrite_unitFrame_at (u := .speed) (off := 0x4D) (by decide) h v
  case boot => exact fun h => busWrite_unitFrame_at (u := .boot) (off := 0x50) (by decide) h v
  case vramDma => exact fun h => busWrite_unitFrame_at (u := .vramDma) (off := 0x55) (by decide) h v
  case video =>
    rintro (h | ⟨h1, h2⟩ | ⟨h1, h2⟩)
    · exact busWrite_unitFrame_at (u := .video) (off := 0x4F) (by decide) h v
    · exact busWrite_unitFrame (u := .video) (lo := 0x51) (hi := 0x54) (by decide) h1 h2 v
    · exact busWrite_unitFrame (u := .video) (lo := 0x68) (hi := 0x6B) (by decide) h1 h2 v
  case bank => exact fun h => busWrite_unitFrame_at (u := .bank) (off := 0x70) (by decide) h v

end Sys2Proof.Machine
end

section
/-! PROOFS. Decoding the bytes of an instruction gives it back (O1), encoding the instruction of three bytes gives its bytes back
(O2), and so three bytes always hold one instruction (O3). -/

namespace Sys2Proof

/-! ### Operand words -/

theorem encodeN16_imm16 (op l h : Byte) : encodeN16 op (imm16 l h) = [op, l, h] := by
  change [op, Machine.loByte (h ++ l), Machine.hiByte (h ++ l)] = [op, l, h]
  rw [Machine.loByte_append, Machine.hiByte_append]

theorem exists_imm16 (v : Word) : ∃ l h, v = imm16 l h := ⟨_, _, (Machine.imm16_of_bytes v).symm⟩

/-! ### Decoding the bytes of an instruction -/

theorem decode_of_no_operand {op : Byte} (h : operandBytes op = 0) (rest : List Byte) :
    decode (op :: rest) = .ok (decodeOp op 0 0, rest) := by
  simp only [decode, h]

theorem decode_cb (b : Byte) (rest : List Byte) : decode (0xCB :: b :: rest) = .ok (decodeCb b, rest) := rfl

theorem decodeReg8_code (r : Reg8) : decodeReg8 r.code.toNat = some r := by cases r <;> rfl

theorem decodeReg8_hlCode : decodeReg8 hlCode.toNat = none := rfl

/-! The groups 1 to 3 of the CB table read the bit number and the operand back from their fields (30 rules R303, R331). -/

theorem decodeCb_byte01 (n z : BitVec 3) :
    decodeCb (byte01 n z) = (decodeReg8 z.toNat).elim (.bitHl n) (.bitR n) := by revert n z; decide

theorem decodeCb_byte10 (n z : BitVec 3) :
    decodeCb (byte10 n z) = (decodeReg8 z.toNat).elim (.resHl n) (.resR n) := by revert n z; decide

theorem decodeCb_byte11 (n z : BitVec 3) :
    decodeCb (byte11 n z) = (decodeReg8 z.toNat).elim (.setHl n) (.setR n) := by revert n z; decide

theorem decode_illegal {op : Byte} (h : op ∈ illegalOpcodes) (rest : List Byte) :
    decode (op :: rest) = .ok (.illegal op, rest) := by
  have hop : ∀ x ∈ illegalOpcodes, operandBytes x = 0 ∧ decodeOp x 0 0 = .illegal x := by decide
  obtain ⟨hn, hi⟩ := hop op h
  rw [decode_of_no_operand hn, hi]

theorem decode_rst (t : BitVec 3) (rest : List Byte) : decode (byte11 t 7 :: rest) = .ok (.rst t, rest) := by
  have hop : ∀ t, operandBytes (byte11 t 7) = 0 ∧ decodeOp (byte11 t 7) 0 0 = .rst t := by decide
  obtain ⟨hn, hi⟩ := hop t
  rw [decode_of_no_operand hn, hi]

/-- By the kind of operand: an operand byte is handed through, a word is read back from its two bytes, a register or a condition
from its code, a bit number from its field. -/
theorem decode_encode {i : Instr} (hwf : i.wf = true) (hp : i ≠ .cbPrefix) (rest : List Byte) :
    decode (encode i ++ rest) = .ok (i, rest) := by
  cases i with
  | cbPrefix => exact absurd rfl hp
  | illegal op => exact decode_illegal (List.contains_iff_mem.1 hwf) rest
  | rst t => exact decode_rst t rest
  | ldANn a | ldNnA a | ldNnSp a | jpNn a | callNn a =>
    obtain ⟨l, h, rfl⟩ := exists_imm16 a
    rw [encode, encodeN16_imm16]
    rfl
  | ldRrNn x a | jpCc x a | callCc x a =>
    obtain ⟨l, h, rfl⟩ := exists_imm16 a
    rw [encode, encodeN16_imm16]
    cases x <;> rfl
  | bitR n r | resR n r | setR n r =>
    simp only [encode, List.cons_append, List.nil_append, decode_cb, decodeCb_byte01, decodeCb_byte10, decodeCb_byte11,
      decodeReg8_code, Option.elim_some]
  | bitHl n | resHl n | setHl n =>
    simp only [encode, List.cons_append, List.nil_append, decode_cb, decodeCb_byte01, decodeCb_byte10, decodeCb_byte11,
      decodeReg8_hlCode, Option.elim_none]
  | ldRR dst src => cases dst <;> cases src <;> rfl
  | pop q =>
    cases q with
    | af => cases hwf
    | _ => rfl
  | ldRN x | ldRHl x | ldHlR x | incR x | decR x | rlcR x | rrcR x | rlR x | rrR x | slaR x | sraR x | swapR x | srlR x
  | addR x | adcR x | subR x | sbcR x | andR x | xorR x | orR x | cpR x | addHlRr x | incRr x | decRr x | push x | retCc x
  | jrCc x => cases x <;> rfl
  | _ => rfl

/-- Settles O1: `decode_encode`, and the row PREFIX where nothing follows. -/
theorem decodeOfEncode : Obligations.DecodeOfEncode := by
  intro i rest hwf hp
  by_cases h : i = .cbPrefix
  · rw [h, hp h]
    rfl
  · exact decode_encode hwf h rest

/-! ### Encoding the instruction of three bytes -/

/-- The instruction with `l` and `h` in the place of its operand bytes (30 rules R320, R321). -/
def Instr.withOperand (i : Instr) (l h : Byte) : Instr :=
  match i with
  | .ldRN r _ => .ldRN r l
  | .ldHlN _ => .ldHlN l
  | .ldhAN _ => .ldhAN l
  | .ldhNA _ => .ldhNA l
  | .ldHlSpE _ => .ldHlSpE l
  | .addSpE _ => .addSpE l
  | .addN _ => .addN l
  | .adcN _ => .adcN l
  | .subN _ => .subN l
  | .sbcN _ => .sbcN l
  | .andN _ => .andN l
  | .xorN _ => .xorN l
  | .orN _ => .orN l
  | .cpN _ => .cpN l
  | .jrE _ => .jrE l
  | .jrCc cc _ => .jrCc cc l
  | .ldANn _ => .ldANn (imm16 l h)
  | .ldNnA _ => .ldNnA (imm16 l h)
  | .ldRrNn rr _ => .ldRrNn rr (imm16 l h)
  | .ldNnSp _ => .ldNnSp (imm16 l h)
  | .jpNn _ => .jpNn (imm16 l h)
  | .jpCc cc _ => .jpCc cc (imm16 l h)
  | .callNn _ => .callNn (imm16 l h)
  | .callCc cc _ => .callCc cc (imm16 l h)
  | i => i

section
variable (op b1 b2 l h : Byte)

theorem decodeBlock0_withOperand : (decodeBlock0 op b1 b2).withOperand l h = decodeBlock0 op l h := by
  unfold decodeBlock0
  split <;> split <;> rfl

theorem decodeBlock1_withOperand : (decodeBlock1 op).withOperand l h = decodeBlock1 op := by
  unfold decodeBlock1
  split <;> rfl

theorem decodeAluR8_withOperand (ooo : Nat) (r : Option Reg8) :
    (decodeAluR8 ooo r).withOperand l h = decodeAluR8 ooo r := by
  unfold decodeAluR8
  split <;> rfl

theorem decodeAluN_withOperand (ooo : Nat) : (decodeAluN ooo b1).withOperand l h = decodeAluN ooo l := by
  unfold decodeAluN
  split <;> rfl

theorem decodeBlock3_withOperand : (decodeBlock3 op b1 b2).withOperand l h = decodeBlock3 op l h := by
  unfold decodeBlock3
  split
  case h_7 => exact decodeAluN_withOperand b1 l h _
  case h_8 => rfl
  all_goals split <;> rfl

/-- A base opcode hands its operand bytes through: they do not decide the instruction. -/
theorem decodeOp_withOperand (hcb : op ≠ 0xCB) : (decodeOp op b1 b2).withOperand l h = decodeOp op l h := by
  unfold decodeOp
  rw [if_neg hcb, if_neg hcb]
  split
  · exact decodeBlock0_withOperand op b1 b2 l h
  · exact decodeBlock1_withOperand op l h
  · exact decodeAluR8_withOperand l h _ _
  · exact decodeBlock3_withOperand op b1 b2 l h

end

/-- So does the encoder, outside the CB table, whose second byte is no operand. -/
theorem encode_withOperand {i : Instr} {op : Byte} {args : List Byte} (hi : encode i = op :: args) (hcb : op ≠ 0xCB)
    (l h : Byte) : encode (i.withOperand l h) = op :: [l, h].take args.length := by
  cases i with
  | ldANn | ldNnA | ldRrNn | ldNnSp | jpNn | jpCc | callNn | callCc =>
    cases hi
    exact encodeN16_imm16 _ l h
  | rlcR | rlcHl | rrcR | rrcHl | rlR | rlHl | rrR | rrHl | slaR | slaHl | sraR | sraHl | swapR | swapHl | srlR | srlHl
  | bitR | bitHl | resR | resHl | setR | setHl | cbPrefix =>
    cases hi
    exact absurd rfl hcb
  | _ =>
    cases hi
    rfl

theorem encode_decodeCb (b : Byte) : encode (decodeCb b) = [0xCB, b] := by
  revert b
  decide

/-- The base table, each opcode with the operand 0. -/
theorem encode_decodeOp_zero (op : Byte) (hcb : op ≠ 0xCB) :
    encode (decodeOp op 0 0) = op :: List.replicate (operandBytes op) 0 := by
  revert op
  decide

theorem encode_decodeOp (op b1 b2 : Byte) : encode (decodeOp op b1 b2) = op :: [b1, b2].take (operandBytes op) := by
  by_cases hcb : op = 0xCB
  · rw [hcb]
    exact encode_decodeCb b1
  · rw [← decodeOp_withOperand op 0 0 b1 b2 hcb, encode_withOperand (encode_decodeOp_zero op hcb) hcb, List.length_replicate]

/-- Settles O2: the operand bytes pass through the decoder and the encoder, and the table of opcodes is checked once. -/
theorem encodeOfDecode : Obligations.EncodeOfDecode := by
  intro op b1 b2
  rw [encode_decodeOp, Nat.add_comm, List.take_succ_cons]

/-! ### Three bytes always hold an instruction -/

/-- The first byte of the instruction's encoding is the opcode it was decoded from. -/
theorem opcode_of_encode {op b1 b2 x : Byte} {args : List Byte} (h : encode (decodeOp op b1 b2) = x :: args) : op = x := by
  rw [encode_decodeOp] at h
  exact List.head_eq_of_cons_eq h

theorem decodeOp_ne_cbPrefix (op b1 b2 : Byte) : decodeOp op b1 b2 ≠ .cbPrefix := by
  intro e
  have henc := encode_decodeOp op b1 b2
  obtain rfl : op = 0xCB := opcode_of_encode (congrArg encode e)
  rw [e] at henc
  cases henc

theorem decodeOp_ne_pop_af (op b1 b2 : Byte) : decodeOp op b1 b2 ≠ .pop .af := by
  intro e
  obtain rfl : op = 0xF1 := opcode_of_encode (congrArg encode e)
  cases e

theorem decodeOp_wf (op b1 b2 : Byte) : (decodeOp op b1 b2).wf = true := by
  cases hi : decodeOp op b1 b2 with
  | illegal x =>
    obtain ⟨rfl, hmem⟩ := decodeOp_illegal hi
    exact List.contains_iff_mem.2 hmem
  | pop q =>
    cases q with
    | af => exact absurd hi (decodeOp_ne_pop_af op b1 b2)
    | _ => rfl
  | _ => rfl

/-- Settles O3: the bytes begin with the encoding of the instruction they name (O2), which is read back from it (O1). -/
theorem decodeIsTotal : Obligations.DecodeIsTotal := by
  intro op b1 b2 rest
  have hwf := decodeOp_wf op b1 b2
  have hp := decodeOp_ne_cbPrefix op b1 b2
  have hpre : encode (decodeOp op b1 b2) <+: [op, b1, b2] := encodeOfDecode op b1 b2 ▸ List.take_prefix _ _
  have hsplit := List.prefix_iff_eq_append.1 hpre
  refine ⟨decodeOp op b1 b2, (encode (decodeOp op b1 b2)).length, ?_, hwf, hp, ?_, hpre.length_le, rfl⟩
  · calc decode (op :: b1 :: b2 :: rest)
        = decode (encode (decodeOp op b1 b2) ++ ([op, b1, b2].drop (encode (decodeOp op b1 b2)).length ++ rest)) := by
          rw [← List.append_assoc, hsplit]
          rfl
      _ = _ := decode_encode hwf hp _
  · rw [encode_decodeOp]
    exact Nat.succ_pos _

end Sys2Proof
end

section
/-! PROOFS. The loads and stores of a byte, and the loads of a register or a pair (O31, O32, O33), each by the rule for its shape:
a register written, a byte read into a register, a byte written to the bus; and the words of the encoding lines (O4). -/

namespace Sys2Proof.Machine

theorem setReg_f (p : Cpu) (r : Reg8) (v : Byte) : (p.setReg r v).f = p.f := by cases r <;> rfl

/-! ### One rule per shape of instruction -/

section
variable {i : Instr} {s : State} {n : Nat} {a : Word}

/-- An instruction that writes a register. -/
theorem runs_of_setReg {r : Reg8} {v : Byte} (h : exec i s = done n (s.setReg r v)) :
    ∃ p, Runs i s n p ∧ s.cpu.Gives p r v s.cpu.f :=
  ⟨s.cpu.setReg r v, h, gives_setReg_sameFlags s.cpu r v⟩

/-- An instruction that writes a pair or SP. -/
theorem runs_of_setPair {rr : Reg16} {v : Word} (h : exec i s = done n (s.setPair rr v)) :
    ∃ p, Runs i s n p ∧ s.cpu.GivesPair p rr v s.cpu.f :=
  ⟨s.cpu.setPair rr v, h, givesPair_setPair_sameFlags s.cpu rr v⟩

/-- An instruction that reads a byte and writes a register. -/
theorem reads_of_setReg {r : Reg8} {v : Byte} (h : exec i s = done n ((s.afterRead a).setReg r v)) :
    ∃ p, Reads i s a n p ∧ s.cpu.Gives p r v s.cpu.f :=
  ⟨s.cpu.setReg r v, h, gives_setReg_sameFlags s.cpu r v⟩

/-- An instruction that reads a byte, writes a register and then a pair. -/
theorem reads_of_setReg_setPair {r : Reg8} {v : Byte} {rr : Reg16} {w : Word}
    (h : exec i s = done n (((s.afterRead a).setReg r v).setPair rr w)) :
    ∃ q p, Reads i s a n p ∧ s.cpu.Gives q r v s.cpu.f ∧ q.GivesPair p rr w s.cpu.f := by
  have hp := givesPair_setPair_sameFlags (s.cpu.setReg r v) rr w
  rw [setReg_f] at hp
  exact ⟨_, _, h, gives_setReg_sameFlags s.cpu r v, hp⟩

/-- A bus write leaves what a store leaves, whatever becomes of the CPU's own state and the charge. -/
theorem stored_busWrite (s : State) (a : Word) (v : Byte) (p : Cpu) (n : Nat) :
    Stored s { s.busWrite a v with cpu := p, charge := n } a v := by
  refine ⟨fun h => ⟨busWrite_sameBytesBut h v, ?_⟩, fun h => peek_busWrite_openRam h v⟩
  have hm := busWrite_onlyMemory h v
  unfold OnlyMemory at hm ⊢
  rw [hm]

/-- An instruction that writes a byte to the bus and then sets the CPU's own state. -/
theorem stores_of_setCpu {v : Byte} {p : Cpu} (h : exec i s = done n ((s.busWrite a v).setCpu p)) : Stores i s a v n p :=
  ⟨_, h, rfl, stored_busWrite s a v p _⟩

/-- An instruction that writes a byte to the bus and nothing else. -/
theorem stores_of_busWrite {v : Byte} (h : exec i s = done n (s.busWrite a v)) : Stores i s a v n s.cpu :=
  stores_of_setCpu (h.trans (congrArg (done n) (busWrite_setCpu s s.cpu a v)))

/-- An instruction that writes a byte to the bus and then a pair. -/
theorem stores_of_setPair {v : Byte} {rr : Reg16} {w : Word} (h : exec i s = done n ((s.busWrite a v).setPair rr w)) :
    ∃ p, Stores i s a v n p ∧ s.cpu.GivesPair p rr w s.cpu.f := by
  rw [State.setPair, busWrite_cpu] at h
  exact ⟨s.cpu.setPair rr w, stores_of_setCpu h, givesPair_setPair_sameFlags s.cpu rr w⟩

end

/-! ### The high page -/

theorem exec_ldhAC (s : State) : exec .ldhAC s =
    done 8 ((s.afterRead (BitVec.ofNat 16 (0xFF00 + s.cpu.c.toNat))).setReg .a
      (s.busRead (BitVec.ofNat 16 (0xFF00 + s.cpu.c.toNat)))) := by
  rw [← highPage_eq]
  rfl

theorem exec_ldhAN (n : Byte) (s : State) : exec (.ldhAN n) s =
    done 12 ((s.afterRead (BitVec.ofNat 16 (0xFF00 + n.toNat))).setReg .a
      (s.busRead (BitVec.ofNat 16 (0xFF00 + n.toNat)))) := by
  rw [← highPage_eq]
  rfl

theorem exec_ldhCA (s : State) :
    exec .ldhCA s = done 8 (s.busWrite (BitVec.ofNat 16 (0xFF00 + s.cpu.c.toNat)) s.cpu.a) := by
  rw [← highPage_eq]
  rfl

theorem exec_ldhNA (n : Byte) (s : State) :
    exec (.ldhNA n) s = done 12 (s.busWrite (BitVec.ofNat 16 (0xFF00 + n.toNat)) s.cpu.a) := by
  rw [← highPage_eq]
  rfl

/-! ### The statements -/

/-- Settles O32: each load reads a byte into its register; a read that looks at no free value is that of the stored byte. -/
theorem memoryLoads : Obligations.MemoryLoads := by
  intro s
  exact ⟨fun _ => reads_of_setReg rfl, reads_of_setReg rfl, reads_of_setReg rfl, fun _ => reads_of_setReg rfl,
    reads_of_setReg (exec_ldhAC s), fun n => reads_of_setReg (exec_ldhAN n s), reads_of_setReg_setPair rfl,
    reads_of_setReg_setPair rfl, fun _ => busRead_plain⟩

/-- Settles O33: each store is one bus write, followed for the last two by the step of HL. -/
theorem byteStores : Obligations.ByteStores := by
  intro s
  exact ⟨fun _ => stores_of_busWrite rfl, fun _ => stores_of_busWrite rfl, stores_of_busWrite rfl, stores_of_busWrite rfl,
    fun _ => stores_of_busWrite rfl, stores_of_busWrite (exec_ldhCA s), fun n => stores_of_busWrite (exec_ldhNA n s),
    stores_of_setPair rfl, stores_of_setPair rfl⟩

/-- Settles O31: each load writes one register or one pair. -/
theorem registerLoads : Obligations.RegisterLoads := by
  intro s
  exact ⟨fun _ _ => runs_of_setReg rfl, fun _ _ => runs_of_setReg rfl, fun _ _ => runs_of_setPair rfl, runs_of_setPair rfl⟩

/-- Settles O4: the decoder evaluated on each word. -/
theorem specWordsDecode : Obligations.SpecWordsDecode := by
  unfold Obligations.SpecWordsDecode
  and_intros <;> rfl

end Sys2Proof.Machine
end

section
/-! PROOFS. The stack and the stores of a word (O34, O35, O60): two bus accesses one after the other, where the second finds the
address map as the first found it. -/

namespace Sys2Proof.Machine

/-! ### The address map after a plain store -/

namespace OnlyMemory

variable {s t u : State}

theorem cellAt (h : OnlyMemory s t) (a : Word) : t.cellAt a = s.cellAt a := by
  unfold OnlyMemory at h
  rw [h]
  rfl

theorem infraredAt (h : OnlyMemory s t) (a : Word) : t.infraredAt a = s.infraredAt a := by
  unfold OnlyMemory at h
  rw [h]
  rfl

theorem plainAt (h : OnlyMemory s t) (a : Word) : t.plainAt a = s.plainAt a := by
  unfold OnlyMemory at h
  rw [h]
  rfl

theorem openRam (h : OnlyMemory s t) (a : Word) : t.openRam a = s.openRam a := by
  unfold OnlyMemory at h
  rw [h]
  rfl

theorem trans (h : OnlyMemory s t) (k : OnlyMemory t u) : OnlyMemory s u := by
  unfold OnlyMemory at h k ⊢
  rw [k, h]

end OnlyMemory

theorem infraredAt_of_openRam {s : State} {a : Word} (h : s.openRam a = true) : s.infraredAt a = false := by
  unfold State.openRam at h
  unfold State.infraredAt
  cases hreg : regionOf s.params.cgb a <;> simp_all

/-! ### Two stores, one after the other -/

section
variable {s t u : State} {a b : Word} {va vb : Byte}

theorem stored_busWrite_self (s : State) (a : Word) (v : Byte) : Stored s (s.busWrite a v) a v :=
  stored_busWrite s a v (s.busWrite a v).cpu (s.busWrite a v).charge

theorem Stored.onlyMemory (h : Stored s t a va) (ha : s.plainAt a = true) : OnlyMemory s t := (h.1 ha).2

/-- Two addresses apart, said from either side: one reaches no cell, or they reach different cells. -/
theorem eq_none_or_ne {x y : Option Cell} (h : x = none ∨ x ≠ y) : y = none ∨ x ≠ y := by
  rcases h with rfl | h
  · exact (em (y = none)).imp_right Ne.symm
  · exact .inr h

theorem Stored.sameBytesButTwo (h : Stored s t a va) (k : Stored t u b vb) (ha : s.plainAt a = true)
    (hb : s.plainAt b = true) : SameBytesButTwo s u a b ∧ OnlyMemory s u := by
  obtain ⟨hbytes, hmem⟩ := h.1 ha
  obtain ⟨kbytes, kmem⟩ := k.1 ((hmem.plainAt b).trans hb)
  refine ⟨fun c hi hc => ?_, hmem.trans kmem⟩
  have hother : t.cellAt b = none ∨ t.cellAt c ≠ t.cellAt b := by
    rw [hmem.cellAt, hmem.cellAt]
    exact eq_none_or_ne (hc.imp_right And.right)
  have hfirst : t.peek true c = s.peek true c := hbytes c hi (eq_none_or_ne (hc.imp_right And.left))
  have hsecond : u.peek true c = t.peek true c := kbytes c ((hmem.infraredAt c).trans hi) hother
  exact hsecond.trans hfirst

theorem Stored.peek_second (h : Stored s t a va) (k : Stored t u b vb) (ha : s.plainAt a = true)
    (hb : s.openRam b = true) : u.peek true b = vb :=
  k.2 (((h.onlyMemory ha).openRam b).trans hb)

/-- The first byte survives the second store when that reaches another cell. -/
theorem Stored.peek_first (h : Stored s t a va) (k : Stored t u b vb) (ha : s.openRam a = true)
    (hb : s.plainAt b = true) (hc : s.cellAt a ≠ s.cellAt b) : u.peek true a = va := by
  have hmem := h.onlyMemory (plainAt_of_openRam ha)
  obtain ⟨kbytes, -⟩ := k.1 ((hmem.plainAt b).trans hb)
  have hi : t.infraredAt a = false := (hmem.infraredAt a).trans (infraredAt_of_openRam ha)
  rw [kbytes a hi (.inr (by rwa [hmem.cellAt, hmem.cellAt])), h.2 ha]

end

section
variable {i : Instr} {s : State} {n : Nat} {p : Cpu} {a b : Word} {va vb : Byte}

/-- An instruction that writes two bytes to the bus and then sets the CPU's own state. -/
theorem storesTwo_of_setCpu
    (h : exec i s = done n (((s.busWrite a va).busWrite b vb).setCpu p)) : StoresTwo i s a va b vb n p := by
  have hfirst := stored_busWrite_self s a va
  have hsecond := stored_busWrite (s.busWrite a va) b vb p (((s.busWrite a va).busWrite b vb).charge + n)
  exact ⟨_, h, rfl, hfirst.sameBytesButTwo hsecond, hfirst.peek_second hsecond, hfirst.peek_first hsecond⟩

/-- An instruction that writes two bytes to the bus and nothing else. -/
theorem storesTwo_of_busWrite (h : exec i s = done n ((s.busWrite a va).busWrite b vb)) : StoresTwo i s a va b vb n s.cpu := by
  refine storesTwo_of_setCpu (h.trans (congrArg (done n) ?_))
  rw [← busWrite_setCpu, ← busWrite_setCpu]
  rfl

/-- An instruction that pushes a word and then sets the CPU's own state. -/
theorem pushes_of_setCpu {v : Word} (h : exec i s = done n ((s.push16 v).setCpu p)) : Pushes i s v n p := by
  unfold Pushes
  rw [← hiByte_eq, ← loByte_eq]
  rw [push16_eq] at h
  exact storesTwo_of_setCpu h

theorem pushes_of_push16 {v : Word} (h : exec i s = done n (s.push16 v)) :
    Pushes i s v n { s.cpu with sp := s.cpu.sp - 2 } := by
  rw [← push16_cpu s v]
  exact pushes_of_setCpu h

theorem pushes_of_callTo (h : exec i s = done n (s.callTo a)) :
    Pushes i s s.cpu.pc n { s.cpu with sp := s.cpu.sp - 2, pc := a } := by
  unfold State.callTo State.jump at h
  rw [push16_cpu] at h
  exact pushes_of_setCpu h

end

/-! ### The calls and LD (nn),SP -/

theorem exec_ldNnSp (a : Word) (s : State) : exec (.ldNnSp a) s =
    done 20 ((s.busWrite a (BitVec.ofNat 8 (s.cpu.sp.toNat % 256))).busWrite (a + 1)
      (BitVec.ofNat 8 (s.cpu.sp.toNat / 256))) := by
  rw [← hiByte_eq, ← loByte_eq]
  rfl

theorem exec_callCc_taken {cc : Cond} {s : State} (h : CondHolds cc s.cpu.f) (a : Word) :
    exec (.callCc cc a) s = done 24 (s.callTo a) := if_pos ((holds_iff _ _).2 h)

theorem exec_callCc_untaken {cc : Cond} {s : State} (h : ¬ CondHolds cc s.cpu.f) (a : Word) :
    exec (.callCc cc a) s = done 12 s := if_neg fun hc => h ((holds_iff _ _).1 hc)

/-- The target of RST t is 8 × t (45 rule R665). -/
theorem exec_rst (t : BitVec 3) (s : State) : exec (.rst t) s = done 16 (s.callTo (BitVec.ofNat 16 (8 * t.toNat))) := by
  have e : 8 * t.setWidth 16 = BitVec.ofNat 16 (8 * t.toNat) := by
    apply BitVec.eq_of_toNat_eq
    simp
  rw [← e]
  rfl

/-- Settles O34: LD (nn),SP is two stores; PUSH and each taken call is a push, which is two stores. -/
theorem stackWrites : Obligations.StackWrites := by
  intro s
  exact ⟨fun a => storesTwo_of_busWrite (exec_ldNnSp a s), fun _ => pushes_of_push16 rfl, fun _ => pushes_of_callTo rfl,
    fun _ a => ⟨fun h => pushes_of_callTo (exec_callCc_taken h a), fun h => exec_callCc_untaken h a⟩,
    fun t => pushes_of_callTo (exec_rst t s)⟩

/-! ### Reading the word at SP -/

/-- A pop looks at the free values of its two reads and moves SP by two. -/
theorem afterPop_eq (s : State) :
    s.afterPop = (s.draw (s.wordDraws s.cpu.sp)).setCpu { s.cpu with sp := s.cpu.sp + 2 } := by
  rw [← afterPop_cpu s]
  exact congrArg (fun n => ({ s with cpu := s.afterPop.cpu, draws := n } : State)) (Nat.add_assoc _ _ _)

theorem popValue_eq (s : State) : s.popValue = s.wordAt s.cpu.sp := rfl

section
variable {i : Instr} {s : State} {n : Nat} {p : Cpu}

/-- An instruction that pops a word and then sets the CPU's own state. -/
theorem readsWord_of_setCpu (h : exec i s = done n (s.afterPop.setCpu p)) : ReadsWord i s s.cpu.sp n p := by
  rw [afterPop_eq] at h
  exact h

theorem readsWord_of_returnTo (h : exec i s = done n s.returnTo) :
    ReadsWord i s s.cpu.sp n { s.cpu with sp := s.cpu.sp + 2, pc := s.wordAt s.cpu.sp } := by
  unfold State.returnTo State.jump at h
  rw [afterPop_cpu] at h
  exact readsWord_of_setCpu h

theorem readsWord_of_setStackPair {q : StkReg}
    (h : exec i s = done n (s.afterPop.setCpu (s.afterPop.cpu.setStackPair q s.popValue))) :
    ReadsWord i s s.cpu.sp n (({ s.cpu with sp := s.cpu.sp + 2 } : Cpu).setStackPair q (s.wordAt s.cpu.sp)) := by
  rw [← afterPop_cpu]
  exact readsWord_of_setCpu h

end

theorem exec_reti (s : State) : exec .reti s =
    done 16 (s.afterPop.setCpu
      { s.cpu with sp := s.cpu.sp + 2, pc := s.wordAt s.cpu.sp, ime := true, eiDelay := 0 }) := by
  change done 16 s.returnFromInterrupt = _
  rw [State.returnFromInterrupt, afterPop_cpu, popValue_eq]

theorem exec_retCc_taken {cc : Cond} {s : State} (h : CondHolds cc s.cpu.f) :
    exec (.retCc cc) s = done 20 s.returnTo := if_pos ((holds_iff _ _).2 h)

theorem exec_retCc_untaken {cc : Cond} {s : State} (h : ¬ CondHolds cc s.cpu.f) :
    exec (.retCc cc) s = done 8 s := if_neg fun hc => h ((holds_iff _ _).1 hc)

/-! ### A pair of the stack instructions -/

section
variable (p : Cpu) {q : StkReg} (v : Word)

theorem stackPair_setStackPair (h : q ≠ .af) : (p.setStackPair q v).stackPair q = v := by
  cases q with
  | af => exact absurd rfl h
  | bc | de | hl => exact hiByte_loByte v

theorem stackPair_setStackPair_other {x : StkReg} (h : x ≠ q) : (p.setStackPair q v).stackPair x = p.stackPair x := by
  cases q <;> cases x
  case bc.bc | de.de | hl.hl | af.af => exact absurd rfl h
  all_goals rfl

theorem setStackPair_f (h : q ≠ .af) : (p.setStackPair q v).f = p.f := by
  cases q with
  | af => exact absurd rfl h
  | bc | de | hl => rfl

theorem setStackPair_rest (q : StkReg) :
    (p.setStackPair q v).sp = p.sp ∧ (p.setStackPair q v).pc = p.pc ∧ SameControl p (p.setStackPair q v) := by
  cases q <;> exact ⟨rfl, rfl, sameControl_refl p⟩

end

/-- Settles O35: each is a pop, and then a write of the pair or of PC. -/
theorem stackReads : Obligations.StackReads := by
  intro s
  have hother {q x : StkReg} (h : x ≠ q) (v : Word) :=
    stackPair_setStackPair_other ({ s.cpu with sp := s.cpu.sp + 2 } : Cpu) v h
  refine ⟨fun q hq => ?_, ?_, readsWord_of_returnTo rfl,
    fun cc => ⟨fun h => readsWord_of_returnTo (exec_retCc_taken h), exec_retCc_untaken⟩, readsWord_of_setCpu (exec_reti s)⟩
  · obtain ⟨hsp, hpc, hctl⟩ := setStackPair_rest { s.cpu with sp := s.cpu.sp + 2 } (s.wordAt s.cpu.sp) q
    exact ⟨_, readsWord_of_setStackPair rfl, stackPair_setStackPair _ _ hq, fun _ hx => hother hx _, hsp,
      setStackPair_f _ _ hq, hpc, hctl⟩
  · obtain ⟨hsp, hpc, hctl⟩ := setStackPair_rest { s.cpu with sp := s.cpu.sp + 2 } (s.wordAt s.cpu.sp) .af
    exact ⟨_, readsWord_of_setStackPair rfl, stackPair_setStackPair_af _ _, fun _ hx => hother hx _, hsp, hpc, hctl⟩

/-! ### A pop after a push -/

/-- The low twelve bits of an address by its region, where that is storage with a place of its own on the bus. -/
def Region.HasLowBits : Region → Nat → Prop
  | .vram off, n | .wramLow off, n | .wramHigh off, n => off % 0x1000 = n
  | .oam i, n => 0xE00 + i = n
  | .hram i, n => 0xF80 + i = n
  | .ie, n => 0xFFF = n
  | .rom _, _ | .cartRam _, _ | .io _, _ | .unmapped, _ => True

theorem regionOf_hasLowBits (cgb : Bool) (a : Word) : (regionOf cgb a).HasLowBits (a.toNat % 0x1000) := by
  have ha := a.isLt
  generalize hr : regionOf cgb a = r
  unfold regionOf wramRegion at hr
  cases hio : ioRegOf cgb (a.toNat - 0xFF00) <;> simp only [hio] at hr <;> split_ifs at hr <;> subst hr
  all_goals simp only [Region.HasLowBits]
  all_goals omega

/-- The low twelve bits of the addresses that reach a cell of open RAM: a bank, or the echo, adds a multiple of 0x1000. -/
def Cell.lowBits : Cell → Nat
  | .vram i | .wram i => i % 0x1000
  | .oam i => 0xE00 + i
  | .hram i => 0xF80 + i
  | .ie => 0xFFF
  | .cartRam _ | .clock _ => 0

/-- An open address has a cell, which gives back its low twelve bits. -/
theorem lowBits_cellAt {s : State} {a : Word} (h : s.openRam a = true) :
    (s.cellAt a).map Cell.lowBits = some (a.toNat % 0x1000) := by
  have hlow := regionOf_hasLowBits s.params.cgb a
  unfold State.openRam at h
  unfold State.cellAt
  cases hreg : regionOf s.params.cgb a <;> simp only [hreg, Region.HasLowBits] at h hlow ⊢
  case vram off | wramHigh off =>
    simp only [Option.map_some, Cell.lowBits, Option.some.injEq]
    omega
  case wramLow off | oam i | hram i | ie => exact congrArg some hlow
  all_goals simp at h

/-- Two open addresses one apart never share a cell, the echo and the wrap at 0xFFFF included. -/
theorem cellAt_ne_of_adjacent {s : State} {a : Word} (h1 : s.openRam (a + 1) = true) (h0 : s.openRam a = true) :
    s.cellAt (a + 1) ≠ s.cellAt a := by
  intro e
  have hlow : (a + 1).toNat % 0x1000 = a.toNat % 0x1000 := by
    have h := lowBits_cellAt h1
    rw [e, lowBits_cellAt h0] at h
    exact (Option.some.inj h).symm
  have hadd : (a + 1).toNat = (a.toNat + 1) % 0x10000 := BitVec.toNat_add a 1
  omega

/-- The bus reads an open address as it is stored. -/
theorem busRead_of_openRam {s : State} {a : Word} (h : s.openRam a = true) : s.busRead a = s.peek true a :=
  busRead_open (windowOpen_of_openRam h) (untimedAt_of_plainAt (plainAt_of_openRam h))

theorem readDraws_of_openRam {s : State} {a : Word} (h : s.openRam a = true) : s.readDraws a = 0 := by
  simp [State.readDraws, windowOpen_of_openRam h, untimedAt_of_plainAt (plainAt_of_openRam h), infraredAt_of_openRam h]

theorem wordAt_of_openRam {s : State} {a : Word} (h1 : s.openRam (a + 1) = true) (h0 : s.openRam a = true) :
    s.wordAt a = s.peek true (a + 1) ++ s.peek true a := by
  rw [State.wordAt, readDraws_of_openRam h0, draw_zero, busRead_of_openRam h1, busRead_of_openRam h0]

/-- The second store of a push, from the state after the first. -/
theorem stored_push16 (s : State) (v : Word) :
    Stored (s.busWrite (s.cpu.sp - 1) (hiByte v)) (s.push16 v) (s.cpu.sp - 2) (loByte v) := by
  rw [push16_eq]
  exact stored_busWrite _ _ _ _ (State.charge _)

/-- Both bytes stay open through the push, and neither store overwrites the other. -/
theorem wordAt_push16 {s : State} (v : Word) (h1 : s.openRam (s.cpu.sp - 1) = true) (h2 : s.openRam (s.cpu.sp - 2) = true) :
    (s.push16 v).wordAt (s.cpu.sp - 2) = v := by
  have e : s.cpu.sp - 2 + 1 = s.cpu.sp - 1 := by ring
  have hne := cellAt_ne_of_adjacent (e.symm ▸ h1) h2
  rw [e] at hne
  have p1 := plainAt_of_openRam h1
  have p2 := plainAt_of_openRam h2
  have hfirst := stored_busWrite_self s (s.cpu.sp - 1) (hiByte v)
  have hsecond := stored_push16 s v
  obtain ⟨-, hmem⟩ := hfirst.sameBytesButTwo hsecond p1 p2
  rw [wordAt_of_openRam (by rw [e, hmem.openRam, h1]) (by rw [hmem.openRam, h2]), e,
    hfirst.peek_first hsecond h1 p2 hne, hfirst.peek_second hsecond p1 h2, hiByte_loByte]

/-- Settles O60: the pop reads the word at SP, and the push left it there. -/
theorem popReversesPush : Obligations.PopReversesPush := by
  intro s v
  refine ⟨⟨popValue_eq s, afterPop_cpu s⟩, fun h1 h2 => ⟨?_, ?_⟩⟩
  · rw [popValue_eq, push16_cpu]
    exact wordAt_push16 v h1 h2
  · rw [afterPop_cpu, push16_cpu]
    exact sub_add_cancel s.cpu.sp 2

end Sys2Proof.Machine
end

section
/-! PROOFS. The 8-bit arithmetic and logic (O36 to O39): the rule for each shape of instruction, each byte function as arithmetic,
and the statements from the two. -/

namespace Sys2Proof.Machine

/-! ### One rule per shape of instruction -/

section
variable {i : Instr} {s : State} {n : Nat}

/-- An instruction that writes A and the flags. -/
theorem runs_of_setAcc {x : Byte × Flags} (h : exec i s = done n (s.setAcc x)) :
    ∃ p, Runs i s n p ∧ s.cpu.Gives p .a x.1 x.2 :=
  ⟨_, h, gives_setReg s.cpu .a x.1 x.2⟩

/-- An instruction that reads a byte and writes A and the flags. -/
theorem reads_of_setAcc {a : Word} {x : Byte × Flags} (h : exec i s = done n ((s.afterRead a).setAcc x)) :
    ∃ p, Reads i s a n p ∧ s.cpu.Gives p .a x.1 x.2 :=
  ⟨_, h, gives_setReg s.cpu .a x.1 x.2⟩

/-- An instruction that writes a register and the flags. -/
theorem runs_of_setRegFlags {r : Reg8} {x : Byte × Flags} (h : exec i s = done n (s.setRegFlags r x)) :
    ∃ p, Runs i s n p ∧ s.cpu.Gives p r x.1 x.2 :=
  ⟨_, h, gives_setReg s.cpu r x.1 x.2⟩

/-- What a store leaves, seen from before the read that looked at free values. -/
theorem Stored.of_draw {k : Nat} {t : State} {a : Word} {v : Byte} (h : Stored (s.draw k) t a v) : Stored s t a v := by
  have hdraw : OnlyMemory s (s.draw k) := rfl
  obtain ⟨hplain, hopen⟩ := h
  refine ⟨fun ha => ?_, hopen⟩
  obtain ⟨hbytes, hmem⟩ := hplain ha
  exact ⟨fun b hi hb => (hbytes b hi hb).trans (hdraw.peek_eq hi fun _ _ => rfl), hdraw.trans hmem⟩

/-- A read-modify-write as a bus write and a change of the CPU's own state. -/
theorem modifyHl_eq (s : State) (g : Byte → Byte × Flags) :
    s.modifyHl g = ((s.afterRead (s.cpu.pair .hl)).busWrite (s.cpu.pair .hl) (g (s.busRead (s.cpu.pair .hl))).1).setCpu
      { s.cpu with f := (g (s.busRead (s.cpu.pair .hl))).2 } := by
  rw [State.modifyHl, State.setFlags, busWrite_cpu]
  rfl

/-- An instruction that reads, changes and writes the byte at HL. -/
theorem modifies_of_modifyHl {g : Byte → Byte × Flags} (h : exec i s = done n (s.modifyHl g)) :
    Modifies i s n (g (s.busRead (s.cpu.pair .hl))).1 (g (s.busRead (s.cpu.pair .hl))).2 := by
  rw [modifyHl_eq] at h
  exact ⟨_, h, rfl, (stored_busWrite _ _ _ _ _).of_draw⟩

end

/-! ### Bytes as numbers -/

theorem byte_eq_zero_iff (r : Byte) : r = 0 ↔ r.toNat = 0 := BitVec.toNat_inj.symm

theorem byte_eq_zero_iff_bits (r : Byte) : r = 0 ↔ ∀ i, i < 8 → r.getLsbD i = false := by
  simp [BitVec.eq_of_getLsbD_eq_iff]

/-- A difference of bytes on the integers. -/
theorem byte_sub_toNat (a v : Byte) : ((a - v).toNat : Int) = ((a.toNat : Int) - v.toNat) % 256 := by
  have hv := v.isLt
  rw [BitVec.toNat_sub]
  omega

theorem bitByte_toNat (c : Bool) : (bitByte c).toNat = c.toNat := by cases c <;> rfl

/-! ### The eight operations -/

theorem aluAdd_sumOf (a v : Byte) (c : Bool) : SumOf a.toNat v.toNat c.toNat (aluAdd a v c).1 (aluAdd a v c).2 := by
  have hr : (a + v + bitByte c).toNat = (a.toNat + v.toNat + c.toNat) % 256 := by
    simp [BitVec.toNat_add, bitByte_toNat]
  refine ⟨hr, ?_, rfl, decide_eq_true_iff, decide_eq_true_iff⟩
  rw [← hr, ← byte_eq_zero_iff]
  exact decide_eq_true_iff

theorem aluSub_differenceOf (a v : Byte) (c : Bool) :
    DifferenceOf a.toNat v.toNat c.toNat (aluSub a v c).1 (aluSub a v c).2 := by
  have hr : ((a - v - bitByte c).toNat : Int) = ((a.toNat : Int) - v.toNat - c.toNat) % 256 := by
    rw [byte_sub_toNat, byte_sub_toNat, bitByte_toNat, Int.emod_sub_emod]
  refine ⟨hr, ?_, rfl, decide_eq_true_iff, decide_eq_true_iff⟩
  rw [← hr, Int.natCast_eq_zero, ← byte_eq_zero_iff]
  exact decide_eq_true_iff

/-- The flags of a bitwise operation. -/
theorem bitwiseOf_of_bits {g : Bool → Bool → Bool} {a v r : Byte} (h : Bool)
    (hr : ∀ i, i < 8 → r.getLsbD i = g (a.getLsbD i) (v.getLsbD i)) :
    BitwiseOf g h a v r { z := decide (r = 0), n := false, h := h, c := false } := by
  refine ⟨hr, ?_, rfl, rfl, rfl⟩
  rw [decide_eq_true_iff, byte_eq_zero_iff_bits]
  exact forall₂_congr fun i hi => by rw [hr i hi]

/-- What an operation leaves in A and the flags, from A, the operand and Cf (42 rules R501 to R508). -/
def AluOp.apply (op : AluOp) (a v : Byte) (c : Bool) : Byte × Flags :=
  match op with
  | .add => aluAdd a v false
  | .adc => aluAdd a v c
  | .sub => aluSub a v false
  | .sbc => aluSub a v c
  | .and => aluAnd a v
  | .xor => aluXor a v
  | .or => aluOr a v
  | .cp => (a, (aluSub a v false).2)

theorem AluOp.apply_result (op : AluOp) (a v : Byte) (c : Bool) :
    op.Result a v c (op.apply a v c).1 (op.apply a v c).2 := by
  cases op with
  | add => exact aluAdd_sumOf a v false
  | adc => exact aluAdd_sumOf a v c
  | sub => exact aluSub_differenceOf a v false
  | sbc => exact aluSub_differenceOf a v c
  | and => exact bitwiseOf_of_bits true fun _ _ => BitVec.getLsbD_and
  | xor => exact bitwiseOf_of_bits false fun _ _ => BitVec.getLsbD_xor
  | or => exact bitwiseOf_of_bits false fun _ _ => BitVec.getLsbD_or
  | cp => exact ⟨rfl, _, aluSub_differenceOf a v false⟩

theorem AluOp.exec_onReg (op : AluOp) (src : Reg8) (s : State) :
    exec (op.onReg src) s = done 4 (s.setAcc (op.apply s.cpu.a (s.cpu.reg src) s.cpu.f.c)) := by cases op <;> rfl

theorem AluOp.exec_onHl (op : AluOp) (s : State) : exec op.onHl s =
    done 8 ((s.afterRead (s.cpu.pair .hl)).setAcc (op.apply s.cpu.a (s.busRead (s.cpu.pair .hl)) s.cpu.f.c)) := by
  cases op <;> rfl

theorem AluOp.exec_onImm (op : AluOp) (n : Byte) (s : State) :
    exec (op.onImm n) s = done 8 (s.setAcc (op.apply s.cpu.a n s.cpu.f.c)) := by cases op <;> rfl

/-- Settles O36: each form writes A and the flags by `AluOp.apply`, which computes the result of the rules. -/
theorem aluOperations : Obligations.AluOperations := by
  intro op s
  refine ⟨fun src => ?_, ?_, fun n => ?_⟩
  · obtain ⟨p, hrun, hgives⟩ := runs_of_setAcc (op.exec_onReg src s)
    exact ⟨p, _, _, hrun, hgives, op.apply_result _ _ _⟩
  · obtain ⟨p, hread, hgives⟩ := reads_of_setAcc (op.exec_onHl s)
    exact ⟨p, _, _, hread, hgives, op.apply_result _ _ _⟩
  · obtain ⟨p, hrun, hgives⟩ := runs_of_setAcc (op.exec_onImm n s)
    exact ⟨p, _, _, hrun, hgives, op.apply_result _ _ _⟩

/-! ### Increment, decrement and the flag instructions -/

/-- INC on a byte in exact arithmetic (42 rules R540, R541). -/
theorem incByte_result (v : Byte) (f : Flags) :
    (incByte v f).1.toNat = (v.toNat + 1) % 256 ∧ ((incByte v f).2.z = true ↔ v.toNat = 255) ∧
      (incByte v f).2.n = false ∧ ((incByte v f).2.h = true ↔ v.toNat % 16 = 15) ∧ (incByte v f).2.c = f.c := by
  have hr : (v + 1).toNat = (v.toNat + 1) % 256 := BitVec.toNat_add v 1
  refine ⟨hr, ?_, rfl, decide_eq_true_iff, rfl⟩
  have hv := v.isLt
  rw [incByte, decide_eq_true_iff, byte_eq_zero_iff, hr]
  omega

/-- DEC on a byte in exact arithmetic (42 rules R542, R543). -/
theorem decByte_result (v : Byte) (f : Flags) :
    (decByte v f).1.toNat = (v.toNat + 255) % 256 ∧ ((decByte v f).2.z = true ↔ v.toNat = 1) ∧
      (decByte v f).2.n = true ∧ ((decByte v f).2.h = true ↔ v.toNat % 16 = 0) ∧ (decByte v f).2.c = f.c := by
  have hr : (v - 1).toNat = (v.toNat + 255) % 256 := (BitVec.toNat_sub v 1).trans (by rw [Nat.add_comm]; rfl)
  refine ⟨hr, ?_, rfl, decide_eq_true_iff, rfl⟩
  have hv := v.isLt
  rw [decByte, decide_eq_true_iff, byte_eq_zero_iff, hr]
  omega

theorem complement_toNat (a : Byte) : (a ^^^ 0xFF).toNat = 255 - a.toNat := by
  rw [show a ^^^ 0xFF = ~~~a from BitVec.xor_allOnes]
  exact BitVec.toNat_not

/-- Settles O37: each instruction by the rule for its shape and its byte function as arithmetic. -/
theorem incDecAndFlagOps : Obligations.IncDecAndFlagOps := by
  intro s
  refine ⟨fun dst => ?_, fun dst => ?_, ⟨_, _, modifies_of_modifyHl rfl, incByte_result _ _⟩,
    ⟨_, _, modifies_of_modifyHl rfl, decByte_result _ _⟩, ?_, rfl, rfl⟩
  · obtain ⟨p, hrun, hgives⟩ := runs_of_setRegFlags (show exec (.incR dst) s = _ from rfl)
    exact ⟨p, _, _, hrun, hgives, incByte_result _ _⟩
  · obtain ⟨p, hrun, hgives⟩ := runs_of_setRegFlags (show exec (.decR dst) s = _ from rfl)
    exact ⟨p, _, _, hrun, hgives, decByte_result _ _⟩
  · obtain ⟨p, hrun, hgives⟩ := runs_of_setAcc (show exec .cpl s = _ from rfl)
    exact ⟨p, _, hrun, hgives, complement_toNat _⟩

/-! ### DAA -/

section
variable {a : Byte} {f : Flags}

/-- After an addition both tests look at A as it was (42 rule R545). -/
theorem daaByte_afterAdd (hn : f.n = false) :
    ((daaByte a f).1.toNat : Int) =
      ((a.toNat : Int) + (if f.c = true ∨ 0x99 < (a.toNat : Int) then 0x60 else 0) +
        (if f.h = true ∨ 9 < (a.toNat : Int) % 16 then 6 else 0)) % 256 ∧
    ((daaByte a f).2.c = true ↔ f.c = true ∨ 0x99 < (a.toNat : Int)) := by
  have hhigh : 0x99 < (a.toNat : Int) ↔ 0x99 < a.toNat := by omega
  have hlow : 9 < (a.toNat : Int) % 16 ↔ 9 < a.toNat % 16 := by omega
  simp only [hhigh, hlow, daaByte, daaAdjust, hn, Bool.false_eq_true, if_false, Bool.or_eq_true, decide_eq_true_eq,
    and_true]
  rw [BitVec.toNat_add, BitVec.toNat_add]
  split_ifs <;> simp

/-- After a subtraction the flags alone decide, and Cf is kept (42 rule R545). -/
theorem daaByte_afterSub (hn : f.n = true) :
    ((daaByte a f).1.toNat : Int) =
      ((a.toNat : Int) - (if f.c = true then 0x60 else 0) - (if f.h = true then 6 else 0)) % 256 ∧
    (daaByte a f).2.c = f.c := by
  simp only [daaByte, daaAdjust, hn, if_true, and_true]
  rw [byte_sub_toNat, byte_sub_toNat, Int.emod_sub_emod]
  split_ifs <;> rfl

/-- The result of DAA as a number mod 256 says whether Z is set. -/
theorem daaByte_zero_iff {e : Int} (h : ((daaByte a f).1.toNat : Int) = e % 256) :
    (daaByte a f).2.z = true ↔ e % 256 = 0 := by
  rw [← h, Int.natCast_eq_zero, ← byte_eq_zero_iff]
  exact decide_eq_true_iff

end

theorem ite_add_eq (p : Prop) [Decidable p] (a k : Int) : (if p then a + k else a) = a + if p then k else 0 := by
  split_ifs <;> simp

theorem ite_sub_eq (p : Prop) [Decidable p] (a k : Int) : (if p then a - k else a) = a - if p then k else 0 := by
  split_ifs <;> simp

/-- Adding 0x60 leaves the low nibble, which the second test of DAA looks at (42 rule R545). -/
theorem lowNibble_add_high (p : Prop) [Decidable p] (a : Int) : (a + if p then 0x60 else 0) % 16 = a % 16 := by
  split_ifs <;> omega

/-- Settles O38: N chooses between the two halves of the pseudocode. -/
theorem daaAdjust_spec : Obligations.DaaAdjust := by
  refine ⟨rfl, fun s => ?_⟩
  obtain ⟨p, hrun, hgives⟩ := runs_of_setAcc (show exec .daa s = _ from rfl)
  refine ⟨p, _, _, hrun, hgives, ?_⟩
  cases hn : s.cpu.f.n with
  | false =>
    obtain ⟨hr, hc⟩ := daaByte_afterAdd (a := s.cpu.a) hn
    simp only [true_and, Bool.false_eq_true, false_and, if_false, ite_add_eq, lowNibble_add_high]
    exact ⟨hr, daaByte_zero_iff hr, hn, rfl, hc⟩
  | true =>
    obtain ⟨hr, hc⟩ := daaByte_afterSub (a := s.cpu.a) hn
    simp only [true_and, Bool.true_eq_false, false_and, if_false, ite_sub_eq, or_false]
    exact ⟨hr, daaByte_zero_iff hr, hn, rfl, iff_of_eq (congrArg (· = true) hc)⟩

/-! ### DAA after the addition or subtraction of two-digit BCD numbers -/

/-- An instruction that writes A and the flags, and DAA after it. -/
theorem exec_then_daa {i : Instr} {s : State} {n : Nat} {x : Byte × Flags} (h : exec i s = done n (s.setAcc x)) :
    ∃ t u, exec i s = .next t ∧ exec .daa t = .next u ∧ u.cpu.a = (daaByte x.1 x.2).1 ∧
      u.cpu.f = (daaByte x.1 x.2).2 :=
  ⟨_, _, h, rfl, rfl, rfl⟩

/-- A number below 100 by its digits, and its code by the same digits. -/
theorem exists_digits {n : Nat} (h : n < 100) : ∃ t u, t < 10 ∧ u < 10 ∧ n = 10 * t + u ∧ bcd n = 16 * t + u :=
  ⟨n / 10, n % 10, by omega, by omega, by omega, by rw [bcd]; omega⟩

section
variable {a v : Byte} {x y : Nat} (hx : x < 100) (hy : y < 100) (ha : a.toNat = bcd x) (hv : v.toNat = bcd y)
include hx hy ha hv

theorem daaByte_aluAdd_bcd (c : Bool) :
    (daaByte (aluAdd a v c).1 (aluAdd a v c).2).1.toNat = bcd ((x + y + c.toNat) % 100) ∧
    ((daaByte (aluAdd a v c).1 (aluAdd a v c).2).2.c = true ↔ 100 ≤ x + y + c.toNat) := by
  obtain ⟨xt, xu, hxt, hxu, rfl, ex⟩ := exists_digits hx
  obtain ⟨yt, yu, hyt, hyu, rfl, ey⟩ := exists_digits hy
  obtain ⟨hr, -, hn, hh, hcarry⟩ := aluAdd_sumOf a v c
  obtain ⟨hd, hdc⟩ := daaByte_afterAdd (a := (aluAdd a v c).1) hn
  have hc := Bool.toNat_le c
  generalize c.toNat = k at *
  rw [ha, hv, ex, ey] at hr hh hcarry
  have hhigh : (aluAdd a v c).2.c = true ∨ 0x99 < ((aluAdd a v c).1.toNat : Int) ↔
      100 ≤ 10 * xt + xu + (10 * yt + yu) + k := by
    rw [hcarry]
    omega
  have hlow : (aluAdd a v c).2.h = true ∨ 9 < ((aluAdd a v c).1.toNat : Int) % 16 ↔ 10 ≤ xu + yu + k := by
    rw [hh]
    omega
  simp only [hhigh, hlow] at hd hdc
  refine ⟨?_, hdc⟩
  obtain ⟨zt, zu, hzt, hzu, hz, ez⟩ :=
    exists_digits (Nat.mod_lt (10 * xt + xu + (10 * yt + yu) + k) (by decide : 0 < 100))
  rw [ez]
  split_ifs at hd <;> omega

theorem daaByte_aluSub_bcd (c : Bool) :
    (daaByte (aluSub a v c).1 (aluSub a v c).2).1.toNat = bcd ((x + 100 - y + 100 - c.toNat) % 100) ∧
    ((daaByte (aluSub a v c).1 (aluSub a v c).2).2.c = true ↔ x < y + c.toNat) := by
  obtain ⟨xt, xu, hxt, hxu, rfl, ex⟩ := exists_digits hx
  obtain ⟨yt, yu, hyt, hyu, rfl, ey⟩ := exists_digits hy
  obtain ⟨hr, -, hn, hh, hborrow⟩ := aluSub_differenceOf a v c
  obtain ⟨hd, hdc⟩ := daaByte_afterSub (a := (aluSub a v c).1) hn
  have hc := Bool.toNat_le c
  generalize c.toNat = k at *
  rw [ha, hv, ex, ey] at hr hh hborrow
  have hhigh : (aluSub a v c).2.c = true ↔ 10 * xt + xu < 10 * yt + yu + k := by rw [hborrow]; omega
  have hlow : (aluSub a v c).2.h = true ↔ xu < yu + k := by rw [hh]; omega
  rw [hdc]
  simp only [hhigh, hlow] at hd
  refine ⟨?_, hhigh⟩
  obtain ⟨zt, zu, hzt, hzu, hz, ez⟩ :=
    exists_digits (Nat.mod_lt (10 * xt + xu + 100 - (10 * yt + yu) + 100 - k) (by decide : 0 < 100))
  have hsum : 10 * zt + zu + (10 * yt + yu) + k = 10 * xt + xu + if 10 * xt + xu < 10 * yt + yu + k then 100 else 0 := by
    rw [← hz]
    split_ifs <;> omega
  rw [ez]
  clear hz
  split_ifs at hd hsum <;> omega

end

/-- Settles O39: ADC and SBC leave the sum and the difference of the codes, which DAA adjusts. -/
theorem bcdArithmetic : Obligations.BcdArithmetic := by
  intro s src x y hx hy ha hv
  constructor
  · obtain ⟨t, u, ht, hu, hua, huf⟩ := exec_then_daa (show exec (.adcR src) s = _ from rfl)
    obtain ⟨hr, hc⟩ := daaByte_aluAdd_bcd hx hy ha hv s.cpu.f.c
    exact ⟨t, u, ht, hu, hua ▸ hr, huf ▸ hc⟩
  · obtain ⟨t, u, ht, hu, hua, huf⟩ := exec_then_daa (show exec (.sbcR src) s = _ from rfl)
    obtain ⟨hr, hc⟩ := daaByte_aluSub_bcd hx hy ha hv s.cpu.f.c
    exact ⟨t, u, ht, hu, hua ▸ hr, huf ▸ hc⟩

end Sys2Proof.Machine
end

section
/-! PROOFS. The 16-bit arithmetic (O40): the rule for writing a pair with the flags, each word function as arithmetic, and the
statement from the two. -/

namespace Sys2Proof.Machine

/-- An instruction that writes a pair or SP and the flags. -/
theorem runs_of_setPair_setFlags {i : Instr} {s : State} {n : Nat} {rr : Reg16} {v : Word} {f : Flags}
    (h : exec i s = done n ((s.setPair rr v).setFlags f)) : ∃ p, Runs i s n p ∧ s.cpu.GivesPair p rr v f :=
  ⟨_, h, givesPair_setPair s.cpu rr v f⟩

/-- ADD HL,rr in exact arithmetic (43 rule R560). -/
theorem addWords_result (a v : Word) (f : Flags) :
    (addWords a v f).1.toNat = (a.toNat + v.toNat) % 65536 ∧ (addWords a v f).2.z = f.z ∧ (addWords a v f).2.n = false ∧
      ((addWords a v f).2.h = true ↔ 4095 < a.toNat % 4096 + v.toNat % 4096) ∧
      ((addWords a v f).2.c = true ↔ 65535 < a.toNat + v.toNat) :=
  ⟨BitVec.toNat_add a v, rfl, rfl, decide_eq_true_iff, decide_eq_true_iff⟩

theorem word_sub_one_toNat (v : Word) : (v - 1).toNat = (v.toNat + 65535) % 65536 := by
  rw [BitVec.toNat_sub, Nat.add_comm]
  rfl

theorem carry4_lowByte_iff (w : Word) (x : Byte) :
    carry4 (w.setWidth 8) x false = true ↔ 15 < w.toNat % 16 + x.toNat % 16 := by
  have hlow : (w.setWidth 8).toNat % 16 = w.toNat % 16 := by
    rw [BitVec.toNat_setWidth]
    exact Nat.mod_mod_of_dvd _ (by decide : 16 ∣ 256)
  rw [← hlow]
  exact decide_eq_true_iff

theorem carry8_lowByte_iff (w : Word) (x : Byte) :
    carry8 (w.setWidth 8) x false = true ↔ 255 < w.toNat % 256 + x.toNat := by
  rw [← show (w.setWidth 8).toNat = w.toNat % 256 from BitVec.toNat_setWidth 8 w]
  exact decide_eq_true_iff

/-- SP plus a signed byte in exact arithmetic: the sum of a relative target, the carries of the unsigned low bytes (43 rule R563). -/
theorem spe_result (sp : Word) (e : Byte) :
    ((spe sp e).1.toNat : Int) = ((sp.toNat : Int) + e.toInt) % 65536 ∧ (spe sp e).2.z = false ∧ (spe sp e).2.n = false ∧
      ((spe sp e).2.h = true ↔ 15 < sp.toNat % 16 + e.toNat % 16) ∧
      ((spe sp e).2.c = true ↔ 255 < sp.toNat % 256 + e.toNat) :=
  ⟨relative_toNat sp e, rfl, rfl, carry4_lowByte_iff sp e, carry8_lowByte_iff sp e⟩

/-- Settles O40: each instruction by the rule for its shape and its word function as arithmetic. -/
theorem wordArithmetic : Obligations.WordArithmetic := by
  intro s
  refine ⟨fun rr => ?_, fun rr => ?_, fun rr => ?_, fun e => ?_, fun e => ?_⟩
  · obtain ⟨p, hrun, hgives⟩ := runs_of_setPair_setFlags (show exec (.addHlRr rr) s = _ from rfl)
    exact ⟨p, _, _, hrun, hgives, addWords_result _ _ _⟩
  · obtain ⟨p, hrun, hgives⟩ := runs_of_setPair (show exec (.incRr rr) s = _ from rfl)
    exact ⟨p, _, hrun, hgives, BitVec.toNat_add _ 1⟩
  · obtain ⟨p, hrun, hgives⟩ := runs_of_setPair (show exec (.decRr rr) s = _ from rfl)
    exact ⟨p, _, hrun, hgives, word_sub_one_toNat _⟩
  · obtain ⟨p, hrun, hgives⟩ := runs_of_setPair_setFlags (show exec (.addSpE e) s = _ from rfl)
    exact ⟨p, _, _, hrun, hgives, spe_result _ _⟩
  · obtain ⟨p, hrun, hgives⟩ := runs_of_setPair_setFlags (show exec (.ldHlSpE e) s = _ from rfl)
    exact ⟨p, _, _, hrun, hgives, spe_result _ _⟩

end Sys2Proof.Machine
end

section
/-! PROOFS. The rotates and shifts, and the bit instructions (O41, O42): each byte function as a number or bit by bit, and the
statements from it and the rule for each shape of instruction. -/

namespace Sys2Proof.Machine

/-! ### Shifted bytes as numbers -/

theorem getLsbD_seven_toNat (v : Byte) : (v.getLsbD 7).toNat = v.toNat / 128 := by
  rw [BitVec.getLsbD, Nat.toNat_testBit]
  exact Nat.mod_eq_of_lt (Nat.div_lt_of_lt_mul v.isLt)

theorem getLsbD_zero_toNat (v : Byte) : (v.getLsbD 0).toNat = v.toNat % 2 := by
  rw [BitVec.getLsbD, Nat.toNat_testBit, pow_zero, Nat.div_one]

theorem shiftLeft_one_toNat (v : Byte) : (v <<< 1).toNat = 2 * v.toNat % 256 := by
  rw [BitVec.toNat_shiftLeft, Nat.shiftLeft_eq, Nat.mul_comm]

theorem shiftRight_one_toNat (v : Byte) : (v >>> 1).toNat = v.toNat / 2 := BitVec.toNat_ushiftRight v 1

theorem shiftLeft_or_bit_toNat (v : Byte) (b : Bool) : ((v <<< 1) ||| bitByte b).toNat = 2 * v.toNat % 256 + b.toNat := by
  have heven : 2 * v.toNat % 256 = 2 ^ 1 * (v.toNat % 128) := Nat.mul_mod_mul_left 2 v.toNat 128
  rw [BitVec.toNat_or, shiftLeft_one_toNat, bitByte_toNat, heven, Nat.two_pow_add_eq_or_of_lt b.toNat_lt]

theorem rotateLeft_toNat (v : Byte) :
    ((v <<< 1) ||| bitByte (v.getLsbD 7)).toNat = 2 * v.toNat % 256 + v.toNat / 128 := by
  rw [shiftLeft_or_bit_toNat, getLsbD_seven_toNat]

theorem bitByte_shiftLeft_seven_toNat (b : Bool) : (bitByte b <<< 7).toNat = 2 ^ 7 * b.toNat := by cases b <;> rfl

theorem shiftRight_or_bit_toNat (v : Byte) (b : Bool) :
    ((v >>> 1) ||| (bitByte b <<< 7)).toNat = v.toNat / 2 + 128 * b.toNat := by
  have hlow : v.toNat / 2 < 2 ^ 7 := Nat.div_lt_of_lt_mul v.isLt
  rw [BitVec.toNat_or, shiftRight_one_toNat, bitByte_shiftLeft_seven_toNat, Nat.lor_comm,
    ← Nat.two_pow_add_eq_or_of_lt hlow, Nat.add_comm]

theorem rotateRight_toNat (v : Byte) :
    ((v >>> 1) ||| (bitByte (v.getLsbD 0) <<< 7)).toNat = v.toNat / 2 + 128 * (v.toNat % 2) := by
  rw [shiftRight_or_bit_toNat, getLsbD_zero_toNat]

theorem and_highBit_eq (v : Byte) : v &&& (0x80 : Byte) = bitByte (v.getLsbD 7) <<< 7 := by
  refine (BitVec.and_twoPow v 7).trans ?_
  cases v.getLsbD 7 <;> rfl

theorem shiftRight_or_highBit_toNat (v : Byte) :
    ((v >>> 1) ||| (v &&& 0x80)).toNat = v.toNat / 2 + 128 * (v.toNat / 128) := by
  rw [and_highBit_eq, shiftRight_or_bit_toNat, getLsbD_seven_toNat]

theorem swapNibbles_toNat (v : Byte) :
    (((v &&& 0x0F) <<< 4) ||| (v >>> 4)).toNat = 16 * (v.toNat % 16) + v.toNat / 16 := by
  have hlow : (v &&& 0x0F).toNat = v.toNat % 16 := Nat.and_two_pow_sub_one_eq_mod v.toNat 4
  have hhigh : ((v &&& 0x0F) <<< 4).toNat = 2 ^ 4 * (v.toNat % 16) := by
    rw [BitVec.toNat_shiftLeft, Nat.shiftLeft_eq, hlow]
    omega
  have hshift : (v >>> 4).toNat = v.toNat / 16 :=
    (BitVec.toNat_ushiftRight v 4).trans (Nat.shiftRight_eq_div_pow _ _)
  rw [BitVec.toNat_or, hhigh, hshift, ← Nat.two_pow_add_eq_or_of_lt (Nat.div_lt_of_lt_mul v.isLt)]

/-! ### The eight rotates and shifts -/

/-- The byte and the flags of a rotate or shift of `v` with the old carry `c` (44 rules R610 to R625). -/
def RotOp.apply (op : RotOp) (v : Byte) (c : Bool) : Byte × Flags :=
  match op with
  | .rlc => rlcByte v
  | .rrc => rrcByte v
  | .rl => rlByte v c
  | .rr => rrByte v c
  | .sla => slaByte v
  | .sra => sraByte v
  | .swap => swapByte v
  | .srl => srlByte v

theorem RotOp.exec_onReg (op : RotOp) (x : Reg8) (s : State) :
    exec (op.onReg x) s = done 8 (s.setRegFlags x (op.apply (s.cpu.reg x) s.cpu.f.c)) := by cases op <;> rfl

theorem RotOp.exec_onHl (op : RotOp) (s : State) :
    exec op.onHl s = done 16 (s.modifyHl fun v => op.apply v s.cpu.f.c) := by cases op <;> rfl

/-- A byte and the flags of a CB rotate or shift, from the two numbers of the rule. -/
theorem RotOp.result_of_value {op : RotOp} {v r : Byte} {c out : Bool} (hr : r.toNat = op.value v.toNat c)
    (hout : out.toNat = op.out v.toNat) : op.Result true v c r (shiftFlags r out) := by
  refine ⟨hr, ?_, rfl, rfl, ?_⟩
  · rw [← hr, ← byte_eq_zero_iff]
    exact decide_eq_true_iff.trans (and_iff_right rfl).symm
  · rw [← hout]
    exact Bool.toNat_eq_one.symm

theorem RotOp.apply_result (op : RotOp) (v : Byte) (c : Bool) : op.Result true v c (op.apply v c).1 (op.apply v c).2 := by
  cases op with
  | rlc => exact result_of_value (rotateLeft_toNat v) (getLsbD_seven_toNat v)
  | rrc => exact result_of_value (rotateRight_toNat v) (getLsbD_zero_toNat v)
  | rl => exact result_of_value (shiftLeft_or_bit_toNat v c) (getLsbD_seven_toNat v)
  | rr => exact result_of_value (shiftRight_or_bit_toNat v c) (getLsbD_zero_toNat v)
  | sla => exact result_of_value (shiftLeft_one_toNat v) (getLsbD_seven_toNat v)
  | sra => exact result_of_value (shiftRight_or_highBit_toNat v) (getLsbD_zero_toNat v)
  | swap => exact result_of_value (swapNibbles_toNat v) rfl
  | srl => exact result_of_value (shiftRight_one_toNat v) (getLsbD_zero_toNat v)

/-- The accumulator forms differ from the CB forms in Z alone (44 rules R600 to R603). -/
theorem RotOp.clearZ_result (op : RotOp) (v : Byte) (c : Bool) :
    op.Result false v c (clearZ (op.apply v c)).1 (clearZ (op.apply v c)).2 := by
  obtain ⟨hr, -, hn, hh, hc⟩ := op.apply_result v c
  exact ⟨hr, by simp [clearZ], hn, hh, hc⟩

/-- An accumulator form runs the operation on A and clears Z. -/
theorem RotOp.runs_accumulator (op : RotOp) {i : Instr} {s : State}
    (h : exec i s = done 4 (s.setAcc (clearZ (op.apply s.cpu.a s.cpu.f.c)))) :
    ∃ p r f, Runs i s 4 p ∧ s.cpu.Gives p .a r f ∧ op.Result false s.cpu.a s.cpu.f.c r f := by
  obtain ⟨p, hrun, hgives⟩ := runs_of_setAcc h
  exact ⟨p, _, _, hrun, hgives, op.clearZ_result _ _⟩

/-- Settles O41: each form writes its operand and the flags by `RotOp.apply`, which computes the numbers of the rules. -/
theorem rotates : Obligations.Rotates := by
  intro s
  refine ⟨RotOp.runs_accumulator .rlc rfl, RotOp.runs_accumulator .rrc rfl, RotOp.runs_accumulator .rl rfl,
    RotOp.runs_accumulator .rr rfl, fun op => ⟨fun x => ?_, ?_⟩⟩
  · obtain ⟨p, hrun, hgives⟩ := runs_of_setRegFlags (op.exec_onReg x s)
    exact ⟨p, _, _, hrun, hgives, op.apply_result _ _⟩
  · exact ⟨_, _, modifies_of_modifyHl (op.exec_onHl s), op.apply_result _ _⟩

/-! ### Bit test, reset and set -/

theorem bitFlags_eq (n : BitVec 3) (v : Byte) (f : Flags) :
    bitFlags n v f = { z := decide (v.toNat / 2 ^ n.toNat % 2 = 0), n := false, h := true, c := f.c } := by
  have hz : (!v.getLsbD n.toNat) = decide (v.toNat / 2 ^ n.toNat % 2 = 0) := by
    rw [BitVec.getLsbD, ← Nat.toNat_testBit]
    cases v.toNat.testBit n.toNat <;> rfl
  rw [bitFlags, hz]

theorem resByte_getLsbD (n : BitVec 3) (v : Byte) {j : Nat} (hj : j < 8) :
    (resByte n v).getLsbD j = if j = n.toNat then false else v.getLsbD j := by
  rw [resByte, BitVec.getLsbD_and, BitVec.getLsbD_not, BitVec.getLsbD_twoPow]
  split_ifs with h
  · simp [h]
  · simp [hj, Ne.symm h]

theorem setByte_getLsbD (n : BitVec 3) (v : Byte) {j : Nat} (hj : j < 8) :
    (setByte n v).getLsbD j = if j = n.toNat then true else v.getLsbD j := by
  rw [setByte, BitVec.getLsbD_or, BitVec.getLsbD_twoPow]
  split_ifs with h
  · simp [← h, hj]
  · simp [Ne.symm h]

/-- Settles O42: BIT by its flags, RES and SET by the rule for writing a byte and keeping the flags. -/
theorem bitOperations : Obligations.BitOperations := by
  intro s n m tested bits
  have htested (v : Byte) : tested v = bitFlags n v s.cpu.f := (bitFlags_eq n v s.cpu.f).symm
  have hresHl : exec (.resHl n) s = done 16 (s.modifyHl fun v => (resByte n v, s.cpu.f)) := rfl
  have hsetHl : exec (.setHl n) s = done 16 (s.modifyHl fun v => (setByte n v, s.cpu.f)) := rfl
  refine ⟨fun x => ?_, ?_, fun x => ?_, fun x => ?_, ⟨_, modifies_of_modifyHl hresHl, fun _ => resByte_getLsbD n _⟩,
    ⟨_, modifies_of_modifyHl hsetHl, fun _ => setByte_getLsbD n _⟩⟩
  · rw [htested]
    rfl
  · rw [htested]
    rfl
  · obtain ⟨p, hrun, hgives⟩ := runs_of_setReg (show exec (.resR n x) s = _ from rfl)
    exact ⟨p, _, hrun, hgives, fun _ => resByte_getLsbD n _⟩
  · obtain ⟨p, hrun, hgives⟩ := runs_of_setReg (show exec (.setR n x) s = _ from rfl)
    exact ⟨p, _, hrun, hgives, fun _ => setByte_getLsbD n _⟩

end Sys2Proof.Machine
end

section
/-! PROOFS. The jumps (O43): the rule for an instruction that jumps, the conditional forms by their condition, and the statement
from the two. -/

namespace Sys2Proof.Machine

section
variable {i : Instr} {s : State} {n : Nat} {cc : Cond}

/-- An instruction that writes PC. -/
theorem runs_of_jump {a : Word} (h : exec i s = done n (s.jump a)) : Runs i s n { s.cpu with pc := a } := h

/-- An instruction that jumps relative to the next instruction: the target in exact arithmetic (45 rule R653). -/
theorem runs_of_relativeJump {e : Byte} (h : exec i s = done n (s.jump (relative s.cpu.pc e))) :
    ∃ a : Word, (a.toNat : Int) = ((s.cpu.pc.toNat : Int) + e.toInt) % 65536 ∧ Runs i s n { s.cpu with pc := a } :=
  ⟨_, relative_toNat s.cpu.pc e, runs_of_jump h⟩

theorem exec_jpCc_taken (h : CondHolds cc s.cpu.f) (a : Word) : exec (.jpCc cc a) s = done 16 (s.jump a) :=
  if_pos ((holds_iff _ _).2 h)

theorem exec_jpCc_untaken (h : ¬ CondHolds cc s.cpu.f) (a : Word) : exec (.jpCc cc a) s = done 12 s :=
  if_neg fun hc => h ((holds_iff _ _).1 hc)

theorem exec_jrCc_taken (h : CondHolds cc s.cpu.f) (e : Byte) :
    exec (.jrCc cc e) s = done 12 (s.jump (relative s.cpu.pc e)) := if_pos ((holds_iff _ _).2 h)

theorem exec_jrCc_untaken (h : ¬ CondHolds cc s.cpu.f) (e : Byte) : exec (.jrCc cc e) s = done 8 s :=
  if_neg fun hc => h ((holds_iff _ _).1 hc)

end

/-- Settles O43: each jump by the rule for its target; a conditional form whose condition fails only charges its cycles. -/
theorem jumps : Obligations.Jumps := by
  intro s
  exact ⟨fun _ => runs_of_jump rfl, runs_of_jump rfl, fun _ => runs_of_relativeJump rfl,
    fun _ a => ⟨fun h => runs_of_jump (exec_jpCc_taken h a), fun h => exec_jpCc_untaken h a⟩,
    fun _ e => ⟨fun h => runs_of_relativeJump (exec_jrCc_taken h e), fun h => exec_jrCc_untaken h e⟩⟩

end Sys2Proof.Machine
end

section
/-! PROOFS. NOP, HALT, DI, EI and STOP (O44), the prefix by itself (O45), and the undefined bytes (O9). -/

namespace Sys2Proof

/-! ### The undefined bytes and the CB table in the decoder -/

/-- Each undefined byte names `illegal`, whatever stands behind it (30 rule R340). -/
theorem decodeOp_of_mem_illegalOpcodes {op : Byte} (h : op ∈ illegalOpcodes) (b1 b2 : Byte) :
    decodeOp op b1 b2 = .illegal op := by
  have htable : ∀ x ∈ illegalOpcodes, x ≠ 0xCB ∧ decodeOp x 0 0 = .illegal x := by decide
  obtain ⟨hcb, hi⟩ := htable op h
  rw [← decodeOp_withOperand op 0 0 b1 b2 hcb, hi]
  rfl

theorem decodeOp_eq_illegal_iff (op b1 b2 x : Byte) : decodeOp op b1 b2 = .illegal x ↔ x = op ∧ op ∈ illegalOpcodes :=
  ⟨decodeOp_illegal, fun ⟨hx, h⟩ => hx ▸ decodeOp_of_mem_illegalOpcodes h b1 b2⟩

theorem decodeCb_ne_cbPrefix (b : Byte) : decodeCb b ≠ .cbPrefix := decodeOp_ne_cbPrefix 0xCB b 0

end Sys2Proof

namespace Sys2Proof.Machine

/-! ### A step at an undefined byte -/

/-- A step of a machine that is ready and awake, with no interrupt to take. -/
theorem step_awake {s : State} (h : s.Ready) (hhalt : s.cpu.halted = false)
    (hirq : s.stepStart.cpu.ime = true → ∀ j, j < 5 → s.requested j = false) : step s = s.stepStart.runInstruction := by
  have hawake : ¬ s.stepStart.cpu.halted = true := ne_true_of_eq_false hhalt
  rw [step_ready h, State.haltOrRun, if_neg hawake, dispatchOrRun_of s.stepStart hirq]

theorem fetch_instr_of_undefined {s : State} (h : s.busRead s.cpu.pc ∈ illegalOpcodes) :
    s.fetch.instr = .illegal (s.busRead s.cpu.pc) := by
  unfold State.fetch
  dsimp only
  split <;> exact decodeOp_of_mem_illegalOpcodes h _ _

theorem runInstruction_of_undefined {s : State} (h : s.busRead s.cpu.pc ∈ illegalOpcodes) :
    s.runInstruction = .fault (.illegalOpcode s.cpu.pc (s.busRead s.cpu.pc)) := by
  rw [State.runInstruction, fetch_instr_of_undefined h, ← fetch_opAddr s]
  rfl

/-- Settles O9: the decoder's `illegal` is the list of undefined bytes, and a step that fetches one runs it. -/
theorem undefinedOpcodeFaults : Obligations.UndefinedOpcodeFaults := by
  refine ⟨fun op b1 b2 x => ?_, fun _ _ => rfl, fun s op hready hhalt hirq hop hmem => ?_⟩
  · have hnat : op.toNat ∈ illegalOpcodes.map BitVec.toNat ↔ op ∈ illegalOpcodes :=
      List.mem_map_of_injective BitVec.toNat_injective
    rw [decodeOp_eq_illegal_iff, ← hnat]
    rfl
  · subst hop
    rw [step_awake hready hhalt hirq]
    exact runInstruction_of_undefined hmem

/-! ### The prefix by itself -/

theorem cbRotate_eq (kind : Nat) (r : Option Reg8) (s : State) : cbRotate kind r s = exec (decodeRot kind r) s := by
  rcases kind with _ | _ | _ | _ | _ | _ | _ | kind <;> cases r <;> rfl

/-- `CB[op2]` is the instruction that `op2` names (44 rule R605). -/
theorem cbInstruction_eq (op2 : Byte) (s : State) : cbInstruction op2 s = exec (decodeCb op2) s := by
  unfold cbInstruction decodeCb
  generalize fieldX op2 = x, decodeReg8 (fieldZ op2) = r
  match x, r with
  | 0, r => exact cbRotate_eq (fieldY op2) r s
  | 1, some _ | 1, none | 2, some _ | 2, none | _ + 3, some _ | _ + 3, none => rfl

/-- Settles O45: the prefix is the fetch of a byte and the CB instruction it names, and every CB instruction completes. -/
theorem cbPrefixRuns : Obligations.CbPrefixRuns := by
  intro s
  obtain ⟨t, ht⟩ := cbInstruction_next (s.busRead s.cpu.pc) s.afterFetch
  exact ⟨decodeCb_ne_cbPrefix _, t, ht, (cbInstruction_eq _ _).symm.trans ht⟩

/-! ### HALT -/

/-- Some source is both enabled and requested. -/
theorem pending_ne_zero (s : State) : s.pending ≠ 0 ↔ ∃ j, j < 5 ∧ s.requested j = true :=
  (pending_eq_zero s).not.trans (by simp)

section
variable {s : State}

theorem runs_halt_of_not_pending (h : s.pending = 0) : Runs .halt s 4 { s.cpu with halted := true } :=
  congrArg (done 4) (if_pos h)

/-- With a request pending, HALT only has its bug, which needs IME clear, and DMG mode or the parameter (46 rules R701, R702). -/
theorem exec_halt_of_pending (h : s.pending ≠ 0) :
    exec .halt s = done 4 (if !s.cpu.ime && (!s.params.cgb || s.params.haltBugCgb)
      then s.setCpu { s.cpu with skipInc := true } else s) :=
  congrArg (done 4) (if_neg h)

theorem runs_halt_of_bug (h : s.pending ≠ 0) (hime : s.cpu.ime = false)
    (hbug : s.params.cgb = false ∨ s.params.haltBugCgb = true) : Runs .halt s 4 { s.cpu with skipInc := true } := by
  have hcond : (!s.cpu.ime && (!s.params.cgb || s.params.haltBugCgb)) = true := by simpa [hime] using hbug
  exact (exec_halt_of_pending h).trans (congrArg (done 4) (if_pos hcond))

theorem runs_halt_of_no_bug (h : s.pending ≠ 0)
    (hbug : s.cpu.ime = true ∨ s.params.cgb = true ∧ s.params.haltBugCgb = false) : Runs .halt s 4 s.cpu := by
  have hcond : ¬ (!s.cpu.ime && (!s.params.cgb || s.params.haltBugCgb)) = true := by
    rcases hbug with hime | ⟨hcgb, hnone⟩
    · simp [hime]
    · simp [hcgb, hnone]
  exact (exec_halt_of_pending h).trans (congrArg (done 4) (if_neg hcond))

/-! ### EI -/

theorem reads_ei (h : s.cpu.eiDelay = 0) :
    Reads .ei s s.cpu.pc 4 { s.cpu with eiDelay := if s.busRead s.cpu.pc = 0x76 then 1 else 2 } := if_pos h

theorem runs_ei_of_delay (h : s.cpu.eiDelay ≠ 0) : Runs .ei s 4 s.cpu := if_neg h

end

/-! ### STOP -/

/-- STOP steps over the byte behind it if the parameter says so (46 rule R705). -/
theorem stopSkip_eq (s : State) :
    s.stopSkip = s.jump (if s.params.stopSkipsNextByte then s.cpu.pc + 1 else s.cpu.pc) := by
  unfold State.stopSkip
  split <;> rfl

/-- The value of `div16` after STOP is a draw (log 20). -/
def State.drawDiv16 (s : State) : State :=
  ({ s with timer := { s.timer with div16 := Config.freeWord s.draws } } : State).draw 1

/-- STOP past the byte it may step over: the speed switch or the stopped state, then the draw (46 rule R705). -/
theorem exec_stop (s : State) :
    let t := s.jump (if s.params.stopSkipsNextByte then s.cpu.pc + 1 else s.cpu.pc)
    exec .stop s = done 4 (State.drawDiv16 (if s.params.cgb && s.key1Prep
      then { t with doubleSpeed := !s.doubleSpeed, key1Prep := false } else t.setCpu { t.cpu with stopped := true })) := by
  show done 4 s.enterStop = _
  rw [State.enterStop, stopSkip_eq]
  rfl

/-! ### The statement -/

/-- Settles O44: HALT by whether a request is pending and whether it has its bug, EI by whether a delay runs, STOP by whether the
speed is switched. -/
theorem systemInstructions : Obligations.SystemInstructions := by
  intro s pending
  have hp : pending ↔ s.pending ≠ 0 := (pending_ne_zero s).symm
  refine ⟨rfl,
    fun h => runs_halt_of_not_pending (not_not.1 (mt hp.2 h)),
    fun h hime => runs_halt_of_no_bug (hp.1 h) (.inl hime),
    fun h hime hbug => runs_halt_of_bug (hp.1 h) hime hbug,
    fun h _ hcgb hnone => runs_halt_of_no_bug (hp.1 h) (.inr ⟨hcgb, hnone⟩),
    rfl, reads_ei, runs_ei_of_delay, Config.freeWord s.draws, fun hswitch => ?_, fun hstop => ?_⟩
  · have hcond : (s.params.cgb && s.key1Prep) = true := Bool.and_eq_true_iff.2 hswitch
    exact (exec_stop s).trans (congrArg (fun u => done 4 (State.drawDiv16 u)) (if_pos hcond))
  · have hcond : ¬ (s.params.cgb && s.key1Prep) = true := by rcases hstop with h | h <;> simp [h]
    exact (exec_stop s).trans (congrArg (fun u => done 4 (State.drawDiv16 u)) (if_neg hcond))

end Sys2Proof.Machine
end

section
/-! PROOFS. A step of the CPU: fetching the bytes of an instruction (O5), waiting in HALT (O7), taking an interrupt (O6). -/

namespace Sys2Proof

theorem decode_of_one_operand {op : Byte} (h : operandBytes op = 1) (b : Byte) (rest : List Byte) :
    decode (op :: b :: rest) = .ok (decodeOp op b 0, rest) := by
  simp only [decode, h]

theorem decode_of_two_operands {op : Byte} (h : operandBytes op = 2) (b1 b2 : Byte) (rest : List Byte) :
    decode (op :: b1 :: b2 :: rest) = .ok (decodeOp op b1 b2, rest) := by
  simp only [decode, h]

end Sys2Proof

namespace Sys2Proof.Machine

/-! ### Operand bytes -/

/-- The reads of `n` bytes depend neither on the CPU's own state nor on the opcode address. -/
theorem bytesAt_congr (n : Nat) (s : State) (p : Cpu) (w a : Word) :
    State.bytesAt n { s with cpu := p, opAddr := w } a = State.bytesAt n s a := by
  induction n generalizing s a with
  | zero => rfl
  | succ k ih => exact congrArg (s.busRead a :: ·) (ih (s.draw (s.readDraws a)) (a + 1))

/-- Nor does the number of free values they look at. -/
theorem bytesDraws_congr (n : Nat) (s : State) (p : Cpu) (w a : Word) :
    State.bytesDraws n { s with cpu := p, opAddr := w } a = State.bytesDraws n s a := by
  induction n generalizing s a with
  | zero => rfl
  | succ k ih => exact congrArg (s.readDraws a + ·) (ih (s.draw (s.readDraws a)) (a + 1))

theorem bytesAt_afterOpcode (n : Nat) (s : State) (a : Word) :
    State.bytesAt n s.afterOpcode a = State.bytesAt n (s.draw (s.readDraws s.cpu.pc)) a := bytesAt_congr n (s.draw _) _ _ a

theorem bytesDraws_afterOpcode (n : Nat) (s : State) (a : Word) :
    State.bytesDraws n s.afterOpcode a = State.bytesDraws n (s.draw (s.readDraws s.cpu.pc)) a :=
  bytesDraws_congr n (s.draw _) _ _ a

theorem add_ofNat_succ (a : Word) (n : Nat) : a + 1 + BitVec.ofNat 16 n = a + BitVec.ofNat 16 (n + 1) := by
  rw [BitVec.ofNat_add, add_assoc, add_comm (1 : Word)]
  rfl

/-- The state after `n` operand bytes are fetched. -/
def State.afterFetches (n : Nat) (s : State) : State :=
  match n with
  | 0 => s
  | k + 1 => State.afterFetches k s.afterFetch

/-- Fetching `n` bytes moves PC past them and the count of free values past their reads. -/
theorem afterFetches_eq (n : Nat) (s : State) : State.afterFetches n s =
    { s with
      cpu := { s.cpu with pc := s.cpu.pc + BitVec.ofNat 16 n }
      draws := s.draws + State.bytesDraws n s s.cpu.pc } := by
  induction n generalizing s with
  | zero => simp [State.afterFetches, State.bytesDraws]
  | succ k ih =>
    have hd : State.bytesDraws k s.afterFetch (s.cpu.pc + 1) =
        State.bytesDraws k (s.draw (s.readDraws s.cpu.pc)) (s.cpu.pc + 1) := bytesDraws_congr k (s.draw _) _ s.opAddr _
    rw [State.afterFetches, ih, State.bytesDraws, ← hd, ← add_ofNat_succ, ← add_assoc]
    rfl

/-! ### Fetching an instruction -/

section
variable {s : State}

theorem fetch_of_no_operand (h : operandBytes (s.busRead s.cpu.pc) = 0) :
    s.fetch = { instr := decodeOp (s.busRead s.cpu.pc) 0 0, state := s.afterOpcode } := by
  simp only [State.fetch, h]

theorem fetch_of_one_operand (h : operandBytes (s.busRead s.cpu.pc) = 1) :
    s.fetch = {
      instr := decodeOp (s.busRead s.cpu.pc) (s.afterOpcode.busRead s.afterOpcode.cpu.pc) 0
      state := s.afterOpcode.afterFetch } := by
  simp only [State.fetch, h]

theorem fetch_of_two_operands (h : operandBytes (s.busRead s.cpu.pc) = 2) :
    s.fetch = {
      instr := decodeOp (s.busRead s.cpu.pc) (s.afterOpcode.busRead s.afterOpcode.cpu.pc)
        (s.afterOpcode.afterFetch.busRead s.afterOpcode.afterFetch.cpu.pc)
      state := s.afterOpcode.afterFetch.afterFetch } := by
  simp only [State.fetch, h]

/-- The fetch reads the opcode byte and then the operand bytes that `decode` takes (60 rule R810; 30 rules R300, R346). -/
theorem fetch_of_decode {i : Instr} {rest : List Byte}
    (h : decode (s.busRead s.cpu.pc :: State.bytesAt 2 s.afterOpcode s.afterOpcode.cpu.pc) = .ok (i, rest)) :
    rest.length ≤ 2 ∧ s.fetch = { instr := i, state := State.afterFetches (2 - rest.length) s.afterOpcode } := by
  have hle := operandBytes_le (s.busRead s.cpu.pc)
  have hbytes : State.bytesAt 2 s.afterOpcode s.afterOpcode.cpu.pc =
    [s.afterOpcode.busRead s.afterOpcode.cpu.pc,
      s.afterOpcode.afterFetch.busRead s.afterOpcode.afterFetch.cpu.pc] := rfl
  rw [hbytes] at h
  obtain hn | hn | hn : operandBytes (s.busRead s.cpu.pc) = 0 ∨ operandBytes (s.busRead s.cpu.pc) = 1 ∨
    operandBytes (s.busRead s.cpu.pc) = 2 := by omega
  · rw [decode_of_no_operand hn] at h
    cases h
    exact ⟨Nat.le_refl 2, fetch_of_no_operand hn⟩
  · rw [decode_of_one_operand hn] at h
    cases h
    exact ⟨Nat.le_succ 1, fetch_of_one_operand hn⟩
  · rw [decode_of_two_operands hn] at h
    cases h
    exact ⟨Nat.zero_le 2, fetch_of_two_operands hn⟩

/-- The instruction then runs with PC past its bytes. -/
theorem runInstruction_of_decode {i : Instr} {rest : List Byte} {pc : Word} (hpc : s.afterOpcode.cpu.pc = pc)
    (h : decode (s.busRead s.cpu.pc :: State.bytesAt 2 (s.draw (s.readDraws s.cpu.pc)) pc) = .ok (i, rest)) :
    rest.length ≤ 2 ∧ s.runInstruction = Ticked (exec i { s with
      cpu := { s.cpu with pc := pc + BitVec.ofNat 16 (2 - rest.length), skipInc := false }
      opAddr := s.cpu.pc
      draws := s.draws + s.readDraws s.cpu.pc +
        State.bytesDraws (2 - rest.length) (s.draw (s.readDraws s.cpu.pc)) pc }) := by
  rw [← hpc, ← bytesAt_afterOpcode] at h
  obtain ⟨hlen, hfetch⟩ := fetch_of_decode h
  refine ⟨hlen, ?_⟩
  rw [State.runInstruction, tickResult_eq, hfetch, afterFetches_eq, bytesDraws_afterOpcode, hpc]
  rfl

end

/-- Settles O5: the step runs the instruction that the fetch reads. The operand bytes stand behind the opcode byte or, with
`skip_inc` set, on it. -/
theorem stepRunsDecodedInstruction : Obligations.StepRunsDecodedInstruction := by
  intro s i rest hready hhalt s0 pc hirq
  rw [step_awake hready hhalt hirq]
  refine ⟨fun hskip hdec => ?_, fun hskip hdec => ?_⟩
  · have hpc : s0.afterOpcode.cpu.pc = pc + 1 := (afterOpcode_pc s0).trans (if_neg (ne_true_of_eq_false hskip))
    obtain ⟨hlen, hrun⟩ := runInstruction_of_decode hpc hdec
    have hn : 3 - rest.length = 2 - rest.length + 1 := Nat.succ_sub hlen
    rw [hrun, hn, State.bytesDraws, ← add_ofNat_succ, ← add_assoc, ← hskip]
    rfl
  · have hpc : s0.afterOpcode.cpu.pc = pc := (afterOpcode_pc s0).trans (if_pos hskip)
    exact (runInstruction_of_decode hpc hdec).2

/-! ### HALT -/

/-- With a source enabled and requested the halted CPU wakes at no cost, and the awake one goes on. -/
theorem haltOrRun_of_pending {s : State} (h : s.pending ≠ 0) :
    s.haltOrRun = (s.setCpu { s.cpu with halted := false }).dispatchOrRun := by
  unfold State.haltOrRun
  rw [if_neg h]
  split
  · rfl
  next hawake =>
    have hcpu : ({ s.cpu with halted := false } : Cpu) = s.cpu := by rw [← Bool.eq_false_of_not_eq_true hawake]
    rw [hcpu]
    rfl

theorem haltOrRun_of_not_pending {s : State} (hhalt : s.cpu.halted = true) (h : s.pending = 0) :
    s.haltOrRun = .next (s.addCharge 4).tick := by
  rw [State.haltOrRun, if_pos hhalt, if_pos h]
  rfl

/-- Settles O7: by whether a request is pending. -/
theorem haltedStep : Obligations.HaltedStep := by
  intro s hready hhalt
  refine ⟨fun h => ?_, fun h => ?_⟩
  · have hp : s.stepStart.pending = 0 := (pending_eq_zero s).2 h
    exact (step_ready hready).trans (haltOrRun_of_not_pending (s := s.stepStart) hhalt hp)
  · have hp : s.stepStart.pending ≠ 0 := (pending_ne_zero s).2 h
    have hwoken : step { s with cpu := { s.cpu with halted := false } } =
        (s.stepStart.setCpu { s.stepStart.cpu with halted := false }).dispatchOrRun :=
      (step_ready (s := { s with cpu := { s.cpu with halted := false } }) hready).trans (haltOrRun_of_pending hp)
    rw [step_ready hready, haltOrRun_of_pending hp, hwoken]

/-! ### Taking an interrupt -/

theorem pending_getLsbD (s : State) {j : Nat} (hj : j < 5) : s.pending.getLsbD j = s.requested j := by
  simp [State.pending, State.requested, hj]

/-- A lowest set bit is `lowestBit` (60 rule R823). -/
theorem lowestBit_eq : ∀ (m : BitVec 5), ∀ i < 5, m.getLsbD i = true → (∀ j < i, m.getLsbD j = false) → lowestBit m = i := by
  decide

/-- The source taken is the lowest one that is both enabled and requested. -/
theorem lowestBit_pending {s : State} {i : Nat} (hi : i < 5) (h : s.requested i = true)
    (hlow : ∀ j, j < i → s.requested j = false) : lowestBit s.pending = i :=
  lowestBit_eq _ i hi ((pending_getLsbD s hi).trans h) fun j hj => (pending_getLsbD s (hj.trans hi)).trans (hlow j hj)

theorem clearBit_getLsbD : ∀ (m : BitVec 5), ∀ i < 5, ∀ j < 5,
    (m &&& ~~~ BitVec.twoPow 5 i).getLsbD j = (m.getLsbD j && decide (j ≠ i)) := by decide

theorem vector_eq (i : Nat) : vector i = BitVec.ofNat 16 (0x40 + 8 * i) := by
  rw [BitVec.ofNat_add, BitVec.ofNat_mul]
  rfl

/-- A pending EI is kept or dropped, and one free value decides (log 21, DESIGN CHOICE). -/
theorem dropEi_eq (s : State) : ∃ k, (k = s.cpu.eiDelay ∨ k = 0) ∧
    s.dropEi = (s.setCpu { s.cpu with eiDelay := k }).draw (if s.cpu.eiDelay = 0 then 0 else 1) := by
  unfold State.dropEi
  split
  next hpos =>
    refine ⟨if Config.freeBool s.draws then s.cpu.eiDelay else 0, ite_eq_or_eq _ _ _, ?_⟩
    rw [if_neg (Nat.ne_of_gt hpos)]
  next hzero => exact ⟨s.cpu.eiDelay, .inl rfl, by rw [if_pos (Nat.eq_zero_of_not_pos hzero)]; rfl⟩

/-- The two writes of the push of `pc`, with the request of source `i` cleared (60 rule R822). -/
def State.trapPush (s : State) (i : Nat) (sp pc : Word) : State :=
  (({ s with iflag := s.iflag &&& ~~~ BitVec.twoPow 5 i } : State).busWrite (sp - 1) (BitVec.ofNat 8 (pc.toNat / 256))).busWrite
    (sp - 2) (BitVec.ofNat 8 (pc.toNat % 256))

theorem trapPush_setCpu (s : State) (p : Cpu) (i : Nat) (sp pc : Word) :
    (s.setCpu p).trapPush i sp pc = (s.trapPush i sp pc).setCpu p := by
  have h (t : State) (a b : Word) (v w : Byte) :
      ((t.setCpu p).busWrite a v).busWrite b w = ((t.busWrite a v).busWrite b w).setCpu p := by
    rw [busWrite_setCpu, busWrite_setCpu]
  exact h { s with iflag := s.iflag &&& ~~~ BitVec.twoPow 5 i } _ _ _ _

theorem push16_eq_trapPush (s : State) (i : Nat) :
    State.push16 { s with cpu := { s.cpu with ime := false }, iflag := s.iflag &&& ~~~ BitVec.twoPow 5 i } s.cpu.pc =
      (s.trapPush i s.cpu.sp s.cpu.pc).setCpu { s.cpu with ime := false, sp := s.cpu.sp - 2 } := by
  rw [push16_eq, hiByte_eq, loByte_eq]
  show ((s.setCpu { s.cpu with ime := false }).trapPush i s.cpu.sp s.cpu.pc).setCpu _ = _
  rw [trapPush_setCpu]
  rfl

/-- A dispatch is that push, the vector of the source, and the fate of a pending EI. -/
theorem dispatch_eq {s : State} {i : Nat} (hi : lowestBit s.pending = i) : ∃ k, (k = s.cpu.eiDelay ∨ k = 0) ∧
    s.dispatch = ((s.trapPush i s.cpu.sp s.cpu.pc).setCpu { s.cpu with
      ime := false, sp := s.cpu.sp - 2, pc := BitVec.ofNat 16 (0x40 + 8 * i), eiDelay := k }).draw
        (if s.cpu.eiDelay = 0 then 0 else 1) := by
  obtain ⟨k, hk, hdrop⟩ := dropEi_eq ((s.trapPush i s.cpu.sp s.cpu.pc).setCpu { s.cpu with
      ime := false, sp := s.cpu.sp - 2, pc := BitVec.ofNat 16 (0x40 + 8 * i) })
  refine ⟨k, hk, ?_⟩
  unfold State.dispatch
  rw [hi]
  dsimp only
  rw [push16_eq_trapPush, vector_eq]
  exact hdrop

/-- With IME set and a source enabled and requested the step is the dispatch, 20 cycles and `Tick` (60 rules R810, R821). -/
theorem dispatchOrRun_of_pending {s : State} (hime : s.cpu.ime = true) (h : s.pending ≠ 0) :
    s.dispatchOrRun = .next (s.dispatch.addCharge 20).tick := by
  unfold State.dispatchOrRun
  rw [if_pos (by rw [hime, decide_eq_true h]; rfl)]
  rfl

/-- Settles O6: the CPU, awake, dispatches the lowest source. -/
theorem interruptDispatch : Obligations.InterruptDispatch := by
  intro s i hready hi hime hreq hlow
  have hp : s.stepStart.pending ≠ 0 := (pending_ne_zero s).2 ⟨i, hi, hreq⟩
  obtain ⟨k, hk, hd⟩ := dispatch_eq (s := s.stepStart.setCpu { s.stepStart.cpu with halted := false })
    (lowestBit_pending (s := s) hi hreq hlow)
  refine ⟨k, s.iflag &&& ~~~ BitVec.twoPow 5 i, hk, clearBit_getLsbD s.iflag i hi, ?_⟩
  have hstep : step s =
      .next (((s.stepStart.setCpu { s.stepStart.cpu with halted := false }).dispatch.addCharge 20).tick) := by
    rw [step_ready hready, haltOrRun_of_pending hp]
    exact dispatchOrRun_of_pending hime hp
  rw [hstep, hd, trapPush_setCpu]
  rfl

end Sys2Proof.Machine
end

section
/-! PROOFS. The joypad (O57), and the states in which no instruction runs, with the joypad event that ends one of them (O8). -/

namespace Sys2Proof.Machine

/-! ### Requests -/

/-- A request sets its own bit of IF alone (60 rule R820). -/
theorem requestIf_getLsbD (s : State) (b : Bool) {i j : Nat} (hj : j < 5) :
    (s.requestIf b i).iflag.getLsbD j = (s.iflag.getLsbD j || (b && decide (j = i))) := by
  cases b with
  | false => simp [State.requestIf]
  | true => simp [State.requestIf, hj, eq_comm]

/-! ### P1 -/

theorem lowNibble_getLsbD : ∀ (v : Byte), ∀ i < 4, (BitVec.ofNat 4 (v.toNat % 16)).getLsbD i = v.getLsbD i := by decide

theorem highNibble_getLsbD : ∀ (v : Byte), ∀ i < 4, (BitVec.ofNat 4 (v.toNat / 16)).getLsbD i = v.getLsbD (i + 4) := by decide

theorem unlessSelected_getLsbD (b : Bool) (x : BitVec 4) (i : Nat) :
    (if b then 0 else x).getLsbD i = (!b && x.getLsbD i) := by cases b <;> simp

/-- A line reads 0 exactly when it is pulled (60 rule R874). -/
theorem lines_getLsbD (s : State) {i : Nat} (hi : i < 4) : s.joy.lines.getLsbD i = !s.pulled i := by
  unfold Joypad.lines State.pulled
  rw [BitVec.getLsbD_not, BitVec.getLsbD_or, unlessSelected_getLsbD, unlessSelected_getLsbD, lowNibble_getLsbD _ i hi,
    highNibble_getLsbD _ i hi, decide_eq_true hi, Bool.true_and]

/-- The bits of P1: the lines, the selection, and two ones. -/
theorem p1_getLsbD : ∀ (sel : BitVec 2) (lines : BitVec 4),
    let p1 : Byte := 0xC0 ||| (sel.setWidth 8 <<< 4) ||| lines.setWidth 8
    (∀ i, i < 4 → p1.getLsbD i = lines.getLsbD i) ∧ p1.getLsbD 4 = sel.getLsbD 0 ∧ p1.getLsbD 5 = sel.getLsbD 1 ∧
      p1.getLsbD 6 = true ∧ p1.getLsbD 7 = true := by decide

/-! ### A change of the joypad -/

/-- Some line falls from `x` to `y`. -/
theorem falls_iff : ∀ x y : BitVec 4, x &&& ~~~ y ≠ 0 ↔ ∃ i, i < 4 ∧ x.getLsbD i = true ∧ y.getLsbD i = false := by decide

/-- A change of the joypad requests its interrupt exactly if some line falls. -/
theorem joypadRequests_setJoypad (s : State) (j : Joypad) : JoypadRequests s (s.setJoypad j) := by
  have hbit {i : Nat} (hi : i < 5) : (s.setJoypad j).iflag.getLsbD i =
      (s.iflag.getLsbD i || (decide (s.joy.lines &&& ~~~ j.lines ≠ 0) && decide (i = 4))) :=
    requestIf_getLsbD { s with joy := j } _ hi
  have hfall : s.joy.lines &&& ~~~ j.lines ≠ 0 ↔ ∃ i, i < 4 ∧ s.pulled i = false ∧ (s.setJoypad j).pulled i = true := by
    refine (falls_iff _ _).trans (exists_congr fun i => and_congr_right fun hi => ?_)
    have hnew : j.lines.getLsbD i = !(s.setJoypad j).pulled i := lines_getLsbD (s.setJoypad j) hi
    rw [lines_getLsbD s hi, hnew, Bool.not_eq_true', Bool.not_eq_false']
  refine ⟨fun i hi => ?_, ?_⟩
  · rw [hbit (by omega), decide_eq_false (Nat.ne_of_lt hi), Bool.and_false, Bool.or_false]
  · rw [← hfall, hbit (by decide)]
    simp

theorem press_getLsbD (j : Joypad) (button : BitVec 3) (pressed : Bool) {i : Nat} (hi : i < 8) :
    (j.press button pressed).buttons.getLsbD i = if i = button.toNat then pressed else j.buttons.getLsbD i := by
  cases pressed with
  | false => exact resByte_getLsbD button j.buttons hi
  | true => exact setByte_getLsbD button j.buttons hi

/-- A joypad event sets its button alone, and requests as any change of the joypad does. -/
theorem joypadEvent_spec (s : State) (button : BitVec 3) (pressed : Bool) :
    let t := s.joypadEvent button pressed
    (∀ j, j < 8 → t.joy.buttons.getLsbD j = if j = button.toNat then pressed else s.joy.buttons.getLsbD j) ∧
      t.joy.sel = s.joy.sel ∧ JoypadRequests s t :=
  ⟨fun _ hj => press_getLsbD s.joy button pressed hj, rfl, joypadRequests_setJoypad s (s.joy.press button pressed)⟩

theorem selection_getLsbD : ∀ v : Byte,
    ((v >>> 4).setWidth 2).getLsbD 0 = v.getLsbD 4 ∧ ((v >>> 4).setWidth 2).getLsbD 1 = v.getLsbD 5 := by decide

/-- Settles O57: the bits of P1, and the two changes of the joypad. -/
theorem joypadRegister : Obligations.JoypadRegister := by
  intro s
  have hread : s.peek true 0xFF00 = s.peekIo .p1 := peek_io rfl
  obtain ⟨hlow, hhigh⟩ := p1_getLsbD s.joy.sel s.joy.lines
  refine ⟨fun i hi => ?_, ?_, fun v hw => ?_, joypadEvent_spec s⟩
  · rw [hread]
    exact (hlow i hi).trans (lines_getLsbD s hi)
  · rw [hread]
    exact hhigh
  · obtain ⟨h4, h5⟩ := selection_getLsbD v
    rw [busWrite_io (r := .p1) hw rfl]
    exact ⟨h4, h5, rfl, joypadRequests_setJoypad s _⟩

/-! ### The states in which no instruction runs -/

theorem step_faulted {s : State} {f : Fault} (h : s.fault = some f) : step s = .fault f := by
  simp only [step, State.stepMachine, h]

theorem step_stopped {s : State} (hf : s.fault = none) (hi : s.inputs = []) (hs : s.cpu.stopped = true) : step s = .next s := by
  simp only [step, State.stepMachine, hf, hi, State.cpuStep, hs, if_true]

/-- A waiting joypad event is taken from the queue and delivered (60 rule R871; log 12, DESIGN CHOICE). -/
theorem step_joypad {s : State} {button : BitVec 3} {pressed : Bool} {rest : List HostInput} (hf : s.fault = none)
    (hi : s.inputs = .joypad button pressed :: rest) :
    step s = .next (({ s with inputs := rest } : State).joypadEvent button pressed) := by
  simp only [step, State.stepMachine, hf, hi]

/-- Settles O8: a step by the fault and the waiting event, and the event by `joypadEvent_spec`. -/
theorem quiescentStates : Obligations.QuiescentStates := by
  intro s
  refine ⟨fun f => step_faulted, step_stopped, fun button pressed rest hf hi => ⟨_, step_joypad hf hi, rfl, ?_⟩⟩
  obtain ⟨hbuttons, hsel, hreq⟩ := joypadEvent_spec { s with inputs := rest } button pressed
  refine ⟨hbuttons, ?_, hsel, rfl, hreq, rfl⟩
  show (s.cpu.stopped && decide ((s.joy.press button pressed).buttons = s.joy.buttons)) = true ↔ _
  rw [Bool.and_eq_true, decide_eq_true_iff]
  rfl

end Sys2Proof.Machine
end

section
/-! PROOFS. The timer (O47) and the serial counter (O48) over any number of cycles. -/

namespace Sys2Proof.Machine

/-! ### TIMA -/

theorem timerPeriod_eq (tac : BitVec 3) :
    timerPeriod tac = if tac.toNat % 4 = 0 then 1024 else 4 ^ (tac.toNat % 4 + 1) := by revert tac; decide

/-- Increments change TIMA alone. -/
theorem increments_frame (n : Nat) (t : Timer) (b : Bool) :
    (Timer.increments n t b).1 = { t with tima := (Timer.increments n t b).1.tima } := by
  have hstep (t : Timer) : t.increment = { t with tima := t.increment.tima } := by unfold Timer.increment; split <;> rfl
  induction n generalizing t b with
  | zero => rfl
  | succ k ih =>
    rw [Timer.increments, ih, hstep]

theorem increment_of_ne {t : Timer} (h : t.tima ≠ 0xFF) : t.increment = { t with tima := t.tima + 1 } := if_neg h

theorem increment_of_eq {t : Timer} (h : t.tima = 0xFF) : t.increment = { t with tima := t.tma } := if_pos h

theorem byte_ne_max_iff (v : Byte) : v ≠ 0xFF ↔ v.toNat < 255 := by
  have := v.isLt
  rw [Ne, ← BitVec.toNat_inj]
  show ¬ v.toNat = 255 ↔ _
  omega

theorem byte_add_one_toNat {v : Byte} (h : v.toNat < 255) : (v + 1).toNat = v.toNat + 1 := by
  rw [BitVec.toNat_add]
  exact Nat.mod_eq_of_lt (Nat.succ_lt_succ h)

/-- Below the overflow TIMA counts up (60 rule R831). -/
theorem increments_below {n : Nat} {t : Timer} (b : Bool) (h : n < 256 - t.tima.toNat) :
    (Timer.increments n t b).1.tima.toNat = t.tima.toNat + n ∧ (Timer.increments n t b).2 = b := by
  induction n generalizing t b with
  | zero => exact ⟨rfl, rfl⟩
  | succ k ih =>
    have hlt : t.tima.toNat < 255 := by omega
    have hne := (byte_ne_max_iff t.tima).2 hlt
    have hnext := byte_add_one_toNat hlt
    rw [Timer.increments, increment_of_ne hne, decide_eq_false hne, Bool.or_false]
    obtain ⟨htima, hover⟩ := ih (t := { t with tima := t.tima + 1 }) b (by rw [hnext]; omega)
    exact ⟨htima.trans (by rw [hnext]; omega), hover⟩

theorem increments_overflowed (n : Nat) (t : Timer) : (Timer.increments n t true).2 = true := by
  induction n generalizing t with
  | zero => rfl
  | succ k ih => rw [Timer.increments, Bool.true_or, ih]

/-- Past 0xFF it goes on from TMA, and overflows (60 rule R832). -/
theorem increments_past {n : Nat} {t : Timer} (b : Bool) (h : 256 - t.tima.toNat ≤ n) :
    (Timer.increments n t b).1.tima.toNat =
      t.tma.toNat + (n - (256 - t.tima.toNat)) % (256 - t.tma.toNat) ∧ (Timer.increments n t b).2 = true := by
  have htma := t.tma.isLt
  induction n generalizing t b with
  | zero =>
    have := t.tima.isLt
    omega
  | succ k ih =>
    rw [Timer.increments]
    by_cases hmax : t.tima = 0xFF
    · rw [increment_of_eq hmax, decide_eq_true hmax, Bool.or_true]
      refine ⟨?_, increments_overflowed _ _⟩
      have hk : k + 1 - (256 - t.tima.toNat) = k := by rw [hmax]; rfl
      rw [hk]
      by_cases hlow : k < 256 - t.tma.toNat
      · rw [Nat.mod_eq_of_lt hlow]
        exact (increments_below (t := { t with tima := t.tma }) true hlow).1
      · rw [Nat.mod_eq_sub_mod (Nat.le_of_not_lt hlow)]
        exact (ih (t := { t with tima := t.tma }) true (Nat.le_of_not_lt hlow) htma).1
    · have hlt := (byte_ne_max_iff t.tima).1 hmax
      have hnext := byte_add_one_toNat hlt
      have hsub : k - (256 - (t.tima.toNat + 1)) = k + 1 - (256 - t.tima.toNat) := by omega
      rw [increment_of_ne hmax, ← hsub, ← hnext]
      exact ih (t := { t with tima := t.tima + 1 }) _ (by rw [hnext]; omega) htma

/-! ### The timer -/

theorem timerEnabled_iff (tac : BitVec 3) : tac.getLsbD 2 = true ↔ 4 ≤ tac.toNat := by revert tac; decide

theorem timerTick_of_disabled {t : Timer} (h : ¬ t.tac.getLsbD 2 = true) (c : Nat) :
    t.tick c = ({ t with div16 := t.div16 + BitVec.ofNat 16 c }, false) := if_neg h

theorem timerTick_of_enabled {t : Timer} (h : t.tac.getLsbD 2 = true) (c : Nat) :
    t.tick c = Timer.increments ((t.sub + c) / timerPeriod t.tac)
      { t with div16 := t.div16 + BitVec.ofNat 16 c, sub := (t.sub + c) % timerPeriod t.tac } false := if_pos h

/-- DIV counts cycles, and the other registers but TIMA stand, enabled or not (60 rule R830). -/
theorem timerTick_registers (t : Timer) (c : Nat) : (t.tick c).1.div16 = t.div16 + BitVec.ofNat 16 c ∧
    (t.tick c).1.tac = t.tac ∧ (t.tick c).1.tma = t.tma := by
  by_cases h : t.tac.getLsbD 2 = true
  · rw [timerTick_of_enabled h, increments_frame]
    exact ⟨rfl, rfl, rfl⟩
  · rw [timerTick_of_disabled h]
    exact ⟨rfl, rfl, rfl⟩

/-- Settles O47: by whether the timer is enabled, and by whether TIMA passes 0xFF. -/
theorem timerClosedForm : Obligations.TimerClosedForm := by
  intro s c t period n
  have hperiod : timerPeriod s.timer.tac = period := timerPeriod_eq s.timer.tac
  have hiflag {j : Nat} (hj : j < 5) := requestIf_getLsbD { s with timer := (s.timer.tick c).1 } (s.timer.tick c).2 (i := 2) hj
  have hquiet (h : (s.timer.tick c).2 = false) : t.iflag = s.iflag := if_neg (ne_true_of_eq_false h)
  obtain ⟨hdiv, htac, htma⟩ := timerTick_registers s.timer c
  refine ⟨?_, htac, htma, fun hoff => ?_, fun hon => ?_⟩
  · show (s.timer.tick c).1.div16.toNat = _
    rw [hdiv, BitVec.toNat_add, BitVec.toNat_ofNat, Nat.add_mod_mod]
  · have htick := timerTick_of_disabled (mt (timerEnabled_iff _).1 (Nat.not_le_of_lt hoff)) c
    exact ⟨congrArg (·.1.tima) htick, congrArg (·.1.sub) htick, hquiet (congrArg Prod.snd htick)⟩
  · have htick := timerTick_of_enabled ((timerEnabled_iff _).2 hon) c
    rw [hperiod] at htick
    refine ⟨(congrArg (·.1.sub) htick).trans (increments_sub _ _ _), fun hbelow => ?_, fun hpast => ?_⟩
    · obtain ⟨htima, hover⟩ := increments_below (t := { s.timer with
        div16 := s.timer.div16 + BitVec.ofNat 16 c, sub := (s.timer.sub + c) % period }) false hbelow
      rw [← htick] at htima hover
      exact ⟨htima, hquiet hover⟩
    · obtain ⟨htima, hover⟩ := increments_past (t := { s.timer with
        div16 := s.timer.div16 + BitVec.ofNat 16 c, sub := (s.timer.sub + c) % period }) false hpast
      rw [← htick] at htima hover
      refine ⟨htima, fun j hj => (hiflag hj).trans ?_⟩
      rw [hover, Bool.true_and]

/-! ### The serial counter -/

/-- How many shifts of a transfer with `bits` left are due at the phase `phase`, one at once and then one per bit time. -/
def dueShifts (bits bit : Nat) (phase : Int) : Nat :=
  if 0 < phase then 0 else if bit = 0 then bits else (-phase).toNat / bit + 1

theorem dueShifts_of_pos {bits bit : Nat} {phase : Int} (h : 0 < phase) : dueShifts bits bit phase = 0 := if_pos h

theorem phase_le_of_due {bits bit : Nat} {phase : Int} (h : 0 < dueShifts bits bit phase) : phase ≤ 0 :=
  Int.not_lt.1 fun hpos => Nat.ne_of_gt h (dueShifts_of_pos hpos)

/-- After a shift one less is due. -/
theorem dueShifts_succ {bits bit : Nat} {phase : Int} (h : phase ≤ 0) :
    dueShifts (bits + 1) bit phase = dueShifts bits bit (phase + bit) + 1 := by
  unfold dueShifts
  rw [if_neg (Int.not_lt.2 h)]
  by_cases hzero : bit = 0
  · subst hzero
    simp [h]
  · rw [if_neg hzero, if_neg hzero]
    split
    next hpos =>
      rw [Nat.div_eq_of_lt (by omega)]
    next hneg =>
      have hsub : (-(phase + bit)).toNat = (-phase).toNat - bit := by omega
      rw [hsub, ← Nat.div_eq_sub_div (Nat.pos_of_ne_zero hzero) (by omega)]

/-- The number of shifts due after `c` cycles from a phase of `phase` cycles. -/
theorem dueShifts_after (bits bit phase c : Nat) : dueShifts bits bit ((phase : Int) - c) =
    if c < phase then 0 else if bit = 0 then bits else (c - phase) / bit + 1 := by
  have hpos : 0 < (phase : Int) - c ↔ c < phase := by omega
  have hnat : (-((phase : Int) - c)).toNat = c - phase := by omega
  simp only [dueShifts, hpos, hnat]

/-- `n` ones shifted into `v`. -/
def shiftedOnes (v n : Nat) : Nat := (v * 2 ^ n + (2 ^ n - 1)) % 256

theorem shiftOne_toNat (v : Byte) : ((v <<< 1) ||| 1).toNat = (v.toNat * 2 + 1) % 256 := by
  revert v; decide

theorem shiftedOnes_succ (v n : Nat) : shiftedOnes ((v * 2 + 1) % 256) n = shiftedOnes v (n + 1) := by
  unfold shiftedOnes
  have hpow := Nat.one_le_two_pow (n := n)
  have h : (v * 2 + 1) * 2 ^ n + (2 ^ n - 1) = v * 2 ^ (n + 1) + (2 ^ (n + 1) - 1) := by
    rw [pow_succ, add_mul, mul_assoc, mul_comm 2]
    omega
  rw [← h, Nat.add_mod, Nat.mod_mul_mod, ← Nat.add_mod]

/-- The port after one shift; `bit` is the bit time. -/
def Serial.shift (bit : Nat) (p : Serial) : Serial :=
  { p with sb := (p.sb <<< 1) ||| 1, bits := p.bits - 1, phase := p.phase + bit }

/-- The port at the completion of the transfer, after the last shift (60 rule R842). -/
def Serial.complete (p : Serial) : Serial := { p with phase := 0, sc := p.sc &&& 0x7F }

section
variable {n bit : Nat} {p : Serial}

theorem shifts_of_waiting (h : 0 < p.phase) : Serial.shifts n bit p = (p, false) := by
  cases n with
  | zero => rfl
  | succ k => exact if_neg (by omega)

theorem shifts_of_last (hbits : p.bits = 1) (h : p.phase ≤ 0) :
    Serial.shifts (n + 1) bit p = ((p.shift bit).complete, true) := by
  have hlast : p.bits - 1 = 0 := by omega
  exact (if_pos ⟨by omega, h⟩).trans (if_pos hlast)

theorem shifts_of_due (hbits : 1 < p.bits) (h : p.phase ≤ 0) :
    Serial.shifts (n + 1) bit p = Serial.shifts n bit (p.shift bit) := by
  have hmore : ¬ p.bits - 1 = 0 := by omega
  exact (if_pos ⟨by omega, h⟩).trans (if_neg hmore)

/-- While fewer shifts are due than bits are left, the transfer goes on. -/
theorem shifts_running (hbits : p.bits = n) (hdue : dueShifts n bit p.phase < n) :
    Serial.shifts n bit p = ((Serial.shift bit)^[dueShifts n bit p.phase] p, false) := by
  induction n generalizing p with
  | zero => exact absurd hdue (Nat.not_lt_zero _)
  | succ k ih =>
    by_cases hpos : 0 < p.phase
    · rw [dueShifts_of_pos hpos, shifts_of_waiting hpos]
      rfl
    · have hle := Int.not_lt.1 hpos
      rw [dueShifts_succ hle] at hdue ⊢
      rw [shifts_of_due (by omega) hle]
      exact ih (p := p.shift bit) (congrArg (· - 1) hbits) (Nat.lt_of_succ_lt_succ hdue)

/-- When as many shifts are due as bits are left, it completes. -/
theorem shifts_completing (hbits : p.bits = n + 1) (hdue : n + 1 ≤ dueShifts (n + 1) bit p.phase) :
    Serial.shifts (n + 1) bit p = (((Serial.shift bit)^[n + 1] p).complete, true) := by
  induction n generalizing p with
  | zero => exact shifts_of_last hbits (phase_le_of_due hdue)
  | succ k ih =>
    have hle := phase_le_of_due (Nat.lt_of_lt_of_le (Nat.succ_pos _) hdue)
    rw [dueShifts_succ hle] at hdue
    rw [shifts_of_due (by omega) hle]
    exact ih (p := p.shift bit) (congrArg (· - 1) hbits) (Nat.le_of_succ_le_succ hdue)

/-- The port after `d` shifts: a one shifted in by each, and a bit time added to the phase. -/
theorem iterate_shift (d : Nat) (p : Serial) :
    ((Serial.shift bit)^[d] p).sb.toNat = shiftedOnes p.sb.toNat d ∧ ((Serial.shift bit)^[d] p).sc = p.sc ∧
      ((Serial.shift bit)^[d] p).bits = p.bits - d ∧ ((Serial.shift bit)^[d] p).phase = p.phase + d * bit := by
  induction d generalizing p with
  | zero => simp [shiftedOnes, Nat.mod_eq_of_lt p.sb.isLt]
  | succ k ih =>
    obtain ⟨hsb, hsc, hbits, hphase⟩ := ih (p.shift bit)
    rw [Function.iterate_succ_apply]
    refine ⟨hsb.trans ?_, hsc, hbits.trans (by rw [Serial.shift, Nat.sub_sub, Nat.add_comm]), hphase.trans ?_⟩
    · rw [← shiftedOnes_succ, ← shiftOne_toNat]
      rfl
    · show p.phase + bit + k * bit = _
      push_cast
      ring

end

/-! ### The serial counter over any number of cycles -/

section
variable {p : Serial} {budget bit c : Nat} (hbit : budget / 8 = bit)
include hbit

/-- The transfer goes on: the shifts that are due, each as a bit time has passed (60 rule R840). -/
theorem serialTick_running {due : Nat} (hdue : dueShifts p.bits bit (p.phase - c) = due) (h : due < p.bits) :
    p.tick budget c = ((Serial.shift bit)^[due] { p with phase := p.phase - c }, false) := by
  rw [Serial.tick, if_pos (Nat.zero_lt_of_lt h), hbit, ← hdue]
  exact shifts_running rfl (hdue.trans_lt h)

/-- The transfer completes: all its shifts, and the interrupt (60 rule R842). -/
theorem serialTick_completing (hpos : 0 < p.bits) (h : p.bits ≤ dueShifts p.bits bit (p.phase - c)) :
    p.tick budget c = (((Serial.shift bit)^[p.bits] { p with phase := p.phase - c }).complete, true) := by
  obtain ⟨n, hn⟩ := Nat.exists_eq_add_one.2 hpos
  rw [hn] at h
  have hrun := shifts_completing (p := { p with phase := p.phase - c }) hn h
  rw [← hn] at hrun
  rw [Serial.tick, if_pos hpos, hbit]
  exact hrun

end

theorem serialTick_idle {p : Serial} (h : p.bits = 0) (budget c : Nat) : p.tick budget c = (p, false) := by
  rw [Serial.tick, if_neg (by omega)]

/-! ### A write to SC -/

/-- The budget of a transfer by the byte written: bit 1 of SC is stored in CGB mode alone (60 rule R840; 10 rule R127). -/
theorem serialBudget_written (p : Params) (v : Byte) :
    p.serialBudget (v &&& p.scMask) = if p.cgb && v.getLsbD 1 then p.serialFast else p.serialNormal := by
  unfold Params.serialBudget Params.scMask
  cases p.cgb <;> simp

theorem writeSc_start {s : State} {v : Byte} (h7 : v.getLsbD 7 = true) (h0 : v.getLsbD 0 = true) :
    (s.writeSc v).serial.bits = 8 ∧ (s.writeSc v).serial.phase =
      (((if s.params.cgb && v.getLsbD 1 then s.params.serialFast else s.params.serialNormal) / 8 : Nat) : Int) := by
  rw [← serialBudget_written]
  simp only [State.writeSc, h7, h0, Bool.and_self, if_true, and_self]

theorem writeSc_cancel {s : State} {v : Byte} (h : v.getLsbD 7 = false ∨ v.getLsbD 0 = false) :
    (s.writeSc v).serial.bits = 0 := by
  have hstart : (v.getLsbD 7 && v.getLsbD 0) = false := by rcases h with h | h <;> rw [h] <;> simp
  simp only [State.writeSc, hstart, Bool.false_eq_true, if_false]

/-- Settles O48: by the byte written, and by whether as many shifts are due as bits are left. -/
theorem serialTransfer : Obligations.SerialTransfer := by
  refine ⟨fun s v hw => ?_, fun s c bit phase hbit hphase => ?_⟩
  · rw [busWrite_io (r := .sc) hw rfl]
    exact ⟨writeSc_start, writeSc_cancel⟩
  · intro t due
    have hdue : dueShifts s.serial.bits bit (s.serial.phase - c) = due := by rw [hphase]; exact dueShifts_after _ _ _ _
    have ht (r : Serial × Bool) (h : s.serial.tick (s.params.serialBudget s.serial.sc) c = r) :
        t = ({ s with serial := r.1 } : State).requestIf r.2 3 := h ▸ rfl
    refine ⟨fun h => ?_, fun hpos h => ?_, fun h => ht _ (serialTick_idle h _ _)⟩
    · rw [ht _ (serialTick_running hbit.symm hdue h)]
      obtain ⟨hsb, hsc, hbits, hphase'⟩ := iterate_shift (bit := bit) due { s.serial with phase := s.serial.phase - c }
      exact ⟨hbits, hsb, by rw [← hphase]; exact hphase', hsc, rfl⟩
    · rw [ht _ (serialTick_completing hbit.symm hpos (h.trans_eq hdue.symm))]
      obtain ⟨hsb, hsc, hbits, -⟩ := iterate_shift (bit := bit) s.serial.bits { s.serial with phase := s.serial.phase - c }
      refine ⟨hbits.trans (Nat.sub_self _), rfl, congrArg (· &&& 0x7F) hsc, hsb, fun j hj => ?_⟩
      rw [requestIf_getLsbD _ _ hj, Bool.true_and]

end Sys2Proof.Machine
end

section
/-! PROOFS. What `Tick` leaves unchanged of the PPU, the requests and the APU (O20). -/

namespace Sys2Proof.Machine

/-! ### The APU -/

/-- What no APU cycle changes: the power and wave RAM. -/
def Apu.kept (a : Apu) : Bool × Memory := (a.power, a.wave)

theorem setChan_kept (a : Apu) (n : ChanId) (c : Chan) : (a.setChan n c).kept = a.kept := by cases n <;> rfl

theorem advance_kept (a : Apu) (n : ChanId) : (a.advance n).kept = a.kept := by
  cases n with
  | four => unfold Apu.advance; dsimp only; split <;> rfl
  | one | two | three => rfl

theorem tickChan_kept (a : Apu) (n : ChanId) : (a.tickChan n).kept = a.kept := by
  unfold Apu.tickChan
  split
  · exact (advance_kept _ n).trans (setChan_kept a n _)
  · exact setChan_kept a n _

theorem clockLength_kept (a : Apu) (n : ChanId) : (a.clockLength n).kept = a.kept := by
  unfold Apu.clockLength
  dsimp only
  split
  · exact setChan_kept a n _
  · rfl

theorem clockLengths_kept (a : Apu) : a.clockLengths.kept = a.kept :=
  (clockLength_kept _ _).trans ((clockLength_kept _ _).trans ((clockLength_kept _ _).trans (clockLength_kept _ _)))

theorem sweepCheck_kept (a : Apu) : a.sweepCheck.kept = a.kept := by
  unfold Apu.sweepCheck
  split
  · exact setChan_kept a .one _
  · rfl

theorem ite_kept {p : Prop} [Decidable p] {a b c : Apu} (hb : b.kept = a.kept) (hc : c.kept = a.kept) :
    (if p then b else c).kept = a.kept := by split <;> assumption

theorem clockSweep_kept (a : Apu) : a.clockSweep.kept = a.kept := by
  have hcheck (b : Apu) (f : Nat) : (b.sweepCheck.sweepStore f).sweepCheck.kept = b.kept :=
    (sweepCheck_kept _).trans (sweepCheck_kept b)
  exact ite_kept (ite_kept (ite_kept (hcheck _ _) (sweepCheck_kept _)) rfl) rfl

theorem sequencerStep_kept (a : Apu) (n : Nat) : (a.sequencerStep n).kept = a.kept := by
  have h1 : (if n % 2 = 0 then a.clockLengths else a).kept = a.kept := ite_kept (clockLengths_kept a) rfl
  have h2 (b : Apu) : (if n = 2 ∨ n = 6 then b.clockSweep else b).kept = b.kept := ite_kept (clockSweep_kept b) rfl
  have h3 (b : Apu) : (if n = 7 then b.clockEnvelopes else b).kept = b.kept := ite_kept rfl rfl
  exact (h3 _).trans ((h2 _).trans h1)

theorem tickSequencer_kept (a : Apu) : a.tickSequencer.kept = a.kept :=
  ite_kept rfl (sequencerStep_kept { a with fsCount := 0 } a.fsStep)

theorem cycle_kept (a : Apu) : a.cycle.kept = a.kept :=
  ite_kept ((tickChan_kept _ _).trans ((tickChan_kept _ _).trans ((tickChan_kept _ _).trans ((tickChan_kept _ _).trans
    (tickSequencer_kept a))))) rfl

theorem run_kept (n : Nat) (a : Apu) : (Apu.run n a).kept = a.kept := by
  induction n generalizing a with
  | zero => rfl
  | succ k ih => exact (ih _).trans (cycle_kept a)

/-! ### What a clock leaves unchanged -/

/-- Of the PPU the clocks write no register, neither OAM nor the palettes. -/
def Ppu.SameRegs (p q : Ppu) : Prop :=
  q = { q with
    lcdc := p.lcdc, stat := p.stat, scy := p.scy, scx := p.scx, lyc := p.lyc, dma := p.dma
    bgp := p.bgp, obp0 := p.obp0, obp1 := p.obp1, wy := p.wy, wx := p.wx, vbk := p.vbk
    bcps := p.bcps, ocps := p.ocps, oam := p.oam, bgPal := p.bgPal, objPal := p.objPal }

theorem Ppu.SameRegs.trans {p q r : Ppu} (h1 : p.SameRegs q) (h2 : q.SameRegs r) : p.SameRegs r := by
  unfold Ppu.SameRegs at *
  rw [h2, h1]

/-- What VRAM DMA moves and a clock without it does not: VRAM, the source, and whether an HBlank DMA is active. -/
def Ppu.vramDmaView (p : Ppu) : Memory × Word × Bool := (p.vram, p.hdmaSrc, p.hdmaActive)

/-- `q` differs from `p` in neither of the two. -/
def Ppu.Quiet (p q : Ppu) : Prop := p.SameRegs q ∧ q.vramDmaView = p.vramDmaView

/-- What no clock changes, from `s` to `t`: the PPU's registers, VRAM without an active HBlank DMA in CGB mode, the requests that
are set, wave RAM and the power. -/
structure ClockFrame (s t : State) : Prop where
  cgb : t.params.cgb = s.params.cgb
  regs : s.ppu.SameRegs t.ppu
  vram : s.params.cgb = false ∨ s.ppu.hdmaActive = false → t.ppu.vramDmaView = s.ppu.vramDmaView
  requests : ∀ j, s.iflag.getLsbD j = true → t.iflag.getLsbD j = true
  apu : t.apu.kept = s.apu.kept

namespace ClockFrame

variable {s t u : State}

theorem refl (s : State) : ClockFrame s s := ⟨rfl, rfl, fun _ => rfl, fun _ => id, rfl⟩

theorem trans (h1 : ClockFrame s t) (h2 : ClockFrame t u) : ClockFrame s u where
  cgb := h2.cgb.trans h1.cgb
  regs := h1.regs.trans h2.regs
  vram hs := by
    have hst := h1.vram hs
    have hactive : t.ppu.hdmaActive = s.ppu.hdmaActive := congrArg (·.2.2) hst
    exact (h2.vram (by rw [h1.cgb, hactive]; exact hs)).trans hst
  requests j := h2.requests j ∘ h1.requests j
  apu := h2.apu.trans h1.apu

theorem setPpu {p : Ppu} (h : s.ppu.Quiet p) : ClockFrame s (s.setPpu p) := ⟨rfl, h.1, fun _ => h.2, fun _ => id, rfl⟩

theorem of_eq (hparams : t.params = s.params) (hppu : t.ppu = s.ppu) (hiflag : t.iflag = s.iflag) (hapu : t.apu = s.apu) :
    ClockFrame s t :=
  ⟨congrArg Params.cgb hparams, hppu ▸ rfl, fun _ => hppu ▸ rfl, fun _ h => hiflag ▸ h, congrArg Apu.kept hapu⟩

theorem requestIf (s : State) (b : Bool) (i : Nat) : ClockFrame s (s.requestIf b i) where
  cgb := rfl
  regs := rfl
  vram _ := rfl
  requests j h := by
    cases b
    · exact h
    · show (s.iflag ||| BitVec.twoPow 5 i).getLsbD j = true
      rw [BitVec.getLsbD_or, h, Bool.true_or]
  apu := rfl

theorem request (h : ClockFrame s t) (b : Bool) (i : Nat) : ClockFrame s (t.requestIf b i) := h.trans (.requestIf t b i)

end ClockFrame

/-! ### The PPU -/

theorem compareLy_clockFrame (s : State) : ClockFrame s s.compareLy :=
  (ClockFrame.setPpu (p := { s.ppu with coincidence := decide (s.ppu.lyVisible = s.ppu.lyc.toNat) }) ⟨rfl, rfl⟩).request _ _

theorem lineStart_clockFrame (s : State) : ClockFrame s s.lineStart :=
  (ClockFrame.setPpu (p := s.ppu.startLine) ⟨rfl, rfl⟩).request _ _

theorem vblankEntry_clockFrame (s : State) : ClockFrame s s.vblankEntry :=
  ((ClockFrame.setPpu (p := { s.ppu with mode := .vblank, frames := s.ppu.frames + 1 }) ⟨rfl, rfl⟩).request _ _).request _ _

theorem vramDmaCopy_sameRegs (n : Nat) (s : State) : s.ppu.SameRegs (State.vramDmaCopy n s).ppu := by
  induction n generalizing s with
  | zero => rfl
  | succ k ih => exact Ppu.SameRegs.trans (q := s.vramDmaByte.ppu) rfl (ih _)

theorem endBlock_vramDmaFrame (s : State) (n : Nat) (b : Bool) :
    IoUnit.vramDma.Frame s (s.setPpu { s.ppu with hdmaLeft := n, hdmaActive := b }).chargeDraw := ⟨rfl, rfl⟩

theorem hblankDma_vramDmaFrame (s : State) : IoUnit.vramDma.Frame s s.hblankDma := by
  unfold State.hblankDma
  split
  · exact (vramDmaCopy_vramDmaFrame _ s).trans (endBlock_vramDmaFrame _ _ _)
  · exact ⟨rfl, rfl⟩

theorem endBlock_sameRegs (s : State) (n : Nat) (b : Bool) :
    s.ppu.SameRegs (s.setPpu { s.ppu with hdmaLeft := n, hdmaActive := b }).chargeDraw.ppu := rfl

theorem hblankDma_sameRegs (s : State) : s.ppu.SameRegs s.hblankDma.ppu := by
  unfold State.hblankDma
  split
  · exact (vramDmaCopy_sameRegs _ s).trans (endBlock_sameRegs _ _ _)
  · rfl

theorem hblankDma_idle {s : State} (h : s.params.cgb = false ∨ s.ppu.hdmaActive = false) : s.hblankDma = s := by
  have hidle : ¬ (s.params.cgb && s.ppu.hdmaActive) = true := by rcases h with h | h <;> simp [h]
  exact if_neg hidle

theorem hblankDma_clockFrame (s : State) : ClockFrame s s.hblankDma := by
  by_cases hidle : s.params.cgb = false ∨ s.ppu.hdmaActive = false
  · rw [hblankDma_idle hidle]
    exact .refl s
  · obtain ⟨hf, -⟩ := hblankDma_vramDmaFrame s
    refine ⟨by rw [hf], hblankDma_sameRegs s, fun h => absurd h hidle, fun j hj => ?_, by rw [hf]⟩
    rw [hf]
    exact hj

theorem hblankEntry_clockFrame (s : State) : ClockFrame s s.hblankEntry :=
  ((ClockFrame.setPpu (p := s.ppu.endTransfer) ⟨rfl, rfl⟩).request _ _).trans (hblankDma_clockFrame _)

theorem ppuEvents_clockFrame (s : State) : ClockFrame s s.ppuEvents := by
  unfold State.ppuEvents
  split
  · split
    · exact lineStart_clockFrame s
    · split
      · exact .setPpu ⟨rfl, rfl⟩
      · split
        · exact hblankEntry_clockFrame s
        · exact .refl s
  · split
    · exact vblankEntry_clockFrame s
    · split
      · exact compareLy_clockFrame s
      · exact .refl s

theorem ppuAdvance_clockFrame (s : State) : ClockFrame s s.ppuAdvance := by
  unfold State.ppuAdvance
  split
  · exact .setPpu ⟨rfl, rfl⟩
  · have hquiet : s.ppu.Quiet { s.ppu with line := (s.ppu.line + 1) % 154, lineCycle := 0 } := ⟨rfl, rfl⟩
    exact (ClockFrame.setPpu hquiet).trans (compareLy_clockFrame _)

theorem ppuPixel_clockFrame (s : State) : ClockFrame s s.ppuPixel := by
  unfold State.ppuPixel
  split
  · exact .setPpu ⟨rfl, rfl⟩
  · exact .refl s

theorem ppuCycle_clockFrame (s : State) : ClockFrame s s.ppuCycle := by
  unfold State.ppuCycle
  split
  · exact ((ppuAdvance_clockFrame s).trans (ppuEvents_clockFrame _)).trans (ppuPixel_clockFrame _)
  · exact .refl s

theorem ppuRun_clockFrame (n : Nat) (s : State) : ClockFrame s (State.ppuRun n s) := by
  induction n generalizing s with
  | zero => exact .refl s
  | succ k ih => exact (ppuCycle_clockFrame s).trans (ih _)

theorem tickPpu_clockFrame (fuel given : Nat) (s : State) : ClockFrame s (State.tickPpu fuel given s) := by
  induction fuel generalizing given s with
  | zero => exact .refl s
  | succ k ih =>
    simp only [State.tickPpu]
    split
    · exact .refl s
    · exact (ppuRun_clockFrame _ s).trans (ih _ _)

/-! ### The other clocks -/

theorem tickApu_clockFrame (n : Nat) (s : State) : ClockFrame s (s.tickApu n) :=
  ⟨rfl, rfl, fun _ => rfl, fun _ => id, run_kept n s.apu⟩

theorem tickTimer_clockFrame (c : Nat) (s : State) : ClockFrame s (s.tickTimer c) :=
  ClockFrame.request (t := { s with timer := (s.timer.tick c).1 }) (.of_eq (s := s) rfl rfl rfl rfl) _ _

theorem tickSerial_clockFrame (c : Nat) (s : State) : ClockFrame s (s.tickSerial c) :=
  ClockFrame.request (t := { s with serial := (s.serial.tick (s.params.serialBudget s.serial.sc) c).1 })
    (.of_eq (s := s) rfl rfl rfl rfl) _ _

theorem untimedRequests_clockFrame (s : State) : ClockFrame s s.untimedRequests := by
  have h := (ClockFrame.requestIf s (Config.freeBool s.draws) 2).trans (.requestIf _ (Config.freeBool (s.draws + 1)) 3)
  unfold State.untimedRequests
  dsimp only
  split <;> exact h.trans (.of_eq rfl rfl rfl rfl)

theorem timedTick_clockFrame (s : State) : ClockFrame s s.timedTick :=
  ((((tickPpu_clockFrame (s.ppu.hdmaLeft + 2) 0 s).trans (tickApu_clockFrame _ _)).trans (tickTimer_clockFrame _ _)).trans
    (tickSerial_clockFrame _ _)).trans (.of_eq rfl rfl rfl rfl)

theorem untimedTick_clockFrame (s : State) : ClockFrame s s.untimedTick := by
  have hdraw (t : State) : ClockFrame t (t.draw 1) := .of_eq rfl rfl rfl rfl
  have hppu := (hdraw s).trans (ppuRun_clockFrame (Config.freeNat s.draws) (s.draw 1))
  exact (((hppu.trans (tickApu_clockFrame _ _)).trans (hdraw _)).trans (untimedRequests_clockFrame _)).trans
    (.of_eq rfl rfl rfl rfl)

theorem tick_clockFrame (s : State) : ClockFrame s s.tick := by
  unfold State.tick
  split
  · exact timedTick_clockFrame s
  · exact untimedTick_clockFrame s

/-- Settles O20: each clock keeps what it may not change, and `Tick` is made of them. -/
theorem clocksLeaveCpuAndMemory : Obligations.ClocksLeaveCpuAndMemory := by
  intro s
  obtain ⟨-, hregs, hvram, hrequests, hapu⟩ := tick_clockFrame s
  have hframe := tick_frame s
  unfold TickFrame at hframe
  rw [tick_charge] at hframe
  refine ⟨hframe, hregs, fun hidle => ?_, hrequests, congrArg Prod.fst hapu, congrArg Prod.snd hapu⟩
  have hview := hvram hidle
  exact ⟨congrArg Prod.fst hview, congrArg (·.2.1) hview⟩

end Sys2Proof.Machine
end

section
/-! PROOFS. What every step keeps of the PPU's position (O14), of the hardware (O16), and of the mapper and the boot mapping (O17). -/

namespace Sys2Proof.Machine

/-! ### Properties of the devices -/

/-- The part of the state that an instruction reaches by bus writes alone and a step by these, the clocks and the host's clock. -/
structure Devices where
  params : Params
  bootRom : Memory
  bootMapped : Bool
  cart : Cart
  ppu : Ppu

/-- That part of a state. -/
def State.devices (s : State) : Devices :=
  { params := s.params, bootRom := s.bootRom, bootMapped := s.bootMapped, cart := s.cart, ppu := s.ppu }

/-- A property of that part is kept by every step if bus writes, the cartridge's clock and `Tick` keep it. -/
theorem stepClosed_of_devices {Q : Devices → Prop} (write : ∀ s a v, Q (State.devices s) → Q (s.busWrite a v).devices)
    (clock : ∀ s n, Q (State.devices s) → Q (s.rtcEvent n).devices) (tick : ∀ s, Q (State.devices s) → Q s.tick.devices) :
    StepClosed (fun s => Q s.devices) where
  cpu _ _ h := h
  draw _ _ h := h
  charge _ _ h := h
  speed _ _ h := h
  div _ _ h := h
  start _ h := h
  fetchAt _ _ h := h
  queue _ _ h := h
  request _ _ h := h
  joypad _ _ h := h
  write := write
  clock := clock
  tick := tick

/-! ### The position of the PPU -/

theorem lineInv_closed : StepClosed (fun s => s.ppu.LineInv) :=
  stepClosed_of_devices (Q := fun d => d.ppu.LineInv) (fun _ a v h => busWrite_line a v h) (fun _ _ h => h)
    (fun _ h => tick_line h)

/-- Settles O14: a bus write and `Tick` keep the position and its mode, and nothing else a step is made of touches the PPU. -/
theorem ppuPositionInvariant : Obligations.PpuPositionInvariant := by
  intro s t hs h
  exact step_keeps lineInv_closed hs t h

/-! ### The hardware -/

theorem rtcEvent_hardware (s : State) (n : Nat) : SameHardware s (s.rtcEvent n) :=
  sameHardware_of rfl rfl (rtcAdvance_fixed s.cart n)

/-- To have the hardware of `s` is a property of the devices. -/
theorem sameHardware_closed (s : State) : StepClosed (SameHardware s) :=
  stepClosed_of_devices (Q := fun d => SameHardware s { s with params := d.params, bootRom := d.bootRom, cart := d.cart })
    (fun t a v h => SameHardware.trans h (busWrite_hardware t a v)) (fun t n h => SameHardware.trans h (rtcEvent_hardware t n))
    (fun t h => SameHardware.trans h (tick_hardware t))

/-- Settles O16: a bus write, `Tick` and the cartridge's clock leave the hardware as it is, and a step is made of these. -/
theorem hardwareIsFixed : Obligations.HardwareIsFixed := fun s t h =>
  step_keeps (sameHardware_closed s) (SameHardware.refl s) t h

/-! ### The mapper and the boot mapping -/

theorem rtcAdvance_bankInv {c : Cart} (n : Nat) (h : c.BankInv) : (c.rtcAdvance n).BankInv := by
  unfold Cart.rtcAdvance
  split <;> exact h

theorem bankInv_closed : StepClosed (fun s => s.cart.BankInv) :=
  stepClosed_of_devices (Q := fun d => d.cart.BankInv) (fun _ a v h => busWrite_bankInv a v h)
    (fun _ n h => rtcAdvance_bankInv n h) (fun s h => show s.tick.cart.BankInv by rwa [tick_cart])

/-- Only the unit of the boot register changes the boot mapping. -/
theorem IoUnit.Frame.bootMapped {u : IoUnit} {s t : State} (h : u.Frame s t) (hu : u ≠ .boot) :
    t.bootMapped = s.bootMapped := by
  cases u with
  | boot => exact absurd rfl hu
  | serial | timer | requests | apu | speed | bank =>
    unfold IoUnit.Frame at h
    rw [h]
  | joypad | oamDma | vramDma | lcd | video => rw [h.1]

/-- A register write can unmap the boot ROM, never map it (10 rule R133). -/
theorem writeIo_bootMapped {s : State} (r : IoReg) (v : Byte) (h : s.bootMapped = false) :
    (s.writeIo r v).bootMapped = false := by
  by_cases hr : r.unit = .boot
  · cases r <;> cases hr
    exact congrArg (· && _) h
  · exact ((writeIo_unitFrame s r v).bootMapped hr).trans h

theorem storeAt_bootMapped {s : State} (r : Region) (v : Byte) (h : s.bootMapped = false) :
    (s.storeAt r v).bootMapped = false := by
  cases r with
  | io r => exact writeIo_bootMapped r v h
  | vram off => simp only [State.storeAt]; split <;> exact h
  | oam i => simp only [State.storeAt]; split <;> exact h
  | _ => exact h

theorem busWrite_bootMapped {s : State} (a : Word) (v : Byte) (h : s.bootMapped = false) :
    (s.busWrite a v).bootMapped = false := by
  obtain ⟨n, e | e⟩ := busWrite_cases s a v <;> rw [e]
  · exact h
  · exact storeAt_bootMapped (s := s.draw n) _ v h

theorem tick_bootMapped (s : State) : s.tick.bootMapped = s.bootMapped := by
  have h := tick_frame s
  unfold TickFrame at h
  rw [h]

theorem bootUnmapped_closed : StepClosed (fun s => s.bootMapped = false) :=
  stepClosed_of_devices (Q := fun d => d.bootMapped = false) (fun _ a v h => busWrite_bootMapped a v h) (fun _ _ h => h)
    (fun s h => (tick_bootMapped s).trans h)

/-- Settles O17: no write stores 0 in the bank register or maps the boot ROM, and `Tick` touches neither. -/
theorem mapperInvariant : Obligations.MapperInvariant := fun _ t h =>
  ⟨fun hs => step_keeps bankInv_closed hs t h, fun hs => step_keeps bootUnmapped_closed hs t h⟩

end Sys2Proof.Machine
end

section
/-! PROOFS. The machine after reset (O18, O59), and what a load answers (O58) and hands over (O19). -/

namespace Sys2Proof.Machine

/-! ### Reset -/

theorem reset_memBounds : State.reset.MemBounds := by decide

/-- Settles O18: each invariant by the values of reset. -/
theorem resetMeetsInvariants : Obligations.ResetMeetsInvariants :=
  ⟨reset_memWf, reset_memBounds, by decide, reset_line, reset_ranges, reset_apuRanges, by decide, rfl⟩

/-- Settles O59: each value by the definition of `State.reset`, TAC and SC as they read. -/
theorem resetValues : Obligations.ResetValues := by
  have htac : State.reset.peek true 0xFF07 = 0xF8 := peek_io (r := .tac) rfl
  have hsc : State.reset.peek true 0xFF02 = 0x7E := peek_io (r := .sc) rfl
  refine ⟨?cpu, ?control, ⟨rfl, rfl, rfl, rfl, rfl, htac⟩, ⟨rfl, hsc, rfl, rfl⟩, rfl, rfl, rfl, rfl, rfl⟩
  case cpu => exact ⟨rfl, rfl, rfl, rfl, rfl, rfl, rfl, ⟨rfl, rfl, rfl, rfl⟩, rfl, rfl⟩
  case control => exact ⟨rfl, rfl, rfl, rfl, rfl⟩

/-! ### Stores cut to a size -/

section
variable {w : Nat}

theorem below_mono {n m : Nat} (h : n ≤ m) (st : Store w) (hb : Store.below n st = true) : Store.below m st = true := by
  simp only [Store.below, List.all_eq_true, decide_eq_true_eq] at hb ⊢
  exact fun c hc => Nat.lt_of_lt_of_le (hb c hc) h

/-- The store of a list from `a` on lists no cell past the list's end. -/
theorem ofList_below (a : Nat) (vs : List (BitVec w)) : Store.below (a + vs.length) (Store.ofList a vs) = true := by
  induction vs generalizing a with
  | nil => rfl
  | cons v t ih =>
    have ht : Store.below (a + (v :: t).length) (Store.ofList (a + 1) t) = true := by
      rw [List.length_cons, Nat.add_comm t.length 1, ← Nat.add_assoc]
      exact ih (a + 1)
    simp only [Store.ofList]
    split
    · exact ht
    · rw [below_cons, ht, Bool.and_true, decide_eq_true_eq, List.length_cons]
      omega

/-- The store of `n` values by their index lists cells below `a + n` alone. -/
theorem ofList_range_below (a n : Nat) (f : Nat → BitVec w) :
    Store.below (a + n) (Store.ofList a ((List.range n).map f)) = true := by
  have h := ofList_below a ((List.range n).map f)
  rwa [List.length_map, List.length_range] at h

theorem clamp_wf (n : Nat) (m : Store w) : Store.wf (Store.clamp n m) = true := ofList_wf _ _

theorem clamp_below {n k : Nat} (h : n ≤ k) (m : Store w) : Store.below k (Store.clamp n m) = true :=
  below_mono ((Nat.zero_add n).le.trans h) _ (ofList_range_below 0 n _)

end

/-! ### The cartridge at load -/

/-- What the invariants ask of the cartridge. -/
abbrev Cart.Sound (c : Cart) : Prop := (Store.wf c.rom = true ∧ Store.wf c.ram = true) ∧ c.Bounds ∧ c.BankInv

theorem ramSizeOf_mbc2 {t : CartType} (h : t.variant = .mbc2) (code : Byte) : ramSizeOf t code = 512 := if_pos h

theorem loadRam_below (n : Nat) (nibbles : Bool) (save : List Byte) (draw : Memory) :
    Store.below n (loadRam n nibbles save draw) = true := by
  have h := ofList_range_below 0 n fun i =>
    let v := save.getD i (Store.read draw i)
    if nibbles then v &&& 0x0F else v
  rwa [Nat.zero_add] at h

theorem loadCart_sound (q : LoadRequest) (t : CartType) (draw : Cart) : (loadCart q t draw).Sound := by
  refine ⟨⟨ofList_wf _ _, ofList_wf _ _⟩, ⟨loadRam_below _ _ _ _, fun h => of_decide_eq_true h, fun h => ?_⟩, fun _ => ?_⟩
  · exact ramSizeOf_mbc2 h _
  · show (1 : Byte) ≠ 0
    decide

/-! ### The PPU at load -/

/-- What the invariants ask of the PPU. -/
abbrev Ppu.Sound (p : Ppu) : Prop := p.MemWf ∧ p.MemBounds ∧ p.LineInv ∧ p.RegInv

theorem vramSize_le (cgb : Bool) : (if cgb then 0x4000 else 0x2000) ≤ 0x4000 := by cases cgb <;> decide

theorem withDraws_memories (cgb : Bool) (p draw : Ppu) :
    (p.withDraws cgb draw).MemWf ∧ (p.withDraws cgb draw).MemBounds := by
  simp only [Ppu.MemWf, Ppu.MemBounds, Ppu.withDraws]
  exact ⟨⟨clamp_wf _ _, clamp_wf _ _, clamp_wf _ _, clamp_wf _ _, clamp_wf _ _⟩,
    clamp_below (vramSize_le cgb) _, clamp_below (Nat.le_refl _) _, clamp_below (Nat.le_refl _) _,
    clamp_below (Nat.le_refl _) _, clamp_below (Nat.le_refl _) _⟩

/-- The memories on either path are the draws: no other field of the PPU is one. -/
theorem bootPpu_memories (cgb : Bool) (draw : Ppu) : (bootPpu cgb draw).MemWf ∧ (bootPpu cgb draw).MemBounds := by
  have h := withDraws_memories cgb Ppu.reset draw
  unfold bootPpu
  generalize Ppu.reset.withDraws cgb draw = p at h ⊢
  exact h

theorem romPpu_memories (cgb : Bool) (draw : Ppu) : (romPpu cgb draw).MemWf ∧ (romPpu cgb draw).MemBounds := by
  have h := withDraws_memories cgb draw draw
  unfold romPpu
  generalize draw.withDraws cgb draw = p at h ⊢
  exact h

theorem modeAt_vblank {line : Nat} (h : 144 ≤ line) (lineCycle mode3Len : Nat) : modeAt line lineCycle mode3Len = .vblank :=
  if_pos h

/-- At the hand-over the PPU stands in the last cycles of line 153. -/
theorem bootPpu_sound (cgb : Bool) (draw : Ppu) : (bootPpu cgb draw).Sound := by
  obtain ⟨hwf, hbounds⟩ := bootPpu_memories cgb draw
  refine ⟨hwf, hbounds, ⟨?line, ?cycle, ?rest⟩, ?regs⟩
  case line =>
    show 153 < 154
    decide
  case cycle =>
    show 448 + draw.lineCycle % 8 < 456
    omega
  case rest =>
    exact ⟨Nat.zero_le _, Nat.le_refl 172, (by decide : 172 ≤ 232),
      fun _ => (modeAt_vblank (by decide : 144 ≤ 153) _ _).symm⟩
  case regs =>
    exact ⟨⟨Nat.zero_le _, fun h => Bool.noConfusion h⟩, (by decide : (0 : Byte) &&& 0x87 = 0), and_reserved draw.bcps 0xBF,
      and_reserved draw.ocps 0xBF⟩

/-- At the boot ROM the LCD is off, at position 0. -/
theorem romPpu_sound (cgb : Bool) (draw : Ppu) : (romPpu cgb draw).Sound := by
  obtain ⟨hwf, hbounds⟩ := romPpu_memories cgb draw
  refine ⟨hwf, hbounds, ⟨?line, ?cycle, ?rest⟩, ?dma, ?regs⟩
  case line => exact (by decide : 0 < 154)
  case cycle => exact (by decide : 0 < 456)
  case rest =>
    exact ⟨List.length_take_le 10 _, Nat.le_refl 172, (by decide : 172 ≤ 232),
      fun h => absurd h (by decide : ¬ (0 : Byte).getLsbD 7 = true)⟩
  case dma =>
    simp only [romPpu]
    split
    · exact ⟨by omega, fun _ => Nat.succ_ne_zero _⟩
    · exact ⟨by omega, fun h => absurd h ‹_›⟩
  case regs => exact ⟨and_reserved draw.stat 0x78, and_reserved draw.bcps 0xBF, and_reserved draw.ocps 0xBF⟩

/-! ### The APU at load -/

/-- What the invariants ask of the APU. -/
abbrev Apu.Sound (a : Apu) : Prop := a.MemWf ∧ a.MemBounds ∧ a.Ranges

theorem clamp_ranges (a : Apu) : a.clamp.Ranges := by
  have hlen (k : Nat) (c : Chan) : (c.clamp k).len ≤ k := Nat.lt_succ_iff.1 (Nat.mod_lt _ (Nat.succ_pos k))
  have hmod (n k : Nat) : n % (k + 1) ≤ k := Nat.lt_succ_iff.1 (Nat.mod_lt n (Nat.succ_pos k))
  refine ⟨⟨?_, ?_, ?_, ?_, ?_⟩, ⟨hlen 64 _, hlen 64 _, hlen 256 _, hlen 64 _⟩,
    ⟨hmod _ 15, hmod _ 15, hmod _ 15, hmod _ 7, hmod _ 7, hmod _ 7⟩, hmod _ 2047, hmod _ 8⟩
  all_goals exact Nat.mod_lt _ (by decide)

theorem clamp_memWf (a : Apu) : a.clamp.MemWf := ⟨ofList_wf _ _, clamp_wf _ _⟩

theorem registers_below (f : Nat → Byte) : Store.below 0x26 (Store.ofList 0x10 ((List.range 22).map f)) = true :=
  ofList_range_below 0x10 22 f

theorem clamp_memBounds (a : Apu) : a.clamp.MemBounds := by
  simp only [Apu.MemBounds, Apu.clamp]
  exact ⟨registers_below _, clamp_below (Nat.le_refl 16) _⟩

theorem bootApu_sound (draw : Apu) : (bootApu draw).Sound := by
  have hnr : Store.below 0x26 (bootApu draw).nr = true := by
    simp only [bootApu]
    exact registers_below _
  exact ⟨⟨ofList_wf _ _, (clamp_memWf draw).2⟩, ⟨hnr, (clamp_memBounds draw).2⟩, clamp_ranges draw⟩

theorem romApu_sound (draw : Apu) : (romApu draw).Sound := ⟨clamp_memWf draw, clamp_memBounds draw, clamp_ranges draw⟩

/-! ### The machine at load -/

/-- What the invariants ask of the other devices at load. -/
abbrev State.LoadSound (s : State) : Prop :=
  (Store.wf s.bootRom = true ∧ Store.wf s.wram = true ∧ Store.wf s.hram = true) ∧
  (Store.below 0x8000 s.wram = true ∧ Store.below 127 s.hram = true) ∧
  s.cpu.eiDelay = 0 ∧ s.timer.sub = 0 ∧ s.serial = Serial.reset ∧ s.charge = 0

/-- A machine meets every invariant if its cartridge, PPU, APU and other devices do. -/
theorem invariants_of_sound {s : State} (hs : s.LoadSound) (hc : s.cart.Sound) (hp : s.ppu.Sound) (ha : s.apu.Sound) :
    s.MemWf ∧ s.MemBounds ∧ s.cart.Shaped ∧ s.ppu.LineInv ∧ s.Ranges ∧ s.apu.Ranges ∧ s.cart.BankInv := by
  obtain ⟨⟨hbootWf, hwramWf, hhramWf⟩, ⟨hwram, hhram⟩, hei, hsub, hserial, hcharge⟩ := hs
  obtain ⟨⟨hromWf, hramWf⟩, ⟨hram, hshape⟩, hbank⟩ := hc
  obtain ⟨hpWf, hpBounds, hline, hregs⟩ := hp
  obtain ⟨haWf, haBounds, hranges⟩ := ha
  refine ⟨⟨⟨hromWf, hramWf, hbootWf, hwramWf, hhramWf⟩, hpWf, haWf⟩, ⟨⟨hwram, hhram, hram⟩, hpBounds, haBounds⟩, hshape, hline,
    (ranges_iff s).2 ⟨by omega, hcharge, by omega, ?_, hregs⟩, hranges, hbank⟩
  rw [State.SerialInv, hserial]
  exact ⟨Nat.zero_le 8, BitVec.zero_and⟩

theorem wramSize_le (cgb : Bool) : (if cgb then 0x8000 else 0x2000) ≤ 0x8000 := by cases cgb <;> decide

theorem bootState_loadSound (q : LoadRequest) (cart : Cart) (d : State) : (bootState q cart d).LoadSound := by
  have hwram := clamp_below (wramSize_le q.cgb) d.wram
  have hhram := clamp_below (Nat.le_refl 127) d.hram
  unfold bootState
  cases q.bootRom with
  | none =>
    refine ⟨⟨rfl, clamp_wf _ _, clamp_wf _ _⟩, ⟨hwram, hhram⟩, ?_, rfl, rfl, rfl⟩
    cases hc : q.cgb <;> simp [bootCpu, Cpu.reset]
  | some bytes => exact ⟨⟨ofList_wf _ _, clamp_wf _ _, clamp_wf _ _⟩, ⟨hwram, hhram⟩, rfl, rfl, rfl, rfl⟩

theorem bootState_cart (q : LoadRequest) (cart : Cart) (d : State) : (bootState q cart d).cart = cart := by
  unfold bootState
  cases q.bootRom <;> rfl

theorem bootState_ppu_sound (q : LoadRequest) (cart : Cart) (d : State) : (bootState q cart d).ppu.Sound := by
  unfold bootState
  cases q.bootRom with
  | none => exact bootPpu_sound _ _
  | some bytes => exact romPpu_sound _ _

theorem bootState_apu_sound (q : LoadRequest) (cart : Cart) (d : State) : (bootState q cart d).apu.Sound := by
  unfold bootState
  cases q.bootRom with
  | none => exact bootApu_sound _
  | some bytes => exact romApu_sound _

/-- A load that answers a machine answers the one of its cartridge's type. -/
theorem eq_of_load {q : LoadRequest} {d s : State} (h : load q d = .ok s) :
    ∃ t, s = bootState q (loadCart q t d.cart) d := by
  unfold load at h
  split at h
  · cases h
  · split at h
    · cases h
    · cases h
      exact ⟨_, rfl⟩

/-- Settles O19: every part of the loaded machine is sound on either path. -/
theorem loadMeetsInvariants : Obligations.LoadMeetsInvariants := by
  intro q d s h
  obtain ⟨t, rfl⟩ := eq_of_load h
  refine invariants_of_sound (bootState_loadSound _ _ _) ?_ (bootState_ppu_sound _ _ _) (bootState_apu_sound _ _ _)
  rw [bootState_cart]
  exact loadCart_sound q t d.cart

/-! ### What a load answers -/

/-- The two refused types (61 rule R1070). -/
theorem cartTypeOf_eq_none_iff : ∀ code : Byte, cartTypeOf code = none ↔ code = 0x22 ∨ code = 0xFE := by decide

/-- Some length is wrong: the image is short, or a boot ROM does not have its mode's length (70 rule R901). -/
def LoadRequest.WrongLength (q : LoadRequest) : Prop :=
  q.image.length < 0x4000 ∨ ∃ b, q.bootRom = some b ∧ b.length ≠ if q.cgb then 2048 else 256

theorem wrongLength_iff (q : LoadRequest) :
    (decide (q.image.length < 0x4000) || !q.bootRomOk) = true ↔ q.WrongLength := by
  unfold LoadRequest.WrongLength LoadRequest.bootRomOk
  rw [Bool.or_eq_true, decide_eq_true_eq]
  cases q.bootRom with
  | none => simp
  | some bytes => simp

theorem load_of_wrongLength {q : LoadRequest} (h : q.WrongLength) (d : State) : load q d = .error .loadError :=
  if_pos ((wrongLength_iff q).2 h)

theorem load_of_rightLength {q : LoadRequest} (h : ¬ q.WrongLength) (d : State) :
    load q d = match cartTypeOf (q.byteAt 0x147) with
      | none => .error (.unmodelledCartridge (q.byteAt 0x147))
      | some t => .ok (bootState q (loadCart q t d.cart) d) :=
  if_neg (mt (wrongLength_iff q).1 h)

/-- On either path IME, IE and the low-power states are clear, no cycle has passed, and the mode is the load's. -/
theorem bootState_control (q : LoadRequest) (cart : Cart) (d : State) :
    let s := bootState q cart d
    s.params.cgb = q.cgb ∧ s.fault = none ∧ s.cycles = 0 ∧ s.ie = 0 ∧ s.cpu.ime = false ∧ s.cpu.halted = false ∧
      s.cpu.stopped = false ∧ s.cpu.skipInc = false ∧ s.cpu.eiDelay = 0 := by
  unfold bootState
  cases q.bootRom with
  | none => cases hc : q.cgb <;> exact ⟨hc, rfl, rfl, rfl, rfl, rfl, rfl, rfl, rfl⟩
  | some bytes => exact ⟨rfl, rfl, rfl, rfl, rfl, rfl, rfl, rfl, rfl⟩

theorem bootState_afterRom {q : LoadRequest} (h : q.bootRom = none) (cart : Cart) (d : State) :
    (bootState q cart d).cpu = bootCpu q.cgb ∧ (bootState q cart d).bootMapped = false := by
  unfold bootState
  rw [h]
  exact ⟨rfl, rfl⟩

theorem bootState_atRom {q : LoadRequest} (h : q.bootRom ≠ none) (cart : Cart) (d : State) :
    let s := bootState q cart d
    s.bootMapped = true ∧ s.cpu.pc = 0 ∧ s.ppu.lcdc = 0 ∧ s.ppu.line = 0 ∧ s.ppu.lineCycle = 0 ∧ s.apu.power = false := by
  unfold bootState
  cases hb : q.bootRom with
  | none => exact absurd hb h
  | some bytes => exact ⟨rfl, rfl, rfl, rfl, rfl, rfl⟩

/-- The CPU at the hand-over in CGB mode (70 rule R903). -/
theorem bootCpu_cgb : (bootCpu true).a = 0x11 ∧ (bootCpu true).pair .bc = 0x0000 ∧ (bootCpu true).pair .de = 0xFF56 ∧
    (bootCpu true).pair .hl = 0x000D ∧ (bootCpu true).f = { z := true, n := false, h := false, c := false } := by decide

/-- The CPU at the hand-over in DMG mode (70 rule R902). -/
theorem bootCpu_dmg : (bootCpu false).a = 0x01 ∧ (bootCpu false).pair .bc = 0x0013 ∧ (bootCpu false).pair .de = 0x00D8 ∧
    (bootCpu false).pair .hl = 0x014D ∧ (bootCpu false).f = { z := true, n := false, h := true, c := true } := by decide

theorem bootCpu_pc_sp (cgb : Bool) : (bootCpu cgb).pc = 0x0100 ∧ (bootCpu cgb).sp = 0xFFFE := by cases cgb <;> decide

/-- Settles O58: by the lengths, then by the type; a machine by the path the host chose. -/
theorem loadOutcome : Obligations.LoadOutcome := by
  intro q d
  refine ⟨fun h => load_of_wrongLength h d, fun h ht => ?refused, fun h h22 hFE => ?loaded⟩
  case refused =>
    rw [load_of_rightLength h, (cartTypeOf_eq_none_iff (q.byteAt 0x147)).2 ht]
    rfl
  case loaded =>
    obtain ⟨t, ht⟩ := Option.ne_none_iff_exists'.1 (mt (cartTypeOf_eq_none_iff (q.byteAt 0x147)).1 (not_or.2 ⟨h22, hFE⟩))
    have hload : load q d = .ok (bootState q (loadCart q t d.cart) d) := by rw [load_of_rightLength h, ht]
    obtain ⟨hcgb, hfault, hcycles, hie, hime, hhalted, hstopped, hskip, hei⟩ := bootState_control q (loadCart q t d.cart) d
    refine ⟨_, hload, hcgb, hfault, hcycles, hie, hime, hhalted, hstopped, hskip, hei, fun hb => ?_, fun hb =>
      bootState_atRom hb _ d⟩
    obtain ⟨hcpu, hmapped⟩ := bootState_afterRom hb (loadCart q t d.cart) d
    obtain ⟨hpc, hsp⟩ := bootCpu_pc_sp q.cgb
    rw [hcpu]
    refine ⟨hmapped, hpc, hsp, fun hc => ?_, fun hc => ?_⟩
    · rw [show q.cgb = true from hc]
      exact bootCpu_cgb
    · rw [show q.cgb = false from hc]
      exact bootCpu_dmg

end Sys2Proof.Machine
end

section
/-! PROOFS. The sprites: the selection of a line (O54), and the sprite that shows at a pixel (O55). -/

namespace Sys2Proof.Machine

/-! ### The selection -/

/-- The first `k` indexes below `n` that pass a test are those that pass it with fewer than `k` before them. -/
theorem mem_take_filter_range (test : Nat → Bool) (k n i : Nat) :
    i ∈ ((List.range n).filter test).take k ↔ i < n ∧ test i = true ∧ ((List.range i).filter test).length < k := by
  induction n with
  | zero => simp
  | succ n ih =>
    have hlast : i ∈ ([n].filter test).take (k - ((List.range n).filter test).length) ↔
        i = n ∧ test i = true ∧ ((List.range i).filter test).length < k := by
      cases hn : test n with
      | false => simp +contextual [hn]
      | true =>
        rw [List.filter_cons_of_pos hn, List.filter_nil]
        by_cases hk : ((List.range n).filter test).length < k
        · rw [List.take_of_length_le (by rw [List.length_singleton]; omega), List.mem_singleton]
          exact ⟨by rintro rfl; exact ⟨rfl, hn, hk⟩, And.left⟩
        · rw [Nat.sub_eq_zero_of_le (Nat.le_of_not_lt hk), List.take_zero]
          exact ⟨fun h => absurd h List.not_mem_nil, by rintro ⟨rfl, -, h⟩; exact absurd h hk⟩
    rw [List.range_succ, List.filter_append, List.take_append, List.mem_append, ih, hlast, ← or_and_right,
      Nat.lt_succ_iff_lt_or_eq]

/-- The selection by the indexes of its entries. -/
theorem selectSprites_eq (p : Ppu) : p.selectSprites =
    (((List.range 40).filter fun n => (p.oamEntry n).onLine p.line p.lcdcHeight).take 10).map p.oamEntry := by
  rw [Ppu.selectSprites, List.filter_map, List.map_take]
  rfl

/-- The Y test on the integers: `0 ≤ line + 16 - Y < h` (63 rule R1230). -/
theorem onLine_eq (sp : Sprite) (line h : Nat) :
    sp.onLine line h = decide (0 ≤ (line : Int) + 16 - sp.y.toNat ∧ (line : Int) + 16 - sp.y.toNat < h) := by
  rw [Sprite.onLine, ← Bool.decide_and, decide_eq_decide]
  omega

theorem lcdcHeight_eq (p : Ppu) : (p.lcdcHeight : Int) = if p.lcdc.getLsbD 2 then 16 else 8 := by
  unfold Ppu.lcdcHeight
  split <;> rfl

/-- Settles O54: the selection takes the indexes that pass the test, in their order, as long as there are fewer than ten. -/
theorem spriteSelection : Obligations.SpriteSelection := by
  intro p h covers
  have hcovers : (fun n => (p.oamEntry n).onLine p.line p.lcdcHeight) = covers := by
    funext n
    rw [onLine_eq, lcdcHeight_eq]
    rfl
  refine ⟨fun sp => ?member, ?order, selectSprites_length p⟩
  case member =>
    rw [selectSprites_eq, hcovers, List.mem_map]
    refine exists_congr fun n => ?_
    rw [mem_take_filter_range, and_assoc, and_assoc]
    exact and_congr_right fun _ => and_congr_right fun _ => and_congr_right fun _ => eq_comm
  case order =>
    rw [selectSprites_eq, List.pairwise_map]
    exact ((List.pairwise_lt_range.filter _).sublist (List.take_sublist 10 _))

/-! ### The sprite that shows -/

section
variable (cgb : Bool) (p : Ppu) (x y : Nat)

/-- One more sprite in OAM order: transparent, it leaves the best; else it competes with it (63 rule R1231). -/
def Ppu.overlay (best : Option SpriteSample) (sp : Sprite) : Option SpriteSample :=
  if sp.pixel cgb p x y = 0 then best
  else
    match best with
    | none => some { index := sp.pixel cgb p x y, sprite := sp }
    | some b => some (SpriteSample.first cgb b { index := sp.pixel cgb p x y, sprite := sp })

theorem spriteSample_eq : p.spriteSample cgb x y =
    if p.lcdc.getLsbD 1 then p.sprites.foldl (p.overlay cgb x y) none else none := rfl

/-- The priority of the mode: `a` shows before `b` (63 rule R1231). -/
def Sprite.Before (a b : Sprite) : Prop :=
  if cgb then a.index ≤ b.index else a.x.toNat < b.x.toNat ∨ (a.x = b.x ∧ a.index ≤ b.index)

/-- The sample is that of a sprite of the list that shows a color and comes before every other that does. -/
def SpriteSample.Wins (ss : SpriteSample) (sprites : List Sprite) : Prop :=
  ss.sprite ∈ sprites ∧ ss.index = ss.sprite.pixel cgb p x y ∧ ss.index ≠ 0 ∧
  ∀ sp ∈ sprites, sp.pixel cgb p x y ≠ 0 → ss.sprite.Before cgb sp

/-- The best sample of a list: none if every sprite of it is transparent, else one that wins. -/
def BestOf (best : Option SpriteSample) (sprites : List Sprite) : Prop :=
  match best with
  | none => ∀ sp ∈ sprites, sp.pixel cgb p x y = 0
  | some ss => ss.Wins cgb p x y sprites

variable {cgb p x y}

theorem Sprite.Before.refl (sp : Sprite) : sp.Before cgb sp := by
  cases cgb
  · exact Or.inr ⟨rfl, Nat.le_refl _⟩
  · exact Nat.le_refl sp.index

/-- The winner of two sprites in OAM order is one of them and comes before both. -/
theorem first_spec {a b : SpriteSample} (h : a.sprite.index < b.sprite.index) :
    (SpriteSample.first cgb a b = a ∧ a.sprite.Before cgb b.sprite) ∨
    (SpriteSample.first cgb a b = b ∧ cgb = false ∧ b.sprite.x.toNat < a.sprite.x.toNat) := by
  cases cgb with
  | true => exact Or.inl ⟨rfl, Nat.le_of_lt h⟩
  | false =>
    by_cases hx : b.sprite.x.toNat < a.sprite.x.toNat
    · exact Or.inr ⟨if_pos hx, rfl, hx⟩
    · refine Or.inl ⟨if_neg hx, ?_⟩
      rcases Nat.lt_or_eq_of_le (Nat.le_of_not_lt hx) with hlt | heq
      · exact Or.inl hlt
      · exact Or.inr ⟨BitVec.eq_of_toNat_eq heq, Nat.le_of_lt h⟩

theorem Sprite.Before.of_lt {a b c : Sprite} (h : b.x.toNat < a.x.toNat) (hac : a.Before false c) : b.Before false c := by
  rcases hac with hlt | ⟨heq, -⟩
  · exact Or.inl (Nat.lt_trans h hlt)
  · exact Or.inl (heq ▸ h)

/-- One more sprite, after the others in OAM order. -/
theorem BestOf.overlay {best : Option SpriteSample} {sprites : List Sprite} {sp : Sprite}
    (h : BestOf cgb p x y best sprites) (ho : ∀ a ∈ sprites, a.index < sp.index) :
    BestOf cgb p x y (p.overlay cgb x y best sp) (sprites ++ [sp]) := by
  unfold Ppu.overlay
  by_cases hi : sp.pixel cgb p x y = 0
  · rw [if_pos hi]
    cases best with
    | none => simpa [BestOf, or_imp, forall_and, hi] using h
    | some b =>
      obtain ⟨hmem, hindex, hne, hbefore⟩ := h
      refine ⟨List.mem_append_left _ hmem, hindex, hne, fun a ha hcolor => ?_⟩
      rcases List.mem_append.1 ha with ha | ha
      · exact hbefore a ha hcolor
      · exact absurd (List.mem_singleton.1 ha ▸ hi) hcolor
  · rw [if_neg hi]
    have hlast : sp ∈ sprites ++ [sp] := by simp
    cases best with
    | none =>
      refine ⟨hlast, rfl, hi, fun a ha hcolor => ?_⟩
      rcases List.mem_append.1 ha with ha | ha
      · exact absurd (h a ha) hcolor
      · rw [List.mem_singleton.1 ha]
        exact .refl sp
    | some b =>
      obtain ⟨hmem, hindex, hne, hbefore⟩ := h
      rcases first_spec (cgb := cgb) (a := b) (b := { index := sp.pixel cgb p x y, sprite := sp }) (ho _ hmem) with
        ⟨e, hb⟩ | ⟨e, rfl, hx⟩
      · show (SpriteSample.first cgb b _).Wins cgb p x y _
        rw [e]
        refine ⟨List.mem_append_left _ hmem, hindex, hne, fun a ha hcolor => ?_⟩
        rcases List.mem_append.1 ha with ha | ha
        · exact hbefore a ha hcolor
        · rw [List.mem_singleton.1 ha]
          exact hb
      · show (SpriteSample.first false b _).Wins false p x y _
        rw [e]
        refine ⟨hlast, rfl, hi, fun a ha hcolor => ?_⟩
        rcases List.mem_append.1 ha with ha | ha
        · exact .of_lt hx (hbefore a ha hcolor)
        · rw [List.mem_singleton.1 ha]
          exact .refl sp

/-- The samples of a selection in OAM order, taken one after the other, leave the best. -/
theorem bestOf_foldl (sprites : List Sprite) (h : sprites.Pairwise (fun a b => a.index < b.index)) :
    BestOf cgb p x y (sprites.foldl (p.overlay cgb x y) none) sprites := by
  induction sprites using List.reverseRecOn with
  | nil => exact fun a ha => absurd ha List.not_mem_nil
  | append_singleton l sp ih =>
    obtain ⟨hl, -, ho⟩ := List.pairwise_append.1 h
    rw [List.foldl_append]
    exact (ih hl).overlay fun a ha => ho a ha sp (List.mem_singleton_self sp)

/-- A sprite shows a color only at the columns it covers. -/
theorem covers_of_pixel_ne_zero {sp : Sprite} (h : sp.pixel cgb p x y ≠ 0) : x < sp.x.toNat ∧ sp.x.toNat ≤ x + 8 := by
  by_contra hc
  exact h (if_neg hc)

end

/-- Settles O55: with sprites on the sample is the best of the selection. -/
theorem spritePriority : Obligations.SpritePriority := by
  intro cgb p x y hord
  have hbest := bestOf_foldl (cgb := cgb) (p := p) (x := x) (y := y) p.sprites hord
  rw [spriteSample_eq]
  cases hon : p.lcdc.getLsbD 1 with
  | false => simp
  | true =>
    rw [if_pos rfl]
    cases hs : p.sprites.foldl (p.overlay cgb x y) none with
    | none =>
      rw [hs] at hbest
      exact ⟨⟨fun _ => Or.inr hbest, fun _ => rfl⟩, fun ss h => nomatch h⟩
    | some b =>
      rw [hs] at hbest
      obtain ⟨hmem, hindex, hne, hbefore⟩ := hbest
      refine ⟨⟨(nomatch ·), ?_⟩, ?_⟩
      · rintro (h | h)
        · exact nomatch h
        · exact absurd (hindex.trans (h _ hmem)) hne
      · rintro ss ⟨⟩
        obtain ⟨hx1, hx2⟩ := covers_of_pixel_ne_zero (hindex ▸ hne)
        exact ⟨hmem, hindex, hne, by omega, by omega, hbefore⟩

end Sys2Proof.Machine
end

section
/-! PROOFS. The APU over any number of cycles: the frame sequencer (O52), and the length counters (O53). -/

namespace Sys2Proof.Machine

/-! ### What a cycle does besides moving the sequencer -/

/-- `b` stands where `a` stands in the frame sequencer, and no channel is on in `b` that is off in `a`. -/
structure Apu.Follows (a b : Apu) : Prop where
  step : b.fsStep = a.fsStep
  count : b.fsCount = a.fsCount
  on : ∀ n, (b.chan n).on = true → (a.chan n).on = true

namespace Apu.Follows

variable {a b c : Apu}

theorem refl (a : Apu) : a.Follows a := ⟨rfl, rfl, fun _ => id⟩

theorem trans (h1 : a.Follows b) (h2 : b.Follows c) : a.Follows c :=
  ⟨h2.step.trans h1.step, h2.count.trans h1.count, fun n h => h1.on n (h2.on n h)⟩

theorem ite {p : Prop} [Decidable p] (hb : a.Follows b) (hc : a.Follows c) : a.Follows (if p then b else c) := by
  split <;> assumption

/-- An update of anything but the channels and the sequencer's place. -/
theorem of_eq (h1 : b.fsStep = a.fsStep) (h2 : b.fsCount = a.fsCount) (h3 : ∀ n, b.chan n = a.chan n) : a.Follows b :=
  ⟨h1, h2, fun n h => h3 n ▸ h⟩

end Apu.Follows

@[simp] theorem chan_setChan_same (a : Apu) (n : ChanId) (c : Chan) : (a.setChan n c).chan n = c := by cases n <;> rfl

theorem chan_setChan_other (a : Apu) {n m : ChanId} (h : m ≠ n) (c : Chan) : (a.setChan n c).chan m = a.chan m := by
  cases n <;> cases m <;> simp [Apu.setChan, Apu.chan] at h ⊢

/-- Replacing a channel by one that is on only if it was on. -/
theorem setChan_follows (a : Apu) (n : ChanId) {c : Chan} (h : c.on = true → (a.chan n).on = true) :
    a.Follows (a.setChan n c) := by
  refine ⟨by cases n <;> rfl, by cases n <;> rfl, fun m hm => ?_⟩
  by_cases e : m = n
  · subst e
    rw [chan_setChan_same] at hm
    exact h hm
  · rwa [chan_setChan_other a e c] at hm

theorem advance_follows (a : Apu) (n : ChanId) : a.Follows (a.advance n) := by
  cases n with
  | four => exact .ite (.of_eq rfl rfl fun n => by cases n <;> rfl) (.refl a)
  | one | two | three => exact .of_eq rfl rfl fun n => by cases n <;> rfl

theorem tickChan_follows (a : Apu) (n : ChanId) : a.Follows (a.tickChan n) :=
  .ite ((setChan_follows a n (c := { a.chan n with timer := a.period n }) id).trans (advance_follows _ n))
    (setChan_follows a n id)

theorem clockLength_follows (a : Apu) (n : ChanId) : a.Follows (a.clockLength n) :=
  .ite (setChan_follows a n fun h => (Bool.and_eq_true_iff.1 h).1) (.refl a)

theorem clockLengths_follows (a : Apu) : a.Follows a.clockLengths :=
  (((clockLength_follows _ _).trans (clockLength_follows _ _)).trans (clockLength_follows _ _)).trans (clockLength_follows _ _)

theorem sweepCheck_follows (a : Apu) : a.Follows a.sweepCheck :=
  .ite (setChan_follows a .one fun h => nomatch h) (.refl a)

theorem sweepStore_follows (a : Apu) (f : Nat) : a.Follows (a.sweepStore f) :=
  .of_eq rfl rfl fun n => by cases n <;> rfl

theorem clockSweep_follows (a : Apu) : a.Follows a.clockSweep := by
  have hreload : a.Follows { a with sweepTimer := a.sweepReload } := .of_eq rfl rfl fun n => by cases n <;> rfl
  have hcheck := hreload.trans (sweepCheck_follows _)
  exact .ite (.ite (.ite ((hcheck.trans (sweepStore_follows _ _)).trans (sweepCheck_follows _)) hcheck) hreload)
    (.of_eq rfl rfl fun n => by cases n <;> rfl)

theorem clockEnvelopes_follows (a : Apu) : a.Follows a.clockEnvelopes := .of_eq rfl rfl fun n => by cases n <;> rfl

/-- A step of the sequencer clocks lengths, sweep and envelopes, none of which turns a channel on (64 rule R1311). -/
theorem sequencerStep_follows (a : Apu) (n : Nat) : a.Follows (a.sequencerStep n) := by
  have h1 : a.Follows (if n % 2 = 0 then a.clockLengths else a) := .ite (clockLengths_follows a) (.refl a)
  have h2 (b : Apu) : b.Follows (if n = 2 ∨ n = 6 then b.clockSweep else b) := .ite (clockSweep_follows b) (.refl b)
  have h3 (b : Apu) : b.Follows (if n = 7 then b.clockEnvelopes else b) := .ite (clockEnvelopes_follows b) (.refl b)
  exact (h1.trans (h2 _)).trans (h3 _)

/-- The channels' part of a cycle. -/
theorem tickChans_follows (a : Apu) : a.Follows ((((a.tickChan .one).tickChan .two).tickChan .three).tickChan .four) :=
  (((tickChan_follows _ _).trans (tickChan_follows _ _)).trans (tickChan_follows _ _)).trans (tickChan_follows _ _)

/-! ### The frame sequencer -/

theorem tickSequencer_within {a : Apu} (h : a.fsCount + 1 < 8192) : a.tickSequencer = { a with fsCount := a.fsCount + 1 } :=
  if_pos h

theorem tickSequencer_at_end {a : Apu} (h : ¬ a.fsCount + 1 < 8192) :
    a.tickSequencer = { ({ a with fsCount := 0 } : Apu).sequencerStep a.fsStep with fsStep := (a.fsStep + 1) % 8 } :=
  if_neg h

theorem cycle_of_power {a : Apu} (h : a.power = true) :
    a.cycle = (((a.tickSequencer.tickChan .one).tickChan .two).tickChan .three).tickChan .four := if_pos h

theorem cycle_without_power {a : Apu} (h : a.power = false) : a.cycle = a := if_neg (ne_true_of_eq_false h)

/-- One cycle counts; the last one of a step goes on to the next step (64 rule R1311). -/
theorem cycle_position {a : Apu} (h : a.power = true) :
    a.cycle.fsStep = (if a.fsCount + 1 < 8192 then a.fsStep else (a.fsStep + 1) % 8) ∧
      a.cycle.fsCount = if a.fsCount + 1 < 8192 then a.fsCount + 1 else 0 := by
  have hchans := tickChans_follows a.tickSequencer
  rw [cycle_of_power h, hchans.step, hchans.count]
  by_cases hc : a.fsCount + 1 < 8192
  · rw [tickSequencer_within hc, if_pos hc, if_pos hc]
    exact ⟨rfl, rfl⟩
  · rw [tickSequencer_at_end hc, if_neg hc, if_neg hc]
    exact ⟨rfl, (sequencerStep_follows _ _).count⟩

theorem run_without_power (n : Nat) {a : Apu} (h : a.power = false) : Apu.run n a = a := by
  induction n with
  | zero => rfl
  | succ k ih => rwa [Apu.run, cycle_without_power h]

theorem cycle_power {a : Apu} (h : a.power = true) : a.cycle.power = true := (congrArg Prod.fst (cycle_kept a)).trans h

theorem run_position (n : Nat) {a : Apu} (hp : a.power = true) (hc : a.fsCount < 8192) (hs : a.fsStep < 8) :
    (Apu.run n a).fsStep * 8192 + (Apu.run n a).fsCount = (a.fsStep * 8192 + a.fsCount + n) % 65536 ∧
      (Apu.run n a).fsCount < 8192 := by
  induction n generalizing a with
  | zero => exact ⟨by rw [Apu.run]; omega, hc⟩
  | succ k ih =>
    obtain ⟨hstep, hcount⟩ := cycle_position hp
    by_cases hlast : a.fsCount + 1 < 8192
    · rw [if_pos hlast] at hstep hcount
      obtain ⟨hpos, hlt⟩ := ih (cycle_power hp) (by omega) (by omega)
      refine ⟨hpos.trans ?_, hlt⟩
      rw [hstep, hcount]
      omega
    · rw [if_neg hlast] at hstep hcount
      obtain ⟨hpos, hlt⟩ := ih (cycle_power hp) (by omega) (by omega)
      refine ⟨hpos.trans ?_, hlt⟩
      rw [hstep, hcount]
      omega

/-- Settles O52: by whether the power is on. -/
theorem apuSequencer : Obligations.ApuSequencer := fun n _ =>
  ⟨run_without_power n, run_position n⟩

/-! ### The length counters -/

section
variable {n : ChanId} {a : Apu}

theorem clockLength_reg (n : ChanId) (a : Apu) (r : Nat) : (a.clockLength n).reg r = a.reg r :=
  congrArg (fun v : Memory × Memory => Store.read v.1 r) (clockLength_view a n)

theorem clockLength_of_disabled (h : (a.reg n.nrx4).getLsbD 6 = false) : a.clockLength n = a := by
  simp only [Apu.clockLength, h, Bool.false_and, Bool.false_eq_true, if_false]

/-- An enabled length clock counts down, and turns the channel off at 1 (64 rule R1330). -/
theorem chan_clockLength (h : (a.reg n.nrx4).getLsbD 6 = true) (hlen : 0 < (a.chan n).len) :
    (a.clockLength n).chan n =
      { a.chan n with len := (a.chan n).len - 1, on := (a.chan n).on && decide ((a.chan n).len ≠ 1) } := by
  simp only [Apu.clockLength, h, hlen, decide_true, Bool.and_self, if_true, chan_setChan_same]

theorem clockLength_of_zero (h : (a.chan n).len = 0) : a.clockLength n = a := by
  simp only [Apu.clockLength, h, Nat.lt_irrefl, decide_false, Bool.and_false, Bool.false_eq_true, if_false]

theorem iterate_clockLength_reg (n : ChanId) (a : Apu) (k r : Nat) : ((Apu.clockLength n)^[k] a).reg r = a.reg r := by
  induction k with
  | zero => rfl
  | succ k ih => rw [Function.iterate_succ_apply', clockLength_reg, ih]

/-- `k` enabled length clocks: the channel goes off with the clock that takes the length to 0. -/
theorem iterate_clockLength (k : Nat) (h : (a.reg n.nrx4).getLsbD 6 = true) (hlen : 0 < (a.chan n).len) :
    (((Apu.clockLength n)^[k] a).chan n).len = (a.chan n).len - k ∧
      ((((Apu.clockLength n)^[k] a).chan n).on = true ↔ (a.chan n).on = true ∧ k < (a.chan n).len) := by
  induction k with
  | zero => exact ⟨rfl, ⟨fun hon => ⟨hon, hlen⟩, And.left⟩⟩
  | succ k ih =>
    obtain ⟨hl, hon⟩ := ih
    rw [Function.iterate_succ_apply']
    have hreg := (congrArg (·.getLsbD 6) (iterate_clockLength_reg n a k n.nrx4)).trans h
    by_cases hz : k < (a.chan n).len
    · rw [chan_clockLength hreg (by omega), Bool.and_eq_true, hon, hl, decide_eq_true_eq, and_assoc]
      exact ⟨Nat.sub_sub _ k 1, and_congr_right fun _ => by omega⟩
    · rw [clockLength_of_zero (by omega), hl, hon]
      exact ⟨by omega, and_congr_right fun _ => by omega⟩

theorem iterate_clockLength_of_disabled (k : Nat) (h : (a.reg n.nrx4).getLsbD 6 = false) :
    (Apu.clockLength n)^[k] a = a := by
  induction k with
  | zero => rfl
  | succ k ih => rw [Function.iterate_succ_apply, clockLength_of_disabled h, ih]

/-- No cycle turns a channel on. -/
theorem cycle_off (h : (a.chan n).on = false) : (a.cycle.chan n).on = false := by
  rw [← Bool.not_eq_true] at h ⊢
  refine fun hon => h ?_
  cases hp : a.power with
  | false => rwa [cycle_without_power hp] at hon
  | true =>
    rw [cycle_of_power hp] at hon
    have hseq := (tickChans_follows a.tickSequencer).on n hon
    by_cases hc : a.fsCount + 1 < 8192
    · rw [tickSequencer_within hc] at hseq
      cases n <;> exact hseq
    · rw [tickSequencer_at_end hc] at hseq
      have hstep := (sequencerStep_follows { a with fsCount := 0 } a.fsStep).on n (by cases n <;> exact hseq)
      cases n <;> exact hstep

theorem run_off (k : Nat) (h : (a.chan n).on = false) : ((Apu.run k a).chan n).on = false := by
  induction k generalizing a with
  | zero => exact h
  | succ k ih => exact ih (cycle_off h)

end

/-- Settles O53: the clocks by whether the length is enabled, the cycles by what each leaves on. -/
theorem lengthDisablesOnce : Obligations.LengthDisablesOnce := fun _ _ k =>
  ⟨iterate_clockLength k, iterate_clockLength_of_disabled k, run_off k⟩

end Sys2Proof.Machine
end

section
/-! PROOFS. The clock of MBC3 over any number of seconds (O56). -/

namespace Sys2Proof.Machine

/-- The day counter. -/
def Rtc.days (r : Rtc) : Nat := r.dh.toNat % 2 * 256 + r.dl.toNat

/-- The time on the circle of 512 days, in seconds. -/
def Rtc.time (r : Rtc) : Nat := ((r.days * 24 + r.h.toNat) * 60 + r.m.toNat) * 60 + r.s.toNat

/-- Seconds, minutes and hours are those of a time of day. -/
structure Rtc.InRange (r : Rtc) : Prop where
  s : r.s.toNat < 60
  m : r.m.toNat < 60
  h : r.h.toNat < 24

theorem days_lt (r : Rtc) : r.days < 512 := by
  have hl := r.dl.isLt
  unfold Rtc.days
  omega

theorem time_lt {r : Rtc} (h : r.InRange) : r.time < 44236800 := by
  obtain ⟨hs, hm, hh⟩ := h
  have hd := days_lt r
  unfold Rtc.time
  omega

/-! ### One second -/

/-- What the end of the circle leaves in DH: the day's high bit 0, the overflow flag set. -/
theorem closedDh : ∀ dh : Byte, ((dh ||| 0x80) &&& 0xFE).toNat % 2 = 0 ∧ ((dh ||| 0x80) &&& 0xFE).getLsbD 7 = true ∧
    ((dh ||| 0x80) &&& 0xFE).getLsbD 6 = dh.getLsbD 6 := by decide

/-- What another day leaves in DH: the day's high bit, the other bits kept. -/
theorem nextDh : ∀ (dh : Byte), ∀ b < 2, ((dh &&& 0xFE) ||| BitVec.ofNat 8 b).toNat % 2 = b ∧
    ((dh &&& 0xFE) ||| BitVec.ofNat 8 b).getLsbD 7 = dh.getLsbD 7 ∧
    ((dh &&& 0xFE) ||| BitVec.ofNat 8 b).getLsbD 6 = dh.getLsbD 6 := by decide

/-- A day moves the day counter on its circle; the overflow flag is kept, and set where the circle closes. -/
theorem day_spec (r : Rtc) :
    r.day.days = (r.days + 1) % 512 ∧ (r.day.s = r.s ∧ r.day.m = r.m ∧ r.day.h = r.h) ∧
      (r.day.dh.getLsbD 7 = true ↔ r.dh.getLsbD 7 = true ∨ r.days + 1 = 512) ∧ r.day.dh.getLsbD 6 = r.dh.getLsbD 6 := by
  have hlt := days_lt r
  by_cases hc : r.days + 1 = 512
  · have e : r.day = { r with dl := 0, dh := (r.dh ||| 0x80) &&& 0xFE } := if_pos hc
    obtain ⟨hlow, h7, h6⟩ := closedDh r.dh
    rw [e, hc]
    refine ⟨?_, ⟨rfl, rfl, rfl⟩, ⟨fun _ => Or.inr rfl, fun _ => h7⟩, h6⟩
    show ((r.dh ||| 0x80) &&& 0xFE).toNat % 2 * 256 + (0 : Byte).toNat = 512 % 512
    rw [hlow]
    rfl
  · have e : r.day = { r with dl := BitVec.ofNat 8 (r.days + 1)
                              dh := (r.dh &&& 0xFE) ||| BitVec.ofNat 8 ((r.days + 1) / 256) } := if_neg hc
    obtain ⟨hlow, h7, h6⟩ := nextDh r.dh ((r.days + 1) / 256) (by omega)
    rw [e]
    refine ⟨?_, ⟨rfl, rfl, rfl⟩, ?_, h6⟩
    · show ((r.dh &&& 0xFE) ||| BitVec.ofNat 8 ((r.days + 1) / 256)).toNat % 2 * 256 + (BitVec.ofNat 8 (r.days + 1)).toNat = _
      rw [hlow, BitVec.toNat_ofNat]
      omega
    · exact (iff_of_eq (congrArg (· = true) h7)).trans ⟨Or.inl, fun h => h.resolve_right hc⟩

/-- The four cases of a second: within the minute, the hour, the day, or at the day's end. -/
theorem second_cases {r : Rtc} (h : r.InRange) :
    (r.s.toNat < 59 ∧ r.second = { r with s := BitVec.ofNat 8 (r.s.toNat + 1) }) ∨
    (r.s.toNat = 59 ∧ r.m.toNat < 59 ∧ r.second = { r with s := 0, m := BitVec.ofNat 8 (r.m.toNat + 1) }) ∨
    (r.s.toNat = 59 ∧ r.m.toNat = 59 ∧ r.h.toNat < 23 ∧
      r.second = { r with s := 0, m := 0, h := BitVec.ofNat 8 (r.h.toNat + 1) }) ∨
    (r.s.toNat = 59 ∧ r.m.toNat = 59 ∧ r.h.toNat = 23 ∧ r.second = Rtc.day { r with s := 0, m := 0, h := 0 }) := by
  obtain ⟨hs, hm, hh⟩ := h
  have es : (r.s.toNat + 1) % 64 = r.s.toNat + 1 := Nat.mod_eq_of_lt (by omega)
  have em : (r.m.toNat + 1) % 64 = r.m.toNat + 1 := Nat.mod_eq_of_lt (by omega)
  have eh : (r.h.toNat + 1) % 32 = r.h.toNat + 1 := Nat.mod_eq_of_lt (by omega)
  simp only [Rtc.second, es, em, eh]
  by_cases h1 : r.s.toNat + 1 ≠ 60
  · exact Or.inl ⟨by omega, if_pos h1⟩
  · rw [if_neg h1]
    by_cases h2 : r.m.toNat + 1 ≠ 60
    · exact Or.inr (Or.inl ⟨by omega, by omega, if_pos h2⟩)
    · rw [if_neg h2]
      by_cases h3 : r.h.toNat + 1 ≠ 24
      · exact Or.inr (Or.inr (Or.inl ⟨by omega, by omega, by omega, if_pos h3⟩))
      · exact Or.inr (Or.inr (Or.inr ⟨by omega, by omega, by omega, if_neg h3⟩))

/-- A second on the clock: the time moves by 1 on the circle, and closing it sets the overflow flag. -/
structure Rtc.Moves (r t : Rtc) (n : Nat) : Prop where
  time : t.time = (r.time + n) % 44236800
  range : t.InRange
  overflow : t.dh.getLsbD 7 = true ↔ r.dh.getLsbD 7 = true ∨ 44236800 ≤ r.time + n
  running : t.dh.getLsbD 6 = r.dh.getLsbD 6

theorem ofNat_toNat_of_lt {n : Nat} (h : n < 60) : (BitVec.ofNat 8 n).toNat = n :=
  (BitVec.toNat_ofNat n 8).trans (Nat.mod_eq_of_lt (by omega))

theorem zero_toNat : (0 : Byte).toNat = 0 := rfl

/-- An update within the day, to the next second. -/
theorem moves_within_day {r t : Rtc} (h : r.InRange) (hdl : t.dl = r.dl) (hdh : t.dh = r.dh) (ht : t.InRange)
    (hnext : (t.h.toNat * 60 + t.m.toNat) * 60 + t.s.toNat = (r.h.toNat * 60 + r.m.toNat) * 60 + r.s.toNat + 1) :
    r.Moves t 1 := by
  have hd := days_lt r
  have hdays : t.days = r.days := by rw [Rtc.days, Rtc.days, hdl, hdh]
  obtain ⟨hs, hm, hh⟩ := h
  obtain ⟨hs', hm', hh'⟩ := ht
  refine ⟨?_, ⟨hs', hm', hh'⟩, ?_, by rw [hdh]⟩
  · unfold Rtc.time
    omega
  · rw [hdh]
    unfold Rtc.time
    exact ⟨Or.inl, fun h => h.resolve_right (by omega)⟩

/-- The end of a day, from its last second. -/
theorem day_moves {r : Rtc} (hs : r.s.toNat = 59) (hm : r.m.toNat = 59) (hh : r.h.toNat = 23) :
    r.Moves (Rtc.day { r with s := 0, m := 0, h := 0 }) 1 := by
  obtain ⟨hdays, ⟨es, em, eh⟩, h7, h6⟩ := day_spec { r with s := 0, m := 0, h := 0 }
  have hd := days_lt r
  have ed : Rtc.days { r with s := 0, m := 0, h := 0 } = r.days := rfl
  rw [ed] at hdays h7
  refine ⟨?_, ⟨es ▸ Nat.succ_pos 59, em ▸ Nat.succ_pos 59, eh ▸ Nat.succ_pos 23⟩, h7.trans (or_congr_right ?_), h6⟩
  · unfold Rtc.time
    rw [hdays, es, em, eh]
    simp only [zero_toNat]
    omega
  · unfold Rtc.time
    omega

theorem second_moves {r : Rtc} (h : r.InRange) : r.Moves r.second 1 := by
  obtain ⟨hs, hm, hh⟩ := id h
  rcases second_cases h with ⟨h1, e⟩ | ⟨h1, h2, e⟩ | ⟨h1, h2, h3, e⟩ | ⟨h1, h2, h3, e⟩ <;> rw [e]
  · have es := ofNat_toNat_of_lt (n := r.s.toNat + 1) (by omega)
    refine moves_within_day h rfl rfl ⟨?_, hm, hh⟩ ?_
    all_goals simp only [es]; omega
  · have em := ofNat_toNat_of_lt (n := r.m.toNat + 1) (by omega)
    refine moves_within_day h rfl rfl ⟨Nat.succ_pos 59, ?_, hh⟩ ?_
    all_goals simp only [em, zero_toNat]; omega
  · have eh := ofNat_toNat_of_lt (n := r.h.toNat + 1) (by omega)
    refine moves_within_day h rfl rfl ⟨Nat.succ_pos 59, Nat.succ_pos 59, ?_⟩ ?_
    all_goals simp only [eh, zero_toNat]; omega
  · exact day_moves h1 h2 h3

/-! ### Any number of seconds -/

theorem seconds_moves (n : Nat) {r : Rtc} (h : r.InRange) : r.Moves (Rtc.seconds n r) n := by
  induction n generalizing r with
  | zero =>
    have hlt := time_lt h
    exact ⟨(Nat.mod_eq_of_lt hlt).symm, h, ⟨Or.inl, fun h => h.resolve_right (by omega)⟩, rfl⟩
  | succ k ih =>
    have hlt := time_lt h
    obtain ⟨ht1, hr1, ho1, hg1⟩ := second_moves h
    obtain ⟨ht, hr, ho, hg⟩ := ih hr1
    refine ⟨?_, hr, ?_, hg.trans hg1⟩
    · rw [Rtc.seconds, ht, ht1]
      omega
    · rw [Rtc.seconds, ho, ho1, ht1, or_assoc]
      exact or_congr_right (by omega)

theorem rtcAdvance_of_stopped {c : Cart} (h : c.rtcLive.dh.getLsbD 6 = true) (n : Nat) : c.rtcAdvance n = c := by
  simp only [Cart.rtcAdvance, Rtc.stopped, h, Bool.not_true, Bool.and_false, Bool.false_eq_true, if_false]

theorem rtcAdvance_of_running {c : Cart} (hrtc : c.hasRtc = true) (h : c.rtcLive.dh.getLsbD 6 = false) (n : Nat) :
    c.rtcAdvance n = { c with rtcLive := c.rtcLive.seconds n } := by
  simp only [Cart.rtcAdvance, Rtc.stopped, hrtc, h, Bool.not_false, Bool.and_self, if_true]

theorem rtcEvent_eq (s : State) (n : Nat) :
    s.rtcEvent n = { s with cart := { s.cart with rtcLive := (s.rtcEvent n).cart.rtcLive } } := by
  unfold State.rtcEvent Cart.rtcAdvance
  split <;> rfl

/-- Settles O56: a running clock moves by its seconds, one after the other. -/
theorem rtcSeconds : Obligations.RtcSeconds := by
  intro s n hrtc days time t
  refine ⟨rtcEvent_eq s n, fun h6 => ?halted, fun h6 hs hm hh => ?running⟩
  case halted => exact congrArg (fun c => { s with cart := c }) (rtcAdvance_of_stopped h6 n)
  case running =>
    have hlive : t.cart.rtcLive = s.cart.rtcLive.seconds n := congrArg Cart.rtcLive (rtcAdvance_of_running hrtc h6 n)
    obtain ⟨htime, ⟨hs', hm', hh'⟩, h7, h6'⟩ := seconds_moves n ⟨hs, hm, hh⟩
    rw [hlive]
    exact ⟨htime, hs', hm', hh', h7, h6'.trans h6⟩

end Sys2Proof.Machine
end

section
/-! PROOFS. The accesses that a device closes or redirects: the PPU's locks (O26), the OAM DMA window (O27), the RAM gate (O28),
and the ROM bank behind 0x4000-0x7FFF (O29). -/

namespace Sys2Proof.Machine

/-! ### A read outside the I/O page -/

theorem untimedAt_of_not_io {s : State} {a : Word} (h : ∀ r, regionOf s.params.cgb a ≠ .io r) : s.untimedAt a = false := by
  unfold State.untimedAt
  split
  case h_4 => exact Bool.and_false _
  all_goals exact absurd ‹_› (h _)

theorem untimedAt_of_timed {s : State} (h : s.params.timed = true) (a : Word) : s.untimedAt a = false := by
  simp only [State.untimedAt, h, Bool.not_true, Bool.false_and]

/-- Outside the window a read of an address that is no register gives the byte of its region. -/
theorem busRead_memory {s : State} {a : Word} {r : Region} (hw : s.windowOpen a = false) (hr : regionOf s.params.cgb a = r)
    (hio : ∀ x, r ≠ .io x) : s.busRead a = s.peek true a :=
  busRead_open hw (untimedAt_of_not_io (hr ▸ hio))

/-! ### The PPU's locks -/

theorem vramLocked_of_transfer {p : Ppu} (hon : p.lcdc.getLsbD 7 = true) (hm : p.mode = .transfer) : p.vramLocked = true := by
  simp [Ppu.vramLocked, Ppu.lcdOn, hon, hm]

theorem oamLocked_of_mode {p : Ppu} (hon : p.lcdc.getLsbD 7 = true) (hm : p.mode = .oamSearch ∨ p.mode = .transfer) :
    p.oamLocked = true := by
  simp [Ppu.oamLocked, Ppu.lcdOn, hon, hm]

/-- Settles O26: each access by the region of its address, whose lock is closed. -/
theorem videoLocks : Obligations.VideoLocks := by
  intro s a v hon hw
  constructor
  · intro hm h1 h2
    have hr := regionOf_vram s.params.cgb h1 h2
    have hl := vramLocked_of_transfer hon hm
    constructor
    · rw [busRead_memory hw hr nofun, State.peek, hr]
      simp only [hl, Bool.and_self, if_true]
    · rw [busWrite_open hw, hr]
      exact if_pos hl
  · intro hm h1 h2
    have hr := regionOf_oam s.params.cgb h1 h2
    have hl := oamLocked_of_mode hon hm
    constructor
    · rw [busRead_memory hw hr nofun, State.peek, hr]
      simp only [hl, Bool.and_self, if_true]
    · rw [busWrite_open hw, hr]
      exact if_pos hl

/-! ### The OAM DMA window -/

/-- In timed operation the window is open for its cycles, outside high RAM. -/
theorem windowOpen_iff {s : State} (h : s.params.timed = true) (a : Word) :
    s.windowOpen a = true ↔ ¬ (0xFF80 ≤ a.toNat ∧ a.toNat ≤ 0xFFFE) ∧ s.cycles < s.dmaUntil := by
  rw [State.windowOpen, if_pos h, Bool.and_eq_true, Bool.not_eq_true', ← Bool.decide_and, decide_eq_false_iff_not,
    decide_eq_true_eq, ← Nat.lt_succ_iff (m := a.toNat)]

theorem busRead_window {s : State} {a : Word} (ht : s.params.timed = true) (h : s.windowOpen a = true) :
    s.busRead a = Config.freeByte s.draws := by
  simp only [State.busRead, State.windowReads, h, ht, Bool.true_or, Bool.and_self, if_true]

theorem readDraws_window {s : State} {a : Word} (h : s.windowOpen a = true) : s.readDraws a = 1 := by
  simp only [State.readDraws, h, Bool.true_or, Bool.toNat_true]

/-- In the window a write is lost or done, a free choice (70 rule R923). -/
theorem busWrite_window {s : State} {a : Word} (h : s.windowOpen a = true) (v : Byte) :
    s.busWrite a v = s.draw 1 ∨ s.busWrite a v = (s.draw 1).storeAt (regionOf s.params.cgb a) v := by
  rw [State.busWrite, if_pos h]
  split
  · exact Or.inl rfl
  · exact Or.inr rfl

theorem openWindow_dmaUntil (s : State) (n : Nat) : ({ s.chargeDraw with dmaUntil := n } : State).dmaUntil = n := rfl

/-- Settles O27: by whether the window is open for the access. -/
theorem oamDmaWindow : Obligations.OamDmaWindow := by
  refine ⟨fun s v hw => ?_, fun s a v ht => ⟨fun hc ha => ?_, fun h => ?_⟩⟩
  · rw [busWrite_io (r := .dma) hw rfl]
    exact openWindow_dmaUntil _ _
  · have hopen := (windowOpen_iff ht a).2 ⟨ha, hc⟩
    exact ⟨busRead_window ht hopen, readDraws_window hopen, busWrite_window hopen v⟩
  · have hclosed : s.windowOpen a = false := by
      rw [← Bool.not_eq_true, windowOpen_iff ht]
      rintro ⟨ha, hc⟩
      rcases h with h | h
      · exact absurd hc (Nat.not_lt.2 h)
      · exact ha h
    exact ⟨busWrite_open hclosed v, busRead_open hclosed (untimedAt_of_timed ht a)⟩

/-! ### A write to the mapper -/

/-- Replace the cartridge. -/
def State.setCart (s : State) (c : Cart) : State := { s with cart := c }

theorem busWrite_control {s : State} {a : Word} (hw : s.windowOpen a = false) (ha : a.toNat < 0x8000) (v : Byte) :
    s.busWrite a v = s.setCart (s.cart.control a.toNat v) := by
  rw [busWrite_open hw, regionOf_rom _ ha]
  rfl

/-! ### The RAM gate -/

theorem ramEnableValue_iff : ∀ v : Byte, ramEnableValue v = true ↔ v.toNat % 16 = 10 := by decide

/-- A write of `v` at `a` to the enable range of the variant, HuC1's write of 0x0E left out. -/
def Cart.GateWrite (c : Cart) (a : Nat) (v : Byte) : Prop :=
  (c.variant = .mbc2 ∧ a < 0x4000 ∧ a / 256 % 2 = 0) ∨
  ((c.variant = .mbc1 ∨ c.variant = .mbc3 ∨ c.variant = .mbc5 ∨ (c.variant = .huc1 ∧ v ≠ 0x0E)) ∧ a < 0x2000)

/-- Such a write sets the gate alone, on HuC1 with the infrared mode left. -/
theorem control_of_gateWrite {c : Cart} {a : Nat} {v : Byte} (h : c.GateWrite a v) :
    c.variant ≠ .none ∧ ∃ ir, (c.variant = .huc1 → ir = false) ∧
      c.control a v = { c with ramEnable := ramEnableValue v, irMode := ir } := by
  rcases h with ⟨hv, ha, hbit⟩ | ⟨hv | hv | hv | ⟨hv, hne⟩, ha⟩ <;> rw [Cart.control, hv] <;> refine ⟨nofun, ?_⟩
  · have hbit' : a.testBit 8 = false := by
      rw [Nat.testBit_eq_decide_div_mod_eq, decide_eq_false_iff_not]
      omega
    exact ⟨c.irMode, nofun, by simp only [ha, hbit', if_true, Bool.false_eq_true, if_false]⟩
  · exact ⟨c.irMode, nofun, if_pos ha⟩
  · exact ⟨c.irMode, nofun, if_pos ha⟩
  · exact ⟨c.irMode, nofun, if_pos ha⟩
  · exact ⟨false, fun _ => rfl, (if_pos ha).trans (if_neg hne)⟩

/-- The gate is closed on every banked cartridge whose RAM is disabled (61 rule R1014). -/
theorem ramTarget_of_disabled {c : Cart} (hv : c.variant ≠ .none) (hir : c.variant = .huc1 → c.irMode = false)
    (he : c.ramEnable = false) (off : Nat) : c.ramTarget false off = .closed := by
  unfold Cart.ramTarget
  rw [he]
  cases hvar : c.variant with
  | none => exact absurd hvar hv
  | huc1 => rw [hir hvar]; rfl
  | _ => rfl

theorem peek_cartRam {s : State} {b : Word} (h1 : 0xA000 ≤ b.toNat) (h2 : b.toNat < 0xC000) (locks : Bool) :
    s.peek locks b = s.cart.readRam s.params.ramPermissive (Config.freeByte s.draws) (b.toNat - 0xA000) := by
  rw [State.peek, regionOf_cartRam _ h1 h2]

theorem infraredAt_cartRam {s : State} {b : Word} (h1 : 0xA000 ≤ b.toNat) (h2 : b.toNat < 0xC000) :
    s.infraredAt b = decide (s.cart.ramTarget s.params.ramPermissive (b.toNat - 0xA000) = .infrared) := by
  rw [State.infraredAt, regionOf_cartRam _ h1 h2]

/-- A write that reaches no cell of the cartridge changes nothing. -/
theorem busWrite_cartRam_discarded {s : State} {b : Word} (hw : s.windowOpen b = false) (h1 : 0xA000 ≤ b.toNat)
    (h2 : b.toNat < 0xC000) (h : s.cart.ramTarget s.params.ramPermissive (b.toNat - 0xA000) = .closed ∨
      s.cart.ramTarget s.params.ramPermissive (b.toNat - 0xA000) = .infrared) (w : Byte) : s.busWrite b w = s := by
  rw [busWrite_open hw, regionOf_cartRam _ h1 h2]
  simp only [State.storeAt, Cart.writeRam]
  rcases h with h | h <;> rw [h]

theorem busRead_cartRam_closed {s : State} {b : Word} (hw : s.windowOpen b = false) (h1 : 0xA000 ≤ b.toNat)
    (h2 : b.toNat < 0xC000) (h : s.cart.ramTarget s.params.ramPermissive (b.toNat - 0xA000) = .closed) :
    s.busRead b = 0xFF := by
  rw [busRead_memory hw (regionOf_cartRam _ h1 h2) nofun, peek_cartRam h1 h2, Cart.readRam, h]

/-- HuC1's write of 0x0E selects the infrared receiver and leaves the gate (61 rule R1060). -/
theorem control_infrared {c : Cart} (hv : c.variant = .huc1) {a : Nat} (ha : a < 0x2000) :
    c.control a 0x0E = { c with irMode := true } := by
  simp only [Cart.control, hv, ha, if_true]

theorem ramTarget_of_irMode {c : Cart} (hv : c.variant = .huc1) (hir : c.irMode = true) (p : Bool) (off : Nat) :
    c.ramTarget p off = .infrared := by
  simp only [Cart.ramTarget, hv, hir, if_true]

/-- Settles O28: the gate after the write, and what its window then reaches. -/
theorem ramGate : Obligations.RamGate := by
  intro s a b v w hwa hwb hb1 hb2 t
  have hwt (ha : a.toNat < 0x8000) : t.windowOpen b = false := by
    rw [show t = _ from busWrite_control hwa ha v]
    exact hwb
  have hcart (ha : a.toNat < 0x8000) : t.cart = s.cart.control a.toNat v := congrArg State.cart (busWrite_control hwa ha v)
  refine ⟨fun hgate => ?gate, fun ⟨hvar, ha, hv⟩ => ?infrared⟩
  case gate =>
    have hgate : s.cart.GateWrite a.toNat v := hgate
    have ha : a.toNat < 0x8000 := by rcases hgate with ⟨-, h, -⟩ | ⟨-, h⟩ <;> omega
    obtain ⟨hvar, ir, hir, hcontrol⟩ := control_of_gateWrite hgate
    have hcart := (hcart ha).trans hcontrol
    refine ⟨by rw [hcart]; exact ramEnableValue_iff v, fun hperm hv => ?_⟩
    have hclosed : t.cart.ramTarget t.params.ramPermissive (b.toNat - 0xA000) = .closed := by
      have hoff : t.cart.ramEnable = false := by
        rw [hcart, ← Bool.not_eq_true]
        exact mt (ramEnableValue_iff v).1 hv
      rw [show t.params = s.params from busWrite_params s a v, hperm]
      exact ramTarget_of_disabled (by rw [hcart]; exact hvar) (by rw [hcart]; exact hir) hoff _
    exact ⟨busRead_cartRam_closed (hwt ha) hb1 hb2 hclosed,
      busWrite_cartRam_discarded (hwt ha) hb1 hb2 (Or.inl hclosed) w⟩
  case infrared =>
    have ha' : a.toNat < 0x8000 := by omega
    have hcart : t.cart = { s.cart with irMode := true } := by rw [hcart ha', hv, control_infrared hvar ha]
    have hinfrared : t.cart.ramTarget t.params.ramPermissive (b.toNat - 0xA000) = .infrared :=
      ramTarget_of_irMode (by rw [hcart]; exact hvar) (by rw [hcart]) _ _
    refine ⟨by rw [hcart], by rw [hcart], ?_, busWrite_cartRam_discarded (hwt ha') hb1 hb2 (Or.inr hinfrared) w⟩
    rw [State.readDraws, infraredAt_cartRam hb1 hb2, decide_eq_true hinfrared, Bool.or_true]
    rfl

/-! ### The ROM bank -/

/-- A control write leaves the image: only the selection of a bank moves. -/
theorem control_readRom (c : Cart) (a : Nat) (v : Byte) {off : Nat} (h : off < 0x4000) :
    (c.control a v).readRom (0x4000 + off) = c.romByte ((c.control a v).highBank % c.romBanks) off := by
  have hfixed := control_fixed c a v
  simp only [Cart.fixed, Prod.mk.injEq] at hfixed
  obtain ⟨hrom, hlen, -, hbanks, -⟩ := hfixed
  have hoff : (0x4000 + off) % 0x4000 = off := by omega
  simp only [Cart.readRom, Cart.romBankAt, Cart.romByte, hrom, hlen, hbanks, hoff,
    if_neg (show ¬ 0x4000 + off < 0x4000 by omega)]

/-- Above 0x0900 the boot ROM covers nothing (20 rule R231). -/
theorem bootOffset_eq_none (s : State) {a : Nat} (h : 0x900 ≤ a) : s.bootOffset a = none := by
  unfold State.bootOffset
  rw [if_neg (show ¬ a < 0x100 by omega), if_neg (show ¬ (s.params.cgb ∧ 0x200 ≤ a ∧ a < 0x900) by omega), ite_self]

/-- A read of 0x4000-0x7FFF reads the cartridge. -/
theorem busRead_romHigh {s : State} {off : Nat} (hoff : off < 0x4000)
    (hw : s.windowOpen (BitVec.ofNat 16 (0x4000 + off)) = false) :
    s.busRead (BitVec.ofNat 16 (0x4000 + off)) = s.cart.readRom (0x4000 + off) := by
  have hnat : (BitVec.ofNat 16 (0x4000 + off)).toNat = 0x4000 + off := by
    rw [BitVec.toNat_ofNat, Nat.mod_eq_of_lt (by omega)]
  have hr := regionOf_rom s.params.cgb (a := BitVec.ofNat 16 (0x4000 + off)) (by omega)
  rw [busRead_memory hw hr nofun, State.peek, hr, hnat]
  dsimp only
  rw [bootOffset_eq_none _ (by omega)]

/-- After a write to the mapper the window reads the image at the selected bank. -/
theorem busRead_romBank {s : State} {a : Word} (hw : s.windowOpen a = false) (ha : a.toNat < 0x8000) (v : Byte) {off : Nat}
    (hoff : off < 0x4000) (hw' : s.windowOpen (BitVec.ofNat 16 (0x4000 + off)) = false) :
    (s.busWrite a v).busRead (BitVec.ofNat 16 (0x4000 + off)) =
      s.cart.romByte ((s.cart.control a.toNat v).highBank % s.cart.romBanks) off := by
  rw [busWrite_control hw ha]
  exact (busRead_romHigh (s := s.setCart (s.cart.control a.toNat v)) hoff hw').trans (control_readRom _ _ v hoff)

theorem remapZero_toNat (f : Byte) : (remapZero f).toNat = max 1 f.toNat := by
  by_cases h : f = 0
  · rw [h]
    rfl
  · have hpos : f.toNat ≠ 0 := fun e => h (BitVec.eq_of_toNat_eq e)
    rw [remapZero, if_neg h]
    omega

/-- The bits of a bank field as a number. -/
theorem field_toNat : ∀ v : Byte, (v &&& 0x1F).toNat = v.toNat % 32 ∧ (v &&& 0x0F).toNat = v.toNat % 16 ∧
    (v &&& 0x7F).toNat = v.toNat % 128 ∧ (v &&& 0x3F).toNat = v.toNat % 64 ∧ (v &&& 0x01).toNat = v.toNat % 2 := by decide

section
variable {c : Cart} {a : Nat} {v : Byte}

theorem highBank_none (hv : c.variant = .none) : (c.control a v).highBank = 1 := by
  simp only [Cart.control, hv, Cart.highBank]

theorem highBank_mbc1 (hv : c.variant = .mbc1) (h1 : 0x2000 ≤ a) (h2 : a < 0x4000) :
    (c.control a v).highBank = c.bankHi.toNat * 32 + max 1 (v.toNat % 32) := by
  simp only [Cart.control, hv, if_neg (Nat.not_lt.2 h1), if_pos h2, Cart.highBank, remapZero_toNat, field_toNat]
  rw [← Nat.shiftLeft_add_eq_or_of_lt (by omega), Nat.shiftLeft_eq]

theorem highBank_mbc2 (hv : c.variant = .mbc2) (ha : a < 0x4000) (hbit : a / 256 % 2 = 1) :
    (c.control a v).highBank = max 1 (v.toNat % 16) := by
  have hbit' : a.testBit 8 = true := by
    rw [Nat.testBit_eq_decide_div_mod_eq, decide_eq_true_eq]
    exact hbit
  simp only [Cart.control, hv, if_pos ha, hbit', if_true, Cart.highBank, remapZero_toNat, field_toNat]

theorem highBank_mbc3 (hv : c.variant = .mbc3) (h1 : 0x2000 ≤ a) (h2 : a < 0x4000) :
    (c.control a v).highBank = max 1 (v.toNat % 128) := by
  simp only [Cart.control, hv, if_neg (Nat.not_lt.2 h1), if_pos h2, Cart.highBank, remapZero_toNat, field_toNat]

theorem highBank_mbc5_low (hv : c.variant = .mbc5) (h1 : 0x2000 ≤ a) (h2 : a < 0x3000) :
    (c.control a v).highBank = c.bankHi.toNat * 256 + max 1 v.toNat := by
  have hlt := v.isLt
  simp only [Cart.control, hv, if_neg (Nat.not_lt.2 h1), if_pos h2, Cart.highBank, remapZero_toNat]
  rw [← Nat.shiftLeft_add_eq_or_of_lt (by omega), Nat.shiftLeft_eq]

theorem highBank_mbc5_high (hv : c.variant = .mbc5) (h1 : 0x3000 ≤ a) (h2 : a < 0x4000) :
    (c.control a v).highBank = v.toNat % 2 * 256 + c.bankLo.toNat := by
  simp only [Cart.control, hv, if_neg (show ¬ a < 0x2000 by omega), if_neg (Nat.not_lt.2 h1), if_pos h2, Cart.highBank,
    field_toNat]
  rw [← Nat.shiftLeft_add_eq_or_of_lt c.bankLo.isLt, Nat.shiftLeft_eq]

theorem highBank_huc1 (hv : c.variant = .huc1) (h1 : 0x2000 ≤ a) (h2 : a < 0x4000) :
    (c.control a v).highBank = max 1 (v.toNat % 64) := by
  simp only [Cart.control, hv, if_neg (Nat.not_lt.2 h1), if_pos h2, Cart.highBank, remapZero_toNat, field_toNat]

end

/-- Settles O29: the window reads the image at `highBank`, which the write selects by the variant's rule. -/
theorem bankSwitching : Obligations.BankSwitching := by
  intro s a v off hoff hwa hwb reads
  have hreads {bank : Nat} (ha : a.toNat < 0x8000) (h : (s.cart.control a.toNat v).highBank = bank) : reads bank :=
    h ▸ busRead_romBank hwa ha v hoff hwb
  exact ⟨fun hv ha => hreads ha (highBank_none hv),
    fun hv h1 h2 => hreads (by omega) (highBank_mbc1 hv h1 h2),
    fun hv ha hbit => hreads (by omega) (highBank_mbc2 hv ha hbit),
    fun hv h1 h2 => hreads (by omega) (highBank_mbc3 hv h1 h2),
    fun hv h1 h2 => hreads (by omega) (highBank_mbc5_low hv h1 h2),
    fun hv h1 h2 => hreads (by omega) (highBank_mbc5_high hv h1 h2),
    fun hv h1 h2 => hreads (by omega) (highBank_huc1 hv h1 h2)⟩

end Sys2Proof.Machine
end

section
/-! PROOFS. OAM DMA (O50), and VRAM DMA: the copy, the writes to HDMA5, and the block at a mode-0 entry (O51). -/

namespace Sys2Proof.Machine

/-! ### The source of a copy -/

theorem PpuFrame.exists_eq {s t : State} (h : PpuFrame s t) :
    ∃ p i c d, t = { s with ppu := p, iflag := i, charge := c, draws := d } := ⟨_, _, _, _, h⟩

theorem PpuFrame.params {s t : State} (h : PpuFrame s t) : t.params = s.params := h.bus.params

theorem PpuFrame.infraredAt {s t : State} (h : PpuFrame s t) (a : Word) : t.infraredAt a = s.infraredAt a := by
  obtain ⟨p, i, c, d, rfl⟩ := h.exists_eq
  rfl

/-- Below 0xE000 the byte of an address depends on the PPU only in VRAM, and on the free values only at the infrared receiver. -/
theorem PpuFrame.peek {s t : State} (h : PpuFrame s t) {a : Word} (ha : a.toNat < 0xE000) (hi : s.infraredAt a = false)
    (hv : 0x8000 ≤ a.toNat → a.toNat < 0xA000 → t.ppu.vram = s.ppu.vram ∧ t.ppu.vbk = s.ppu.vbk) :
    t.peek false a = s.peek false a := by
  obtain ⟨p, i, c, d, rfl⟩ := h.exists_eq
  by_cases h1 : a.toNat < 0x8000
  · simp only [State.peek, regionOf_rom _ h1]
    rfl
  by_cases h2 : a.toNat < 0xA000
  · obtain ⟨hvram, hvbk⟩ := hv (Nat.le_of_not_lt h1) h2
    dsimp only at hvram hvbk
    simp only [State.peek, regionOf_vram _ (Nat.le_of_not_lt h1) h2, Ppu.vramByte, State.vramBank, hvram, hvbk]
    rfl
  by_cases h3 : a.toNat < 0xC000
  · rw [infraredAt_cartRam (Nat.le_of_not_lt h2) h3, decide_eq_false_iff_not] at hi
    rw [peek_cartRam (Nat.le_of_not_lt h2) h3, peek_cartRam (Nat.le_of_not_lt h2) h3]
    exact readRam_congr _ _ rfl rfl hi fun _ _ => rfl
  have hr := regionOf_wram s.params.cgb (Nat.le_of_not_lt h3) ha
  by_cases h4 : a.toNat - 0xC000 < 0x1000
  · rw [wramRegion, if_pos h4] at hr
    simp only [State.peek, hr]
  · rw [wramRegion, if_neg h4] at hr
    simp only [State.peek, hr]
    rfl

/-! ### OAM DMA -/

theorem oamDmaAddr_lt (a : Word) : (oamDmaAddr a).toNat < 0xE000 := by
  have hlt := a.isLt
  unfold oamDmaAddr
  split
  · have hle : (0x2000 : Word) ≤ a := BitVec.le_def.2 (Nat.le_trans (by decide) ‹0xE000 ≤ a.toNat›)
    rw [BitVec.toNat_sub_of_le hle]
    show a.toNat - 0x2000 < 0xE000
    omega
  · omega

theorem oamDmaByte_frame (s : State) (v : Byte) (i : Nat) : PpuFrame s (s.oamDmaByte v i) := rfl

theorem oamDmaByte_keeps (s : State) (v : Byte) (i : Nat) :
    (s.oamDmaByte v i).ppu.vram = s.ppu.vram ∧ (s.oamDmaByte v i).ppu.vbk = s.ppu.vbk ∧ (s.oamDmaByte v i).charge = s.charge :=
  ⟨rfl, rfl, rfl⟩

theorem oamDmaCopy_charge (v : Byte) (n i : Nat) (s : State) : (State.oamDmaCopy v n i s).charge = s.charge := by
  induction n generalizing s i with
  | zero => rfl
  | succ k ih => exact ih _ _

/-- The copy writes the bytes from `i` on, and no other. -/
theorem oamDmaCopy_read_other (v : Byte) (n i : Nat) (s : State) {j : Nat} (h : j < i ∨ i + n ≤ j) :
    Store.read (State.oamDmaCopy v n i s).ppu.oam j = Store.read s.ppu.oam j := by
  induction n generalizing s i with
  | zero => rfl
  | succ k ih => exact (ih _ _ (by omega)).trans (read_write_other _ _ (by omega))

/-- Each byte of the copy is the byte of its source before the copy. -/
theorem oamDmaCopy_read (v : Byte) (n i : Nat) (s : State) {j : Nat} (h1 : i ≤ j) (h2 : j < i + n)
    (hi : s.infraredAt (oamDmaAddr (v ++ BitVec.ofNat 8 j)) = false) :
    Store.read (State.oamDmaCopy v n i s).ppu.oam j = s.peek false (oamDmaAddr (v ++ BitVec.ofNat 8 j)) := by
  induction n generalizing s i with
  | zero => omega
  | succ k ih =>
    have hf := oamDmaByte_frame s v i
    obtain ⟨hvram, hvbk, -⟩ := oamDmaByte_keeps s v i
    rw [State.oamDmaCopy]
    by_cases hj : j = i
    · rw [oamDmaCopy_read_other v k (i + 1) _ (by omega), hj]
      exact read_write_same _ _ _
    · rw [ih _ _ (by omega) (by omega) ((hf.infraredAt _).trans hi)]
      exact hf.peek (oamDmaAddr_lt _) hi fun _ _ => ⟨hvram, hvbk⟩

/-- The source of byte `i` of the copy from page `v` (62 rule R1160). -/
theorem oamDmaAddr_eq (v : Byte) {i : Nat} (hi : i < 160) : oamDmaAddr (v ++ BitVec.ofNat 8 i) =
    BitVec.ofNat 16 (if 0xE0 ≤ v.toNat then v.toNat * 256 + i - 0x2000 else v.toNat * 256 + i) := by
  have hv := v.isLt
  have ha : (v ++ BitVec.ofNat 8 i : Word).toNat = v.toNat * 256 + i := by
    rw [append_toNat, BitVec.toNat_ofNat, Nat.mod_eq_of_lt (by omega)]
  apply BitVec.eq_of_toNat_eq
  rw [BitVec.toNat_ofNat]
  by_cases h : 0xE0 ≤ v.toNat
  · rw [oamDmaAddr, if_pos (by omega), if_pos h,
      BitVec.toNat_sub_of_le (BitVec.le_def.2 (by rw [ha]; show 0x2000 ≤ _; omega)), ha]
    show v.toNat * 256 + i - 0x2000 = _
    omega
  · rw [oamDmaAddr, if_neg (by omega), if_neg h, ha]
    omega

theorem openWindow_charge (s : State) (n : Nat) : s.charge ≤ ({ s.chargeDraw with dmaUntil := n } : State).charge :=
  Nat.le_add_right _ _

theorem oamDma_oam (s : State) (v : Byte) :
    (s.oamDma v).ppu.oam = (State.oamDmaCopy v 160 0 (s.setPpu { s.ppu with dma := v })).ppu.oam :=
  congrArg Ppu.oam (openWindow_ppu _ _)

theorem oamDma_charge (s : State) (v : Byte) : s.charge ≤ (s.oamDma v).charge := by
  have h := openWindow_charge (State.oamDmaCopy v 160 0 (s.setPpu { s.ppu with dma := v })) (s.cycles + 640)
  rwa [oamDmaCopy_charge] at h

/-- Settles O50: the copy byte by byte, and the frame of the register's unit. -/
theorem oamDmaCopy : Obligations.OamDmaCopy := by
  intro s v hw t source
  have ht : t = s.oamDma v := busWrite_io (r := .dma) hw rfl v
  have hf : PpuFrame s (s.setPpu { s.ppu with dma := v }) := rfl
  rw [ht, oamDma_oam]
  refine ⟨fun i hi hir => ?copied, fun i hi => oamDmaCopy_read_other v 160 0 _ (Or.inr hi), ?frame, oamDma_charge s v⟩
  case copied =>
    have hsource : oamDmaAddr (v ++ BitVec.ofNat 8 i) = source i := oamDmaAddr_eq v hi
    rw [← hsource] at hir ⊢
    rw [oamDmaCopy_read v 160 0 _ (Nat.zero_le i) (by omega) ((hf.infraredAt _).trans hir)]
    exact hf.peek (oamDmaAddr_lt _) hir fun _ _ => ⟨rfl, rfl⟩
  case frame =>
    rw [← oamDma_oam]
    have h := (oamDma_oamDmaFrame s v).2
    rwa [oamDma_dma] at h

/-! ### The copy of VRAM DMA -/

theorem vramDmaOpen_eq_false_iff (a : Word) :
    vramDmaOpen a = false ↔ a.toNat < 0x8000 ∨ (0xA000 ≤ a.toNat ∧ a.toNat < 0xE000) := by
  simp only [vramDmaOpen, Bool.or_eq_false_iff, decide_eq_false_iff_not]
  omega

/-- The first byte of a copy. -/
theorem vramDmaByte_read (s : State) (hcgb : s.params.cgb = true) (j : Nat) :
    Store.read s.vramDmaByte.ppu.vram j =
      if j = s.ppu.vbk.toNat * 0x2000 + s.ppu.hdmaDst.toNat then
        if vramDmaOpen s.ppu.hdmaSrc then Config.freeByte s.draws else s.peek false s.ppu.hdmaSrc
      else Store.read s.ppu.vram j := by
  have hbank : s.vramBank = s.ppu.vbk.toNat := if_pos hcgb
  rw [← hbank]
  exact read_write _ _ _ _

theorem vramDmaByte_frame (s : State) : PpuFrame s s.vramDmaByte := rfl

theorem vramDmaByte_registers (s : State) : s.vramDmaByte.ppu.hdmaSrc = s.ppu.hdmaSrc + 1 ∧
    s.vramDmaByte.ppu.hdmaDst = s.ppu.hdmaDst + 1 ∧ s.vramDmaByte.ppu.vbk = s.ppu.vbk ∧ s.vramDmaByte.charge = s.charge :=
  ⟨rfl, rfl, rfl, rfl⟩

theorem hdmaDst_succ (d : BitVec 13) (k : Nat) : ((d + 1).toNat + k) % 0x2000 = (d.toNat + (k + 1)) % 0x2000 := by
  rw [BitVec.toNat_add]
  show ((d.toNat + 1) % 0x2000 + k) % 0x2000 = _
  omega

/-- The copy of `n` bytes, no more than a bank holds (62 rule R1161). -/
theorem vramDmaCopy_copied (n : Nat) (s : State) (hcgb : s.params.cgb = true) (hn : n ≤ 0x2000) :
    VramCopied s (State.vramDmaCopy n s) n := by
  induction n generalizing s with
  | zero =>
    have hdst := s.ppu.hdmaDst.isLt
    refine ⟨fun k hk => absurd hk (Nat.not_lt_zero k), fun _ _ => rfl, (BitVec.add_zero _).symm, ?_, Nat.le_refl _⟩
    exact (Nat.mod_eq_of_lt hdst).symm
  | succ m ih =>
    have hdst := s.ppu.hdmaDst.isLt
    have hf := vramDmaByte_frame s
    obtain ⟨esrc, edst, evbk, echarge⟩ := vramDmaByte_registers s
    obtain ⟨hread, hother, hsrc, hto, hcharge⟩ :=
      ih s.vramDmaByte (by rw [hf.params]; exact hcgb) (by omega)
    simp only [esrc, edst, evbk, echarge, hdmaDst_succ, add_ofNat_succ] at hread hother hsrc hto hcharge
    refine ⟨fun k hk hopen hi => ?_, fun j hj => ?_, hsrc, hto, hcharge⟩
    · dsimp only at hopen hi ⊢
      cases k with
      | zero =>
        have ha : s.ppu.hdmaSrc + BitVec.ofNat 16 0 = s.ppu.hdmaSrc := BitVec.add_zero _
        have hd : (s.ppu.hdmaDst.toNat + 0) % 0x2000 = s.ppu.hdmaDst.toNat := Nat.mod_eq_of_lt hdst
        rw [ha] at hopen hi ⊢
        rw [State.vramDmaCopy, hother _ (fun k hk => by omega), vramDmaByte_read s hcgb, hd, if_pos rfl,
          (vramDmaOpen_eq_false_iff _).2 hopen]
        rfl
      | succ k =>
        refine (hread k (by omega) hopen ((hf.infraredAt _).trans hi)).trans (hf.peek ?_ hi fun h1 h2 => ?_)
        · omega
        · omega
    · dsimp only at hj
      rw [State.vramDmaCopy, hother j (fun k hk => hj (k + 1) (by omega)), vramDmaByte_read s hcgb, if_neg]
      have h0 := hj 0 (by omega)
      rwa [Nat.add_zero, Nat.mod_eq_of_lt hdst] at h0

/-- What follows a copy without touching VRAM or the addresses is part of it. -/
theorem VramCopied.extend {s t u : State} {n : Nat} (h : VramCopied s t n) (hv : u.ppu.vram = t.ppu.vram)
    (hsrc : u.ppu.hdmaSrc = t.ppu.hdmaSrc) (hdst : u.ppu.hdmaDst = t.ppu.hdmaDst) (hc : t.charge ≤ u.charge) :
    VramCopied s u n := by
  obtain ⟨h1, h2, h3, h4, h5⟩ := h
  refine ⟨?_, ?_, hsrc.trans h3, hdst ▸ h4, Nat.le_trans h5 hc⟩
  · rw [hv]
    exact h1
  · rw [hv]
    exact h2

/-- What comes before a copy without touching what it depends on is part of it. -/
theorem VramCopied.after_idle {s t u : State} {n : Nat} (hf : PpuFrame s u) (hidle : VramDmaIdle s u)
    (hvbk : u.ppu.vbk = s.ppu.vbk) (h : VramCopied u t n) : VramCopied s t n := by
  obtain ⟨ivram, isrc, idst, -, -, icharge⟩ := hidle
  obtain ⟨h1, h2, h3, h4, h5⟩ := h
  rw [isrc, idst, hvbk] at h1
  rw [ivram, idst, hvbk] at h2
  rw [isrc] at h3
  rw [idst] at h4
  rw [icharge] at h5
  refine ⟨fun k hk hopen hi => ?_, h2, h3, h4, h5⟩
  refine (h1 k hk hopen ((hf.infraredAt _).trans hi)).trans (hf.peek (by omega) hi fun h8 hA => ?_)
  omega

theorem endBlock_charge (s : State) (p : Ppu) : s.charge ≤ (s.setPpu p).chargeDraw.charge := Nat.le_add_right _ _

/-- The count and the charge that follow a copy. -/
theorem VramCopied.count {s t : State} {n : Nat} (h : VramCopied s t n) (left : Nat) (active : Bool) :
    VramCopied s (t.setPpu { t.ppu with hdmaLeft := left, hdmaActive := active }).chargeDraw n :=
  h.extend rfl rfl rfl (endBlock_charge _ _)

theorem generalDma_copied (s : State) {n : Nat} (hcgb : s.params.cgb = true) (hn : 16 * n ≤ 0x2000) :
    VramCopied s (s.generalDma n) (16 * n) :=
  VramCopied.count (t := State.vramDmaBlocks n s) (vramDmaCopy_copied (16 * n) s hcgb hn) 0 _

/-! ### A write to HDMA5 -/

theorem generalDma_registers (s : State) (n : Nat) :
    (s.generalDma n).ppu.hdmaActive = s.ppu.hdmaActive ∧ (s.generalDma n).ppu.hdmaLeft = 0 :=
  ⟨vramDmaBlocks_active n s, rfl⟩

theorem bit7_iff : ∀ v : Byte, v.getLsbD 7 = true ↔ 0x80 ≤ v.toNat := by decide

theorem lowBits_toNat : ∀ b : Byte, ((b - 1) &&& 0x7F).toNat = (b.toNat + 127) % 128 ∧
    (0x80 ||| ((b - 1) &&& 0x7F)).toNat = 0x80 + (b.toNat + 127) % 128 := by decide

/-- HDMA5 reads the count of blocks less one, under bit 7 when no HBlank DMA is active (62 rule R1163). -/
theorem readHdma5_toNat (p : Ppu) :
    p.readHdma5.toNat = (p.hdmaLeft + 127) % 128 + if p.hdmaActive then 0 else 0x80 := by
  obtain ⟨hlow, hhigh⟩ := lowBits_toNat (BitVec.ofNat 8 p.hdmaLeft)
  rw [BitVec.toNat_ofNat] at hlow hhigh
  unfold Ppu.readHdma5
  cases p.hdmaActive with
  | true =>
    rw [if_pos rfl, if_pos rfl, hlow]
    omega
  | false =>
    rw [if_neg Bool.false_ne_true, if_neg Bool.false_ne_true, hhigh]
    omega

section
variable {s : State} {v : Byte}

theorem regionOf_hdma5 (hcgb : s.params.cgb = true) : regionOf s.params.cgb 0xFF55 = .io .hdma5 := by
  rw [hcgb]
  rfl

theorem writeHdma5_start (h : 0x80 ≤ v.toNat) :
    s.writeHdma5 v = { s with ppu := { s.ppu with hdmaActive := true, hdmaLeft := v.toNat - 0x80 + 1 } } := by
  have hlt := v.isLt
  have e : v.toNat % 128 = v.toNat - 0x80 := by omega
  rw [State.writeHdma5, if_pos ((bit7_iff v).2 h), e]
  rfl

theorem writeHdma5_cancel (h : v.toNat < 0x80) (ha : s.ppu.hdmaActive = true) :
    s.writeHdma5 v = { s with ppu := { s.ppu with hdmaActive := false } } := by
  rw [State.writeHdma5, if_neg (mt (bit7_iff v).1 (Nat.not_le.2 h)), if_pos ha]
  rfl

theorem writeHdma5_general (h : v.toNat < 0x80) (ha : s.ppu.hdmaActive = false) :
    s.writeHdma5 v = s.generalDma (v.toNat + 1) := by
  rw [State.writeHdma5, if_neg (mt (bit7_iff v).1 (Nat.not_le.2 h)), if_neg (ne_true_of_eq_false ha), Nat.mod_eq_of_lt h]

end

/-! ### The block at a mode-0 entry -/

theorem VramDmaIdle.refl (s : State) : VramDmaIdle s s := ⟨rfl, rfl, rfl, rfl, rfl, rfl⟩

theorem VramDmaIdle.trans {s t u : State} (h1 : VramDmaIdle s t) (h2 : VramDmaIdle t u) : VramDmaIdle s u := by
  obtain ⟨a1, b1, c1, d1, e1, f1⟩ := h1
  obtain ⟨a2, b2, c2, d2, e2, f2⟩ := h2
  exact ⟨a2.trans a1, b2.trans b1, c2.trans c1, d2.trans d1, e2.trans e1, f2.trans f1⟩

theorem ppuAdvance_idle (s : State) : VramDmaIdle s s.ppuAdvance := by
  unfold State.ppuAdvance
  split <;> exact ⟨rfl, rfl, rfl, rfl, rfl, rfl⟩

theorem ppuPixel_idle (s : State) : VramDmaIdle s s.ppuPixel := by
  unfold State.ppuPixel
  split <;> exact ⟨rfl, rfl, rfl, rfl, rfl, rfl⟩

/-- The mode-0 entry before its block. -/
def State.enterHblank (s : State) : State := (s.setPpu s.ppu.endTransfer).requestIf (s.ppu.stat.getLsbD 3) 1

theorem hblankEntry_eq (s : State) : s.hblankEntry = s.enterHblank.hblankDma := rfl

theorem enterHblank_frame (s : State) : PpuFrame s s.enterHblank := rfl

theorem enterHblank_idle (s : State) : VramDmaIdle s s.enterHblank := ⟨rfl, rfl, rfl, rfl, rfl, rfl⟩

/-- The position of a mode-0 entry. -/
def Ppu.AtHblank (p : Ppu) : Prop := p.line < 144 ∧ p.lineCycle = 80 + p.mode3Len

theorem ppuEvents_atHblank {s : State} (h : s.ppu.AtHblank) (h3 : 0 < s.ppu.mode3Len) : s.ppuEvents = s.hblankEntry := by
  obtain ⟨hl, hc⟩ := h
  rw [State.ppuEvents, if_pos hl, if_neg (by omega), if_neg (by omega), if_pos hc]

/-- No other event touches VRAM DMA. -/
theorem ppuEvents_idle {s : State} (h : ¬ s.ppu.AtHblank) : VramDmaIdle s s.ppuEvents := by
  unfold State.ppuEvents
  split
  · split
    · exact ⟨rfl, rfl, rfl, rfl, rfl, rfl⟩
    · split
      · exact ⟨rfl, rfl, rfl, rfl, rfl, rfl⟩
      · rw [if_neg fun hc => h ⟨‹_›, hc⟩]
        exact .refl s
  · split
    · exact ⟨rfl, rfl, rfl, rfl, rfl, rfl⟩
    · split
      · exact ⟨rfl, rfl, rfl, rfl, rfl, rfl⟩
      · exact .refl s

theorem hblankDma_block {s : State} (hcgb : s.params.cgb = true) (ha : s.ppu.hdmaActive = true) :
    s.hblankDma = ((State.vramDmaBlocks 1 s).setPpu { (State.vramDmaBlocks 1 s).ppu with
      hdmaLeft := (State.vramDmaBlocks 1 s).ppu.hdmaLeft - 1
      hdmaActive := decide ((State.vramDmaBlocks 1 s).ppu.hdmaLeft - 1 ≠ 0) }).chargeDraw := by
  have hc : (s.params.cgb && s.ppu.hdmaActive) = true := by rw [hcgb, ha]; rfl
  exact if_pos hc

theorem vramDmaBlocks_left (n : Nat) (s : State) : (State.vramDmaBlocks n s).ppu.hdmaLeft = s.ppu.hdmaLeft :=
  congrArg Prod.fst (vramDmaCopy_regView (16 * n) s)

/-- One block is copied and counted; the last ends the DMA (62 rule R1164). -/
theorem hblankDma_copied {s : State} (hcgb : s.params.cgb = true) (ha : s.ppu.hdmaActive = true) :
    VramCopied s s.hblankDma 16 ∧ s.hblankDma.ppu.hdmaLeft = s.ppu.hdmaLeft - 1 ∧
      s.hblankDma.ppu.hdmaActive = decide (s.ppu.hdmaLeft - 1 ≠ 0) := by
  have hcopy : VramCopied s (State.vramDmaBlocks 1 s) 16 := vramDmaCopy_copied (16 * 1) s hcgb (by decide)
  have hleft := vramDmaBlocks_left 1 s
  rw [hblankDma_block hcgb ha]
  generalize State.vramDmaBlocks 1 s = t at hcopy hleft ⊢
  rw [← hleft]
  exact ⟨hcopy.count _ _, rfl, rfl⟩

/-- In one cycle the events of the position reached, before the pixel. -/
theorem ppuCycle_of_lcdOn {s : State} (h : s.ppu.lcdOn = true) : s.ppuCycle = s.ppuAdvance.ppuEvents.ppuPixel := if_pos h

theorem ppuCycle_of_lcdOff {s : State} (h : ¬ s.ppu.lcdOn = true) : s.ppuCycle = s := if_neg h

/-- A cycle reaches a mode-0 entry from the position before it. -/
theorem ppuAdvance_atHblank {s : State} (h : s.ppu.LineInv) :
    s.ppuAdvance.ppu.AtHblank ↔ s.ppu.line < 144 ∧ s.ppu.lineCycle + 1 = 80 + s.ppu.mode3Len := by
  obtain ⟨hline, hcycle, -, h172, h232, -⟩ := h
  obtain ⟨-, -, h3, -⟩ := ppuAdvance_rest s
  unfold Ppu.AtHblank
  rw [ppuAdvance_line, ppuAdvance_lineCycle, h3]
  split
  · exact Iff.rfl
  · omega

theorem ppuAdvance_vbk (s : State) : s.ppuAdvance.ppu.vbk = s.ppu.vbk := by
  unfold State.ppuAdvance
  split <;> rfl

/-- The cycle that enters mode 0 with an HBlank DMA active copies a block. -/
theorem ppuCycle_block {s : State} (h : s.ppu.LineInv) (hon : s.ppu.lcdOn = true) (hcgb : s.params.cgb = true)
    (ha : s.ppu.hdmaActive = true) (hat : s.ppu.line < 144 ∧ s.ppu.lineCycle + 1 = 80 + s.ppu.mode3Len) :
    VramCopied s s.ppuCycle 16 ∧ s.ppuCycle.ppu.hdmaLeft = s.ppu.hdmaLeft - 1 ∧
      s.ppuCycle.ppu.hdmaActive = decide (s.ppu.hdmaLeft - 1 ≠ 0) := by
  have h3 : 0 < s.ppuAdvance.ppu.mode3Len := by
    rw [(ppuAdvance_rest s).2.2.1]
    exact Nat.lt_of_lt_of_le (by decide) h.2.2.2.1
  have hidle := (ppuAdvance_idle s).trans (enterHblank_idle _)
  have hf : PpuFrame s s.ppuAdvance.enterHblank := (ppuAdvance_frame s).trans (enterHblank_frame _)
  obtain ⟨-, -, -, hactive, hleft, -⟩ := id hidle
  obtain ⟨hcopy, hl, hact⟩ := hblankDma_copied (s := s.ppuAdvance.enterHblank) (by rw [hf.params, hcgb]) (by rw [hactive, ha])
  obtain ⟨pvram, psrc, pdst, pactive, pleft, pcharge⟩ := ppuPixel_idle s.ppuAdvance.enterHblank.hblankDma
  rw [ppuCycle_of_lcdOn hon, ppuEvents_atHblank ((ppuAdvance_atHblank h).2 hat) h3, hblankEntry_eq]
  refine ⟨?_, by rw [pleft, hl, hleft], by rw [pactive, hact, hleft]⟩
  exact (hcopy.after_idle hf hidle (ppuAdvance_vbk s)).extend pvram psrc pdst (Nat.le_of_eq pcharge.symm)

/-- No other cycle copies. -/
theorem ppuCycle_idle {s : State} (h : s.ppu.LineInv) (hno : ¬ (s.params.cgb = true ∧ s.ppu.hdmaActive = true ∧
    s.ppu.lcdOn = true ∧ s.ppu.line < 144 ∧ s.ppu.lineCycle + 1 = 80 + s.ppu.mode3Len)) : VramDmaIdle s s.ppuCycle := by
  by_cases hon : s.ppu.lcdOn = true
  · rw [ppuCycle_of_lcdOn hon]
    refine ((ppuAdvance_idle s).trans ?_).trans (ppuPixel_idle _)
    by_cases hat : s.ppuAdvance.ppu.AtHblank
    · have h3 : 0 < s.ppuAdvance.ppu.mode3Len := by
        rw [(ppuAdvance_rest s).2.2.1]
        exact Nat.lt_of_lt_of_le (by decide) h.2.2.2.1
      have hidle := (ppuAdvance_idle s).trans (enterHblank_idle _)
      have hf : PpuFrame s s.ppuAdvance.enterHblank := (ppuAdvance_frame s).trans (enterHblank_frame _)
      obtain ⟨-, -, -, hactive, -, -⟩ := hidle
      have hoff : s.ppuAdvance.enterHblank.params.cgb = false ∨ s.ppuAdvance.enterHblank.ppu.hdmaActive = false := by
        rw [hf.params, hactive, ← Bool.not_eq_true, ← Bool.not_eq_true, ← not_and_or]
        exact fun ⟨hcgb, ha⟩ => hno ⟨hcgb, ha, hon, (ppuAdvance_atHblank h).1 hat⟩
      rw [ppuEvents_atHblank hat h3, hblankEntry_eq, hblankDma_idle hoff]
      exact enterHblank_idle _
    · exact ppuEvents_idle hat
  · rw [ppuCycle_of_lcdOff hon]
    exact .refl s

/-- Settles O51: the write to HDMA5 by its bit 7 and whether a DMA is active, the cycle by the event it reaches. -/
theorem vramDma : Obligations.VramDma := by
  refine ⟨fun s v hcgb hw => ?write, fun s hinv hleft => ?cycle⟩
  case write =>
    intro t
    have hr := regionOf_hdma5 hcgb
    have hlt := v.isLt
    have ht : t = s.writeHdma5 v := busWrite_io hw hr v
    have hpeek : (t.peek true 0xFF55).toNat = (t.ppu.hdmaLeft + 127) % 128 + if t.ppu.hdmaActive then 0 else 0x80 := by
      rw [peek_io (r := .hdma5) (by rw [show t.params = s.params from busWrite_params s _ v]; exact hr)]
      exact readHdma5_toNat t.ppu
    refine ⟨fun hv ha => ?general, fun hv ha => ?cancel, fun hv => ?start⟩
    case general =>
      obtain ⟨hactive, hzero⟩ := generalDma_registers s (v.toNat + 1)
      rw [writeHdma5_general hv ha] at ht
      constructor
      · rw [ht, Nat.mul_comm]
        exact generalDma_copied s hcgb (by omega)
      · apply BitVec.eq_of_toNat_eq
        rw [hpeek, ht, hactive, hzero, ha]
        rfl
    case cancel =>
      rw [writeHdma5_cancel hv ha] at ht
      refine ⟨ht, ?_⟩
      rw [hpeek, ht]
      exact Nat.add_comm _ _
    case start =>
      rw [writeHdma5_start hv] at ht
      refine ⟨ht, ?_⟩
      rw [hpeek, ht]
      show (v.toNat - 0x80 + 1 + 127) % 128 + 0 = _
      omega
  case cycle =>
    intro t block
    refine ⟨fun ⟨hcgb, ha, hon, hat⟩ => ?_, fun hno => ppuCycle_idle hinv hno⟩
    obtain ⟨hcopy, hl, hact⟩ := ppuCycle_block hinv hon hcgb ha hat
    refine ⟨hcopy, hl, ?_⟩
    have hne := hleft ha
    rw [show t.ppu.hdmaActive = _ from hact, decide_eq_true_eq]
    omega

end Sys2Proof.Machine
end

section
/-! PROOFS. The line machine (O49): the event of a position, what each event does, one cycle, any number of cycles, and the register
writes that restart the machine. -/

namespace Sys2Proof.Machine

/-! ### Requests -/

/-- The requests of `t` are those of `s`, VBlank's if `v`, and the STAT request if `r` (60 rule R820). -/
structure Requests (s t : State) (v r : Prop) : Prop where
  vblank : t.iflag.getLsbD 0 = true ↔ s.iflag.getLsbD 0 = true ∨ v
  stat : t.iflag.getLsbD 1 = true ↔ s.iflag.getLsbD 1 = true ∨ r
  rest : ∀ j, 2 ≤ j → j < 5 → t.iflag.getLsbD j = s.iflag.getLsbD j

namespace Requests

variable {s t u : State} {v v' r r' : Prop}

theorem of_eq (h : t.iflag = s.iflag) : Requests s t False False :=
  ⟨by rw [h, or_false], by rw [h, or_false], fun _ _ _ => by rw [h]⟩

theorem trans (h1 : Requests s t v r) (h2 : Requests t u v' r') : Requests s u (v ∨ v') (r ∨ r') :=
  ⟨by rw [h2.vblank, h1.vblank, or_assoc], by rw [h2.stat, h1.stat, or_assoc],
    fun j hj hj' => (h2.rest j hj hj').trans (h1.rest j hj hj')⟩

theorem congr (h : Requests s t v r) (hv : v ↔ v') (hr : r ↔ r') : Requests s t v' r' :=
  ⟨h.vblank.trans (or_congr_right hv), h.stat.trans (or_congr_right hr), h.rest⟩

theorem of_setPpu {p : Ppu} (h : Requests (s.setPpu p) t v r) : Requests s t v r := ⟨h.vblank, h.stat, h.rest⟩

theorem requestIf_vblank (s : State) (b : Bool) : Requests s (s.requestIf b 0) (b = true) False := by
  refine ⟨?_, ?_, fun j hj hj' => ?_⟩
  · rw [requestIf_getLsbD s b (by decide)]
    simp
  · rw [requestIf_getLsbD s b (by decide)]
    simp
  · rw [requestIf_getLsbD s b hj', decide_eq_false (by omega), Bool.and_false, Bool.or_false]

theorem requestIf_stat (s : State) (b : Bool) : Requests s (s.requestIf b 1) False (b = true) := by
  refine ⟨?_, ?_, fun j hj hj' => ?_⟩
  · rw [requestIf_getLsbD s b (by decide)]
    simp
  · rw [requestIf_getLsbD s b (by decide)]
    simp
  · rw [requestIf_getLsbD s b hj', decide_eq_false (by omega), Bool.and_false, Bool.or_false]

/-- A STAT request after an update of the PPU. -/
theorem setPpu_stat (s : State) (p : Ppu) (b : Bool) : Requests s ((s.setPpu p).requestIf b 1) False (b = true) :=
  (requestIf_stat (s.setPpu p) b).of_setPpu

theorem statRequests (h : Requests s t False r) : StatRequests s t r := by
  refine ⟨fun j hj hj' => ?_, h.stat⟩
  by_cases h0 : j = 0
  · rw [h0, Bool.eq_iff_iff, h.vblank, or_false]
  · exact h.rest j (by omega) hj

end Requests

/-! ### The compare with LYC -/

/-- The compare requests exactly where it matches (62 rule R1114). -/
theorem compareLy_requests (s : State) : Requests s s.compareLy False (s.ppu.Matches s.ppu.lyVisible) := by
  refine (Requests.setPpu_stat s _ _).congr Iff.rfl ?_
  unfold Ppu.Matches
  rw [Bool.and_eq_true, Bool.and_eq_true, decide_eq_true_eq, Bool.not_eq_true', and_assoc]

theorem compareLy_ppu (s : State) :
    s.compareLy.ppu = { s.ppu with coincidence := decide (s.ppu.lyVisible = s.ppu.lyc.toNat) } := rfl

theorem lyVisible_of_lcdOn {p : Ppu} (h : p.lcdc.getLsbD 7 = true) :
    p.lyVisible = if p.line = 153 ∧ 448 ≤ p.lineCycle then 0 else p.line := by
  simp only [Ppu.lyVisible, Ppu.lcdOn, h, Bool.not_true, Bool.false_eq_true, if_false]

/-! ### The event of a position -/

/-- What happens when the PPU reaches a position (62 rules R1112, R1114). -/
inductive PpuEvent
  | start | draw | hblank | vblank | wrap | quiet
  deriving DecidableEq

/-- The event of the position. -/
def Ppu.event (p : Ppu) : PpuEvent :=
  if p.line < 144 then
    if p.lineCycle = 0 then .start
    else if p.lineCycle = 80 then .draw
    else if p.lineCycle = 80 + p.mode3Len then .hblank
    else .quiet
  else if p.line = 144 ∧ p.lineCycle = 0 then .vblank
  else if p.line = 153 ∧ p.lineCycle = 448 then .wrap
  else .quiet

/-- What an event does. -/
def State.runEvent (s : State) : PpuEvent → State
  | .start => s.lineStart
  | .draw => s.setPpu { s.ppu with mode := .transfer }
  | .hblank => s.hblankEntry
  | .vblank => s.vblankEntry
  | .wrap => s.compareLy
  | .quiet => s

theorem ppuEvents_eq (s : State) : s.ppuEvents = s.runEvent s.ppu.event := by
  unfold State.ppuEvents Ppu.event
  simp only [apply_ite s.runEvent]
  rfl

section
variable (p : Ppu)

theorem event_eq_start_iff : p.event = .start ↔ p.line < 144 ∧ p.lineCycle = 0 := by
  unfold Ppu.event
  grind

theorem event_eq_draw_iff : p.event = .draw ↔ p.line < 144 ∧ p.lineCycle = 80 := by
  unfold Ppu.event
  grind

theorem event_eq_hblank_iff (h : 0 < p.mode3Len) : p.event = .hblank ↔ p.line < 144 ∧ p.lineCycle = 80 + p.mode3Len := by
  unfold Ppu.event
  grind

theorem event_eq_vblank_iff : p.event = .vblank ↔ p.line = 144 ∧ p.lineCycle = 0 := by
  unfold Ppu.event
  grind

theorem event_eq_wrap_iff : p.event = .wrap ↔ p.line = 153 ∧ p.lineCycle = 448 := by
  unfold Ppu.event
  grind

end

/-! ### What an event does -/

/-- VRAM DMA changes VRAM and its own registers, nothing else of the PPU. -/
def Ppu.DmaFrame (p q : Ppu) : Prop :=
  q = { p with vram := q.vram, hdmaSrc := q.hdmaSrc, hdmaDst := q.hdmaDst, hdmaActive := q.hdmaActive, hdmaLeft := q.hdmaLeft }

theorem vramDmaByte_dmaFrame (s : State) : s.ppu.DmaFrame s.vramDmaByte.ppu := rfl

theorem Ppu.DmaFrame.trans {p q r : Ppu} (h1 : p.DmaFrame q) (h2 : q.DmaFrame r) : p.DmaFrame r := by
  unfold Ppu.DmaFrame at *
  rw [h2, h1]

theorem vramDmaCopy_dmaFrame (n : Nat) (s : State) : s.ppu.DmaFrame (State.vramDmaCopy n s).ppu := by
  induction n generalizing s with
  | zero => rfl
  | succ k ih => exact (vramDmaByte_dmaFrame s).trans (ih _)

theorem endBlock_dmaFrame (s : State) (n : Nat) (b : Bool) :
    s.ppu.DmaFrame (s.setPpu { s.ppu with hdmaLeft := n, hdmaActive := b }).chargeDraw.ppu := rfl

theorem hblankDma_dmaFrame (s : State) : s.ppu.DmaFrame s.hblankDma.ppu := by
  unfold State.hblankDma
  split
  · exact (vramDmaCopy_dmaFrame _ s).trans (endBlock_dmaFrame _ _ _)
  · rfl

theorem hblankEntry_dmaFrame (s : State) : s.ppu.endTransfer.DmaFrame s.hblankEntry.ppu :=
  hblankDma_dmaFrame s.enterHblank

theorem hblankEntry_ppu (s : State) : s.hblankEntry.ppu.mode = .hblank ∧ s.hblankEntry.ppu.sprites = s.ppu.sprites ∧
    s.hblankEntry.ppu.mode3Len = s.ppu.mode3Len ∧ s.hblankEntry.ppu.coincidence = s.ppu.coincidence ∧
    s.hblankEntry.ppu.frames = s.ppu.frames := by
  have h := hblankEntry_dmaFrame s
  unfold Ppu.DmaFrame at h
  rw [h]
  exact ⟨rfl, rfl, rfl, rfl, rfl⟩

theorem hblankEntry_requests (s : State) : Requests s s.hblankEntry False (s.ppu.stat.getLsbD 3 = true) := by
  have hdma : s.hblankEntry.iflag = s.enterHblank.iflag := by
    obtain ⟨hf, -⟩ := hblankDma_vramDmaFrame s.enterHblank
    rw [hblankEntry_eq, hf]
  have h := (Requests.setPpu_stat s s.ppu.endTransfer (s.ppu.stat.getLsbD 3)).trans (.of_eq hdma)
  rwa [or_false, or_false] at h

theorem vblankEntry_requests (s : State) : Requests s s.vblankEntry True (s.ppu.stat.getLsbD 4 = true) := by
  have h := (Requests.requestIf_vblank (s.setPpu { s.ppu with mode := .vblank, frames := s.ppu.frames + 1 }) true).trans
    (.requestIf_stat _ (s.ppu.stat.getLsbD 4))
  rw [or_false, false_or, eq_self_iff_true] at h
  exact h.of_setPpu

section
variable (s : State) (e : PpuEvent)

/-- The mode an event leaves (62 rule R1112). -/
theorem runEvent_mode : (s.runEvent e).ppu.mode =
    match e with
    | .start => .oamSearch
    | .draw => .transfer
    | .hblank => .hblank
    | .vblank => .vblank
    | .wrap | .quiet => s.ppu.mode := by
  cases e with
  | hblank => exact (hblankEntry_ppu s).1
  | start | draw | vblank | wrap | quiet => rfl

/-- Only the start of a line selects sprites and fixes L3 (62 rule R1113; 63 rule R1230). -/
theorem runEvent_selection (h : e ≠ .start) :
    (s.runEvent e).ppu.sprites = s.ppu.sprites ∧ (s.runEvent e).ppu.mode3Len = s.ppu.mode3Len := by
  cases e with
  | start => exact absurd rfl h
  | hblank => 
    obtain ⟨-, hsprites, hlen, -⟩ := hblankEntry_ppu s
    exact ⟨hsprites, hlen⟩
  | draw | vblank | wrap | quiet => exact ⟨rfl, rfl⟩

theorem runEvent_coincidence : (s.runEvent e).ppu.coincidence =
    if e = .wrap then decide (s.ppu.lyVisible = s.ppu.lyc.toNat) else s.ppu.coincidence := by
  cases e with
  | hblank =>
    obtain ⟨-, -, -, hcoincidence, -⟩ := hblankEntry_ppu s
    exact hcoincidence
  | start | draw | vblank | wrap | quiet => rfl

theorem runEvent_frames : (s.runEvent e).ppu.frames = s.ppu.frames + if e = .vblank then 1 else 0 := by
  cases e with
  | hblank =>
    obtain ⟨-, -, -, -, hframes⟩ := hblankEntry_ppu s
    exact hframes
  | start | draw | vblank | wrap | quiet => rfl

/-- The STAT request of an event (62 rules R1112, R1114). -/
def State.EventStat : PpuEvent → Prop
  | .start => s.ppu.stat.getLsbD 5 = true
  | .hblank => s.ppu.stat.getLsbD 3 = true
  | .vblank => s.ppu.stat.getLsbD 4 = true
  | .wrap => s.ppu.Matches s.ppu.lyVisible
  | .draw | .quiet => False

theorem runEvent_requests : Requests s (s.runEvent e) (e = .vblank) (s.EventStat e) := by
  cases e with
  | start => exact (Requests.setPpu_stat s s.ppu.startLine _).congr (by decide) Iff.rfl
  | draw => exact Requests.congr (.of_eq rfl) (by decide) Iff.rfl
  | hblank => exact (hblankEntry_requests s).congr (by decide) Iff.rfl
  | vblank => exact (vblankEntry_requests s).congr (by decide) Iff.rfl
  | wrap => exact (compareLy_requests s).congr (by decide) Iff.rfl
  | quiet => exact Requests.congr (.of_eq rfl) (by decide) Iff.rfl

/-- The start of a line, from the position it stands at. -/
theorem lineStart_started : s.lineStart.ppu.LineStarted ∧
    s.lineStart.ppu.windowLine = if s.ppu.line = 0 then 0 else s.ppu.windowLine :=
  ⟨⟨rfl, rfl, rfl, rfl⟩, rfl⟩

end

/-! ### One cycle -/

theorem ppuAdvance_within {s : State} (h : s.ppu.lineCycle + 1 < 456) :
    s.ppuAdvance = s.setPpu { s.ppu with lineCycle := s.ppu.lineCycle + 1 } := if_pos h

theorem ppuAdvance_nextLine {s : State} (h : ¬ s.ppu.lineCycle + 1 < 456) :
    s.ppuAdvance = (s.setPpu { s.ppu with line := (s.ppu.line + 1) % 154, lineCycle := 0 }).compareLy := if_neg h

/-- Advancing moves the position, and compares where a line begins. -/
theorem ppuAdvance_ppu (s : State) : s.ppuAdvance.ppu =
    { s.ppu with
      line := s.ppuAdvance.ppu.line
      lineCycle := s.ppuAdvance.ppu.lineCycle
      coincidence := if s.ppuAdvance.ppu.lineCycle = 0 then decide (s.ppuAdvance.ppu.lyVisible = s.ppu.lyc.toNat)
        else s.ppu.coincidence } := by
  unfold State.ppuAdvance
  split <;> rfl

theorem ppuAdvance_requests (s : State) : Requests s s.ppuAdvance False
    (s.ppuAdvance.ppu.lineCycle = 0 ∧ s.ppu.Matches s.ppuAdvance.ppu.lyVisible) := by
  by_cases h : s.ppu.lineCycle + 1 < 456
  · rw [ppuAdvance_within h]
    have hpos : ¬ (s.ppu.lineCycle + 1 = 0 ∧ s.ppu.Matches { s.ppu with lineCycle := s.ppu.lineCycle + 1 }.lyVisible) :=
      fun hc => Nat.succ_ne_zero _ hc.1
    exact Requests.congr (.of_eq rfl) Iff.rfl (iff_of_false id hpos)
  · rw [ppuAdvance_nextLine h]
    have hreq := (compareLy_requests (s.setPpu { s.ppu with line := (s.ppu.line + 1) % 154, lineCycle := 0 })).of_setPpu
    exact hreq.congr Iff.rfl ⟨fun hm => ⟨rfl, hm⟩, And.right⟩

/-- Composing a pixel writes the frame and the window's flag (63 rule R1201). -/
theorem ppuPixel_ppu (s : State) :
    s.ppuPixel.ppu = { s.ppu with frame := s.ppuPixel.ppu.frame, windowHit := s.ppuPixel.ppu.windowHit } := by
  unfold State.ppuPixel
  split <;> rfl

theorem ppuPixel_requests (s : State) : Requests s s.ppuPixel False False := by
  refine .of_eq ?_
  unfold State.ppuPixel
  split <;> rfl

/-- A cycle with the LCD on: the position moves, its event runs, and a pixel is composed. -/
theorem ppuCycle_eq {s : State} (h : s.ppu.lcdc.getLsbD 7 = true) :
    s.ppuCycle = (s.ppuAdvance.runEvent s.ppuAdvance.ppu.event).ppuPixel := by
  rw [ppuCycle_of_lcdOn h, ppuEvents_eq]

theorem ppuCycle_position {s : State} (h : s.ppu.lcdc.getLsbD 7 = true) :
    s.ppuCycle.ppu.line = s.ppuAdvance.ppu.line ∧ s.ppuCycle.ppu.lineCycle = s.ppuAdvance.ppu.lineCycle ∧
      s.ppuCycle.ppu.lcdc = s.ppu.lcdc := by
  obtain ⟨hline, hcycle, hlcdc⟩ := ppuEvents_position s.ppuAdvance
  rw [ppuCycle_of_lcdOn h, ppuPixel_ppu]
  exact ⟨hline, hcycle, hlcdc.trans (ppuAdvance_rest s).2.2.2⟩

/-- The requests of a cycle: those of the compare where a line begins, and those of the event. -/
theorem ppuCycle_requests {s : State} (h : s.ppu.lcdc.getLsbD 7 = true) :
    Requests s s.ppuCycle (s.ppuAdvance.ppu.event = .vblank)
      ((s.ppuAdvance.ppu.lineCycle = 0 ∧ s.ppu.Matches s.ppuAdvance.ppu.lyVisible) ∨
        s.ppuAdvance.EventStat s.ppuAdvance.ppu.event) := by
  rw [ppuCycle_eq h]
  exact (((ppuAdvance_requests s).trans (runEvent_requests _ _)).trans (ppuPixel_requests _)).congr (by simp) (by simp)

theorem ppuCycle_frames {s : State} (h : s.ppu.lcdc.getLsbD 7 = true) :
    s.ppuCycle.ppu.frames = s.ppu.frames + if s.ppuAdvance.ppu.event = .vblank then 1 else 0 := by
  rw [ppuCycle_eq h, ppuPixel_ppu]
  exact (runEvent_frames _ _).trans (by rw [ppuAdvance_ppu])

/-- The start of a line, through the pixel of its first cycle. -/
theorem ppuCycle_starts {s : State} (h : s.ppu.lcdc.getLsbD 7 = true) (he : s.ppuAdvance.ppu.event = .start) :
    s.ppuCycle.ppu.LineStarted ∧
      s.ppuCycle.ppu.windowLine = if s.ppuCycle.ppu.line = 0 then 0 else s.ppu.windowLine := by
  obtain ⟨hstarted, hwindow⟩ := lineStart_started s.ppuAdvance
  rw [(ppuCycle_position h).1, ppuCycle_eq h, he, ppuPixel_ppu]
  exact ⟨hstarted, hwindow.trans (by rw [ppuAdvance_ppu])⟩

theorem ppuCycle_mode {s : State} (h : s.ppu.lcdc.getLsbD 7 = true) :
    s.ppuCycle.ppu.mode = (s.ppuAdvance.runEvent s.ppuAdvance.ppu.event).ppu.mode := by
  rw [ppuCycle_eq h, ppuPixel_ppu]

theorem ppuCycle_selection {s : State} (h : s.ppu.lcdc.getLsbD 7 = true) (he : s.ppuAdvance.ppu.event ≠ .start) :
    s.ppuCycle.ppu.sprites = s.ppu.sprites ∧ s.ppuCycle.ppu.mode3Len = s.ppu.mode3Len := by
  obtain ⟨hsprites, hlen⟩ := runEvent_selection s.ppuAdvance _ he
  obtain ⟨-, hsprites', hlen', -⟩ := ppuAdvance_rest s
  rw [ppuCycle_eq h, ppuPixel_ppu]
  exact ⟨hsprites.trans hsprites', hlen.trans hlen'⟩

/-- The compare runs where a line begins and where LY turns 0, nowhere else (62 rule R1114). -/
theorem ppuCycle_coincidence {s : State} (h : s.ppu.lcdc.getLsbD 7 = true) : s.ppuCycle.ppu.coincidence =
    if s.ppuAdvance.ppu.lineCycle = 0 ∨ s.ppuAdvance.ppu.event = .wrap
    then decide (s.ppuAdvance.ppu.lyVisible = s.ppu.lyc.toNat) else s.ppu.coincidence := by
  have hlyc : s.ppuAdvance.ppu.lyc = s.ppu.lyc := by rw [ppuAdvance_ppu]
  have hadvance : s.ppuAdvance.ppu.coincidence = if s.ppuAdvance.ppu.lineCycle = 0
      then decide (s.ppuAdvance.ppu.lyVisible = s.ppu.lyc.toNat) else s.ppu.coincidence :=
    congrArg Ppu.coincidence (ppuAdvance_ppu s)
  have hevent : s.ppuCycle.ppu.coincidence = (s.ppuAdvance.runEvent s.ppuAdvance.ppu.event).ppu.coincidence := by
    rw [ppuCycle_eq h, ppuPixel_ppu]
  rw [hevent, runEvent_coincidence, hlyc, hadvance, ← ite_or]
  exact if_congr or_comm rfl rfl

/-- Where the compare of a line's first cycle has not run, the one of position 448 of line 153 looks at the match of before. -/
theorem ppuAdvance_matches {s : State} (h : s.ppuAdvance.ppu.lineCycle ≠ 0) (ly : Nat) :
    s.ppuAdvance.ppu.Matches ly ↔ s.ppu.Matches ly := by
  unfold Ppu.Matches
  rw [ppuAdvance_ppu, if_neg h]

theorem ppuAdvance_stat (s : State) : s.ppuAdvance.ppu.stat = s.ppu.stat := by rw [ppuAdvance_ppu]

/-- The STAT requests of a cycle, by the event of its position. -/
theorem ppuCycle_stat (s : State) :
    (s.ppuAdvance.ppu.lineCycle = 0 ∧ s.ppu.Matches s.ppuAdvance.ppu.lyVisible) ∨
        s.ppuAdvance.EventStat s.ppuAdvance.ppu.event ↔
      (s.ppuAdvance.ppu.event = .start ∧ s.ppu.stat.getLsbD 5 = true) ∨
      (s.ppuAdvance.ppu.event = .hblank ∧ s.ppu.stat.getLsbD 3 = true) ∨
      (s.ppuAdvance.ppu.event = .vblank ∧ s.ppu.stat.getLsbD 4 = true) ∨
      ((s.ppuAdvance.ppu.lineCycle = 0 ∨ s.ppuAdvance.ppu.event = .wrap) ∧ s.ppu.Matches s.ppuAdvance.ppu.lyVisible) := by
  cases he : s.ppuAdvance.ppu.event with
  | wrap =>
    have hcycle : s.ppuAdvance.ppu.lineCycle ≠ 0 := by
      rw [((event_eq_wrap_iff _).1 he).2]
      decide
    simp [State.EventStat, ppuAdvance_matches hcycle]
  | start | draw | hblank | vblank | quiet => simp [State.EventStat, ppuAdvance_stat, or_comm]

/-! ### Any number of cycles -/

/-- One cycle moves the position by one on the frame; a frame is complete where line 144 begins, and is requested. -/
theorem ppuCycle_onFrame {s : State} (h : s.ppu.lcdc.getLsbD 7 = true) (hl : s.ppu.line < 154) (hc : s.ppu.lineCycle < 456) :
    s.ppuCycle.ppu.line * 456 + s.ppuCycle.ppu.lineCycle = (s.ppu.line * 456 + s.ppu.lineCycle + 1) % 70224 ∧
      s.ppuCycle.ppu.line < 154 ∧ s.ppuCycle.ppu.lineCycle < 456 ∧
      s.ppuCycle.ppu.frames = s.ppu.frames +
        ((s.ppu.line * 456 + s.ppu.lineCycle + 4560 + 1) / 70224 - (s.ppu.line * 456 + s.ppu.lineCycle + 4560) / 70224) := by
  obtain ⟨hline, hcycle, -⟩ := ppuCycle_position h
  have e1 := ppuAdvance_line s
  have e2 := ppuAdvance_lineCycle s
  simp only [ppuCycle_frames h, event_eq_vblank_iff, hline, hcycle, e1, e2]
  by_cases hx : s.ppu.lineCycle + 1 < 456
  · simp only [if_pos hx, Nat.succ_ne_zero, and_false, if_false]
    omega
  · simp only [if_neg hx, and_true]
    split <;> omega

theorem ppuRun_of_lcdOff (n : Nat) {s : State} (h : s.ppu.lcdc.getLsbD 7 = false) : State.ppuRun n s = s := by
  induction n with
  | zero => rfl
  | succ k ih => rwa [State.ppuRun, ppuCycle_of_lcdOff (ne_true_of_eq_false h)]

/-- The frames completed by `n` cycles from a position of the frame. -/
theorem ppuRun_position (n : Nat) {s : State} (h : s.ppu.lcdc.getLsbD 7 = true) (hl : s.ppu.line < 154)
    (hc : s.ppu.lineCycle < 456) :
    (State.ppuRun n s).ppu.line * 456 + (State.ppuRun n s).ppu.lineCycle =
        (s.ppu.line * 456 + s.ppu.lineCycle + n) % 70224 ∧
      (State.ppuRun n s).ppu.lineCycle < 456 ∧
      (State.ppuRun n s).ppu.frames = s.ppu.frames +
        ((s.ppu.line * 456 + s.ppu.lineCycle + 4560 + n) / 70224 - (s.ppu.line * 456 + s.ppu.lineCycle + 4560) / 70224) := by
  induction n generalizing s with
  | zero =>
    rw [State.ppuRun]
    omega
  | succ k ih =>
    obtain ⟨hpos, hl', hc', hframes⟩ := ppuCycle_onFrame h hl hc
    obtain ⟨ihpos, ihc, ihframes⟩ := ih (by rw [(ppuCycle_position h).2.2]; exact h) hl' hc'
    rw [State.ppuRun, ihpos, ihframes, hframes, hpos]
    omega

/-- A frame completed is requested, and no cycle takes the request back. -/
theorem ppuRun_vblank (n : Nat) {s : State} (h : s.ppu.lcdc.getLsbD 7 = true)
    (hf : (State.ppuRun n s).ppu.frames ≠ s.ppu.frames) : (State.ppuRun n s).iflag.getLsbD 0 = true := by
  induction n generalizing s with
  | zero => exact absurd rfl hf
  | succ k ih =>
    by_cases he : s.ppuAdvance.ppu.event = .vblank
    · exact (ppuRun_clockFrame k s.ppuCycle).requests 0 ((ppuCycle_requests h).vblank.2 (Or.inr he))
    · have hkeep : s.ppuCycle.ppu.frames = s.ppu.frames := by rw [ppuCycle_frames h, if_neg he, Nat.add_zero]
      exact ih (by rw [(ppuCycle_position h).2.2]; exact h) (by rwa [hkeep])

/-! ### Register writes -/

theorem restartFrame_restarted (s : State) : Restarted s s.restartFrame := by
  have hly : (s.setPpu { s.ppu with line := 0, lineCycle := 0 }).lineStart.ppu.lyVisible = 0 := lyVisible_of_line_zero rfl
  have hreq := (Requests.setPpu_stat (s.setPpu { s.ppu with line := 0, lineCycle := 0 })
    (s.setPpu { s.ppu with line := 0, lineCycle := 0 }).ppu.startLine (s.ppu.stat.getLsbD 5)).trans
    (compareLy_requests (s.setPpu { s.ppu with line := 0, lineCycle := 0 }).lineStart)
  rw [hly, or_false] at hreq
  refine ⟨rfl, rfl, ⟨rfl, rfl, rfl, rfl⟩, rfl, ?_, hreq.of_setPpu.statRequests⟩
  show decide (Ppu.lyVisible _ = s.ppu.lyc.toNat) = true ↔ _
  rw [hly, decide_eq_true_eq]
  exact ⟨fun h => BitVec.eq_of_toNat_eq h.symm, fun h => h ▸ rfl⟩

theorem writeLy_restarts {s : State} (h : s.ppu.lcdc.getLsbD 7 = true) : s.writeLy = s.restartFrame := if_pos h

theorem writeLy_of_lcdOff {s : State} (h : s.ppu.lcdc.getLsbD 7 = false) :
    s.writeLy = { s with ppu := { s.ppu with line := 0, lineCycle := 0, windowLine := 0 } } :=
  if_neg (ne_true_of_eq_false h)

section
variable {s : State} {v : Byte}

theorem writeLcdc_turnsOn (h : s.ppu.lcdc.getLsbD 7 = false) (hv : v.getLsbD 7 = true) :
    s.writeLcdc v = (s.setPpu { s.ppu with lcdc := v }).restartFrame := by
  simp only [State.writeLcdc, Ppu.lcdOn, h, hv, Bool.not_true, Bool.not_false, Bool.and_self, Bool.false_eq_true, if_false,
    if_true]

theorem writeLcdc_turnsOff (h : s.ppu.lcdc.getLsbD 7 = true) (hv : v.getLsbD 7 = false) :
    s.writeLcdc v = { s with ppu := { s.ppu with lcdc := v, line := 0, lineCycle := 0, mode := .hblank } } := by
  simp only [State.writeLcdc, Ppu.lcdOn, h, hv, Bool.not_false, Bool.and_self, if_true]
  rfl

theorem writeLcdc_keeps (h : s.ppu.lcdc.getLsbD 7 = v.getLsbD 7) :
    s.writeLcdc v = { s with ppu := { s.ppu with lcdc := v } } := by
  simp only [State.writeLcdc, Ppu.lcdOn, h, Bool.and_not_self, Bool.not_and_self, Bool.false_eq_true, if_false]
  rfl

theorem writeLyc_compares (h : s.ppu.lcdc.getLsbD 7 = true) :
    s.writeLyc v = (s.setPpu { s.ppu with lyc := v }).compareLy := if_pos h

theorem writeLyc_of_lcdOff (h : s.ppu.lcdc.getLsbD 7 = false) :
    s.writeLyc v = { s with ppu := { s.ppu with lyc := v } } := if_neg (ne_true_of_eq_false h)

theorem writeLyc_ppu (s : State) (v : Byte) :
    (s.writeLyc v).ppu = { s.ppu with lyc := v, coincidence := (s.writeLyc v).ppu.coincidence } := by
  unfold State.writeLyc
  dsimp only
  split <;> rfl

end

/-- Settles O49: the cycles by the event of the position each reaches, the writes by whether the LCD is on. -/
theorem lineMachine : Obligations.LineMachine := by
  refine ⟨fun n s => ?run, fun s hon hinv => ?cycle, fun s v hw => ?ly, fun s v hw => ?lcdc, fun s v hw => ?lyc⟩
  case run =>
    refine ⟨ppuRun_of_lcdOff n, fun hon hl hc => ?_⟩
    obtain ⟨hpos, hcycle, hframes⟩ := ppuRun_position n hon hl hc
    exact ⟨hpos, hcycle, hframes, ppuRun_vblank n hon⟩
  case cycle =>
    intro t starts draws ends vblank compares ly
    obtain ⟨hline, hcycle, -⟩ := ppuCycle_position hon
    obtain ⟨hmode', -, hlen, hlcdc⟩ := ppuAdvance_rest s
    have hlen0 : 0 < s.ppuAdvance.ppu.mode3Len := by
      obtain ⟨-, -, -, h172, -⟩ := hinv
      omega
    have hstart := event_eq_start_iff s.ppuAdvance.ppu
    have hdraw := event_eq_draw_iff s.ppuAdvance.ppu
    have hend := event_eq_hblank_iff s.ppuAdvance.ppu hlen0
    have hvblank := event_eq_vblank_iff s.ppuAdvance.ppu
    have hwrap := event_eq_wrap_iff s.ppuAdvance.ppu
    have hly := lyVisible_of_lcdOn (hlcdc ▸ hon)
    have hcoincidence := ppuCycle_coincidence hon
    have hrequests := (ppuCycle_requests hon).congr Iff.rfl (ppuCycle_stat s)
    rw [← hline, ← hcycle] at hstart hdraw hend hvblank hwrap hly
    rw [hly, ← hcycle] at hcoincidence hrequests
    rw [hlen] at hend
    replace hstart : _ ↔ starts := hstart
    replace hdraw : _ ↔ draws := hdraw
    replace hend : _ ↔ ends := hend
    replace hvblank : _ ↔ vblank := hvblank
    have hcompares : t.ppu.lineCycle = 0 ∨ s.ppuAdvance.ppu.event = .wrap ↔ compares := or_congr_right hwrap
    have hmode := (ppuCycle_mode hon).trans (runEvent_mode _ _)
    refine ⟨fun h => ?_, fun h => ?_, fun h => ?_, fun h => ?_, fun h => ?_, fun h1 h2 h3 h4 => ?_, fun h => ?_, fun h => ?_,
      ?_, ?_, hrequests.rest⟩
    · exact ppuCycle_starts hon (hstart.2 h)
    · rwa [hdraw.2 h] at hmode
    · rwa [hend.2 h] at hmode
    · rwa [hvblank.2 h] at hmode
    · exact ppuCycle_selection hon (mt hstart.1 h)
    · cases he : s.ppuAdvance.ppu.event with
      | start => exact absurd (hstart.1 he) h1
      | draw => exact absurd (hdraw.1 he) h2
      | hblank => exact absurd (hend.1 he) h3
      | vblank => exact absurd (hvblank.1 he) h4
      | wrap | quiet =>
        rw [he] at hmode
        exact hmode.trans hmode'
    · rw [← decide_eq_true_iff (p := ly = _)]
      exact Bool.eq_iff_iff.1 (hcoincidence.trans (if_pos (hcompares.2 h)))
    · exact hcoincidence.trans (if_neg (mt hcompares.1 h))
    · rw [← hvblank]
      exact hrequests.vblank
    · rw [← hstart, ← hend, ← hvblank, ← hcompares]
      exact hrequests.stat
  case ly =>
    rw [busWrite_io (r := .ly) hw rfl]
    refine ⟨fun hon => ?_, writeLy_of_lcdOff⟩
    show Restarted s s.writeLy
    rw [writeLy_restarts hon]
    exact restartFrame_restarted s
  case lcdc =>
    rw [busWrite_io (r := .lcdc) hw rfl]
    refine ⟨fun hoff hv => ⟨writeLcdc_lcdc s v, ?_⟩, writeLcdc_turnsOff, writeLcdc_keeps⟩
    show Restarted s (s.writeLcdc v)
    rw [writeLcdc_turnsOn hoff hv]
    exact restartFrame_restarted (s.setPpu { s.ppu with lcdc := v })
  case lyc =>
    rw [busWrite_io (r := .lyc) hw rfl]
    refine ⟨writeLyc_ppu s v, fun hon => ?_, writeLyc_of_lcdOff⟩
    have hly := lyVisible_of_lcdOn (p := { s.ppu with lyc := v }) hon
    have hreq := compareLy_requests (s.setPpu { s.ppu with lyc := v })
    show ((s.writeLyc v).ppu.coincidence = true ↔ _) ∧ StatRequests s (s.writeLyc v) _
    rw [writeLyc_compares hon, ← hly]
    exact ⟨decide_eq_true_iff, hreq.statRequests⟩

end Sys2Proof.Machine
end
